-- ==== Sys2Proof/Word.lean ====
section
/-! DEFINITION. The word types of the part: bytes of the air and of exchange memory, 16-bit words, 32-bit counters. -/

namespace Sys2Proof

/-- A byte: the unit of a burst (R188) and half a word of exchange memory. -/
abbrev Byte := BitVec 8

/-- A word of exchange memory (spec/00_scope.md, "Words and byte order"). -/
abbrev Word := BitVec 16

/-- A 32-bit count that wraps: the age counter (R31) and the queue sequence counter (R71). -/
abbrev DWord := BitVec 32

end Sys2Proof
end

