-- ==== Sys2Proof/Config.lean ====
section
/-! DEFINITION. What the part fixes: table sizes, the limits of the site clock, and the two constants the spec leaves open. -/

namespace Sys2Proof.Config

/-- Truck table entries (R2). -/
abbrev trucks : Nat := 96
/-- Worker roster entries (R10). -/
abbrev workers : Nat := 192
/-- Order records (R71). -/
abbrev orders : Nat := 256
/-- Device entries (R118). -/
abbrev devices : Nat := 512
/-- Permit records (R132). -/
abbrev permits : Nat := 32
/-- Program records (R150). -/
abbrev programs : Nat := 16
/-- Request cards (R169). -/
abbrev cards : Nat := 64
/-- Notice slots (R169). -/
abbrev noticeSlots : Nat := 128
/-- Notices the hold list keeps (R179). -/
abbrev holdRoom : Nat := 16
/-- Pages of the text pool (R72). -/
abbrev pages : Nat := 1024
/-- Orders a delivery queue holds (R77). -/
abbrev queueRoom : Nat := 8
/-- Class B cells a control-cell list holds (R32). -/
abbrev classBRoom : Nat := 7
/-- Slots the planner gives, 1 to 25 (R56). -/
abbrev planSlots : Nat := 25
/-- The site clock stops here (R18). -/
abbrev clockMax : Nat := 4294967295

/-- The part code of IDENT (R171). -/
abbrev partCode : Word := 3190

/-- DESIGN CHOICE (log 9): the vendor code of IDENT, which R171 names and does not give; no proof can see its value. -/
opaque identVendor : Word

/-- DESIGN CHOICE (log 9): the revision of IDENT, which R171 names and does not give; no proof can see its value. -/
opaque identRevision : Word

end Sys2Proof.Config
end

