-- ==== Sys2Proof/Syntax.lean ====
section
/-! DEFINITION. The commands the part takes: one constructor for each row of spec/opcode_table.json. -/

namespace Sys2Proof

/-- What the modem reports for one slot in which the part asked it to receive (R22): nothing heard, or the bytes of a
burst with its RSSI in whole dBm as the modem measured it. -/
inductive SlotReport where
  | nothingHeard
  | received (bytes : List Byte) (rssi : Int)
deriving DecidableEq, Repr

/-- The commands. A card command names the card that the rack scan takes (R173, R175); a host write carries its place
and its value; an event that falls due names the record it falls due for. -/
inductive Instr where
  -- power and time
  | powerOn
  | siteSecond
  | roundBoundary
  | slotStart (slot : Fin 32)
  | headerComplete
  | noiseReport (dBm : Int)
  | modemReady
  | modemNotReady
  | upSlotReport (slot : Fin 32) (report : SlotReport)
  | openSlotReport (slot : Fin 32) (report : SlotReport)
  | deadlineReached (worker : Fin 192)
  | graceEndReached (worker : Fin 192)
  | quietEndReached
  -- the part's internal events
  | orderPostCopyComplete (card : Fin 64)
  | programLoadCopyComplete (card : Fin 64)
  | waitingGroupOffer (truck : Fin 96)
  | stepWaitTruckEnd (truck : Fin 96)
  | orderStallResume (truck : Fin 96)
  | permitClose (permit : Fin 32)
  | holdListRefill
  -- cards taken by the scan
  | truckAdd (card : Fin 64)
  | truckRemove (card : Fin 64)
  | truckPark (card : Fin 64)
  | truckUnpark (card : Fin 64)
  | workerAdd (card : Fin 64)
  | workerRemove (card : Fin 64)
  | board (card : Fin 64)
  | alight (card : Fin 64)
  | flagsClear (card : Fin 64)
  | siteSet (card : Fin 64)
  | quiet (card : Fin 64)
  | endQuiet (card : Fin 64)
  | orderPost (card : Fin 64)
  | orderWithdraw (card : Fin 64)
  | orderClear (card : Fin 64)
  | watchStart (card : Fin 64)
  | watchStop (card : Fin 64)
  | watchCheck (card : Fin 64)
  | alarmAck (card : Fin 64)
  | alarmResolve (card : Fin 64)
  | deviceAdd (card : Fin 64)
  | deviceRemove (card : Fin 64)
  | deviceReport (card : Fin 64)
  | permitDraft (card : Fin 64)
  | permitIssue (card : Fin 64)
  | permitResume (card : Fin 64)
  | permitCancel (card : Fin 64)
  | permitForceClose (card : Fin 64)
  | permitClear (card : Fin 64)
  | programLoad (card : Fin 64)
  | programStart (card : Fin 64)
  | stepRelease (card : Fin 64)
  | stepConfirm (card : Fin 64)
  | programHalt (card : Fin 64)
  | programResume (card : Fin 64)
  | programAbort (card : Fin 64)
  | programClear (card : Fin 64)
  | unknownKind (card : Fin 64)
  -- the scan and the registers
  | call (value : Word)
  | scanRestart
  | noticeEnable (on : Bool)
  | transmitEnable (on : Bool)
  | authority (on : Bool)
  | portReset (notice transmit authority : Bool)
  | clearMissed
  | clearWriteRefused
  | clearCardFault
  | clearPortResetDone
  | registerWriteDropped (value : Word)
  -- host writes to exchange memory
  | cardPost (card : Fin 64) (kind : Word) (request : List Word)
  | cardTakeBack (card : Fin 64)
  | cardEmpty (card : Fin 64)
  | cardFault (card : Fin 64) (word : Fin 8) (value : Word)
  | noticeSlotFree (slot : Fin 128)
  | writeRefused (offset : Fin 32768) (value : Word)
  | stagingBufferWrite (buffer : Fin 8) (word : Fin 512) (value : Word)
deriving DecidableEq, Repr

end Sys2Proof
end

