-- ==== Sys2Proof/Machine/State.lean ====
section
/-! DEFINITION. The state of the part as plain data: one field for each piece of state the spec gives it, owned block by
block, and the queue of the commands that wait. -/

namespace Sys2Proof.Machine

/-- A sparse table: index and record, indices rising, no record equal to the table's free record.
An index that is not listed holds the free record. -/
abbrev Table (α : Type) := List (Nat × α)

/-- Addressed bytes in the same form: a byte that is not listed reads 0 (R182). -/
abbrev Memory := List Host.Cell

/-! ### Trucks and crews (R2) -/

/-- R2: the five truck states. -/
inductive TruckState where
  | vacant | registered | onAir | silent | parked
deriving DecidableEq, Repr

/-- R2: the registry fields of a truck entry; the defaults are the vacant values. -/
structure Truck where
  radioId : Nat := 0
  callSign : List Byte := [0x20, 0x20, 0x20, 0x20, 0x20, 0x20, 0x20, 0x20]
  state : TruckState := .vacant
  stateBefore : TruckState := .registered
  linkNotice : Bool := false
  crew : List Nat := []
  lastHeard : Nat := 0
  more : Bool := false
  access : Bool := false
deriving DecidableEq, Repr

/-- R10: the registry fields of a roster entry, with the permit membership that Switching Control keeps there. -/
structure Worker where
  inUse : Bool := false
  badge : Nat := 0
  aboard : Option Nat := none
  membership : Option Nat := none
deriving DecidableEq, Repr

/-! ### Link grading (R39, R40) -/

/-- R39: grades. -/
inductive Grade where
  | settling | strong | fair | weak | lost
deriving DecidableEq, Repr

/-- R39: run direction. -/
inductive RunDir where
  | none | down | up
deriving DecidableEq, Repr

/-- R39: a truck's grading fields at their starting values. -/
structure Link where
  quality : Nat := 0
  grade : Grade := .settling
  settle : Nat := 0
  run : Nat := 0
  dir : RunDir := .none
  silent : Nat := 0
  clipped : Bool := false
deriving DecidableEq, Repr

/-- R40, R64: the grading and planning settings at their defaults. -/
structure Settings where
  weakDown : Nat := 120
  weakUp : Nat := 160
  fairDown : Nat := 200
  fairUp : Nat := 240
  lostCount : Nat := 5
  pollPeriod : Nat := 8
  probePeriod : Nat := 8
deriving DecidableEq, Repr

/-! ### Round planning (R54) -/

/-- R54: the planner's counters of a truck. -/
structure Counters where
  sinceUp : Nat := 0
  probe : Nat := 0
deriving DecidableEq, Repr

/-- R54: the last quiet end cause. -/
inductive QuietCause where
  | none | expired | endQuiet | alarmCell | prompt
deriving DecidableEq, Repr

/-! ### Cells (R27, R31, R189) -/

/-- R151: the action of a switching step. -/
inductive Action where
  | openIt | closeIt | tag | untag
deriving DecidableEq, Repr

/-- R118: device positions. -/
inductive Position where
  | opened | closed | unknown
deriving DecidableEq, Repr

/-- R139: the results a SIGN REPLY carries. -/
inductive SignResult where
  | ok | wrong | noSuch | notInRoster | notHolder | notMember | holder | notWatched | alarmOpen
  | onPermit | full | suspended | membersRemain | permitState
deriving DecidableEq, Repr

/-- R189: the results a STATUS REPLY carries. -/
inductive StatusResult where
  | notYours | permitOpen
deriving DecidableEq, Repr

/-- R31: the control cells, with their subject fields (external numbers). -/
inductive DownCell where
  | prompt (badge : Nat)
  | alarmSeenWorker (badge : Nat)
  | alarmSeenTruck (truck : Nat)
  | step (program step device : Nat) (action : Action) (permit : Nat)
  | readbackOk (program step : Nat)
  | readbackWrong (program step device : Nat) (action : Action) (permit : Nat)
  | stepCancel (program step : Nat)
  | permitIssue (permit badge count check : Nat)
  | points (permit : Nat) (places : List (Nat × Position))
  | signReply (permit badge : Nat) (result : SignResult)
  | orderWithdraw (order : Nat)
  | statusReply (order : Nat) (result : StatusResult)
deriving DecidableEq, Repr

/-- R80: the class C cells, as composed: ORDER NOTE and TEXT. -/
inductive OrderCell where
  | note (order priority blocks permit : Nat)
  | text (order block : Nat) (bytes : List Byte)
deriving DecidableEq, Repr

/-- R31: an entry of a control-cell list. -/
structure Entry where
  cell : DownCell
  age : DWord
  attempts : Nat := 0
  inFlight : Bool := false
  reported : Bool := false
deriving DecidableEq, Repr

/-- R31, R33: a truck's control-cell list and its queue of waiting groups. -/
structure CellList where
  cells : List Entry := []
  waiting : List (List DownCell) := []
deriving DecidableEq, Repr

/-- R27: the uplink cells of a known kind. -/
inductive UpCell where
  | idle
  | checkIn (badge : Nat)
  | panic (badge : Nat)
  | manDown (badge : Nat)
  | orderStatus (order code : Nat)
  | readback (program step device : Nat) (action : Action)
  | executed (program step : Nat)
  | unplanned (device : Nat) (position : Position)
  | acceptPermit (permit badge count check : Nat)
  | signOn (permit badge : Nat)
  | signOff (permit badge : Nat)
  | surrender (permit badge : Nat)
  | access
deriving DecidableEq, Repr

/-! ### The round (R19, R21, R35) -/

/-- R20: the direction of a planned slot. -/
inductive Dir where
  | down | up
deriving DecidableEq, Repr

/-- R35: a cell copied into the snapshot: a control cell, known by its age, or a cell of an order, known by record
index and cell number. -/
inductive Carried where
  | control (age : DWord) (cell : DownCell)
  | order (index number : Nat) (content : OrderCell)
deriving DecidableEq, Repr

/-- R35, R61: one of slots 1 to 25 as planned, with the snapshot's copies. `closes` says that an UP slot closes the
transaction of the DOWN before it; `handled` that its report has been taken. -/
structure PlanSlot where
  truck : Nat
  radioId : Nat
  rate : Nat
  dir : Dir
  cells : List Carried := []
  closes : Bool := false
  handled : Bool := false
deriving DecidableEq, Repr

/-- R19, R35: the running round: whether it is quiet, its slots from slot 1 on in order, whether its header is complete,
and the last slot that has begun. -/
structure Round where
  quiet : Bool := false
  slots : List PlanSlot := []
  headerDone : Bool := false
  slot : Nat := 0
deriving DecidableEq, Repr

/-- R20, R21, R22: what the part last gave the modem to do. -/
inductive ModemOut where
  | idle
  | header (bytes : List Byte)
  | burst (slot rate : Nat) (bytes : List Byte)
  | receive (slot rate : Nat)
deriving DecidableEq, Repr

/-! ### Work orders (R71) -/

/-- R71: priorities. -/
inductive Priority where
  | routine | urgent | emergency
deriving DecidableEq, Repr

/-- R71: order states. -/
inductive OrderState where
  | queued | sending | stalled | delivered | accepted | declined | enRoute | onSite | complete
  | withdrawing | withdrawn
deriving DecidableEq, Repr

/-- R71, R81: the delivery marks of one cell of an order. -/
structure CellMark where
  delivered : Bool := false
  inFlight : Bool := false
deriving DecidableEq, Repr

/-- R71: the permit link of an order. -/
structure PermitLink where
  index : Nat
  number : Nat
deriving DecidableEq, Repr

/-- R71: an order record; the defaults are the free values. Cells total is the length of `cells`. -/
structure Order where
  inUse : Bool := false
  number : Nat := 0
  truck : Nat := 0
  priority : Priority := .routine
  link : Option PermitLink := none
  length : Nat := 0
  pages : List Nat := []
  cells : List CellMark := []
  attempts : Nat := 0
  state : OrderState := .queued
  seq : DWord := 0
  timePosted : Nat := 0
  timeDelivered : Nat := 0
  timeStatus : Nat := 0
deriving DecidableEq, Repr

/-! ### Welfare watch (R96, R108) -/

/-- R96: watch modes. -/
inductive WatchMode where
  | off | continuous | singleAll | singleFail
deriving DecidableEq, Repr

/-- R96: watch states. -/
inductive WatchState where
  | off | watching | prompted | alarm | acknowledged
deriving DecidableEq, Repr

/-- R96, R151: the fate of a cell that a record follows. -/
inductive CellFate where
  | none | queued | delivered
deriving DecidableEq, Repr

/-- R96: alarm reasons. -/
inductive AlarmReason where
  | missedCheckIn | noContact | panic | manDown
deriving DecidableEq, Repr

/-- R96: the alarm record of a worker. -/
structure AlarmRecord where
  reason : AlarmReason
  raised : Nat
  via : Option Nat
  acknowledged : Nat := 0
  late : Bool := false
  repeats : Nat := 0
  seen : CellFate := .none
deriving DecidableEq, Repr

/-- R96: the watch fields of a roster entry at their power-on values. -/
structure Watch where
  mode : WatchMode := .off
  state : WatchState := .off
  interval : Nat := 1800
  grace : Nat := 300
  lastCheckIn : Nat := 0
  deadline : Nat := 0
  graceEnd : Nat := 0
  lastHeardVia : Option Nat := none
  prompt : CellFate := .none
  alarm : Option AlarmRecord := none
deriving DecidableEq, Repr

/-- R108: the truck alarm field while present; `acked` is its state ALARM ACKNOWLEDGED. -/
structure TruckAlarm where
  acked : Bool := false
  manDown : Bool
  badge : Nat
  raised : Nat
  acknowledged : Nat := 0
  repeats : Nat := 0
  seen : CellFate := .none
deriving DecidableEq, Repr

/-! ### Devices (R118) -/

/-- R118: device kinds. -/
inductive DeviceKind where
  | breaker | switch | isolator | fuse | earthSwitch
deriving DecidableEq, Repr

/-- R118, R119: position sources. -/
inductive Source where
  | added | report | crew | dispatch | stale
deriving DecidableEq, Repr

/-- R118: the outstanding-step field: a program index and a step number. -/
structure StepRef where
  program : Nat
  step : Nat
deriving DecidableEq, Repr

/-- R118: a device entry; the defaults are the free values. -/
structure Device where
  inUse : Bool := false
  id : Nat := 0
  kind : DeviceKind := .breaker
  position : Position := .unknown
  source : Source := .added
  time : Nat := 0
  tags : List Nat := []
  outstanding : Option StepRef := none
deriving DecidableEq, Repr

/-! ### Permits (R132) -/

/-- R132: permit states. -/
inductive PermitState where
  | draft | ready | issuing | issued | suspended | surrendered | cancelled | closed
deriving DecidableEq, Repr

/-- R132: the issue cells field. -/
inductive IssueCells where
  | none | waiting | queued | delivered
deriving DecidableEq, Repr

/-- R132: a point of an isolation list. -/
structure Point where
  device : Nat
  required : Position
deriving DecidableEq, Repr

/-- R132: a permit record; the defaults are the free values. Point positions count from 1. -/
structure Permit where
  inUse : Bool := false
  number : Nat := 0
  holder : Nat := 0
  points : List Point := []
  check : Nat := 0
  interval : Nat := 0
  state : PermitState := .draft
  members : List Nat := []
  alarmCauses : List Nat := []
  lostCauses : List Nat := []
  unplannedCauses : List Nat := []
  wrongReadbacks : Nat := 0
  issueCells : IssueCells := .none
  issueDelivered : Nat := 0
  issueTruck : Nat := 0
  tagsHeld : Nat := 0
  tagSteps : Nat := 0
  timeDrafted : Nat := 0
  timeIssued : Nat := 0
  timeChanged : Nat := 0
  timeClosed : Nat := 0
deriving DecidableEq, Repr

/-! ### Switching programs (R150, R151) -/

/-- R150: program modes. -/
inductive ProgramMode where
  | chained | stepped
deriving DecidableEq, Repr

/-- R150: program states. -/
inductive ProgramState where
  | empty | loaded | running | halting | halted | done | aborted
deriving DecidableEq, Repr

/-- R150: halt reasons. -/
inductive HaltReason where
  | none | operator | outOfOrder | deviceBusy | tagged | permitState | tagSetFull | suspended | guardFalse
  | readback | reset | permitClosed
deriving DecidableEq, Repr

/-- R151: refusal reasons of a step. -/
inductive StepReason where
  | none | outOfOrder | deviceBusy | tagged | permitState | tagSetFull | suspended | guardFalse | readback
deriving DecidableEq, Repr

/-- R151: step states. -/
inductive StepState where
  | pending | released | readBack | executed | confirmed | refused | skipped
deriving DecidableEq, Repr

/-- R151: pending detail. -/
inductive Pending where
  | none | truck | channel
deriving DecidableEq, Repr

/-- R151: confirm rules. -/
inductive ConfirmRule where
  | crew | dispatch | report
deriving DecidableEq, Repr

/-- R151: tag results. -/
inductive TagResult where
  | none | added | present | full | removed | absent
deriving DecidableEq, Repr

/-- R131: guard codes. -/
inductive Guard where
  | always | refOpen | refClosed | refKnown | refUntagged | refTagged | refOpenTagged | refClosedUntagged
deriving DecidableEq, Repr

/-- R151: a step record. -/
structure Step where
  device : Nat
  action : Action
  permit : Option Nat
  truck : Nat
  guard : Guard
  ref : Nat
  rule : ConfirmRule
  state : StepState := .pending
  pending : Pending := .none
  refusal : StepReason := .none
  instruction : CellFate := .none
  wrong : Nat := 0
  tagResult : TagResult := .none
  before : Bool := false
deriving DecidableEq, Repr

/-- R150: a program record; the defaults are the free values. The step count is the length of `steps`. `loadedAt`, the model's
own, is the age counter at the load: cells of an older age are not this program's (R162, log 26). -/
structure Program where
  number : Nat := 0
  mode : ProgramMode := .chained
  state : ProgramState := .empty
  steps : List Step := []
  next : Nat := 1
  halt : HaltReason := .none
  cancels : Nat := 0
  loadedAt : DWord := 0
  timeStarted : Nat := 0
  timeEnded : Nat := 0
deriving DecidableEq, Repr

/-! ### Exchange memory (R169 to R181) -/

/-- R186: the notice kinds, in code order within each class. -/
inductive NoticeKind where
  | workerAlarm | truckAlarm | lateCheckIn
  | permitSuspended | pointLost | unplannedOperation | tagViolation | programHalted | stepRefused
  | permitIssueFailed | permitForceClosed
  | stepState | programState | permitState | permitClosed | memberSignedOn | memberSignedOff
  | orderDelivered | orderStalled | orderStatus | orderWithdrawn | withdrawUnconfirmed
  | welfareCheckResult | deliveryTrouble
  | gradeChange | truckLost | truckBack | strayUnit | quietEnded | modemFault
deriving DecidableEq, Repr

/-- R178, R186: a notice. Fields a notice does not use hold 0. `item` is word 8 (order number or device id) and
`device` word 9; a stray radio id takes both. -/
structure Notice where
  kind : NoticeKind
  reason : Nat := 0
  raised : Nat := 0
  truck : Nat := 0
  worker : Nat := 0
  badge : Nat := 0
  item : Nat := 0
  device : Nat := 0
  permit : Nat := 0
  permitNumber : Nat := 0
  program : Nat := 0
  step : Nat := 0
  value : Int := 0
deriving DecidableEq, Repr

/-- R74: what an ORDER POST in copy reserves and will fill. -/
structure OrderJob where
  record : Nat
  number : Nat
  truck : Nat
  priority : Priority
  link : Option PermitLink
  length : Nat
  pages : List Nat
deriving DecidableEq, Repr

/-- R152: what a PROGRAM LOAD in copy reserves and will fill. -/
structure ProgramJob where
  record : Nat
  number : Nat
  mode : ProgramMode
  count : Nat
deriving DecidableEq, Repr

/-- R177: the owner's part of a staging copy. -/
inductive CopyJob where
  | order (job : OrderJob)
  | program (job : ProgramJob)
deriving DecidableEq, Repr

/-- R177: a staging copy in progress: the card it answers, its buffer, its length in words, and the words read so far. -/
structure Copy where
  card : Nat
  buffer : Nat
  total : Nat
  read : List Word := []
  job : CopyJob
deriving DecidableEq, Repr

/-- The state of the part. The defaults are the power-on values (R182 and the power-on clause of each rule named). -/
structure State where
  /-- R18: site clock, in site seconds. -/
  clock : Nat := 0
  /-- R19: round number. -/
  roundNumber : Word := 0
  /-- R20: site code. -/
  siteCode : Nat := 0
  /-- R22: modem link state READY. -/
  modemReady : Bool := false
  /-- R19, R35: the running round with its snapshot. -/
  round : Option Round := none
  /-- R21, R22: what the part last gave the modem to do. -/
  modemOut : ModemOut := .idle
  /-- R31: the counter that ages are drawn from. -/
  ageCounter : DWord := 0
  /-- R31, R33: control-cell lists and waiting queues, by truck index. -/
  lists : Table CellList := []
  /-- R39: grading fields, by truck index. -/
  links : Table Link := []
  /-- R39, R42: noise floor in dBm. -/
  noise : Int := -120
  /-- R39: site CLIPPED flag. -/
  siteClipped : Bool := false
  /-- R40, R64: settings. -/
  settings : Settings := {}
  /-- R54: class A pointer. -/
  pointerA : Nat := 95
  /-- R54: class B pointer. -/
  pointerB : Nat := 95
  /-- R54: class C pointer. -/
  pointerC : Nat := 95
  /-- R54: quiet state RUNNING. -/
  quiet : Bool := false
  /-- R54: quiet start. -/
  quietStart : Nat := 0
  /-- R54: quiet end. -/
  quietEnd : Nat := 0
  /-- R54: last quiet end cause. -/
  lastQuietCause : QuietCause := .none
  /-- R54: slots planned. -/
  slotsPlanned : Nat := 0
  /-- R54: planner counters, by truck index. -/
  counters : Table Counters := []
  /-- R2: truck table. -/
  trucks : Table Truck := []
  /-- R10: worker roster. -/
  workers : Table Worker := []
  /-- R16: last stray id. -/
  strayId : Nat := 0
  /-- R16: last stray time; 0 at power-on is a DESIGN CHOICE (log 17). -/
  strayTime : Nat := 0
  /-- R71: order table. -/
  orders : Table Order := []
  /-- R72: text pool, byte b of page p at 64p + b (DESIGN CHOICE of form, log 18). -/
  pool : Memory := []
  /-- R72: free page list. -/
  freePages : List Nat := List.range Config.pages
  /-- R71: queue sequence counter. -/
  orderSeq : DWord := 0
  /-- R77: delivery queues, by truck index. -/
  queues : Table (List Nat) := []
  /-- R96: watch fields, by worker index. -/
  watches : Table Watch := []
  /-- R108: truck alarm fields, by truck index. -/
  truckAlarms : Table (Option TruckAlarm) := []
  /-- R118: device table. -/
  devices : Table Device := []
  /-- R132: permit table. -/
  permits : Table Permit := []
  /-- R150: program table. -/
  programs : Table Program := []
  /-- R169: rack, notice board and staging buffers, as bytes: word w has its low byte at 2w and its high byte at 2w + 1. -/
  mem : Memory := []
  /-- R170: first publication complete. -/
  published : Bool := false
  /-- R170: what passages have added to each record's edition word since the first publication, by the record's offset. -/
  passages : Table Word := []
  /-- R179: hold list. -/
  hold : List Notice := []
  /-- R173: scan state: the scan position while SCANNING. -/
  scan : Option Nat := none
  /-- R173: CALL-pending. -/
  callPending : Bool := false
  /-- R177: staging copies in progress. -/
  copies : List Copy := []
  /-- R169: refused-write address. -/
  refusedWrite : Nat := 0
  /-- R171: STATUS.MISSED. -/
  missed : Bool := false
  /-- R171: STATUS.WRITE REFUSED. -/
  writeRefused : Bool := false
  /-- R171: STATUS.CARD FAULT. -/
  cardFault : Bool := false
  /-- R171: STATUS.PORT RESET DONE. -/
  portResetDone : Bool := false
  /-- R172: CONTROL.NOTICE ENABLE. -/
  noticeEnable : Bool := false
  /-- R172: CONTROL.TRANSMIT ENABLE. -/
  transmitEnable : Bool := false
  /-- R172: CONTROL.AUTHORITY. -/
  authority : Bool := false
  /-- The model's own: the commands that wait, first in first out. -/
  pending : List Instr := []
deriving DecidableEq, Repr

/-- Reasons for which the part stops. The spec gives it none: what it cannot take it refuses by an answer, a STATUS bit or a
dropped write, and goes on. So there is no constructor. -/
inductive Fault where
deriving DecidableEq, Repr

/-- Commands without a meaning. -/
inductive Refusal where
  /-- Raised by an arm of `exec` whose command has no meaning yet; safe, since nothing is claimed of that command.
  No arm raises it. -/
  | notModelled (mnemonic : String)
deriving DecidableEq, Repr

/-- The part right after power-on: every field at its power-on value, exchange memory all zero, the first publication
still to run (R170, R182). -/
def State.reset : State := {}

end Sys2Proof.Machine
end

