-- ==== Sys2Proof/Machine/Codes.lean ====
section
/-! DEFINITION. The codes of enumerated fields (R183: 0, 1, 2 and so on in the order in which the values are listed; R185, R186, R189
where they give others). -/

namespace Sys2Proof.Machine

def TruckState.code : TruckState → Nat
  | .vacant => 0 | .registered => 1 | .onAir => 2 | .silent => 3 | .parked => 4

/-- R183, R2: the state before park, coded in the order of its own list: REGISTERED, ON AIR, SILENT. -/
def TruckState.beforeCode : TruckState → Nat
  | .registered => 0 | .onAir => 1 | .silent => 2
  | .vacant => 0 | .parked => 0

def Grade.code : Grade → Nat
  | .settling => 0 | .strong => 1 | .fair => 2 | .weak => 3 | .lost => 4

def RunDir.code : RunDir → Nat
  | .none => 0 | .down => 1 | .up => 2

def QuietCause.code : QuietCause → Nat
  | .none => 0 | .expired => 1 | .endQuiet => 2 | .alarmCell => 3 | .prompt => 4

def Action.code : Action → Nat
  | .openIt => 0 | .closeIt => 1 | .tag => 2 | .untag => 3

def Action.ofCode : Nat → Option Action
  | 0 => some .openIt | 1 => some .closeIt | 2 => some .tag | 3 => some .untag | _ => none

def Position.code : Position → Nat
  | .opened => 0 | .closed => 1 | .unknown => 2

def Position.ofCode : Nat → Option Position
  | 0 => some .opened | 1 => some .closed | 2 => some .unknown | _ => none

def Source.code : Source → Nat
  | .added => 0 | .report => 1 | .crew => 2 | .dispatch => 3 | .stale => 4

def DeviceKind.code : DeviceKind → Nat
  | .breaker => 0 | .switch => 1 | .isolator => 2 | .fuse => 3 | .earthSwitch => 4

def DeviceKind.ofCode : Nat → Option DeviceKind
  | 0 => some .breaker | 1 => some .switch | 2 => some .isolator | 3 => some .fuse | 4 => some .earthSwitch | _ => none

/-- R139, R189: SIGN REPLY results. -/
def SignResult.code : SignResult → Nat
  | .ok => 0 | .wrong => 1 | .noSuch => 2 | .notInRoster => 3 | .notHolder => 4 | .notMember => 5 | .holder => 6
  | .notWatched => 7 | .alarmOpen => 8 | .onPermit => 9 | .full => 10 | .suspended => 11 | .membersRemain => 12
  | .permitState => 13

/-- R189: STATUS REPLY results. -/
def StatusResult.code : StatusResult → Nat
  | .notYours => 0 | .permitOpen => 1

def Priority.code : Priority → Nat
  | .routine => 0 | .urgent => 1 | .emergency => 2

def Priority.ofCode : Nat → Option Priority
  | 0 => some .routine | 1 => some .urgent | 2 => some .emergency | _ => none

def OrderState.code : OrderState → Nat
  | .queued => 0 | .sending => 1 | .stalled => 2 | .delivered => 3 | .accepted => 4 | .declined => 5 | .enRoute => 6
  | .onSite => 7 | .complete => 8 | .withdrawing => 9 | .withdrawn => 10

def WatchMode.code : WatchMode → Nat
  | .off => 0 | .continuous => 1 | .singleAll => 2 | .singleFail => 3

def WatchState.code : WatchState → Nat
  | .off => 0 | .watching => 1 | .prompted => 2 | .alarm => 3 | .acknowledged => 4

def CellFate.code : CellFate → Nat
  | .none => 0 | .queued => 1 | .delivered => 2

/-- The code of an alarm reason in the worker record (R187, R183). -/
def AlarmReason.code : AlarmReason → Nat
  | .missedCheckIn => 0 | .noContact => 1 | .panic => 2 | .manDown => 3

def PermitState.code : PermitState → Nat
  | .draft => 0 | .ready => 1 | .issuing => 2 | .issued => 3 | .suspended => 4 | .surrendered => 5 | .cancelled => 6
  | .closed => 7

def IssueCells.code : IssueCells → Nat
  | .none => 0 | .waiting => 1 | .queued => 2 | .delivered => 3

def ProgramMode.code : ProgramMode → Nat
  | .chained => 0 | .stepped => 1

def ProgramMode.ofCode : Nat → Option ProgramMode
  | 0 => some .chained | 1 => some .stepped | _ => none

def ProgramState.code : ProgramState → Nat
  | .empty => 0 | .loaded => 1 | .running => 2 | .halting => 3 | .halted => 4 | .done => 5 | .aborted => 6

def HaltReason.code : HaltReason → Nat
  | .none => 0 | .operator => 1 | .outOfOrder => 2 | .deviceBusy => 3 | .tagged => 4 | .permitState => 5
  | .tagSetFull => 6 | .suspended => 7 | .guardFalse => 8 | .readback => 9 | .reset => 10 | .permitClosed => 11

def StepReason.code : StepReason → Nat
  | .none => 0 | .outOfOrder => 1 | .deviceBusy => 2 | .tagged => 3 | .permitState => 4 | .tagSetFull => 5
  | .suspended => 6 | .guardFalse => 7 | .readback => 8

def StepState.code : StepState → Nat
  | .pending => 0 | .released => 1 | .readBack => 2 | .executed => 3 | .confirmed => 4 | .refused => 5 | .skipped => 6

def Pending.code : Pending → Nat
  | .none => 0 | .truck => 1 | .channel => 2

def ConfirmRule.code : ConfirmRule → Nat
  | .crew => 0 | .dispatch => 1 | .report => 2

def ConfirmRule.ofCode : Nat → Option ConfirmRule
  | 0 => some .crew | 1 => some .dispatch | 2 => some .report | _ => none

def TagResult.code : TagResult → Nat
  | .none => 0 | .added => 1 | .present => 2 | .full => 3 | .removed => 4 | .absent => 5

def Guard.code : Guard → Nat
  | .always => 0 | .refOpen => 1 | .refClosed => 2 | .refKnown => 3 | .refUntagged => 4 | .refTagged => 5
  | .refOpenTagged => 6 | .refClosedUntagged => 7

def Guard.ofCode : Nat → Option Guard
  | 0 => some .always | 1 => some .refOpen | 2 => some .refClosed | 3 => some .refKnown | 4 => some .refUntagged
  | 5 => some .refTagged | 6 => some .refOpenTagged | 7 => some .refClosedUntagged | _ => none

/-- R150, R151: the halt reason of the same name as a refusal reason. -/
def StepReason.toHalt : StepReason → HaltReason
  | .none => .none | .outOfOrder => .outOfOrder | .deviceBusy => .deviceBusy | .tagged => .tagged
  | .permitState => .permitState | .tagSetFull => .tagSetFull | .suspended => .suspended
  | .guardFalse => .guardFalse | .readback => .readback

/-- R189: downlink cell kind codes. -/
def DownCell.kind : DownCell → Nat
  | .prompt _ => 0x01 | .alarmSeenWorker _ => 0x02 | .alarmSeenTruck _ => 0x02
  | .step _ _ _ _ _ => 0x10 | .readbackOk _ _ => 0x11 | .readbackWrong _ _ _ _ _ => 0x12 | .stepCancel _ _ => 0x13
  | .permitIssue _ _ _ _ => 0x20 | .points _ _ => 0x21 | .signReply _ _ _ => 0x22
  | .orderWithdraw _ => 0x32 | .statusReply _ _ => 0x33

/-- R31: the cells of class A are PROMPT and ALARM SEEN. -/
def DownCell.isA : DownCell → Bool
  | .prompt _ => true | .alarmSeenWorker _ => true | .alarmSeenTruck _ => true
  | .step _ _ _ _ _ => false | .readbackOk _ _ => false | .readbackWrong _ _ _ _ _ => false
  | .stepCancel _ _ => false | .permitIssue _ _ _ _ => false | .points _ _ => false | .signReply _ _ _ => false
  | .orderWithdraw _ => false | .statusReply _ _ => false

/-- R186: notice kind codes, the class in the high nibble. -/
def NoticeKind.code : NoticeKind → Nat
  | .workerAlarm => 0x11 | .truckAlarm => 0x12 | .lateCheckIn => 0x13
  | .permitSuspended => 0x21 | .pointLost => 0x22 | .unplannedOperation => 0x23 | .tagViolation => 0x24
  | .programHalted => 0x25 | .stepRefused => 0x26 | .permitIssueFailed => 0x27 | .permitForceClosed => 0x28
  | .stepState => 0x31 | .programState => 0x32 | .permitState => 0x33 | .permitClosed => 0x34
  | .memberSignedOn => 0x35 | .memberSignedOff => 0x36 | .orderDelivered => 0x37 | .orderStalled => 0x38
  | .orderStatus => 0x39 | .orderWithdrawn => 0x3A | .withdrawUnconfirmed => 0x3B | .welfareCheckResult => 0x3C
  | .deliveryTrouble => 0x3D
  | .gradeChange => 0x41 | .truckLost => 0x42 | .truckBack => 0x43 | .strayUnit => 0x44 | .quietEnded => 0x45
  | .modemFault => 0x46

/-- R178, R186: the class of a notice, 1 ALARM to 4 LINK/SITE. -/
def NoticeKind.cls (k : NoticeKind) : Nat := k.code / 16

/-- R186: the reason codes of WORKER ALARM and LATE CHECK-IN. -/
def AlarmReason.noticeCode : AlarmReason → Nat
  | .missedCheckIn => 1 | .noContact => 2 | .panic => 3 | .manDown => 4

/-- R176, R185: answer codes. -/
inductive AnswerCode where
  | done | doneClamped | unknownKind | notAuthorised | badField | badCombination | noSuch | duplicate | noRoom
  | wrongState | abandoned
deriving DecidableEq, Repr

def AnswerCode.code : AnswerCode → Nat
  | .done => 0 | .doneClamped => 1 | .unknownKind => 2 | .notAuthorised => 3 | .badField => 4 | .badCombination => 5
  | .noSuch => 6 | .duplicate => 7 | .noRoom => 8 | .wrongState => 9 | .abandoned => 10

/-- R176, R185: the details of WRONG STATE. -/
inductive Detail where
  | crewAboard | openOrders | inProgram | tagged | onPermit | promptOpen | alarmOpen | watched | finished
  | stepExecuted | stepOutstanding | permitState | notReady
deriving DecidableEq, Repr

def Detail.code : Detail → Nat
  | .crewAboard => 1 | .openOrders => 2 | .inProgram => 3 | .tagged => 4 | .onPermit => 5 | .promptOpen => 6
  | .alarmOpen => 7 | .watched => 8 | .finished => 9 | .stepExecuted => 10 | .stepOutstanding => 11
  | .permitState => 12 | .notReady => 13

/-- R174, R185: the four states of a card. -/
inductive CardState where
  | empty | posted | taken | answered
deriving DecidableEq, Repr

def CardState.code : CardState → Word
  | .empty => 0 | .posted => 1 | .taken => 2 | .answered => 3

/-- R185: the card kinds. -/
inductive CardKind where
  | truckAdd | truckRemove | truckPark | truckUnpark | workerAdd | workerRemove | board | alight | flagsClear
  | siteSet | quiet | endQuiet
  | orderPost | orderWithdraw | orderClear
  | watchStart | watchStop | watchCheck | alarmAck | alarmResolve
  | deviceAdd | deviceRemove | deviceReport
  | permitDraft | permitIssue | permitResume | permitCancel | permitForceClose | permitClear
  | programLoad | programStart | stepRelease | stepConfirm | programHalt | programResume | programAbort | programClear
deriving DecidableEq, Repr

/-- R185: kind codes, the owner in the high byte and the place in the owner's list in the low byte. -/
def CardKind.code : CardKind → Word
  | .truckAdd => 0x0101 | .truckRemove => 0x0102 | .truckPark => 0x0103 | .truckUnpark => 0x0104
  | .workerAdd => 0x0105 | .workerRemove => 0x0106 | .board => 0x0107 | .alight => 0x0108 | .flagsClear => 0x0109
  | .siteSet => 0x0201 | .quiet => 0x0202 | .endQuiet => 0x0203
  | .orderPost => 0x0301 | .orderWithdraw => 0x0302 | .orderClear => 0x0303
  | .watchStart => 0x0401 | .watchStop => 0x0402 | .watchCheck => 0x0403 | .alarmAck => 0x0404
  | .alarmResolve => 0x0405
  | .deviceAdd => 0x0501 | .deviceRemove => 0x0502 | .deviceReport => 0x0503
  | .permitDraft => 0x0601 | .permitIssue => 0x0602 | .permitResume => 0x0603 | .permitCancel => 0x0604
  | .permitForceClose => 0x0605 | .permitClear => 0x0606
  | .programLoad => 0x0701 | .programStart => 0x0702 | .stepRelease => 0x0703 | .stepConfirm => 0x0704
  | .programHalt => 0x0705 | .programResume => 0x0706 | .programAbort => 0x0707 | .programClear => 0x0708

/-- R185: every card kind the part knows. -/
def cardKinds : List CardKind :=
  [.truckAdd, .truckRemove, .truckPark, .truckUnpark, .workerAdd, .workerRemove, .board, .alight, .flagsClear,
   .siteSet, .quiet, .endQuiet, .orderPost, .orderWithdraw, .orderClear,
   .watchStart, .watchStop, .watchCheck, .alarmAck, .alarmResolve, .deviceAdd, .deviceRemove, .deviceReport,
   .permitDraft, .permitIssue, .permitResume, .permitCancel, .permitForceClose, .permitClear,
   .programLoad, .programStart, .stepRelease, .stepConfirm, .programHalt, .programResume, .programAbort,
   .programClear]

/-- R175, R185: the part knows a kind code. -/
def knownKind (w : Word) : Bool := cardKinds.any fun k => decide (k.code = w)

end Sys2Proof.Machine
end

