-- ==== Sys2Proof/Machine/Table.lean ====
section
/-! DEFINITION. Sparse tables in one canonical form, and the exchange memory's words over addressed bytes. -/

namespace Sys2Proof.Machine

/-- The record at an index; an index not listed holds the free record `d`. -/
def tableGet {α : Type} (d : α) : Table α → Nat → α
  | [], _ => d
  | (j, a) :: rest, i => if j = i then a else tableGet d rest i

/-- A table without the entry of an index. -/
def tableErase {α : Type} (i : Nat) : Table α → Table α
  | [] => []
  | (j, a) :: rest => if j = i then tableErase i rest else (j, a) :: tableErase i rest

/-- A record put before the first entry of a higher index. -/
def tableInsert {α : Type} (i : Nat) (a : α) : Table α → Table α
  | [] => [(i, a)]
  | (j, b) :: rest => if i < j then (i, a) :: (j, b) :: rest else (j, b) :: tableInsert i a rest

/-- A table with the record at an index replaced; the free record removes the entry. -/
def tableSet {α : Type} [DecidableEq α] (d : α) (t : Table α) (i : Nat) (a : α) : Table α :=
  if a = d then tableErase i t else tableInsert i a (tableErase i t)

/-- A table with every record passed through `f`, records that become free left out. -/
def tableMap {α : Type} [DecidableEq α] (d : α) (f : α → α) (t : Table α) : Table α :=
  (t.map fun p => (p.1, f p.2)).filter fun p => !decide (p.2 = d)

/-- The indices listed. -/
def tableKeys {α : Type} (t : Table α) : List Nat := t.map (·.1)

/-- The index of the first record listed that satisfies `p`. -/
def tableFind {α : Type} (p : α → Bool) (t : Table α) : Option Nat := (t.find? fun e => p e.2).map (·.1)

/-- The canonical form: indices strictly rising, no free record listed. -/
def tableWf {α : Type} [DecidableEq α] (d : α) : Table α → Bool
  | [] => true
  | (i, a) :: rest => !decide (a = d) && rest.all (fun p => decide (i < p.1)) && tableWf d rest

/-- The canonical form of addressed bytes. -/
def Memory.wf (m : Memory) : Bool := tableWf 0 m

/-- The byte at a byte address (R182: 0 where nothing is listed). -/
def memByte (m : Memory) (a : Nat) : Byte := tableGet 0 m a

/-- A byte stored. -/
def memSetByte (m : Memory) (a : Nat) (b : Byte) : Memory := tableSet 0 m a b

/-- The word at a word offset, low byte at the lower address (spec/00_scope.md, "Words and byte order"). -/
def memWord (m : Memory) (w : Nat) : Word := memByte m (2 * w + 1) ++ memByte m (2 * w)

/-- The low byte of a word. -/
def lowByte (v : Word) : Byte := v.setWidth 8

/-- The high byte of a word. -/
def highByte (v : Word) : Byte := (v >>> 8).setWidth 8

/-- A word stored at a word offset. -/
def memSetWord (m : Memory) (w : Nat) (v : Word) : Memory :=
  memSetByte (memSetByte m (2 * w) (lowByte v)) (2 * w + 1) (highByte v)

/-- Words stored from a word offset on. -/
def memSetWords (m : Memory) (w : Nat) : List Word → Memory
  | [] => m
  | v :: rest => memSetWords (memSetWord m w v) (w + 1) rest

/-- Bytes stored from a byte address on. -/
def memSetBytes (m : Memory) (a : Nat) : List Byte → Memory
  | [] => m
  | b :: rest => memSetBytes (memSetByte m a b) (a + 1) rest

/-- A number as a word, modulo 65,536. -/
def toWord (n : Nat) : Word := BitVec.ofNat 16 n

/-- The low word of a 32-bit field (R183). -/
def lowWord (n : Nat) : Word := BitVec.ofNat 16 n

/-- The high word of a 32-bit field (R183). -/
def highWord (n : Nat) : Word := BitVec.ofNat 16 (n / 65536)

/-- Two byte fields sharing a word, the first named in the low byte (R183). -/
def packBytes (lo hi : Nat) : Word := BitVec.ofNat 16 (lo % 256 + 256 * (hi % 256))

/-- A 32-bit field: two words, the lower first (R183). -/
def dwordWords (n : Nat) : List Word := [lowWord n, highWord n]

end Sys2Proof.Machine
end

