-- ==== Sys2Proof/Machine/Flags.lean ====
section
/-! DEFINITION. Region offsets (R184) and the registers beside the exchange memory: IDENT, STATUS, CONTROL,
CALL and the notice line (R171 to R173). -/

namespace Sys2Proof.Machine

/-! ### Region offsets (R184) -/

def cardBase (c : Nat) : Nat := 64 * c
def slotBase (k : Nat) : Nat := 0x1000 + 16 * k
def stagingBase (b : Nat) : Nat := 0x1800 + 512 * b
def siteBase : Nat := 0x2800
def truckBase (t : Nat) : Nat := 0x2840 + 64 * t
def workerBase (w : Nat) : Nat := 0x4040 + 16 * w
def orderBase (i : Nat) : Nat := 0x4C40 + 16 * i
def deviceBase (d : Nat) : Nat := 0x5C40 + 8 * d
def permitBase (p : Nat) : Nat := 0x6C40 + 64 * p
def programBase (g : Nat) : Nat := 0x7440 + 128 * g
def unmappedBase : Nat := 0x7C40

/-! ### Raw words of rack, board and staging buffers -/

/-- A word of the rack, the board or a staging buffer. -/
def State.rawWord (s : State) (w : Nat) : Word := memWord s.mem w

/-- A word of the rack, the board or a staging buffer written. -/
def State.setRaw (s : State) (w : Nat) (v : Word) : State := { s with mem := memSetWord s.mem w v }

/-- R186: slot k is FILLED. -/
def State.slotFilled (s : State) (k : Nat) : Bool := decide (s.rawWord (slotBase k) ≠ 0)

/-- R178: the lowest-numbered EMPTY slot. -/
def State.emptySlot (s : State) : Option Nat := (List.range Config.noticeSlots).find? fun k => !s.slotFilled k

/-! ### STATUS (R171) -/

/-- NOTICE WAITING: set while any slot is FILLED. -/
def State.noticeWaiting (s : State) : Bool := (List.range Config.noticeSlots).any s.slotFilled

/-- SCANNING: set while a rack scan is running. -/
def State.scanning (s : State) : Bool := s.scan.isSome

/-- CHANNEL ON: set while rounds are running. -/
def State.channelOn (s : State) : Bool := s.round.isSome

/-- R172: the notice line, a level. -/
def State.noticeLine (s : State) : Bool :=
  s.noticeEnable && (s.noticeWaiting || s.missed || s.writeRefused || s.cardFault)

/-! ### CONTROL and CALL (R172, R173) -/

/-- R172: the four bits that a read of CONTROL gives. -/
structure Control where
  noticeEnable : Bool
  transmitEnable : Bool
  authority : Bool
  portReset : Bool
deriving DecidableEq, Repr

/-- R172: a read of CONTROL: the three bits held, and PORT RESET, which reads 0. -/
def State.readControl (s : State) : Control :=
  { noticeEnable := s.noticeEnable, transmitEnable := s.transmitEnable, authority := s.authority, portReset := false }

/-- R173: a read of CALL. -/
def State.readCall (_ : State) : Word := 0

/-- R171: the seven bits that a read of STATUS gives. -/
structure Status where
  noticeWaiting : Bool
  missed : Bool
  writeRefused : Bool
  cardFault : Bool
  scanning : Bool
  channelOn : Bool
  portResetDone : Bool
deriving DecidableEq, Repr

/-- R171: a read of STATUS. -/
def State.readStatus (s : State) : Status :=
  { noticeWaiting := s.noticeWaiting, missed := s.missed, writeRefused := s.writeRefused, cardFault := s.cardFault,
    scanning := s.scanning, channelOn := s.channelOn, portResetDone := s.portResetDone }

/-! ### IDENT (R171) -/

/-- The fields of IDENT; the spec gives no layout for them. -/
structure Ident where
  vendor : Word
  part : Word
  revision : Word
deriving DecidableEq, Repr

/-- IDENT, from power-on. -/
def identRegister : Ident := ⟨Config.identVendor, Config.partCode, Config.identRevision⟩

end Sys2Proof.Machine
end

