-- ==== Sys2Proof/Machine/Ops.lean ====
section
/-! DEFINITION. The named operations the commands share: table access, site seconds, notices and the hold list, the control-cell
lists, and the end of a quiet period. -/

namespace Sys2Proof.Machine

/-! ### Table access -/

def State.truck (s : State) (i : Nat) : Truck := tableGet {} s.trucks i
def State.link (s : State) (i : Nat) : Link := tableGet {} s.links i
def State.counter (s : State) (i : Nat) : Counters := tableGet {} s.counters i
def State.list (s : State) (i : Nat) : CellList := tableGet {} s.lists i
def State.queue (s : State) (i : Nat) : List Nat := tableGet [] s.queues i
def State.truckAlarm (s : State) (i : Nat) : Option TruckAlarm := tableGet none s.truckAlarms i
def State.worker (s : State) (i : Nat) : Worker := tableGet {} s.workers i
def State.watch (s : State) (i : Nat) : Watch := tableGet {} s.watches i
def State.order (s : State) (i : Nat) : Order := tableGet {} s.orders i
def State.device (s : State) (i : Nat) : Device := tableGet {} s.devices i
def State.permit (s : State) (i : Nat) : Permit := tableGet {} s.permits i
def State.program (s : State) (i : Nat) : Program := tableGet {} s.programs i

def State.setTruck (s : State) (i : Nat) (a : Truck) : State := { s with trucks := tableSet {} s.trucks i a }
def State.setLink (s : State) (i : Nat) (a : Link) : State := { s with links := tableSet {} s.links i a }
def State.setCounter (s : State) (i : Nat) (a : Counters) : State := { s with counters := tableSet {} s.counters i a }
def State.setList (s : State) (i : Nat) (a : CellList) : State := { s with lists := tableSet {} s.lists i a }
def State.setQueue (s : State) (i : Nat) (a : List Nat) : State := { s with queues := tableSet [] s.queues i a }
def State.setTruckAlarm (s : State) (i : Nat) (a : Option TruckAlarm) : State :=
  { s with truckAlarms := tableSet none s.truckAlarms i a }
def State.setWorker (s : State) (i : Nat) (a : Worker) : State := { s with workers := tableSet {} s.workers i a }
def State.setWatch (s : State) (i : Nat) (a : Watch) : State := { s with watches := tableSet {} s.watches i a }
def State.setOrder (s : State) (i : Nat) (a : Order) : State := { s with orders := tableSet {} s.orders i a }
def State.setDevice (s : State) (i : Nat) (a : Device) : State := { s with devices := tableSet {} s.devices i a }
def State.setPermit (s : State) (i : Nat) (a : Permit) : State := { s with permits := tableSet {} s.permits i a }
def State.setProgram (s : State) (i : Nat) (a : Program) : State := { s with programs := tableSet {} s.programs i a }

/-- The index of the non-VACANT truck entry that holds a radio id (R2). -/
def State.findTruck (s : State) (radio : Nat) : Option Nat :=
  tableFind (fun t => decide (t.state ≠ .vacant) && decide (t.radioId = radio)) s.trucks

/-- The index of the roster entry in use that holds a badge (R10). -/
def State.findWorker (s : State) (badge : Nat) : Option Nat :=
  tableFind (fun w => w.inUse && decide (w.badge = badge)) s.workers

/-- The index of the live order that holds a number (R71). -/
def State.findOrder (s : State) (number : Nat) : Option Nat :=
  tableFind (fun o => o.inUse && decide (o.number = number)) s.orders

/-- The index of the device entry in use that holds a device id (R118). -/
def State.findDevice (s : State) (id : Nat) : Option Nat :=
  tableFind (fun d => d.inUse && decide (d.id = id)) s.devices

/-- The index of the permit record in use that holds a number (R132). -/
def State.findPermit (s : State) (number : Nat) : Option Nat :=
  tableFind (fun p => p.inUse && decide (p.number = number)) s.permits

/-- The index of the program record not EMPTY that holds a number (R150). -/
def State.findProgram (s : State) (number : Nat) : Option Nat :=
  tableFind (fun g => decide (g.state ≠ .empty) && decide (g.number = number)) s.programs

/-- The lowest index below `n` that `free` accepts. -/
def lowestFree (n : Nat) (free : Nat → Bool) : Option Nat := (List.range n).find? free

/-! ### Site seconds -/

/-- A site second plus a duration, taken as the clock's maximum if the sum passes it (R65, R98, R101). -/
def satAdd (a b : Nat) : Nat := min (a + b) Config.clockMax

/-! ### Notices (R178, R179, R180, R186) -/

/-- R186: the words of a notice slot that holds a notice. -/
def noticeWords (n : Notice) : List Word :=
  [1, toWord n.kind.code, packBytes n.kind.cls n.reason, lowWord n.raised, highWord n.raised,
   toWord n.truck, toWord n.worker, toWord n.badge, toWord n.item, toWord n.device,
   toWord n.permit, toWord n.permitNumber, toWord n.program, toWord n.step,
   BitVec.ofInt 16 n.value, BitVec.ofInt 16 (n.value / 65536)]

/-- A notice written into slot k, which becomes FILLED. -/
def State.fillSlot (s : State) (k : Nat) (n : Notice) : State :=
  { s with mem := memSetWords s.mem (slotBase k) (noticeWords n) }

/-- R179: a notice put at its place in the hold list, by class and then by the order of raising. -/
def holdInsert (n : Notice) (l : List Notice) : List Notice :=
  l.takeWhile (fun m => decide (m.kind.cls ≤ n.kind.cls)) ++ n :: l.dropWhile (fun m => decide (m.kind.cls ≤ n.kind.cls))

/-- R179: the lowest class present, that is the largest class number held. -/
def lowestClass (l : List Notice) : Nat := l.foldl (fun c m => max c m.kind.cls) 0

/-- R179: the list without the youngest notice of class `c`. -/
def dropYoungest (c : Nat) (l : List Notice) : List Notice :=
  (l.reverse.eraseP fun m => decide (m.kind.cls = c)).reverse

/-- R179: a notice that finds no EMPTY slot joins the hold list, displaces a held notice of a lower class, or is dropped. -/
def State.holdNotice (s : State) (n : Notice) : State :=
  if s.hold.length < Config.holdRoom then { s with hold := holdInsert n s.hold }
  else if lowestClass s.hold ≤ n.kind.cls then { s with missed := true }
  else { s with hold := holdInsert n (dropYoungest (lowestClass s.hold) s.hold), missed := true }

/-- R178: a notice raised now: written into the lowest EMPTY slot, or given to the hold list. -/
def State.raise (s : State) (n : Notice) : State :=
  let n := { n with raised := s.clock }
  match s.emptySlot with
  | some k => s.fillSlot k n
  | none => s.holdNotice n

/-- R180: the head of the hold list, if any, written into slot k. -/
def State.refillSlot (s : State) (k : Nat) : State :=
  match s.hold with
  | [] => s
  | n :: rest => { s with hold := rest }.fillSlot k n

/-! ### Control-cell lists (R31 to R34) -/

/-- R31: of two ages, the older lies further back from the counter's present value, modulo 2^32. -/
def older (counter a b : DWord) : Bool := (counter - b).ult (counter - a)

/-- R31: entry `x` stands before entry `e`: class A before B, and within a class the older first. -/
def Entry.before (counter : DWord) (x e : Entry) : Bool :=
  (x.cell.isA && !e.cell.isA) || (x.cell.isA == e.cell.isA && older counter x.age e.age)

/-- R31, R32: an entry put at its place by class and age. -/
def insertEntry (counter : DWord) (e : Entry) (l : List Entry) : List Entry :=
  l.takeWhile (fun x => x.before counter e) ++ e :: l.dropWhile (fun x => x.before counter e)

/-- R32: a cell of the same kind and subject fields stands in the list or in a waiting group. -/
def CellList.present (l : CellList) (c : DownCell) : Bool :=
  l.cells.any (fun e => decide (e.cell = c)) || l.waiting.any (fun g => g.contains c)

/-- R31: the number of class B entries. -/
def CellList.countB (l : CellList) : Nat := l.cells.countP fun e => !e.cell.isA

/-- R31: the number of class A entries. -/
def CellList.countA (l : CellList) : Nat := l.cells.countP fun e => e.cell.isA

/-- R31, R32: a new entry with the counter's age, attempt count 0 and not in flight. -/
def State.addEntry (s : State) (t : Nat) (c : DownCell) : State :=
  let l := s.list t
  { s.setList t { l with cells := insertEntry s.ageCounter { cell := c, age := s.ageCounter } l.cells } with
    ageCounter := s.ageCounter + 1 }

/-- New entries, in order. -/
def State.addEntries (s : State) (t : Nat) (cs : List DownCell) : State := cs.foldl (fun s c => s.addEntry t c) s

/-- R32: a class A cell is added at once unless it is present. -/
def State.addClassA (s : State) (t : Nat) (c : DownCell) : State :=
  if (s.list t).present c then s else s.addEntry t c

/-- R32: a group of `n` class B cells can be added at once. -/
def CellList.roomFor (l : CellList) (n : Nat) : Bool := l.waiting.isEmpty && decide (l.countB + n ≤ Config.classBRoom)

/-- R32, R33: a group of class B cells is added at once, or waits; cells already present are left out. -/
def State.addGroup (s : State) (t : Nat) (cs : List DownCell) : State :=
  let l := s.list t
  let fresh := cs.filter fun c => !l.present c
  if fresh.isEmpty then s
  else if l.roomFor fresh.length then s.addEntries t fresh
  else s.setList t { l with waiting := l.waiting ++ [fresh] }

/-- R32, R33: whether `addGroup` would leave the group waiting. -/
def State.groupWaits (s : State) (t : Nat) (cs : List DownCell) : Bool :=
  let l := s.list t
  let fresh := cs.filter fun c => !l.present c
  !fresh.isEmpty && !l.roomFor fresh.length

/-- R34: class A entries taken out of a list. Only class A cells are named by `p`, so no class B room is freed. -/
def State.withdrawA (s : State) (t : Nat) (p : DownCell → Bool) : State :=
  let l := s.list t
  s.setList t { l with cells := l.cells.filter fun e => !p e.cell }

/-! ### Quiet periods (R67) -/

/-- R67: the first event of the table ends a RUNNING quiet period; later ones change nothing. The notice's subject
fields are those of `subject`. -/
def State.endQuietPeriod (s : State) (cause : QuietCause) (subject : Notice := { kind := .quietEnded }) : State :=
  if s.quiet then
    { s with quiet := false, lastQuietCause := cause }.raise
      { subject with reason := cause.code, value := (s.clock - s.quietStart : Nat) }
  else s

end Sys2Proof.Machine
end

