-- ==== Sys2Proof/Machine/Operands.lean ====
section
/-! DEFINITION. The operands of cards: request fields, their ranges and clamps (R175, R183, R185), the answer (R176), and the take of a
card by the rack scan (R173, R174). -/

namespace Sys2Proof.Machine

/-! ### Request fields -/

/-- The words of a card as the part copies them at the take (R175). -/
abbrev Req := Nat → Word

/-- A one-word field as a number. -/
def Req.num (r : Req) (w : Nat) : Nat := (r w).toNat

/-- R183: a radio id pair, the lower word first. -/
def Req.radio (r : Req) (w : Nat) : Nat := (r w).toNat + 65536 * (r (w + 1)).toNat

/-- The words of card c. -/
def State.card (s : State) (c : Nat) : Req := fun w => s.rawWord (cardBase c + w)

/-- Badges, order, device, permit and program numbers: 1 to 65,534. -/
def idOk (n : Nat) : Bool := decide (1 ≤ n) && decide (n ≤ 65534)

/-- Radio ids: 1 to 16,777,214; a pair with any of bits 24 to 31 set is out of range (R183). -/
def radioOk (n : Nat) : Bool := decide (1 ≤ n) && decide (n ≤ 16777214)

/-- A value clamped to the nearer end of a range (R175). -/
def clampTo (lo hi n : Nat) : Nat := max lo (min hi n)

/-- A value within a range. -/
def inRange (lo hi n : Nat) : Bool := decide (lo ≤ n) && decide (n ≤ hi)

/-! ### Answers (R176) -/

/-- R176: answer code, detail and values; values not given are 0. -/
structure Answer where
  code : AnswerCode
  detail : Nat := 0
  values : List Word := []
deriving DecidableEq, Repr

def Answer.ok (values : List Word := []) : Answer := ⟨.done, 0, values⟩
def Answer.badField (offset : Nat) : Answer := ⟨.badField, offset, []⟩
def Answer.badCombination (offset : Nat) : Answer := ⟨.badCombination, offset, []⟩
def Answer.noSuch (offset : Nat) : Answer := ⟨.noSuch, offset, []⟩
def Answer.duplicate (offset : Nat) : Answer := ⟨.duplicate, offset, []⟩
def Answer.noRoom (values : List Word := []) : Answer := ⟨.noRoom, 0, values⟩
def Answer.wrongState (d : Detail) (values : List Word := []) : Answer := ⟨.wrongState, d.code, values⟩

/-- R175, R176: DONE, or DONE CLAMPED with the offset of the first field clamped. -/
def Answer.doneOr (clamped : Option Nat) (values : List Word := []) : Answer :=
  match clamped with
  | none => ⟨.done, 0, values⟩
  | some off => ⟨.doneClamped, off, values⟩

/-- R175: the offset of the first field clamped, from a list of offset and whether that field was clamped. -/
def firstClamped (fields : List (Nat × Bool)) : Option Nat := (fields.find? fun f => f.2).map (·.1)

/-- What a card owner does at the take: the state it leaves, and its answer, or none while a staging copy runs (R176). -/
structure Take where
  state : State
  answer : Option Answer

/-- A card that fails a check changes nothing (R175). -/
def Take.refuse (s : State) (a : Answer) : Take := ⟨s, some a⟩

/-- A card taken and answered. -/
def Take.answered (s : State) (a : Answer) : Take := ⟨s, some a⟩

/-! ### Card words (R174, R176, R185) -/

/-- The state word of card c. -/
def State.cardStateWord (s : State) (c : Nat) : Word := s.rawWord (cardBase c)

/-- Card c is POSTED. -/
def State.cardPosted (s : State) (c : Nat) : Bool := decide (s.cardStateWord c = CardState.posted.code)

/-- Card c is TAKEN. -/
def State.cardTaken (s : State) (c : Nat) : Bool := decide (s.cardStateWord c = CardState.taken.code)

/-- The state word of card c written. -/
def State.setCardState (s : State) (c : Nat) (st : CardState) : State := s.setRaw (cardBase c) st.code

/-- R176: answer code, detail and four values written, then the state word ANSWERED. -/
def State.answerCard (s : State) (c : Nat) (a : Answer) : State :=
  let words := [toWord a.code.code, toWord a.detail] ++ (a.values ++ [0, 0, 0, 0]).take 4
  { s with mem := memSetWord (memSetWords s.mem (cardBase c + 2) words) (cardBase c) CardState.answered.code }

/-! ### The rack scan (R173) -/

/-- R170, R173: the first publication completes; a pending CALL then starts a scan at position 0. -/
def State.firstPublication (s : State) : State :=
  if s.callPending then { s with published := true, scan := some 0, callPending := false }
  else { s with published := true }

/-- R173: the scan ends after card 63: a pending CALL starts a new one at position 0. -/
def State.scanEnd (s : State) : State :=
  if s.callPending then { s with scan := some 0, callPending := false } else { s with scan := none }

/-- R173: the scan moves on from card c. -/
def State.scanAdvance (s : State) (c : Nat) : State :=
  if c + 1 < Config.cards then { s with scan := some (c + 1) } else s.scanEnd

/-- No card from index `a` up to but not including `b` is POSTED. -/
def State.nonePosted (s : State) (a b : Nat) : Bool :=
  (List.range Config.cards).all fun c => !(decide (a ≤ c) && decide (c < b) && s.cardPosted c)

/-- R170, R173: a CALL that waits for the first publication gets its scan when publication ends. -/
def State.scanReady (s : State) : State := if !s.published && s.callPending then s.firstPublication else s

/-- R173: the state in which the scan stands at card c, having passed over the cards before it that are not POSTED;
a scan that has passed c reaches it again only by ending with a CALL pending. None when the scan cannot be at c next. -/
def State.scanReach (s : State) (c : Nat) : Option State :=
  let s := s.scanReady
  match s.scan with
  | none => none
  | some p =>
    if decide (p ≤ c) && s.nonePosted p c then some { s with scan := some c }
    else if s.callPending && decide (c < p) && s.nonePosted p Config.cards && s.nonePosted 0 c then
      some { s with scan := some c, callPending := false }
    else none

/-- R174, R176: a card answered at its take, or left TAKEN while its staging copy runs; the scan then moves on. -/
def Take.finish (t : Take) (c : Nat) : State :=
  (match t.answer with
   | some a => t.state.answerCard c a
   | none => t.state.setCardState c .taken).scanAdvance c

/-- R173, R175: the take of card c by the scan, for a card that is POSTED and that `kind` accepts; its owner's checks and
act are `owner`. Nothing happens when the scan is not at such a card (log 3). -/
def State.takeWhen (s : State) (c : Nat) (kind : Word → Bool) (owner : Req → State → Take) : State :=
  match s.scanReach c with
  | none => s
  | some s1 => if s1.cardPosted c && kind (s1.card c 1) then (owner (s1.card c) s1).finish c else s

/-- The take of card c as a card of one kind. -/
def State.takeAs (s : State) (k : CardKind) (c : Nat) (owner : Req → State → Take) : State :=
  s.takeWhen c (fun w => decide (w = k.code)) owner

/-- The records that a rule republishes in any case when a card of kind `k` is taken and not refused: `recs`, of the card's
words and the state in which the owner finds it. -/
def State.takeForces (s : State) (k : CardKind) (c : Nat) (owner : Req → State → Take)
    (recs : Req → State → List Nat) : List Nat :=
  match s.scanReach c with
  | none => []
  | some s1 =>
    if s1.cardPosted c && decide (s1.card c 1 = k.code) then
      match (owner (s1.card c) s1).answer with
      | some a => if a.code = .done ∨ a.code = .doneClamped then recs (s1.card c) s1 else []
      | none => []
    else []

/-- R175: AUTHORITY is read at the take of an override card, before its fields. -/
def needAuthority (owner : Req → State → Take) (r : Req) (s : State) : Take :=
  if s.authority then owner r s else .refuse s ⟨.notAuthorised, 0, []⟩

end Sys2Proof.Machine
end

