-- ==== Sys2Proof/Machine/Release.lean ====
section
/-! DEFINITION. Steps and their release: guards (R131), the interlock and the release checks (R155), release (R157) and refusal. -/

namespace Sys2Proof.Machine

/-! ### Steps -/

/-- Step k of a program, counting from 1. -/
def Program.step (g : Program) (k : Nat) : Option Step := if k = 0 then none else g.steps[k - 1]?

/-- Step k of a program changed. -/
def Program.updStep (g : Program) (k : Nat) (f : Step → Step) : Program :=
  if k = 0 then g else { g with steps := g.steps.modify (k - 1) f }

/-- Step k of program g changed. -/
def State.updStep (s : State) (g k : Nat) (f : Step → Step) : State := s.setProgram g ((s.program g).updStep k f)

/-- Program g changed. -/
def State.updProgram (s : State) (g : Nat) (f : Program → Program) : State := s.setProgram g (f (s.program g))

/-- Permit p changed. -/
def State.updPermit (s : State) (p : Nat) (f : Permit → Permit) : State := s.setPermit p (f (s.permit p))

/-- Device d changed. -/
def State.updDevice (s : State) (d : Nat) (f : Device → Device) : State := s.setDevice d (f (s.device d))

/-- A step is outstanding while it is RELEASED, READ BACK or EXECUTED (spec/09, after the state table). -/
def StepState.outstanding : StepState → Bool
  | .released => true | .readBack => true | .executed => true
  | .pending => false | .confirmed => false | .refused => false | .skipped => false

/-- A step is at its end when it is CONFIRMED or SKIPPED (R150). -/
def StepState.finished : StepState → Bool
  | .confirmed => true | .skipped => true
  | .pending => false | .released => false | .readBack => false | .executed => false | .refused => false

/-- A program has an outstanding step. -/
def Program.hasOutstanding (g : Program) : Bool := g.steps.any fun st => st.state.outstanding

/-- R150: the lowest-numbered step neither CONFIRMED nor SKIPPED, or step count + 1. -/
def Program.firstOpen (g : Program) : Nat := (g.steps.takeWhile fun st => st.state.finished).length + 1

/-- R151: the target position of an OPEN or CLOSE step. -/
def Action.target : Action → Option Position
  | .openIt => some .opened | .closeIt => some .closed | .tag => none | .untag => none

/-- The permit number a STEP cell carries, or 0 (R157). -/
def State.stepPermitNumber (s : State) (st : Step) : Nat :=
  match st.permit with
  | some p => (s.permit p).number
  | none => 0

/-- R157: the STEP cell of step k. -/
def State.stepCell (s : State) (g k : Nat) (st : Step) : DownCell :=
  .step (s.program g).number k (s.device st.device).id st.action (s.stepPermitNumber st)

/-- A notice about a step: program and step numbers, device index and id. -/
def State.stepNotice (s : State) (kind : NoticeKind) (g k : Nat) (st : Step) (reason : Nat) : Notice :=
  { kind, reason, program := (s.program g).number, step := k, device := st.device, item := (s.device st.device).id }

/-- PROGRAM HALTED: program number, next step, halt reason. -/
def State.raiseHalted (s : State) (g : Nat) : State :=
  s.raise { kind := .programHalted, reason := (s.program g).halt.code, program := (s.program g).number,
            step := (s.program g).next }

/-- PROGRAM STATE: program number and state. -/
def State.raiseProgramState (s : State) (g : Nat) : State :=
  s.raise { kind := .programState, reason := (s.program g).state.code, program := (s.program g).number }

/-! ### Guards (R131) -/

/-- R119: a position is known when it is OPEN or CLOSED and its source is other than STALE. -/
def Device.known (d : Device) : Bool := decide (d.position ≠ .unknown) && decide (d.source ≠ .stale)

/-- R131: the guard on the reference device's entry. -/
def Guard.holds (g : Guard) (d : Device) : Bool :=
  match g with
  | .always => true
  | .refOpen => decide (d.position = .opened)
  | .refClosed => decide (d.position = .closed)
  | .refKnown => d.known
  | .refUntagged => d.tags.isEmpty
  | .refTagged => !d.tags.isEmpty
  | .refOpenTagged => decide (d.position = .opened) && !d.tags.isEmpty
  | .refClosedUntagged => decide (d.position = .closed) && d.tags.isEmpty

/-! ### Release checks (R155) -/

/-- R155 check 4: the reason for which the interlock fails, if it does. -/
def State.interlock (s : State) (st : Step) : Option StepReason :=
  let tags := (s.device st.device).tags
  match st.action with
  | .openIt => if tags.isEmpty then none else some .tagged
  | .closeIt => if tags.isEmpty then none else some .tagged
  | .tag =>
    match st.permit.map fun p => (s.permit p).state with
    | some .draft => if tags.length < 4 then none else some .tagSetFull
    | some .ready => if tags.length < 4 then none else some .tagSetFull
    | _ => some .permitState
  | .untag =>
    match st.permit.map fun p => (s.permit p).state with
    | some .surrendered => none
    | some .cancelled => none
    | some .suspended => some .suspended
    | _ => some .permitState

/-- R155: what checks 1 to 6 say of step k of program g. -/
inductive Verdict where
  | pass
  | notRunning
  | outOfOrder
  | fail (reason : StepReason)
  | noTruck
deriving DecidableEq, Repr

/-- R155: checks 1 to 6, in order, the first failure deciding. -/
def State.releaseVerdict (s : State) (g k : Nat) (st : Step) : Verdict :=
  if (s.program g).state ≠ .running then .notRunning
  else if k ≠ (s.program g).next then .outOfOrder
  else if (s.device st.device).outstanding.isSome then .fail .deviceBusy
  else match s.interlock st with
    | some r => .fail r
    | none =>
      if !st.guard.holds (s.device st.ref) then .fail .guardFalse
      else if (s.truck st.truck).state ≠ .onAir then .noTruck
      else .pass

/-! ### Release and refusal (R155, R157) -/

/-- R157: step k of program g is released: the step, its device's outstanding-step field, a TAG step's permit count, the
STEP cell in the truck's list, and STEP STATE. -/
def State.releaseStep (s : State) (g k : Nat) (st : Step) : State :=
  let s := s.updStep g k fun x =>
    { x with state := .released, pending := .none, refusal := .none, wrong := 0, instruction := .queued }
  let s := s.updDevice st.device fun d => { d with outstanding := some ⟨g, k⟩ }
  let s := match st.action, st.permit with
    | .tag, some p => s.updPermit p fun x => { x with tagSteps := x.tagSteps + 1 }
    | _, _ => s
  let cell := s.stepCell g k st
  let s := if (s.list st.truck).present cell then s else s.addEntry st.truck cell
  s.raise (s.stepNotice .stepState g k st StepState.released.code)

/-- R155: a failure at check 3, 4 or 5: the step REFUSED, the program HALTED with the same reason, STEP REFUSED and
PROGRAM HALTED raised. -/
def State.refuseStep (s : State) (g k : Nat) (st : Step) (r : StepReason) : State :=
  let s := s.updStep g k fun x => { x with state := .refused, refusal := r, pending := .none }
  let s := s.updProgram g fun x => { x with state := .halted, halt := r.toHalt }
  let s := s.raise (s.stepNotice .stepRefused g k st r.code)
  s.raiseHalted g

/-- R155: a failure at check 2: the step stays PENDING with refusal reason OUT OF ORDER; the program becomes HALTING while
a step of it is outstanding, and HALTED otherwise. -/
def State.refuseOrder (s : State) (g k : Nat) (st : Step) : State :=
  let s := s.updStep g k fun x => { x with refusal := .outOfOrder, pending := .none }
  let busy := (s.program g).hasOutstanding
  let s := s.updProgram g fun x => { x with state := if busy then .halting else .halted, halt := .outOfOrder }
  let s := s.raise (s.stepNotice .stepRefused g k st StepReason.outOfOrder.code)
  if busy then s else s.raiseHalted g

/-- A waiting group is the STEP cell of the program of this number. -/
def isStepOf (number : Nat) : DownCell → Bool
  | .step p _ _ _ _ => decide (p = number)
  | _ => false

/-- R163: the waits of a program's steps are ended: its STEP groups leave the waiting queues and the details become
NONE. The room this frees at a queue's head is offered by `endWaits`. -/
def State.dropWaits (s : State) (g : Nat) : State :=
  let number := (s.program g).number
  let s := { s with lists := tableMap {} (fun l =>
    { l with waiting := l.waiting.filter fun grp => !grp.any (isStepOf number) }) s.lists }
  s.updProgram g fun x => { x with steps := x.steps.map fun st => { st with pending := .none } }

end Sys2Proof.Machine
end

