-- ==== Sys2Proof/Machine/Offers.lean ====
section
/-! DEFINITION. Class B room handed out first come, first served (R33, R156), withdrawals (R34), and the ends of waits (R163). -/

namespace Sys2Proof.Machine

/-- The step of truck t that a waiting group is the STEP cell of (R156). -/
def State.stepOfGroup (s : State) (t : Nat) : List DownCell → Option (Nat × Nat × Step)
  | [.step number k _ _ _] =>
    match s.findProgram number with
    | some g => (((s.program g).step k).filter fun st => decide (st.truck = t)).map fun st => (g, k, st)
    | none => none
  | _ => none

/-- R138: an issue group added from the waiting queue: issue cells goes from WAITING to QUEUED. -/
def State.groupAdded (s : State) : List DownCell → State
  | .permitIssue number _ _ _ :: _ =>
    match s.findPermit number with
    | some p => s.updPermit p fun x => if x.issueCells = .waiting then { x with issueCells := .queued } else x
    | none => s
  | _ => s

/-- R156: the outcome of an offer to the STEP group of step k of program g, which has left the queue: the step is
released, or goes on as the failed check says. -/
def State.offerStep (s : State) (g k : Nat) (st : Step) : State :=
  match s.releaseVerdict g k st with
  | .pass => s.releaseStep g k st
  | .notRunning => s.updStep g k fun x => { x with pending := .none }
  | .noTruck => s.updStep g k fun x => { x with pending := .truck }
  | .outOfOrder => (s.refuseOrder g k st).dropWaits g
  | .fail r => (s.refuseStep g k st r).dropWaits g

/-- R33: the room of truck t's list offered to the head group, and passed on; `n` bounds the groups visited. The room is tested
first: a head STEP group that does not fit has no check of R156 run (DEDUCED, log 12). -/
def State.offerLoop : Nat → State → Nat → State
  | 0, s, _ => s
  | n + 1, s, t =>
    let l := s.list t
    match l.waiting with
    | [] => s
    | grp :: rest =>
      if l.countB + grp.length ≤ Config.classBRoom then
        let s1 := s.setList t { l with waiting := rest }
        match s1.stepOfGroup t grp with
        | some (g, k, st) => State.offerLoop n (s1.offerStep g k st) t
        | none => State.offerLoop n ((s1.addEntries t grp).groupAdded grp) t
      else s

/-- R33: the freed room of truck t's list is offered to its waiting groups in first-come order. -/
def State.offer (s : State) (t : Nat) : State := State.offerLoop (s.list t).waiting.length s t

/-- R33: the head of truck t's waiting queue is a group that `p` names. -/
def CellList.headMatches (l : CellList) (p : DownCell → Bool) : Bool :=
  match l.waiting with
  | [] => false
  | grp :: _ => grp.any p

/-- R34 without the offer: the entries that `p` names leave the list and the groups that hold one leave the queue. -/
def State.removeCells (s : State) (t : Nat) (p : DownCell → Bool) : State :=
  let l := s.list t
  s.setList t { cells := l.cells.filter (fun e => !p e.cell), waiting := l.waiting.filter fun grp => !grp.any p }

/-- R33, R34: class B cells withdrawn, in the list or waiting; room freed in the list, or a head group that leaves the
queue, gives an offer. -/
def State.withdrawB (s : State) (t : Nat) (p : DownCell → Bool) : State :=
  let l := s.list t
  let freed := l.cells.any (fun e => p e.cell && !e.cell.isA) || l.headMatches p
  let s := s.removeCells t p
  if freed then s.offer t else s

/-- R163: the waits of a program's steps are ended; a queue whose head group leaves is offered its room. -/
def State.endWaits (s : State) (g : Nat) : State :=
  let number := (s.program g).number
  let heads := (tableKeys s.lists).filter fun t => (s.list t).headMatches (isStepOf number)
  heads.foldl (fun s t => s.offer t) (s.dropWaits g)

/-- R155: a release attempt of step k of program g: the checks in order, then release, refusal or a wait. DESIGN CHOICE: a failed
check raises its notices before the program's waits are ended and their room is offered; the rules give no order (log 31). -/
def State.attempt (s : State) (g k : Nat) : State :=
  match (s.program g).step k with
  | none => s
  | some st =>
    match s.releaseVerdict g k st with
    | .notRunning => s
    | .outOfOrder => (s.refuseOrder g k st).endWaits g
    | .fail r => (s.refuseStep g k st r).endWaits g
    | .noTruck => s.updStep g k fun x => { x with pending := .truck }
    | .pass =>
      let cell := s.stepCell g k st
      if s.groupWaits st.truck [cell] then
        (s.addGroup st.truck [cell]).updStep g k fun x => { x with pending := .channel }
      else s.releaseStep g k st

/-- R156: truck t has come ON AIR or is unparked: the steps that wait on it with detail TRUCK are attempted again, in
ascending program index; a step of a program no longer RUNNING loses its detail. -/
def State.truckAvailable (s : State) (t : Nat) : State :=
  (List.range Config.programs).foldl (fun s g =>
    (List.range (s.program g).steps.length).foldl (fun s i =>
      match (s.program g).step (i + 1) with
      | none => s
      | some st =>
        if st.state = .pending ∧ st.pending = .truck ∧ st.truck = t then
          if (s.program g).state = .running then s.attempt g (i + 1)
          else s.updStep g (i + 1) fun x => { x with pending := .none }
        else s) s) s

end Sys2Proof.Machine
end

