-- ==== Sys2Proof/Machine/PermitOps.lean ====
section
/-! DEFINITION. Operations of the permit table that device events, alarms and programs share: the ready condition and its
re-evaluation (R134, R135), issue cells (R138), suspension by an alarm (R144), closing (R147), and tags (R129, R130, R125). -/

namespace Sys2Proof.Machine

/-- A notice about permit p: index and number. -/
def State.permitNotice (s : State) (kind : NoticeKind) (p : Nat) (reason : Nat := 0) : Notice :=
  { kind, reason, permit := p, permitNumber := (s.permit p).number }

/-- PERMIT STATE raised with the permit's state as reason. -/
def State.raisePermitState (s : State) (p : Nat) : State :=
  s.raise (s.permitNotice .permitState p (s.permit p).state.code)

/-- R132: the permit's state set, with the time of last state change now. -/
def State.setPermitState (s : State) (p : Nat) (st : PermitState) : State :=
  s.updPermit p fun x => { x with state := st, timeChanged := s.clock }

/-! ### The ready condition (R134) -/

/-- R134: a point of permit p is in place. -/
def State.pointInPlace (s : State) (p : Nat) (pt : Point) : Bool :=
  let d := s.device pt.device
  decide (d.position = pt.required) && d.known && d.tags.contains p

/-- R134: the ready condition of permit p. -/
def State.permitReady (s : State) (p : Nat) : Bool := (s.permit p).points.all (s.pointInPlace p)

/-- The position, from 1, of the point that names a device. -/
def Permit.pointPosition (x : Permit) (d : Nat) : Nat := (x.points.takeWhile fun pt => decide (pt.device ≠ d)).length + 1

/-! ### Issue cells (R136, R138) -/

/-- R136, R138: the issue cells of the permit of this number. -/
def isIssueCell (number : Nat) : DownCell → Bool
  | .permitIssue p _ _ _ => decide (p = number)
  | .points p _ => decide (p = number)
  | _ => false

/-- R138: issue cells still in the list or waiting are withdrawn and the field becomes NONE; a withdrawal of cells already
delivered has no effect (DEDUCED, log 14). -/
def State.withdrawIssue (s : State) (p : Nat) : State :=
  let x := s.permit p
  if x.issueCells = .queued ∨ x.issueCells = .waiting then
    let s := s.updPermit p fun x => { x with issueCells := .none, issueDelivered := 0 }
    s.withdrawB x.issueTruck (isIssueCell x.number)
  else s

/-! ### Re-evaluation (R135) -/

/-- R125: the cause a device event gives the permits it reaches. -/
inductive PointCause where
  | pointLost | unplanned
deriving DecidableEq, Repr

/-- R186: the reason code of a point cause, in POINT LOST and in PERMIT SUSPENDED. -/
def PointCause.code : PointCause → Nat
  | .pointLost => 1 | .unplanned => 2

/-- R132: the cause set holds the point's entry under this cause. -/
def Permit.hasCause (x : Permit) (c : PointCause) (k : Nat) : Bool :=
  match c with
  | .pointLost => x.lostCauses.contains k
  | .unplanned => x.unplannedCauses.contains k

/-- R132: an entry joins the cause set once. -/
def Permit.addCause (x : Permit) (c : PointCause) (k : Nat) : Permit :=
  if x.hasCause c k then x
  else match c with
    | .pointLost => { x with lostCauses := x.lostCauses ++ [k] }
    | .unplanned => { x with unplannedCauses := x.unplannedCauses ++ [k] }

/-- R135: the fields of POINT LOST and PERMIT SUSPENDED for a device event. -/
def State.pointNotice (s : State) (kind : NoticeKind) (p d : Nat) (c : PointCause) : Notice :=
  { s.permitNotice kind p c.code with
    device := d, item := (s.device d).id, step := (s.permit p).pointPosition d }

/-- R135: the point of the event's device is on the list and not in place. -/
def State.pointOut (s : State) (p d : Nat) : Bool :=
  (s.permit p).points.any fun pt => decide (pt.device = d) && !s.pointInPlace p pt

/-- R135: what a permit does at a device event, by its state and its ready condition after the event. A cause that joins a
permit already SUSPENDED leaves the time of last state change as it stands (DEDUCED, log 29). -/
def State.permitEvent (s : State) (p d : Nat) (c : PointCause) : State :=
  let x := s.permit p
  match x.state, s.permitReady p with
  | .draft, true => (s.setPermitState p .ready).raisePermitState p
  | .ready, false => (s.setPermitState p .draft).raisePermitState p
  | .issuing, false =>
    let s := (s.setPermitState p .draft).updPermit p fun x => { x with wrongReadbacks := 0 }
    let s := s.withdrawIssue p
    s.raise (s.pointNotice .pointLost p d c)
  | .issued, false =>
    let s := s.setPermitState p .suspended
    let s := if s.pointOut p d then s.updPermit p fun x => x.addCause c (x.pointPosition d) else s
    s.raise (s.pointNotice .permitSuspended p d c)
  | .suspended, false =>
    if s.pointOut p d && !x.hasCause c (x.pointPosition d) then
      let s := s.updPermit p fun x => x.addCause c (x.pointPosition d)
      s.raise (s.pointNotice .permitSuspended p d c)
    else s
  | _, _ => s

/-- R125 step 2: the ready condition of every permit in use that lists the device is evaluated afresh, in ascending
permit index. -/
def State.reevaluate (s : State) (d : Nat) (c : PointCause) : State :=
  (List.range Config.permits).foldl (fun s p =>
    if (s.permit p).inUse && (s.permit p).points.any (fun pt => decide (pt.device = d)) then s.permitEvent p d c
    else s) s

/-! ### Alarms (R144) -/

/-- R144: worker w has entered ALARM: the ISSUED permit it is a member of is suspended, a SUSPENDED one takes the entry and
keeps its time of last state change (DEDUCED, log 29). -/
def State.memberAlarm (s : State) (w : Nat) : State :=
  match (s.worker w).membership with
  | none => s
  | some p =>
    let x := s.permit p
    let suspendedNotice (s : State) : State :=
      s.raise { s.permitNotice .permitSuspended p 3 with worker := w }
    if x.state = .issued then
      suspendedNotice ((s.setPermitState p .suspended).updPermit p fun x =>
        if x.alarmCauses.contains w then x else { x with alarmCauses := x.alarmCauses ++ [w] })
    else if x.state = .suspended ∧ ¬ x.alarmCauses.contains w then
      suspendedNotice (s.updPermit p fun x => { x with alarmCauses := x.alarmCauses ++ [w] })
    else s

/-! ### Closing (R147) -/

/-- R147: a SURRENDERED or CANCELLED permit with no tags held and no tag steps outstanding becomes CLOSED. -/
def State.closeTest (s : State) (p : Nat) : State :=
  let x := s.permit p
  if (x.state = .surrendered ∨ x.state = .cancelled) ∧ x.tagsHeld = 0 ∧ x.tagSteps = 0 then
    let s := s.updPermit p fun x => { x with state := .closed, timeClosed := s.clock, timeChanged := s.clock }
    s.raise (s.permitNotice .permitClosed p)
  else s

/-- R132, R147: an outstanding TAG step naming a permit has ended: the count falls and R147 is tested. Other steps have
no count. -/
def State.tagStepEnded (s : State) (st : Step) : State :=
  match st.action, st.permit with
  | .tag, some p => (s.updPermit p fun x => { x with tagSteps := x.tagSteps - 1 }).closeTest p
  | _, _ => s

/-! ### Positions and tags (R119, R127, R129, R130) -/

/-- R119: position and source set, the position time taking the current second if either changed. -/
def State.setPosition (s : State) (d : Nat) (pos : Position) (src : Source) : State :=
  s.updDevice d fun x =>
    if x.position = pos ∧ x.source = src then x else { x with position := pos, source := src, time := s.clock }

/-- R129: the test-and-add of permit index p on device d; ADDED raises tags held and goes on under R125. -/
def State.tagAdd (s : State) (d p : Nat) : TagResult × State :=
  let x := s.device d
  if x.tags.contains p then (.present, s)
  else if x.tags.length < 4 then
    let s := s.updDevice d fun x => { x with tags := x.tags ++ [p] }
    let s := s.updPermit p fun x => { x with tagsHeld := x.tagsHeld + 1 }
    (.added, s.reevaluate d .pointLost)
  else (.full, s)

/-- R130: the removal of permit index p from device d; REMOVED lowers tags held, goes on under R125 and then tests R147. -/
def State.tagRemove (s : State) (d p : Nat) : TagResult × State :=
  if (s.device d).tags.contains p then
    let s := s.updDevice d fun x => { x with tags := x.tags.filter fun q => decide (q ≠ p) }
    let s := s.updPermit p fun x => { x with tagsHeld := x.tagsHeld - 1 }
    (.removed, (s.reevaluate d .pointLost).closeTest p)
  else (.absent, s)

end Sys2Proof.Machine
end

