-- ==== Sys2Proof/Machine/ProgramOps.lean ====
section
/-! DEFINITION. Operations of the program table that device events, permits and the port reset share: confirmation (R160), the
pull-back of an outstanding step (R165 step 1), and STEP CANCEL (R162). -/

namespace Sys2Proof.Machine

/-- The STEP cell of step k of the program of this number. DESIGN CHOICE: a withdrawal takes every such cell, one that an earlier
program of this number left in the list among them (log 32). -/
def isStepCell (number k : Nat) : DownCell → Bool
  | .step p j _ _ _ => decide (p = number) && decide (j = k)
  | _ => false

/-- The READBACK WRONG cell of step k of the program of this number. -/
def isReadbackWrong (number k : Nat) : DownCell → Bool
  | .readbackWrong p j _ _ _ => decide (p = number) && decide (j = k)
  | _ => false

/-- The READBACK OK cell of step k of the program of this number. -/
def isReadbackOk (number k : Nat) : DownCell → Bool
  | .readbackOk p j => decide (p = number) && decide (j = k)
  | _ => false

/-- R165: the STEP cell and the READBACK replies of a step, by program and step number alone (DESIGN CHOICE, log 32). -/
def isStepOrReply (number k : Nat) (c : DownCell) : Bool :=
  isStepCell number k c || isReadbackOk number k c || isReadbackWrong number k c

/-- R162: a STEP cell still in the list leaves it, and the instruction field becomes NONE. -/
def Step.cellWithdrawn (x : Step) : Step :=
  if x.instruction = .queued then { x with instruction := .none } else x

/-- R162: an entry is the STEP cell of a program whose record has been freed and filled again: it is older than the load of the
program that now holds its number (log 26). -/
def State.staleStep (s : State) (e : Entry) : Bool :=
  match e.cell with
  | .step number _ _ _ _ =>
    match s.findProgram number with
    | none => false
    | some g => older s.ageCounter e.age (s.program g).loadedAt
  | _ => false

/-- R128: the outstanding-step field of device d clears. -/
def State.freeDevice (s : State) (d : Nat) : State := s.updDevice d fun x => { x with outstanding := none }

/-- R162: STEP CANCEL of step k queued to a truck; cancels outstanding rises unless the cell is already present. -/
def State.queueCancel (s : State) (t g k : Nat) : State :=
  let cell := DownCell.stepCancel (s.program g).number k
  if (s.list t).present cell then s
  else (s.addGroup t [cell]).updProgram g fun x => { x with cancels := x.cancels + 1 }

/-- R160 step 6: the program moves on after a confirmation or a skip. -/
def State.programMovesOn (s : State) (g : Nat) : State :=
  let x := s.program g
  if x.steps.length < x.next then
    (s.updProgram g fun x => { x with state := .done, timeEnded := s.clock }).raiseProgramState g
  else
    match x.state with
    | .running => if x.mode = .chained then s.attempt g x.next else s
    | .halting => (s.updProgram g fun x => { x with state := .halted }).raiseHalted g
    | _ => s

/-- R160: step k of program g is confirmed; `before` marks a confirmation before execution. -/
def State.confirmStep (s : State) (g k : Nat) (before : Bool) : State :=
  match (s.program g).step k with
  | none => s
  | some st =>
    let s := s.updStep g k fun x => { x with state := .confirmed }
    let s := if before then
        (s.updStep g k fun x => { x.cellWithdrawn with before := true }).withdrawB st.truck
          (isStepCell (s.program g).number k)
      else s
    let s := s.freeDevice st.device
    let s := s.tagStepEnded st
    let s := s.raise (s.stepNotice .stepState g k st StepState.confirmed.code)
    let s := s.updProgram g fun x => { x with next := x.firstOpen }
    s.programMovesOn g

/-- R186: the reason code of STEP STATE with reason CANCELLED. -/
def stepCancelledCode : Nat := 7

/-- R165 step 1: a RELEASED or READ BACK step returns to PENDING, its cells withdrawn and STEP CANCEL queued. -/
def State.pullBack (s : State) (g k : Nat) : State :=
  match (s.program g).step k with
  | none => s
  | some st =>
    let s := s.updStep g k fun x => { x with state := .pending, wrong := 0, instruction := .none }
    let s := s.withdrawB st.truck (isStepOrReply (s.program g).number k)
    let s := s.queueCancel st.truck g k
    let s := s.freeDevice st.device
    let s := s.tagStepEnded st
    s.raise (s.stepNotice .stepState g k st stepCancelledCode)

/-- A step that a pull-back reaches: RELEASED or READ BACK. -/
def StepState.recallable : StepState → Bool
  | .released => true | .readBack => true
  | .pending => false | .executed => false | .confirmed => false | .refused => false | .skipped => false

/-- The numbers of the steps of program g that are RELEASED or READ BACK and that `p` accepts. -/
def State.recallSteps (s : State) (g : Nat) (p : Step → Bool) : List Nat :=
  (List.range (s.program g).steps.length).filterMap fun i =>
    match (s.program g).step (i + 1) with
    | some st => if st.state.recallable && p st then some (i + 1) else none
    | none => none

/-- A program in LOADED, RUNNING, HALTING or HALTED, which holds its devices, permits and trucks (R121, R149, R7). -/
def Program.live (g : Program) : Bool :=
  match g.state with
  | .loaded => true | .running => true | .halting => true | .halted => true
  | .empty => false | .done => false | .aborted => false

/-- A step of a live program satisfies `p`. -/
def State.inProgram (s : State) (p : Step → Bool) : Bool :=
  s.programs.any fun e => e.2.live && e.2.steps.any p

end Sys2Proof.Machine
end

