-- ==== Sys2Proof/Machine/Formats.lean ====
section
/-! DEFINITION. Layouts: published records (R187), what a host read gives (R169, R170), the check word (R23), bursts (R188), cells (R189). -/

namespace Sys2Proof.Machine

/-! ### Helpers -/

/-- A list cut or filled to a length. -/
def padTo {α : Type} (n : Nat) (x : α) (l : List α) : List α := (l ++ List.replicate n x).take n

/-- A flag as a number (R183). -/
def flagBit (b : Bool) : Nat := if b then 1 else 0

/-- R183: an absent index in a byte field. -/
def byteIndex (i : Option Nat) : Nat := i.getD 0xFF

/-- R183: an absent index in a whole-word field. -/
def wordIndex (i : Option Nat) : Word := toWord (i.getD 0xFFFF)

/-- R183: bytes packed two to a word, the earlier in the low half. -/
def packPairs : List Byte → List Word
  | a :: b :: rest => (b ++ a : Word) :: packPairs rest
  | [a] => [(0#8 ++ a : Word)]
  | [] => []

/-- Byte places packed two to a word, unused places 0xFF. -/
def bytePlaces (n : Nat) (l : List Nat) : List Word := packPairs ((padTo n 0xFF l).map (BitVec.ofNat 8))

/-- Word places, unused places 0xFFFF. -/
def wordPlaces (n : Nat) (l : List Nat) : List Word := (padTo n 0xFFFF l).map toWord

/-- R132, R187: cause bits, bit k - 1 for point k. -/
def pointBits (l : List Nat) : Word := l.foldl (fun w k => w ||| (1#16 <<< (k - 1))) 0

/-! ### Published records, from word 1 on (R187) -/

/-- R74: pages reserved by copies in progress. -/
def State.reservedPages (s : State) : List Nat :=
  s.copies.flatMap fun c => match c.job with
    | .order j => j.pages
    | .program _ => []

/-- R187: site block. -/
def State.siteWords (s : State) : List Word :=
  dwordWords s.clock ++ [s.roundNumber, toWord s.siteCode, toWord (flagBit s.modemReady), BitVec.ofInt 16 s.noise,
   toWord (flagBit s.siteClipped), toWord s.settings.weakDown, toWord s.settings.weakUp, toWord s.settings.fairDown,
   toWord s.settings.fairUp, toWord s.settings.lostCount, toWord s.settings.pollPeriod, toWord s.settings.probePeriod,
   toWord s.pointerA, toWord s.pointerB, toWord s.pointerC, toWord s.slotsPlanned, toWord (flagBit s.quiet)]
  ++ dwordWords s.quietStart ++ dwordWords s.quietEnd ++ [toWord s.lastQuietCause.code]
  ++ dwordWords s.strayId ++ dwordWords s.strayTime
  ++ [toWord s.refusedWrite, toWord s.freePages.length, toWord s.reservedPages.length, toWord s.hold.length]

/-- R187: the truck alarm word. -/
def truckAlarmWord (a : TruckAlarm) : Word :=
  toWord (1 + 2 * flagBit a.acked + 4 * flagBit a.manDown + 8 * a.seen.code)

/-- R187: truck record. DESIGN CHOICE: where there is no truck alarm its state, reason, seen, repeat count and badge (words
28 to 30) read 0, as its times do by R183 (log 17). -/
def State.truckWords (s : State) (t : Nat) : List Word :=
  let e := s.truck t
  let l := s.link t
  let c := s.counter t
  let q := s.queue t
  dwordWords e.radioId ++ padTo 4 0 (packPairs e.callSign)
  ++ [packBytes e.state.code e.stateBefore.beforeCode,
      toWord (flagBit e.linkNotice + 2 * flagBit e.more + 4 * flagBit e.access + 8 * flagBit l.clipped)]
  ++ bytePlaces 4 e.crew ++ dwordWords e.lastHeard
  ++ [toWord l.quality, packBytes l.grade.code l.settle, packBytes l.run l.dir.code, toWord l.silent,
      packBytes c.sinceUp c.probe, packBytes (s.list t).countA (s.list t).countB, toWord q.length]
  ++ wordPlaces 8 q
  ++ (match s.truckAlarm t with
      | none => [0, 0, 0, 0, 0, 0, 0]
      | some a => [truckAlarmWord a, toWord a.repeats, toWord a.badge] ++ dwordWords a.raised
          ++ dwordWords a.acknowledged)

/-- R187: worker record. DESIGN CHOICE: where there is no alarm record its reason, seen, late check-in and repeat count (word
10) read 0, as its times do by R183, and its via truck 0xFFFF (log 17). -/
def State.workerWords (s : State) (w : Nat) : List Word :=
  let e := s.worker w
  let x := s.watch w
  [toWord e.badge, packBytes (byteIndex e.aboard) (byteIndex x.lastHeardVia),
   packBytes (x.mode.code + 4 * x.state.code + 32 * x.prompt.code) (byteIndex e.membership),
   toWord x.interval, toWord x.grace]
  ++ dwordWords x.lastCheckIn ++ dwordWords (if x.state = .prompted then x.graceEnd else x.deadline)
  ++ (match x.alarm with
      | none => [0, 0xFFFF, 0, 0, 0, 0]
      | some a =>
        [packBytes (a.reason.code + 4 * a.seen.code + 16 * flagBit a.late + 128) a.repeats, wordIndex a.via]
        ++ dwordWords a.raised ++ dwordWords a.acknowledged)

/-- R71: the number of delivered cells. -/
def Order.deliveredCount (o : Order) : Nat := o.cells.countP (·.delivered)

/-- R71: the lowest undelivered cell. -/
def Order.lowestUndelivered (o : Order) : Option Nat :=
  (List.range o.cells.length).find? fun i => !(o.cells.getD i {}).delivered

/-- R187: order record. -/
def State.orderWords (s : State) (i : Nat) : List Word :=
  let o := s.order i
  [toWord o.number, packBytes o.truck (o.priority.code + 4 * o.state.code),
   wordIndex (o.link.map (·.index)), toWord ((o.link.map (·.number)).getD 0), toWord o.length,
   packBytes o.cells.length o.deliveredCount, packBytes (byteIndex o.lowestUndelivered) o.attempts,
   toWord o.pages.length, o.seq.setWidth 16]
  ++ dwordWords o.timePosted ++ dwordWords o.timeDelivered ++ dwordWords o.timeStatus

/-- R187: device record. -/
def State.deviceWords (s : State) (d : Nat) : List Word :=
  let x := s.device d
  [toWord x.id, toWord (x.kind.code + 16 * x.position.code + 256 * x.source.code + 4096 * x.tags.length)]
  ++ dwordWords x.time ++ bytePlaces 4 x.tags
  ++ [match x.outstanding with
      | none => 0xFFFF
      | some r => packBytes r.program r.step]

/-- R187: a point: device index in bits 0 to 8, required position in bit 15. -/
def pointWord (p : Point) : Word := toWord (p.device % 512 + 32768 * (p.required.code % 2))

/-- R187: permit record. The MEMBER ALARM places hold the workers in the order in which they joined the cause set (DESIGN
CHOICE, log 17). -/
def State.permitWords (s : State) (p : Nat) : List Word :=
  let x := s.permit p
  [toWord x.number, toWord x.holder, toWord x.state.code, toWord x.interval, toWord x.check, toWord x.points.length]
  ++ padTo 12 0xFFFF (x.points.map pointWord) ++ [toWord x.members.length] ++ wordPlaces 8 x.members
  ++ [pointBits x.lostCauses, pointBits x.unplannedCauses, toWord x.alarmCauses.length] ++ wordPlaces 8 x.alarmCauses
  ++ [toWord x.wrongReadbacks, packBytes x.issueCells.code x.issueDelivered, toWord x.issueTruck,
      toWord x.tagsHeld, toWord x.tagSteps]
  ++ dwordWords x.timeDrafted ++ dwordWords x.timeIssued ++ dwordWords x.timeChanged ++ dwordWords x.timeClosed

/-- R187: the five words of a step. -/
def stepWords (st : Step) : List Word :=
  [toWord (st.device % 512 + 4096 * st.action.code + 16384 * st.rule.code),
   packBytes st.truck (byteIndex st.permit),
   toWord (st.guard.code + 8 * (st.ref % 512) + 32768 * flagBit st.before),
   toWord (st.state.code + 8 * st.pending.code + 32 * st.instruction.code),
   toWord (st.refusal.code + 16 * st.wrong + 64 * st.tagResult.code)]

/-- R187: program record; steps beyond the step count read 0. -/
def State.programWords (s : State) (g : Nat) : List Word :=
  let x := s.program g
  [toWord x.number, packBytes (x.state.code + 8 * x.mode.code) x.steps.length,
   toWord (x.next + 32 * x.halt.code + 512 * x.cancels)]
  ++ dwordWords x.timeStarted ++ dwordWords x.timeEnded ++ padTo 120 0 (x.steps.flatMap stepWords)

/-! ### What the host reads (R169, R170) -/

/-- R170: the edition word of the record that stands at an offset. -/
def State.edition (s : State) (base : Nat) : Word := if s.published then 2 + tableGet 0 s.passages base else 0

/-- A word of a published record: word 0 its edition word, then its fields; 0 past them (R183). -/
def State.recordRead (s : State) (base : Nat) (words : List Word) (k : Nat) : Word :=
  if !s.published then 0 else if k = 0 then s.edition base else words.getD (k - 1) 0

/-- R169: the word the host reads at a word offset. -/
def State.readWord (s : State) (off : Nat) : Word :=
  if off < siteBase then s.rawWord off
  else if off < truckBase 0 then s.recordRead siteBase s.siteWords (off - siteBase)
  else if off < workerBase 0 then
    let t := (off - truckBase 0) / 64
    s.recordRead (truckBase t) (s.truckWords t) ((off - truckBase 0) % 64)
  else if off < orderBase 0 then
    let w := (off - workerBase 0) / 16
    s.recordRead (workerBase w) (s.workerWords w) ((off - workerBase 0) % 16)
  else if off < deviceBase 0 then
    let i := (off - orderBase 0) / 16
    s.recordRead (orderBase i) (s.orderWords i) ((off - orderBase 0) % 16)
  else if off < permitBase 0 then
    let d := (off - deviceBase 0) / 8
    s.recordRead (deviceBase d) (s.deviceWords d) ((off - deviceBase 0) % 8)
  else if off < programBase 0 then
    let p := (off - permitBase 0) / 64
    s.recordRead (permitBase p) (s.permitWords p) ((off - permitBase 0) % 64)
  else if off < unmappedBase then
    let g := (off - programBase 0) / 128
    s.recordRead (programBase g) (s.programWords g) ((off - programBase 0) % 128)
  else 0

/-! ### The check word (R23) -/

/-- R23: one bit of the register, generator x^16 + x^12 + x^5 + 1. -/
def crcBit (r : Word) : Word := if r.msb then (r <<< 1) ^^^ 0x1021#16 else r <<< 1

/-- R23: one byte taken into the register, most significant bit first. -/
def crcByte (r : Word) (b : Byte) : Word :=
  crcBit (crcBit (crcBit (crcBit (crcBit (crcBit (crcBit (crcBit (r ^^^ (b ++ 0#8 : Word)))))))))

/-- R23: the check word of bytes in the order they are sent; the register starts at all ones. -/
def checkWord (bytes : List Byte) : Word := bytes.foldl crcByte 0xFFFF

/-- R188: a 2-byte field on the air, big-endian. -/
def be16 (n : Nat) : List Byte := [BitVec.ofNat 8 (n / 256), BitVec.ofNat 8 n]

/-- R188: a burst closed by its check word, most significant byte first. -/
def sealBurst (bytes : List Byte) : List Byte := bytes ++ [highByte (checkWord bytes), lowByte (checkWord bytes)]

/-- A 1-byte field on the air. -/
def be8 (n : Nat) : List Byte := [BitVec.ofNat 8 n]

/-! ### Downlink cells (R189) -/

/-- R189: a cell of 12 bytes, unassigned bytes 0. -/
def cellBytes (kind : Nat) (fields : List Byte) : List Byte := padTo 12 0 (be8 kind ++ fields)

/-- R189: the bytes of a control cell. -/
def DownCell.bytes (c : DownCell) : List Byte :=
  cellBytes c.kind (match c with
    | .prompt b => be16 b
    | .alarmSeenWorker b => be8 0 ++ be16 b
    | .alarmSeenTruck t => be8 1 ++ be8 t
    | .step p k d a n => be16 p ++ be8 k ++ be16 d ++ be8 a.code ++ be16 n
    | .readbackOk p k => be16 p ++ be8 k
    | .readbackWrong p k d a n => be16 p ++ be8 k ++ be16 d ++ be8 a.code ++ be16 n
    | .stepCancel p k => be16 p ++ be8 k
    | .permitIssue n b count check => be16 n ++ be16 b ++ be8 count ++ be16 check
    | .points n places => be16 n ++ places.flatMap fun x => be16 x.1 ++ be8 x.2.code
    | .signReply n b r => be16 n ++ be16 b ++ be8 r.code
    | .orderWithdraw o => be16 o
    | .statusReply o r => be16 o ++ be8 r.code)

/-- R189: the bytes of an order cell. -/
def OrderCell.bytes (c : OrderCell) : List Byte :=
  match c with
  | .note o pr n p => cellBytes 0x30 (be16 o ++ be8 pr ++ be8 n ++ be16 p)
  | .text o b bytes => cellBytes 0x31 (be16 o ++ be8 b ++ bytes)

/-- The bytes of a cell carried by a DOWN. -/
def Carried.bytes (c : Carried) : List Byte :=
  match c with
  | .control _ cell => cell.bytes
  | .order _ _ content => content.bytes

/-- R188: a DOWN burst: truck index, cell count, the cells, the check word. -/
def downBurst (p : PlanSlot) : List Byte :=
  sealBurst (be8 p.truck ++ be8 p.cells.length ++ p.cells.flatMap Carried.bytes)

/-! ### The round header (R20, R188) -/

/-- R188: rate codes in the header. -/
def rateBits (rate : Nat) : List Bool :=
  if rate = 4 then [true, false] else if rate = 2 then [false, true] else [false, false]

/-- R188: the three bits of a slot: direction (UP 1), then the rate code. -/
def slotBits (p : PlanSlot) : List Bool := decide (p.dir = .up) :: rateBits p.rate

/-- Bits packed into bytes, the first bit the most significant. -/
def packBits : Nat → List Bool → List Byte
  | 0, _ => []
  | n + 1, bits =>
    BitVec.ofNat 8 ((padTo 8 false bits).foldl (fun v b => 2 * v + flagBit b) 0) :: packBits n (bits.drop 8)

/-- R20, R188: the header burst of a round. -/
def State.headerBurst (s : State) (r : Round) : List Byte :=
  sealBurst (be16 s.siteCode ++ be16 s.roundNumber.toNat ++ be8 (flagBit r.quiet)
    ++ be8 (if r.quiet then 1 else 26) ++ be8 31
    ++ padTo 25 0xFF (r.slots.map fun p => BitVec.ofNat 8 p.truck)
    ++ packBits 10 (r.slots.flatMap slotBits) ++ List.replicate 6 0)

/-! ### Uplink bursts (R24, R188) and cells (R189) -/

/-- A big-endian field of bytes. -/
def beNat (l : List Byte) : Nat := l.foldl (fun v b => 256 * v + b.toNat) 0

/-- R188: what the part reads from a GOOD burst. -/
structure UpBurst where
  radioId : Nat
  downHeard : Bool
  more : Bool
  cells : List (List Byte)
deriving DecidableEq, Repr

/-- The first `n` cells of 12 bytes. -/
def splitCells : Nat → List Byte → List (List Byte)
  | 0, _ => []
  | n + 1, l => l.take 12 :: splitCells n (l.drop 12)

/-- R24: a received burst is GOOD when it is long enough, its cell count is 1 to the rate and the burst is as long as
that many cells make it, and its check word matches. None is GARBLED. -/
def classify (rate : Nat) (bytes : List Byte) : Option UpBurst :=
  let flag := (bytes.getD 3 0).toNat
  let count := flag % 8
  let n := bytes.length
  if n < 6 then none
  else if count < 1 ∨ rate < count ∨ n ≠ 6 + 12 * count then none
  else if beNat (bytes.drop (n - 2)) ≠ (checkWord (bytes.take (n - 2))).toNat then none
  else some { radioId := beNat (bytes.take 3), downHeard := decide (flag / 128 % 2 = 1),
              more := decide (flag / 64 % 2 = 1), cells := splitCells count (bytes.drop 4) }

/-- R27, R126, R189: the cell that 12 bytes carry; none for a cell that is dropped. -/
def UpCell.ofBytes (l : List Byte) : Option UpCell :=
  let f (i n : Nat) : Nat := beNat ((l.drop i).take n)
  match f 0 1 with
  | 0x00 => some .idle
  | 0x41 => some (.checkIn (f 1 2))
  | 0x42 => some (.panic (f 1 2))
  | 0x43 => some (.manDown (f 1 2))
  | 0x50 => if f 3 1 ≤ 4 then some (.orderStatus (f 1 2) (f 3 1)) else none
  | 0x60 => (Action.ofCode (f 6 1)).map fun a => .readback (f 1 2) (f 3 1) (f 4 2) a
  | 0x61 => some (.executed (f 1 2) (f 3 1))
  | 0x62 => if f 3 1 = 0 then some (.unplanned (f 1 2) .opened)
            else if f 3 1 = 1 then some (.unplanned (f 1 2) .closed) else none
  | 0x70 => some (.acceptPermit (f 1 2) (f 3 2) (f 5 1) (f 6 2))
  | 0x71 => some (.signOn (f 1 2) (f 3 2))
  | 0x72 => some (.signOff (f 1 2) (f 3 2))
  | 0x73 => some (.surrender (f 1 2) (f 3 2))
  | 0x7F => some .access
  | _ => none

end Sys2Proof.Machine
end

