-- ==== Sys2Proof/Machine/Publish.lean ====
section
/-! DEFINITION. Publication: each event that changes a record gives its edition word one passage (R170). -/

namespace Sys2Proof.Machine

/-- R170: one passage of the edition word of the record at an offset: raised by 1 to odd, then by 1 to the next even value. -/
def State.passage (s : State) (base : Nat) : State :=
  { s with passages := tableSet 0 s.passages base (tableGet 0 s.passages base + 2) }

/-- The indices that either of two tables lists, each once. -/
def unionKeys (ks : List (List Nat)) : List Nat := ks.flatten.eraseDups

/-- The indices of truck entries that hold anything in a state. -/
def State.truckKeys (s : State) : List Nat :=
  unionKeys [tableKeys s.trucks, tableKeys s.links, tableKeys s.counters, tableKeys s.lists, tableKeys s.queues,
    tableKeys s.truckAlarms]

/-- The offsets of the records of one table of `n` entries whose published words differ between two states. -/
def changedIn (n : Nat) (keys : List Nat) (base : Nat → Nat) (words : State → Nat → List Word) (s s' : State) : List Nat :=
  (keys.filter fun i => decide (i < n) && decide (words s i ≠ words s' i)).map base

/-- R170: the offsets of the records that an event from `s` to `s'` has changed. -/
def changedRecords (s s' : State) : List Nat :=
  (if s.siteWords ≠ s'.siteWords then [siteBase] else [])
  ++ changedIn Config.trucks (unionKeys [s.truckKeys, s'.truckKeys]) truckBase State.truckWords s s'
  ++ changedIn Config.workers (unionKeys [tableKeys s.workers, tableKeys s.watches, tableKeys s'.workers, tableKeys s'.watches])
      workerBase State.workerWords s s'
  ++ changedIn Config.orders (unionKeys [tableKeys s.orders, tableKeys s'.orders]) orderBase State.orderWords s s'
  ++ changedIn Config.devices (unionKeys [tableKeys s.devices, tableKeys s'.devices]) deviceBase State.deviceWords s s'
  ++ changedIn Config.permits (unionKeys [tableKeys s.permits, tableKeys s'.permits]) permitBase State.permitWords s s'
  ++ changedIn Config.programs (unionKeys [tableKeys s.programs, tableKeys s'.programs]) programBase State.programWords s s'

/-- R170: the end of an event that took the part from `s` to `s'`: each record changed, and each record in `forced` that a
rule republishes in any case, has one passage. Nothing is republished before the first publication (log 1). -/
def publish (s s' : State) (forced : List Nat := []) : State :=
  if s'.published then (unionKeys [forced, changedRecords s s']).foldl State.passage s' else s'

end Sys2Proof.Machine
end

