-- ==== Sys2Proof/Machine/Devices.lean ====
section
/-! DEFINITION. Network devices (spec/07_network_devices_and_tags.md): device cards, telemetry reports and the UNPLANNED cell. -/

namespace Sys2Proof.Machine

/-! ### DEVICE ADD and DEVICE REMOVE -/

/-- R120: the lowest-numbered free device entry. -/
def State.freeDeviceIndex (s : State) : Option Nat := lowestFree Config.devices fun d => !(s.device d).inUse

/-- DEVICE ADD (R120). -/
def deviceAdd (r : Req) (s : State) : Take :=
  if !idOk (r.num 8) then .refuse s (.badField 8)
  else match DeviceKind.ofCode (r.num 9), Position.ofCode (r.num 10) with
    | none, _ => .refuse s (.badField 9)
    | some _, none => .refuse s (.badField 10)
    | some kind, some position =>
      if (s.findDevice (r.num 8)).isSome then .refuse s (.duplicate 8)
      else match s.freeDeviceIndex with
        | none => .refuse s .noRoom
        | some d =>
          .answered (s.setDevice d { inUse := true, id := r.num 8, kind, position, source := .added, time := s.clock })
            (.ok [toWord d])

/-- R121: the state checks of DEVICE REMOVE, in order. -/
def State.deviceHeld (s : State) (d : Nat) : Option Detail :=
  if !(s.device d).tags.isEmpty then some .tagged
  else if s.permits.any (fun e => e.2.inUse && e.2.points.any fun pt => decide (pt.device = d)) then some .permitState
  else if s.inProgram (fun st => decide (st.device = d) || decide (st.ref = d)) then some .inProgram
  else none

/-- DEVICE REMOVE (R121). -/
def deviceRemove (r : Req) (s : State) : Take :=
  if !idOk (r.num 8) then .refuse s (.badField 8)
  else match s.findDevice (r.num 8) with
    | none => .refuse s (.noSuch 8)
    | some d =>
      match s.deviceHeld d with
      | some x => .refuse s (.wrongState x)
      | none => .answered (s.setDevice d {}) (.ok [toWord d])

/-! ### DEVICE REPORT (R122 to R125) -/

/-- R122 step 2: the report moved a tagged device. -/
def tagViolated (before after : Device) : Bool :=
  !before.tags.isEmpty &&
    ((decide (before.position = .opened) && decide (after.position = .closed)) ||
     (decide (before.position = .closed) && decide (after.position = .opened)))

/-- R122, R123: the fields that a report of position `pos` sets. -/
def State.reportFields (s : State) (d : Nat) (pos : Position) : State :=
  if pos = .unknown then s.setPosition d (s.device d).position .stale else s.setPosition d pos .report

/-- R122 step 2: TAG VIOLATION raised where the report moved a tagged device (its permit number word: DEDUCED, log 24). -/
def State.raiseViolation (s : State) (before : Device) (d : Nat) : State :=
  let x := s.device d
  if tagViolated before x then
    s.raise { kind := .tagViolation, reason := 1, device := d, item := x.id, permit := x.tags.headD 0,
              value := x.position.code }
  else s

/-- R124: the step that a report of position `pos` on device d confirms, with the mark "before execution". -/
def State.reportConfirms (s : State) (d : Nat) (pos : Position) : Option (Nat × Nat × Bool) :=
  match (s.device d).outstanding with
  | none => none
  | some r =>
    match (s.program r.program).step r.step with
    | none => none
    | some st =>
      if pos = .unknown ∨ st.action.target ≠ some pos then none
      else match st.state with
        | .released => some (r.program, r.step, true)
        | .readBack => some (r.program, r.step, true)
        | .executed => if st.rule = .report then some (r.program, r.step, false) else none
        | .pending => none | .confirmed => none | .refused => none | .skipped => none

/-- R125: a report carried through: fields, TAG VIOLATION, re-evaluation, the offer to the outstanding step. -/
def State.deviceReported (s : State) (d : Nat) (pos : Position) : State × Option (Nat × Nat × Bool) :=
  let before := s.device d
  let s := ((s.reportFields d pos).raiseViolation before d).reevaluate d .pointLost
  match s.reportConfirms d pos with
  | none => (s, none)
  | some (g, k, b) => (s.confirmStep g k b, some (g, k, b))

/-- R122: the answer values of DEVICE REPORT. -/
def State.reportAnswer (s : State) (d : Nat) (confirmed : Option (Nat × Nat × Bool)) : List Word :=
  let x := s.device d
  [toWord d, packBytes x.position.code x.source.code] ++
    (match confirmed with
     | none => [0, 0]
     | some (g, k, _) => [toWord (s.program g).number, toWord k])

/-- DEVICE REPORT (R122, R123). -/
def deviceReport (r : Req) (s : State) : Take :=
  if !idOk (r.num 8) then .refuse s (.badField 8)
  else match Position.ofCode (r.num 9) with
    | none => .refuse s (.badField 9)
    | some pos =>
      match s.findDevice (r.num 8) with
      | none => .refuse s (.noSuch 8)
      | some d =>
        let done := s.deviceReported d pos
        .answered done.1 (.ok (done.1.reportAnswer d done.2))

/-! ### UNPLANNED (R126) -/

/-- R126: an UNPLANNED cell from truck t (the permit number word of its notice: DEDUCED, log 24); a cell with a position other
than OPEN or CLOSED never reaches this. -/
def State.unplanned (s : State) (t id : Nat) (pos : Position) : State :=
  match s.findDevice id with
  | none => s.raise { kind := .unplannedOperation, reason := 3, truck := t, item := id, value := pos.code }
  | some d =>
    let before := s.device d
    let s := s.setPosition d pos .crew
    let s := if before.position = pos then s
      else
        let tagged := !before.tags.isEmpty
        s.raise { kind := .unplannedOperation, reason := if tagged then 1 else 2, truck := t, device := d, item := id,
                  permit := before.tags.headD 0, value := pos.code }
    s.reevaluate d .unplanned

/-! ### Meanings -/

/-- DEVICE_ADD: the take of a DEVICE ADD card (R120). -/
def execDeviceAdd (c : Fin 64) (s : State) : Host.Outcome State Fault Refusal :=
  .next (publish s (s.takeAs .deviceAdd c deviceAdd))

/-- DEVICE_REMOVE: the take of a DEVICE REMOVE card (R121). -/
def execDeviceRemove (c : Fin 64) (s : State) : Host.Outcome State Fault Refusal :=
  .next (publish s (s.takeAs .deviceRemove c deviceRemove))

/-- R125 step 4: the entry of the device that a DEVICE REPORT names. -/
def reportedRecord (r : Req) (s : State) : List Nat := ((s.findDevice (r.num 8)).map deviceBase).toList

/-- DEVICE_REPORT: the take of a DEVICE REPORT card (R122 to R125). It republishes the device's entry whether it changes
anything or not (R125). -/
def execDeviceReport (c : Fin 64) (s : State) : Host.Outcome State Fault Refusal :=
  .next (publish s (s.takeAs .deviceReport c deviceReport) (s.takeForces .deviceReport c deviceReport reportedRecord))

end Sys2Proof.Machine
end

