-- ==== Sys2Proof/Machine/Welfare.lean ====
section
/-! DEFINITION. The Welfare Monitor (spec/06_welfare_watch.md): watches, prompts, alarms, and its five cards and two timer events. -/

namespace Sys2Proof.Machine

/-- The watch of worker w changed. -/
def State.updWatch (s : State) (w : Nat) (f : Watch → Watch) : State := s.setWatch w (f (s.watch w))

/-- R97: a watch in ALARM or ALARM ACKNOWLEDGED. -/
def Watch.inAlarm (x : Watch) : Bool := decide (x.state = .alarm) || decide (x.state = .acknowledged)

/-! ### Intervals, deadlines and prompts (R98, R101, R102) -/

/-- R98: the effective interval: the interval, or a lower permit interval while the worker is a member of an ISSUED or
SUSPENDED permit. -/
def State.effectiveInterval (s : State) (w : Nat) : Nat :=
  let own := (s.watch w).interval
  match (s.worker w).membership with
  | none => own
  | some p =>
    let x := s.permit p
    if x.state = .issued ∨ x.state = .suspended then min own x.interval else own

/-- R98: last check-in now, and the deadline from it. -/
def State.setDeadline (s : State) (w : Nat) : State :=
  s.updWatch w fun x => { x with lastCheckIn := s.clock, deadline := satAdd s.clock (s.effectiveInterval w) }

/-- A class A cell added to the list of the truck worker w is aboard, if any. -/
def State.toTruckOf (s : State) (w : Nat) (c : DownCell) : State :=
  match (s.worker w).aboard with
  | some t => s.addClassA t c
  | none => s

/-- A class A cell taken out of the list of the truck worker w is aboard, if any (R34). -/
def State.fromTruckOf (s : State) (w : Nat) (c : DownCell) : State :=
  match (s.worker w).aboard with
  | some t => s.withdrawA t fun x => decide (x = c)
  | none => s

/-- R101: the watch becomes PROMPTED: grace end counted from the later of the deadline and now, a PROMPT queued, the Round
Planner told. -/
def State.promptWorker (s : State) (w : Nat) (deadline : Nat) : State :=
  let s := s.updWatch w fun x =>
    { x with state := .prompted, graceEnd := satAdd (max deadline s.clock) x.grace, prompt := .queued }
  let s := s.toTruckOf w (.prompt (s.worker w).badge)
  s.endQuietPeriod .prompt { kind := .quietEnded, worker := w }

/-- R102: the PROMPT withdrawn, the prompt field NONE. -/
def State.withdrawPrompt (s : State) (w : Nat) : State :=
  (s.fromTruckOf w (.prompt (s.worker w).badge)).updWatch w fun x => { x with prompt := .none }

/-- R116: worker w has become a member of ISSUED permit p, or p has become ISSUED: in WATCHING the deadline is lowered to
last check-in plus the permit interval; one lowered to a moment already reached prompts at once. -/
def State.permitTold (s : State) (p w : Nat) : State :=
  let x := s.watch w
  let limit := satAdd x.lastCheckIn (s.permit p).interval
  if x.state = .watching ∧ limit < x.deadline then
    let s := s.updWatch w fun x => { x with deadline := limit }
    if limit ≤ s.clock then s.promptWorker w limit else s
  else s

/-! ### Alarms (R104, R106 to R109) -/

/-- R104, R106: the watch becomes ALARM: the record, the PROMPT withdrawn, WORKER ALARM, Switching Control told. -/
def State.enterAlarm (s : State) (w : Nat) (reason : AlarmReason) (via : Option Nat) : State :=
  let s := s.updWatch w fun x => { x with state := .alarm, alarm := some { reason, raised := s.clock, via } }
  let s := s.withdrawPrompt w
  let s := s.raise { kind := .workerAlarm, reason := reason.noticeCode, worker := w, truck := via.getD 0,
                     badge := (s.worker w).badge }
  s.memberAlarm w

/-- R104: the reason of an alarm from a missed check-in: NO CONTACT if the truck's grade is LOST at this moment. -/
def State.missedReason (s : State) (w : Nat) : AlarmReason :=
  match (s.worker w).aboard with
  | some t => if (s.link t).grade = .lost then .noContact else .missedCheckIn
  | none => .missedCheckIn

/-- R107: a PANIC or MAN DOWN cell for a worker in ALARM or ALARM ACKNOWLEDGED: a repeat, or a new alarm. -/
def State.alarmAgain (s : State) (w t : Nat) (reason : AlarmReason) : State :=
  match (s.watch w).alarm with
  | none => s.enterAlarm w reason (some t)
  | some a =>
    if a.reason = reason then
      s.updWatch w fun x => { x with alarm := some { a with repeats := min (a.repeats + 1) 255 } }
    else
      let s := s.fromTruckOf w (.alarmSeenWorker (s.worker w).badge)
      let s := s.updWatch w fun x => { x with state := .alarm, alarm := some { reason, raised := s.clock, via := some t } }
      let s := s.raise { kind := .workerAlarm, reason := reason.noticeCode, worker := w, truck := t,
                         badge := (s.worker w).badge }
      s.memberAlarm w

/-- R186: the reason code of TRUCK ALARM. -/
def truckAlarmReason (manDown : Bool) : Nat := if manDown then 2 else 1

/-- R108, R109: an alarm cell with an unknown badge, taken against the sending truck's alarm field. A new alarm on a field
already present keeps its repeat count, of which R109 says nothing (DESIGN CHOICE, log 28). -/
def State.truckAlarmCell (s : State) (t badge : Nat) (manDown : Bool) : State :=
  let told (s : State) : State :=
    s.raise { kind := .truckAlarm, reason := truckAlarmReason manDown, truck := t, badge }
  match s.truckAlarm t with
  | none => told (s.setTruckAlarm t (some { manDown, badge, raised := s.clock }))
  | some a =>
    if a.badge = badge ∧ a.manDown = manDown then
      s.setTruckAlarm t (some { a with repeats := min (a.repeats + 1) 255 })
    else
      let renewed := { a with badge, manDown, raised := s.clock, acknowledged := 0 }
      if a.acked then
        told ((s.withdrawA t fun c => decide (c = .alarmSeenTruck t)).setTruckAlarm t
          (some { renewed with acked := false, seen := .none }))
      else told (s.setTruckAlarm t (some renewed))

/-- R106, R108: a PANIC or MAN DOWN cell from truck t: a running quiet period ends, then the alarm is taken against the
worker, or against the truck alarm field when no roster entry holds the badge. -/
def State.alarmCell (s : State) (t badge : Nat) (manDown : Bool) : State :=
  let reason : AlarmReason := if manDown then .manDown else .panic
  match s.findWorker badge with
  | none =>
    (s.endQuietPeriod .alarmCell { kind := .quietEnded, truck := t }).truckAlarmCell t badge manDown
  | some w =>
    let s := s.endQuietPeriod .alarmCell { kind := .quietEnded, truck := t, worker := w }
    let s := s.updWatch w fun x => { x with lastHeardVia := some t }
    if (s.watch w).inAlarm then s.alarmAgain w t reason else s.enterAlarm w reason (some t)

/-- R107: the worker that a PANIC or MAN DOWN cell finds in ALARM or ALARM ACKNOWLEDGED for the same reason: a repeat, whose
record is republished in any case. -/
def State.repeatedAlarm (s : State) (badge : Nat) (reason : AlarmReason) : Option Nat :=
  match s.findWorker badge with
  | none => none
  | some w =>
    if (s.watch w).inAlarm && (s.watch w).alarm.any (fun a => decide (a.reason = reason)) then some w else none

/-! ### Check-ins (R103, R105, R115) -/

/-- R105: a late check-in. -/
def State.lateCheckIn (s : State) (w t : Nat) : State :=
  let s := s.updWatch w fun x => { x with lastCheckIn := s.clock }
  match (s.watch w).alarm with
  | none => s
  | some a =>
    if a.late then s
    else
      (s.updWatch w fun x => { x with alarm := some { a with late := true } }).raise
        { kind := .lateCheckIn, reason := a.reason.noticeCode, worker := w, truck := t,
          value := (s.clock - a.raised : Nat) }

/-- R115: a single check answered. -/
def State.singleAnswered (s : State) (w t : Nat) : State :=
  let all := decide ((s.watch w).mode = .singleAll)
  let s := s.withdrawPrompt w
  let s := s.updWatch w fun x => { x with lastCheckIn := s.clock, state := .off, mode := .off }
  if all then s.raise { kind := .welfareCheckResult, reason := 1, worker := w, truck := t } else s

/-- R103: a CHECK IN cell from truck t. -/
def State.checkIn (s : State) (t badge : Nat) : State :=
  match s.findWorker badge with
  | none => s
  | some w =>
    let s := s.updWatch w fun x => { x with lastHeardVia := some t }
    match (s.watch w).state with
    | .off => s.updWatch w fun x => { x with lastCheckIn := s.clock }
    | .watching => s.setDeadline w
    | .prompted =>
      match (s.watch w).mode with
      | .continuous => ((s.setDeadline w).updWatch w fun x => { x with state := .watching }).withdrawPrompt w
      | .off => s.singleAnswered w t
      | .singleAll => s.singleAnswered w t
      | .singleFail => s.singleAnswered w t
    | .alarm => s.lateCheckIn w t
    | .acknowledged => s.lateCheckIn w t

/-! ### Timer events -/

/-- DEADLINE_REACHED (R101): the deadline of a watch in WATCHING is reached when the clock equals or passes it (R98). -/
def State.deadlineReached (s : State) (w : Nat) : State :=
  let x := s.watch w
  if x.state = .watching ∧ x.deadline ≤ s.clock then s.promptWorker w x.deadline else s

/-- GRACE_END_REACHED (R104): the grace end of a watch in PROMPTED is reached when the clock equals or passes it (R98). -/
def State.graceEndReached (s : State) (w : Nat) : State :=
  let x := s.watch w
  if x.state = .prompted ∧ x.graceEnd ≤ s.clock then
    s.enterAlarm w (s.missedReason w) (s.worker w).aboard
  else s

/-! ### Cards -/

/-- R95: the answer values for a worker. -/
def State.watchAnswer (s : State) (w : Nat) : List Word :=
  let x := s.watch w
  [toWord w, toWord x.state.code] ++
    dwordWords (if x.state = .watching then x.deadline else if x.state = .prompted then x.graceEnd else 0)

/-- R95: the answer values for a truck target. -/
def State.truckAlarmAnswer (s : State) (t : Nat) : List Word :=
  [toWord t, match s.truckAlarm t with
    | none => 0xFFFF
    | some a => toWord (flagBit a.acked)]

/-- R99, R114: worker w is aboard a truck that is not PARKED. -/
def State.reachable (s : State) (w : Nat) : Bool :=
  match (s.worker w).aboard with
  | none => false
  | some t => decide ((s.truck t).state ≠ .parked)

/-- R99: the state checks of WATCH START, and of WATCH CHECK (R114), in order. -/
def State.watchStartRefusal (s : State) (w : Nat) : Option Detail :=
  let x := s.watch w
  if x.inAlarm then some .alarmOpen
  else if x.state = .prompted then some .promptOpen
  else if x.state = .watching then some .watched
  else if !s.reachable w then some .notReady
  else none

/-- WATCH START (R99). -/
def watchStart (r : Req) (s : State) : Take :=
  let interval := clampTo 60 3600 (r.num 9)
  let grace := clampTo 30 600 (r.num 10)
  let clamped := firstClamped [(9, !inRange 60 3600 (r.num 9)), (10, !inRange 30 600 (r.num 10))]
  if !idOk (r.num 8) then .refuse s (.badField 8)
  else match s.findWorker (r.num 8) with
    | none => .refuse s (.noSuch 8)
    | some w =>
      match s.watchStartRefusal w with
      | some d => .refuse s (.wrongState d)
      | none =>
        let s := s.updWatch w fun x => { x with mode := .continuous, interval, grace }
        let s := (s.setDeadline w).updWatch w fun x => { x with state := .watching, prompt := .none }
        .answered s (.doneOr clamped (s.watchAnswer w))

/-- WATCH STOP (R100). -/
def watchStop (r : Req) (s : State) : Take :=
  if !idOk (r.num 8) then .refuse s (.badField 8)
  else match s.findWorker (r.num 8) with
    | none => .refuse s (.noSuch 8)
    | some w =>
      let x := s.watch w
      if x.state = .off then .answered s (.ok (s.watchAnswer w))
      else if x.state = .prompted then .refuse s (.wrongState .promptOpen)
      else if x.inAlarm then .refuse s (.wrongState .alarmOpen)
      else if (s.worker w).membership.isSome then .refuse s (.wrongState .onPermit)
      else
        let s := s.updWatch w fun x => { x with state := .off, mode := .off }
        .answered s (.ok (s.watchAnswer w))

/-- WATCH CHECK (R114). DESIGN CHOICE: the current site second serves as the deadline of R101 for the grace end alone, and
the stored deadline keeps its value; R114 does not say whether the card writes it (log 30). -/
def watchCheck (r : Req) (s : State) : Take :=
  let grace := clampTo 30 600 (r.num 10)
  let clamped := firstClamped [(10, !inRange 30 600 (r.num 10))]
  if !idOk (r.num 8) then .refuse s (.badField 8)
  else if 1 < r.num 9 then .refuse s (.badField 9)
  else match s.findWorker (r.num 8) with
    | none => .refuse s (.noSuch 8)
    | some w =>
      match s.watchStartRefusal w with
      | some d => .refuse s (.wrongState d)
      | none =>
        let mode : WatchMode := if r.num 9 = 0 then .singleAll else .singleFail
        let s := (s.updWatch w fun x => { x with mode, grace }).promptWorker w s.clock
        .answered s (.doneOr clamped (s.watchAnswer w))

/-- What ALARM ACK and ALARM RESOLVE name (R110): a worker, a truck, or a fault in the fields. -/
inductive AlarmTarget where
  | worker (w : Nat)
  | truck (t : Nat)
  | fault (a : Answer)
deriving DecidableEq, Repr

/-- R110, R185: the target of ALARM ACK and ALARM RESOLVE. -/
def State.alarmTarget (s : State) (r : Req) : AlarmTarget :=
  if r.num 8 = 0 then
    if !idOk (r.num 9) then .fault (.badField 9)
    else match s.findWorker (r.num 9) with
      | some w => .worker w
      | none => .fault (.noSuch 9)
  else if r.num 8 = 1 then
    if !radioOk (r.radio 10) then .fault (.badField 10)
    else match s.findTruck (r.radio 10) with
      | some t => .truck t
      | none => .fault (.noSuch 10)
  else .fault (.badField 8)

/-- ALARM ACK for a worker (R110). -/
def ackWorker (w : Nat) (s : State) : Take :=
  match (s.watch w).state, (s.watch w).alarm with
  | .alarm, some a =>
    let sent := (s.worker w).aboard.isSome
    let s := s.updWatch w fun x =>
      { x with state := .acknowledged,
               alarm := some { a with acknowledged := s.clock, seen := if sent then .queued else a.seen } }
    let s := s.toTruckOf w (.alarmSeenWorker (s.worker w).badge)
    .answered s (.ok [toWord w, toWord (s.watch w).state.code, if sent then 0 else 1])
  | st, _ => .refuse s (.wrongState .notReady [toWord w, toWord st.code])

/-- ALARM ACK for a truck (R111). -/
def ackTruck (t : Nat) (s : State) : Take :=
  match s.truckAlarm t with
  | some a =>
    if a.acked then .refuse s (.wrongState .notReady (s.truckAlarmAnswer t))
    else
      let s := s.setTruckAlarm t (some { a with acked := true, acknowledged := s.clock, seen := .queued })
      let s := s.addClassA t (.alarmSeenTruck t)
      .answered s (.ok (s.truckAlarmAnswer t))
  | none => .refuse s (.wrongState .notReady (s.truckAlarmAnswer t))

/-- ALARM ACK (R110, R111). -/
def alarmAck (r : Req) (s : State) : Take :=
  match s.alarmTarget r with
  | .fault a => .refuse s a
  | .worker w => ackWorker w s
  | .truck t => ackTruck t s

/-- ALARM RESOLVE for a worker (R112). -/
def resolveWorker (w : Nat) (s : State) : Take :=
  if !(s.watch w).inAlarm then .refuse s (.wrongState .notReady)
  else
    let s := s.fromTruckOf w (.alarmSeenWorker (s.worker w).badge)
    let s := s.updWatch w fun x => { x with alarm := none }
    let s := if (s.watch w).mode = .continuous then
        (s.setDeadline w).updWatch w fun x => { x with state := .watching }
      else s.updWatch w fun x => { x with state := .off, mode := .off }
    .answered s (.ok (s.watchAnswer w))

/-- ALARM RESOLVE for a truck (R113). -/
def resolveTruck (t : Nat) (s : State) : Take :=
  match s.truckAlarm t with
  | none => .refuse s (.wrongState .notReady)
  | some _ =>
    let s := s.withdrawA t fun c => decide (c = .alarmSeenTruck t)
    let s := s.setTruckAlarm t none
    .answered s (.ok (s.truckAlarmAnswer t))

/-- ALARM RESOLVE (R112, R113). -/
def alarmResolve (r : Req) (s : State) : Take :=
  match s.alarmTarget r with
  | .fault a => .refuse s a
  | .worker w => resolveWorker w s
  | .truck t => resolveTruck t s

/-! ### Meanings -/

/-- DEADLINE_REACHED (R101). -/
def execDeadlineReached (w : Fin 192) (s : State) : Host.Outcome State Fault Refusal :=
  .next (publish s (s.deadlineReached w))

/-- GRACE_END_REACHED (R104). -/
def execGraceEndReached (w : Fin 192) (s : State) : Host.Outcome State Fault Refusal :=
  .next (publish s (s.graceEndReached w))

/-- WATCH_START: the take of a WATCH START card (R99). -/
def execWatchStart (c : Fin 64) (s : State) : Host.Outcome State Fault Refusal :=
  .next (publish s (s.takeAs .watchStart c watchStart))

/-- WATCH_STOP: the take of a WATCH STOP card (R100). -/
def execWatchStop (c : Fin 64) (s : State) : Host.Outcome State Fault Refusal :=
  .next (publish s (s.takeAs .watchStop c watchStop))

/-- WATCH_CHECK: the take of a WATCH CHECK card (R114). -/
def execWatchCheck (c : Fin 64) (s : State) : Host.Outcome State Fault Refusal :=
  .next (publish s (s.takeAs .watchCheck c watchCheck))

/-- ALARM_ACK: the take of an ALARM ACK card (R110, R111). -/
def execAlarmAck (c : Fin 64) (s : State) : Host.Outcome State Fault Refusal :=
  .next (publish s (s.takeAs .alarmAck c alarmAck))

/-- ALARM_RESOLVE: the take of an ALARM RESOLVE card (R112, R113). -/
def execAlarmResolve (c : Fin 64) (s : State) : Host.Outcome State Fault Refusal :=
  .next (publish s (s.takeAs .alarmResolve c alarmResolve))

end Sys2Proof.Machine
end

