-- ==== Sys2Proof/Machine/Permits.lean ====
section
/-! DEFINITION. Permits (spec/08_permits.md): permit cards, the uplink cells of permits, and the closing of a permit. -/

namespace Sys2Proof.Machine

/-! ### PERMIT DRAFT (R133) -/

/-- A point as a PERMIT DRAFT card carries it: a device id and a code of required position. -/
structure DraftPoint where
  id : Nat
  code : Nat

/-- R133, R185: the first `count` points of a card. -/
def draftPoints (r : Req) (count : Nat) : List DraftPoint :=
  (List.range count).map fun i => ⟨r.num (12 + 2 * i), r.num (13 + 2 * i)⟩

/-- R133: the first point field out of range, counting points from `i`. -/
def draftFieldFault : Nat → List DraftPoint → Option Nat
  | _, [] => none
  | i, p :: rest =>
    if !idOk p.id then some (12 + 2 * i) else if 1 < p.code then some (13 + 2 * i) else draftFieldFault (i + 1) rest

/-- R133: the first point that carries a device id an earlier point carries. -/
def draftTwice : Nat → List Nat → List DraftPoint → Option Nat
  | _, _, [] => none
  | i, seen, p :: rest => if seen.contains p.id then some (12 + 2 * i) else draftTwice (i + 1) (p.id :: seen) rest

/-- R133: the position that a kind of device is required in. -/
def DeviceKind.required : DeviceKind → Position
  | .breaker => .opened | .switch => .opened | .isolator => .opened | .fuse => .opened | .earthSwitch => .closed

/-- R133: the points checked one by one against the device table, counting from `i`: the answer of the first that fails, or
the points by device index. -/
def State.resolvePoints (s : State) : Nat → List DraftPoint → Except Answer (List Point)
  | _, [] => .ok []
  | i, p :: rest =>
    match s.findDevice p.id with
    | none => .error (.noSuch (12 + 2 * i))
    | some d =>
      if (s.device d).kind.required.code ≠ p.code then .error (.badField (13 + 2 * i))
      else match s.resolvePoints (i + 1) rest with
        | .error a => .error a
        | .ok points => .ok ({ device := d, required := (s.device d).kind.required } :: points)

/-- R133: the check value: the sum of the device ids modulo 65,536. -/
def checkValue (points : List DraftPoint) : Nat := (points.foldl (fun n p => n + p.id) 0) % 65536

/-- The lowest-numbered free permit record. -/
def State.freePermitIndex (s : State) : Option Nat := lowestFree Config.permits fun p => !(s.permit p).inUse

/-- R133: the take of a draft whose checks have passed; the ready condition is then evaluated once (R135). -/
def State.draft (s : State) (p : Nat) (x : Permit) : State :=
  let s := s.setPermit p x
  if s.permitReady p then (s.setPermitState p .ready).raisePermitState p else s

/-- PERMIT DRAFT (R133). -/
def permitDraft (r : Req) (s : State) : Take :=
  let count := r.num 11
  let points := draftPoints r count
  let interval := clampTo 300 1800 (r.num 10)
  if !idOk (r.num 8) then .refuse s (.badField 8)
  else if !idOk (r.num 9) then .refuse s (.badField 9)
  else if !inRange 1 12 count then .refuse s (.badField 11)
  else match draftFieldFault 0 points with
    | some off => .refuse s (.badField off)
    | none =>
      match draftTwice 0 [] points with
      | some off => .refuse s (.badCombination off)
      | none =>
        match s.resolvePoints 0 points with
        | .error a => .refuse s a
        | .ok places =>
          match s.findWorker (r.num 9) with
          | none => .refuse s (.noSuch 9)
          | some w =>
            if (s.findPermit (r.num 8)).isSome then .refuse s (.duplicate 8)
            else match s.freePermitIndex with
              | none => .refuse s .noRoom
              | some p =>
                let s := s.draft p { inUse := true, number := r.num 8, holder := w, points := places,
                                     check := checkValue points, interval, timeDrafted := s.clock,
                                     timeChanged := s.clock }
                .answered s (.doneOr (firstClamped [(10, !inRange 300 1800 (r.num 10))])
                  [toWord p, toWord (s.permit p).state.code])

/-! ### Cards that name a permit -/

/-- The range and existence checks of the other permit cards (R136). -/
def onPermit (act : Nat → State → Take) (r : Req) (s : State) : Take :=
  if !idOk (r.num 8) then .refuse s (.badField 8)
  else match s.findPermit (r.num 8) with
    | none => .refuse s (.noSuch 8)
    | some p => act p s

/-- R136: points three to a POINTS cell, in list order. -/
def chunk3 : List (Nat × Position) → List (List (Nat × Position))
  | a :: b :: c :: rest => [a, b, c] :: chunk3 rest
  | [] => []
  | rest => [rest]

/-- R136: the issue group of permit p: PERMIT ISSUE, then the POINTS cells. -/
def State.issueGroup (s : State) (p : Nat) : List DownCell :=
  let x := s.permit p
  .permitIssue x.number (s.worker x.holder).badge x.points.length x.check ::
    (chunk3 (x.points.map fun pt => ((s.device pt.device).id, pt.required))).map fun places => .points x.number places

/-- R136: the state checks of PERMIT ISSUE, in order. -/
def State.issueRefusal (s : State) (p : Nat) : Option Detail :=
  let x := s.permit p
  if x.state ≠ .ready then some .notReady
  else if (s.watch x.holder).state ≠ .watching then some .watched
  else if (s.worker x.holder).membership.isSome then some .onPermit
  else none

/-- R136: the take of PERMIT ISSUE. -/
def State.issue (s : State) (p : Nat) : State :=
  let t := ((s.worker (s.permit p).holder).aboard).getD 0
  let group := s.issueGroup p
  let waits := s.groupWaits t group
  let s := (s.setPermitState p .issuing).updPermit p fun x =>
    { x with wrongReadbacks := 0, issueTruck := t, issueCells := if waits then .waiting else .queued,
             issueDelivered := 0 }
  (s.addGroup t group).raisePermitState p

/-- R136: the pending detail in the answer of PERMIT ISSUE. -/
def Permit.pendingDetail (x : Permit) : Pending := if x.issueCells = .waiting then .channel else .none

/-- PERMIT ISSUE (R136). -/
def permitIssue : Req → State → Take := onPermit fun p s =>
  match s.issueRefusal p with
  | some d => .refuse s (.wrongState d)
  | none =>
    let n := (s.issueGroup p).length
    let s := s.issue p
    let x := s.permit p
    .answered s (.ok [toWord p, toWord x.state.code, toWord n, toWord x.pendingDetail.code])

/-- R144: a member of permit p is in alarm. -/
def State.memberInAlarm (s : State) (p : Nat) : Bool := (s.permit p).members.any fun w => (s.watch w).inAlarm

/-- R144: the take of PERMIT RESUME. The members are told in member-list order (DESIGN CHOICE, log 27). -/
def State.resumePermit (s : State) (p : Nat) : State :=
  let s := (s.setPermitState p .issued).updPermit p fun x =>
    { x with alarmCauses := [], lostCauses := [], unplannedCauses := [] }
  ((s.permit p).members.foldl (fun s w => s.permitTold p w) s).raisePermitState p

/-- PERMIT RESUME (R144). -/
def permitResume : Req → State → Take := onPermit fun p s =>
  if (s.permit p).state ≠ .suspended then .refuse s (.wrongState .permitState)
  else if s.memberInAlarm p then .refuse s (.wrongState .alarmOpen)
  else if !s.permitReady p then .refuse s (.wrongState .notReady)
  else .answered (s.resumePermit p) .ok

/-- R146: the take of PERMIT CANCEL. -/
def State.cancelPermit (s : State) (p : Nat) : State :=
  let s := if (s.permit p).state = .issuing then s.withdrawIssue p else s
  ((s.setPermitState p .cancelled).raisePermitState p).closeTest p

/-- PERMIT CANCEL (R146). -/
def permitCancel : Req → State → Take := onPermit fun p s =>
  let st := (s.permit p).state
  if st = .draft ∨ st = .ready ∨ st = .issuing then
    let s := s.cancelPermit p
    .answered s (.ok [toWord (s.permit p).state.code])
  else .refuse s (.wrongState .permitState)

/-- The permit membership of a worker ends. -/
def State.leavePermit (s : State) (w : Nat) : State := s.setWorker w { s.worker w with membership := none }

/-- The member list of permit p empties (R145, R148). -/
def State.emptyMembers (s : State) (p : Nat) : State :=
  ((s.permit p).members.foldl (fun s w => s.leavePermit w) s).updPermit p fun x => { x with members := [] }

/-- R148 step 4: the RELEASED or READ BACK TAG and UNTAG steps of program g that name permit p are pulled back, and the
program, if RUNNING or HALTING, becomes HALTED with reason PERMIT CLOSED. DESIGN CHOICE: its waits are ended, and their room
offered, before PROGRAM HALTED is raised (log 31). -/
def State.recallForPermit (s : State) (p g : Nat) : State :=
  (s.recallSteps g fun st => decide (st.permit = some p)).foldl (fun s k =>
    let s := s.pullBack g k
    let st := (s.program g).state
    if st = .running ∨ st = .halting then
      ((s.updProgram g fun x => { x with state := .halted, halt := .permitClosed }).endWaits g).raiseHalted g
    else s) s

/-- R148 step 5: the permit's index taken off one device; the count of tags removed goes up. -/
def untagOne (p : Nat) (acc : State × Nat) (d : Nat) : State × Nat :=
  let done := acc.1.tagRemove d p
  (done.2, if done.1 = .removed then acc.2 + 1 else acc.2)

/-- R148: the take of PERMIT FORCE CLOSE, with the number of tags removed. Steps are pulled back in ascending program index
and step number (DESIGN CHOICE, log 27). -/
def State.forceClose (s : State) (p : Nat) : State × Nat :=
  let before := (s.permit p).state
  let s := s.withdrawIssue p
  let s := (s.emptyMembers p).updPermit p fun x => { x with alarmCauses := [], lostCauses := [], unplannedCauses := [] }
  let s := (s.setPermitState p .closed).updPermit p fun x => { x with timeClosed := s.clock }
  let s := (List.range Config.programs).foldl (fun s g => s.recallForPermit p g) s
  let done := (List.range Config.devices).foldl (untagOne p) (s, 0)
  (done.1.raise { done.1.permitNotice .permitForceClosed p before.code with value := done.2 }, done.2)

/-- PERMIT FORCE CLOSE (R148); AUTHORITY is read first (R175). -/
def permitForceClose : Req → State → Take := needAuthority (onPermit fun p s =>
  if (s.permit p).state = .closed then .refuse s (.wrongState .permitState)
  else
    let done := s.forceClose p
    .answered done.1 (.ok [toWord done.2]))

/-- PERMIT CLEAR (R149). -/
def permitClear : Req → State → Take := onPermit fun p s =>
  if (s.permit p).state ≠ .closed then .refuse s (.wrongState .permitState)
  else if s.inProgram (fun st => decide (st.permit = some p)) then .refuse s (.wrongState .inProgram)
  else .answered (s.setPermit p {}) (.ok [toWord p])

/-! ### Cells from trucks (R139 to R145) -/

/-- R139: a SIGN REPLY to truck t. -/
def State.signReply (s : State) (t number badge : Nat) (result : SignResult) : State :=
  s.addGroup t [.signReply number badge result]

/-- R139: the permit and the worker that a cell names, or the reply that says which is missing. -/
def State.permitCell (s : State) (t number badge : Nat) (act : Nat → Nat → State → State) : State :=
  match s.findPermit number with
  | none => s.signReply t number badge .noSuch
  | some p =>
    match s.findWorker badge with
    | none => s.signReply t number badge .notInRoster
    | some w => act p w s

/-- R140: an ACCEPT PERMIT's checks 1 to 6: the reply of the first that applies. -/
def State.acceptReply (s : State) (p w : Nat) (agrees : Bool) : Option SignResult :=
  let x := s.permit p
  let v := s.watch w
  if x.state = .issued ∧ x.holder = w ∧ agrees then some .ok
  else if x.state ≠ .issuing then some .permitState
  else if x.holder ≠ w then some .notHolder
  else if v.inAlarm then some .alarmOpen
  else if ¬ ((v.state = .watching ∨ v.state = .prompted) ∧ v.mode = .continuous) then some .notWatched
  else if (s.worker w).membership.isSome then some .onPermit
  else none

/-- R140: an acceptance taken. -/
def State.accepted (s : State) (t p w : Nat) : State :=
  let number := (s.permit p).number
  let badge := (s.worker w).badge
  let s := (s.setPermitState p .issued).updPermit p fun x => { x with timeIssued := s.clock, members := [w] }
  let s := s.setWorker w { s.worker w with membership := some p }
  let s := s.permitTold p w
  let s := s.withdrawIssue p
  (s.signReply t number badge .ok).raisePermitState p

/-- R141: an acceptance whose point count or check value differs from the record. -/
def State.wrongAccept (s : State) (t p badge : Nat) : State :=
  let s := s.updPermit p fun x => { x with wrongReadbacks := x.wrongReadbacks + 1 }
  let x := s.permit p
  let s := if x.wrongReadbacks < 3 then s
    else ((s.setPermitState p .ready).withdrawIssue p).raise
      { s.permitNotice .permitIssueFailed p 2 with value := x.wrongReadbacks }
  s.signReply t x.number badge .wrong

/-- R140, R141: an ACCEPT PERMIT cell from truck t. -/
def State.acceptPermit (s : State) (t number badge count check : Nat) : State :=
  s.permitCell t number badge fun p w s =>
    let agrees := decide (count = (s.permit p).points.length) && decide (check = (s.permit p).check)
    match s.acceptReply p w agrees with
    | some r => s.signReply t number badge r
    | none => if agrees then s.accepted t p w else s.wrongAccept t p badge

/-- R142: the checks of SIGN ON, in order. -/
def State.signOnReply (s : State) (p w : Nat) : Option SignResult :=
  let x := s.permit p
  let v := s.watch w
  if x.members.contains w then some .ok
  else if x.state = .suspended then some .suspended
  else if x.state ≠ .issued then some .permitState
  else if v.inAlarm then some .alarmOpen
  else if ¬ (v.state = .watching ∧ v.mode = .continuous) then some .notWatched
  else if (s.worker w).membership.isSome then some .onPermit
  else if 8 ≤ x.members.length then some .full
  else none

/-- R142: a SIGN ON cell from truck t. -/
def State.signOn (s : State) (t number badge : Nat) : State :=
  s.permitCell t number badge fun p w s =>
    match s.signOnReply p w with
    | some r => s.signReply t number badge r
    | none =>
      let s := s.updPermit p fun x => { x with members := x.members ++ [w] }
      let s := s.setWorker w { s.worker w with membership := some p }
      let s := s.permitTold p w
      let s := s.signReply t number badge .ok
      s.raise { s.permitNotice .memberSignedOn p with worker := w, truck := t }

/-- R143: the checks of SIGN OFF, in order. -/
def State.signOffReply (s : State) (p w : Nat) : Option SignResult :=
  let x := s.permit p
  if !x.members.contains w then some .notMember
  else if x.holder = w then some .holder
  else if (s.watch w).inAlarm then some .alarmOpen
  else none

/-- R143: a SIGN OFF cell from truck t. -/
def State.signOff (s : State) (t number badge : Nat) : State :=
  s.permitCell t number badge fun p w s =>
    match s.signOffReply p w with
    | some r => s.signReply t number badge r
    | none =>
      let s := s.updPermit p fun x => { x with members := x.members.filter fun m => decide (m ≠ w) }
      let s := (s.leavePermit w).signReply t number badge .ok
      s.raise { s.permitNotice .memberSignedOff p with worker := w, truck := t }

/-- R145: the checks of SURRENDER, in order. -/
def State.surrenderReply (s : State) (p w : Nat) : Option SignResult :=
  let x := s.permit p
  if (x.state = .surrendered ∨ x.state = .closed) ∧ x.holder = w then some .ok
  else if x.state = .suspended then some .suspended
  else if x.state ≠ .issued then some .permitState
  else if x.holder ≠ w then some .notHolder
  else if x.members.any fun m => decide (m ≠ x.holder) then some .membersRemain
  else none

/-- R145: a SURRENDER cell from truck t. -/
def State.surrender (s : State) (t number badge : Nat) : State :=
  s.permitCell t number badge fun p w s =>
    match s.surrenderReply p w with
    | some r => s.signReply t number badge r
    | none =>
      let s := (s.emptyMembers p).setPermitState p .surrendered
      ((s.signReply t number badge .ok).raisePermitState p).closeTest p

/-! ### Meanings -/

/-- PERMIT_CLOSE: the test of R147 on one permit. -/
def execPermitClose (p : Fin 32) (s : State) : Host.Outcome State Fault Refusal :=
  .next (publish s (s.closeTest p))

/-- PERMIT_DRAFT: the take of a PERMIT DRAFT card (R133). -/
def execPermitDraft (c : Fin 64) (s : State) : Host.Outcome State Fault Refusal :=
  .next (publish s (s.takeAs .permitDraft c permitDraft))

/-- PERMIT_ISSUE: the take of a PERMIT ISSUE card (R136). -/
def execPermitIssue (c : Fin 64) (s : State) : Host.Outcome State Fault Refusal :=
  .next (publish s (s.takeAs .permitIssue c permitIssue))

/-- PERMIT_RESUME: the take of a PERMIT RESUME card (R144). -/
def execPermitResume (c : Fin 64) (s : State) : Host.Outcome State Fault Refusal :=
  .next (publish s (s.takeAs .permitResume c permitResume))

/-- PERMIT_CANCEL: the take of a PERMIT CANCEL card (R146). -/
def execPermitCancel (c : Fin 64) (s : State) : Host.Outcome State Fault Refusal :=
  .next (publish s (s.takeAs .permitCancel c permitCancel))

/-- PERMIT_FORCE_CLOSE: the take of a PERMIT FORCE CLOSE card (R148). DESIGN CHOICE: each record that it changes, the closing
permit's among them, has one passage for the card, not one for each tag removed (log 6). -/
def execPermitForceClose (c : Fin 64) (s : State) : Host.Outcome State Fault Refusal :=
  .next (publish s (s.takeAs .permitForceClose c permitForceClose))

/-- PERMIT_CLEAR: the take of a PERMIT CLEAR card (R149). -/
def execPermitClear (c : Fin 64) (s : State) : Host.Outcome State Fault Refusal :=
  .next (publish s (s.takeAs .permitClear c permitClear))

end Sys2Proof.Machine
end

