-- ==== Sys2Proof/Machine/Registry.lean ====
section
/-! DEFINITION. Trucks and crews (spec/01_trucks_and_crews.md): the nine registry cards, trucks heard, and stray units. -/

namespace Sys2Proof.Machine

/-- Truck t changed. -/
def State.updTruck (s : State) (t : Nat) (f : Truck → Truck) : State := s.setTruck t (f (s.truck t))

/-- Worker w changed. -/
def State.updWorker (s : State) (w : Nat) (f : Worker → Worker) : State := s.setWorker w (f (s.worker w))

/-- R1: the answer values for a truck entry. -/
def State.truckAnswer (s : State) (t : Nat) : List Word := [toWord t, toWord (s.truck t).state.code]

/-- R1: the answer values for a roster entry. -/
def State.workerAnswer (s : State) (w : Nat) : List Word := [toWord w, wordIndex (s.worker w).aboard]

/-! ### TRUCK ADD (R6) -/

/-- R183: the characters of a call sign, two to a word, the earlier in the low half. -/
def callSign (r : Req) : List Byte :=
  [lowByte (r 10), highByte (r 10), lowByte (r 11), highByte (r 11), lowByte (r 12), highByte (r 12), lowByte (r 13),
   highByte (r 13)]

/-- R6: a character of a call sign. -/
def charOk (b : Byte) : Bool := decide (0x20 ≤ b.toNat) && decide (b.toNat ≤ 0x7E)

/-- R6, R176: the word offset that a call sign with a character out of range is answered with: 10, at which the field begins
(DEDUCED, log 16). -/
def callSignFault (r : Req) : Option Nat := if (callSign r).all charOk then none else some 10

/-- The lowest-numbered VACANT truck entry. -/
def State.vacantTruck (s : State) : Option Nat :=
  lowestFree Config.trucks fun t => decide ((s.truck t).state = .vacant)

/-- R6: the entry filled, with the other blocks' fields at their starting values; a last stray id of the same radio
becomes 0. -/
def State.addTruck (s : State) (t radio : Nat) (r : Req) : State :=
  let s := s.setTruck t { radioId := radio, callSign := callSign r, state := .registered,
                          linkNotice := decide (r.num 14 = 1) }
  let s := s.setLink t {}
  let s := s.setCounter t { sinceUp := 0, probe := s.settings.probePeriod }
  let s := ((s.setList t {}).setQueue t []).setTruckAlarm t none
  if s.strayId = radio then { s with strayId := 0 } else s

/-- TRUCK ADD (R6). -/
def truckAdd (r : Req) (s : State) : Take :=
  if !radioOk (r.radio 8) then .refuse s (.badField 8)
  else match callSignFault r with
    | some off => .refuse s (.badField off)
    | none =>
      if 1 < r.num 14 then .refuse s (.badField 14)
      else if (s.findTruck (r.radio 8)).isSome then .refuse s (.duplicate 8)
      else match s.vacantTruck with
        | none => .refuse s .noRoom
        | some t =>
          let s := s.addTruck t (r.radio 8) r
          .answered s (.ok (s.truckAnswer t))

/-! ### Cards that name a truck -/

/-- The range and reference checks of TRUCK REMOVE, TRUCK PARK and TRUCK UNPARK. -/
def onTruck (act : Nat → State → Take) (r : Req) (s : State) : Take :=
  if !radioOk (r.radio 8) then .refuse s (.badField 8)
  else match s.findTruck (r.radio 8) with
    | none => .refuse s (.noSuch 8)
    | some t => act t s

/-- R71: an order in COMPLETE, DECLINED or WITHDRAWN is finished; any other is open. -/
def OrderState.finished : OrderState → Bool
  | .complete => true | .declined => true | .withdrawn => true
  | .queued => false | .sending => false | .stalled => false | .delivered => false | .accepted => false
  | .enRoute => false | .onSite => false | .withdrawing => false

/-- R73, R74: the ORDER POST copies in progress. -/
def State.orderJobs (s : State) : List OrderJob :=
  s.copies.filterMap fun c => match c.job with
    | .order j => some j
    | .program _ => none

/-- R7, R74: an open order, or an ORDER POST in copy, names truck t. -/
def State.openOrders (s : State) (t : Nat) : Bool :=
  (s.orders.any fun e => e.2.inUse && decide (e.2.truck = t) && !e.2.state.finished)
  || s.orderJobs.any fun j => decide (j.truck = t)

/-- R7: a step of a program in RUNNING, HALTING or HALTED names truck t. -/
def State.truckInProgram (s : State) (t : Nat) : Bool :=
  s.programs.any fun e =>
    (decide (e.2.state = .running) || decide (e.2.state = .halting) || decide (e.2.state = .halted))
    && e.2.steps.any fun st => decide (st.truck = t)

/-- R7: the state checks of TRUCK REMOVE, in order. -/
def State.removeRefusal (s : State) (t : Nat) : Option Detail :=
  if !(s.truck t).crew.isEmpty then some .crewAboard
  else if s.openOrders t then some .openOrders
  else if s.truckInProgram t then some .inProgram
  else if (s.truckAlarm t).isSome then some .alarmOpen
  else none

/-- R162: what Switching Control does with a discarded cell: a STEP's instruction becomes NONE, a STEP CANCEL's count falls. -/
def State.cellDiscarded (s : State) (c : DownCell) : State :=
  match c with
  | .step number k _ _ _ =>
    match s.findProgram number with
    | some g => s.updStep g k Step.cellWithdrawn
    | none => s
  | .stepCancel number _ =>
    match s.findProgram number with
    | some g => s.updProgram g fun x => { x with cancels := x.cancels - 1 }
    | none => s
  | _ => s

/-- R162: a discarded entry of the list; a STEP of a program since freed tells the new program nothing. -/
def State.entryDiscarded (s : State) (e : Entry) : State := if s.staleStep e then s else s.cellDiscarded e.cell

/-- R138: a permit whose issue truck is removed while it is ISSUING falls back to READY. -/
def State.issueLost (s : State) (t p : Nat) : State :=
  let x := s.permit p
  if x.state = .issuing ∧ x.issueTruck = t then
    let s := (s.setPermitState p .ready).updPermit p fun x =>
      { x with issueCells := .none, issueDelivered := 0, wrongReadbacks := 0 }
    s.raise (s.permitNotice .permitIssueFailed p 1)
  else s

/-- R7: the take of TRUCK REMOVE: the entry VACANT, the cells discarded and their owners told, list order first and then the
waiting queue; ISSUING permits fall back in ascending index (the order is a DESIGN CHOICE, log 13). -/
def State.removeTruck (s : State) (t : Nat) : State :=
  let l := s.list t
  let s := ((((s.setTruck t {}).setLink t {}).setCounter t {}).setList t {}).setQueue t []
  let s := l.cells.foldl (fun s e => s.entryDiscarded e) s
  let s := l.waiting.flatten.foldl State.cellDiscarded s
  (List.range Config.permits).foldl (fun s p => s.issueLost t p) s

/-- TRUCK REMOVE (R7). -/
def truckRemove : Req → State → Take := onTruck fun t s =>
  match s.removeRefusal t with
  | some d => .refuse s (.wrongState d)
  | none =>
    let s := s.removeTruck t
    .answered s (.ok (s.truckAnswer t))

/-- R8: a worker of the truck's crew is watched. -/
def State.crewWatched (s : State) (t : Nat) : Bool :=
  (s.truck t).crew.any fun w => decide ((s.watch w).state ≠ .off)

/-- TRUCK PARK (R8). -/
def truckPark : Req → State → Take := onTruck fun t s =>
  if (s.truck t).state = .parked then .answered s (.ok (s.truckAnswer t))
  else if s.crewWatched t then .refuse s (.wrongState .watched)
  else
    let s := s.updTruck t fun x => { x with state := .parked, stateBefore := x.state }
    .answered s (.ok (s.truckAnswer t))

/-- R9: a PARKED truck returns to its state before park, silent count 0, and Switching Control is told. -/
def State.unpark (s : State) (t : Nat) : State :=
  let s := s.updTruck t fun x => { x with state := x.stateBefore }
  let s := s.setLink t { s.link t with silent := 0 }
  s.truckAvailable t

/-- TRUCK UNPARK (R9). -/
def truckUnpark : Req → State → Take := onTruck fun t s =>
  if (s.truck t).state ≠ .parked then .answered s (.ok (s.truckAnswer t))
  else
    let s := s.unpark t
    .answered s (.ok (s.truckAnswer t))

/-! ### The roster (R10 to R14) -/

/-- The lowest-numbered free roster entry. -/
def State.freeWorker (s : State) : Option Nat := lowestFree Config.workers fun w => !(s.worker w).inUse

/-- WORKER ADD (R10). -/
def workerAdd (r : Req) (s : State) : Take :=
  if !idOk (r.num 8) then .refuse s (.badField 8)
  else if (s.findWorker (r.num 8)).isSome then .refuse s (.duplicate 8)
  else match s.freeWorker with
    | none => .refuse s .noRoom
    | some w =>
      let s := (s.setWorker w { inUse := true, badge := r.num 8 }).setWatch w {}
      .answered s (.ok (s.workerAnswer w))

/-- The range and reference checks of the cards that name a worker alone. -/
def onWorker (act : Nat → State → Take) (r : Req) (s : State) : Take :=
  if !idOk (r.num 8) then .refuse s (.badField 8)
  else match s.findWorker (r.num 8) with
    | none => .refuse s (.noSuch 8)
    | some w => act w s

/-- The worker leaves the crew list it is on, if any; those after it move up. -/
def State.leaveCrew (s : State) (w : Nat) : State :=
  match (s.worker w).aboard with
  | none => s
  | some t => s.updTruck t fun x => { x with crew := x.crew.filter fun m => decide (m ≠ w) }

/-- R11: worker w is a member of a permit, or holds one in a state other than CLOSED. -/
def State.onAnyPermit (s : State) (w : Nat) : Bool :=
  (s.worker w).membership.isSome
  || s.permits.any fun e => e.2.inUse && decide (e.2.holder = w) && decide (e.2.state ≠ .closed)

/-- WORKER REMOVE (R11). -/
def workerRemove : Req → State → Take := onWorker fun w s =>
  if (s.watch w).inAlarm then .refuse s (.wrongState .alarmOpen)
  else if (s.watch w).state ≠ .off then .refuse s (.wrongState .watched)
  else if s.onAnyPermit w then .refuse s (.wrongState .onPermit)
  else
    let s := ((s.leaveCrew w).setWorker w {}).setWatch w {}
    .answered s (.ok (s.workerAnswer w))

/-- R13, R111: the PROMPT and the ALARM SEEN of a worker. -/
def isWorkerCell (badge : Nat) : DownCell → Bool
  | .prompt b => decide (b = badge)
  | .alarmSeenWorker b => decide (b = badge)
  | _ => false

/-- R13, R111: entries of a worker moved from one list to another, each keeping its age, attempt count and marks. -/
def State.moveCells (s : State) (src dst badge : Nat) : State :=
  let moved := (s.list src).cells.filter fun e => isWorkerCell badge e.cell
  let s := s.withdrawA src (isWorkerCell badge)
  moved.foldl (fun s e =>
    let l := s.list dst
    s.setList dst { l with cells := insertEntry s.ageCounter e l.cells }) s

/-- R12: the take of BOARD. -/
def State.boardTruck (s : State) (w t : Nat) : State :=
  let old := (s.worker w).aboard
  let s := (s.leaveCrew w).updTruck t fun x => { x with crew := x.crew ++ [w] }
  let s := s.updWorker w fun x => { x with aboard := some t }
  match old with
  | some o => s.moveCells o t (s.worker w).badge
  | none => s

/-- BOARD (R12). -/
def boardCard (r : Req) (s : State) : Take :=
  if !idOk (r.num 8) then .refuse s (.badField 8)
  else if !radioOk (r.radio 9) then .refuse s (.badField 9)
  else match s.findWorker (r.num 8) with
    | none => .refuse s (.noSuch 8)
    | some w =>
      match s.findTruck (r.radio 9) with
      | none => .refuse s (.noSuch 9)
      | some t =>
        if (s.worker w).aboard = some t then .answered s (.ok (s.workerAnswer w))
        else if 4 ≤ (s.truck t).crew.length then .refuse s .noRoom
        else if (s.truck t).state = .parked ∧ (s.watch w).state ≠ .off then .refuse s (.wrongState .watched)
        else
          let s := s.boardTruck w t
          .answered s (.ok (s.workerAnswer w))

/-- ALIGHT (R14). -/
def alightCard : Req → State → Take := onWorker fun w s =>
  if (s.worker w).aboard = none then .answered s (.ok (s.workerAnswer w))
  else if (s.watch w).state ≠ .off then .refuse s (.wrongState .watched)
  else
    let s := (s.leaveCrew w).updWorker w fun x => { x with aboard := none }
    .answered s (.ok (s.workerAnswer w))

/-! ### FLAGS CLEAR (R15) -/

/-- R15: the site CLIPPED flag and the last stray fields cleared. -/
def State.clearSiteFlags (s : State) : State := { s with siteClipped := false, strayId := 0, strayTime := 0 }

/-- R15: the CLIPPED flag of every truck cleared. -/
def State.clearTruckFlags (s : State) : State :=
  { s with links := tableMap {} (fun l => { l with clipped := false }) s.links }

/-- FLAGS CLEAR (R15). -/
def flagsClear (r : Req) (s : State) : Take :=
  let radio := r.radio 8
  if radio = 0 then .answered s.clearSiteFlags .ok
  else if radio = 16777215 then .answered s.clearSiteFlags.clearTruckFlags .ok
  else if !radioOk radio then .refuse s (.badField 8)
  else match s.findTruck radio with
    | none => .refuse s (.noSuch 8)
    | some t =>
      let s := s.setLink t { s.link t with clipped := false }
      .answered s (.ok (s.truckAnswer t))

/-! ### Trucks heard and strays (R3, R5, R16, R17) -/

/-- R5: last heard and MORE from a GOOD burst of truck t. -/
def State.markHeard (s : State) (t : Nat) (more : Bool) : State :=
  s.updTruck t fun x => { x with lastHeard := s.clock, more }

/-- R3: a REGISTERED truck heard becomes ON AIR, TRUCK BACK is raised with reason FIRST HEARD, and Switching Control is told. -/
def State.firstHeard (s : State) (t : Nat) : State :=
  if (s.truck t).state = .registered then
    let s := s.updTruck t fun x => { x with state := .onAir }
    (s.raise { kind := .truckBack, reason := 2, truck := t }).truckAvailable t
  else s

/-- R16, R17: the last stray id and time. -/
def State.noteStray (s : State) (radio : Nat) : State := { s with strayId := radio, strayTime := s.clock }

/-- R186: a notice whose subject is a stray radio: the radio id in words 8 and 9. -/
def strayNotice (kind : NoticeKind) (radio : Nat) : Notice :=
  { kind, item := radio % 65536, device := radio / 65536 }

/-- R16: a stray burst without an alarm cell. -/
def State.strayUnit (s : State) (radio : Nat) (rssi : Int) : State :=
  if radio = s.strayId then { s with strayTime := s.clock }
  else (s.raise { strayNotice .strayUnit radio with value := rssi }).noteStray radio

/-- R17: a stray burst with a PANIC or MAN DOWN cell. -/
def State.strayAlarm (s : State) (radio badge : Nat) (rssi : Int) : State :=
  (s.raise { strayNotice .strayUnit radio with value := rssi, reason := 1, badge }).noteStray radio

/-! ### Meanings -/

/-- TRUCK_ADD: the take of a TRUCK ADD card (R6). -/
def execTruckAdd (c : Fin 64) (s : State) : Host.Outcome State Fault Refusal :=
  .next (publish s (s.takeAs .truckAdd c truckAdd))

/-- TRUCK_REMOVE: the take of a TRUCK REMOVE card (R7). -/
def execTruckRemove (c : Fin 64) (s : State) : Host.Outcome State Fault Refusal :=
  .next (publish s (s.takeAs .truckRemove c truckRemove))

/-- TRUCK_PARK: the take of a TRUCK PARK card (R8). -/
def execTruckPark (c : Fin 64) (s : State) : Host.Outcome State Fault Refusal :=
  .next (publish s (s.takeAs .truckPark c truckPark))

/-- TRUCK_UNPARK: the take of a TRUCK UNPARK card (R9). -/
def execTruckUnpark (c : Fin 64) (s : State) : Host.Outcome State Fault Refusal :=
  .next (publish s (s.takeAs .truckUnpark c truckUnpark))

/-- WORKER_ADD: the take of a WORKER ADD card (R10). -/
def execWorkerAdd (c : Fin 64) (s : State) : Host.Outcome State Fault Refusal :=
  .next (publish s (s.takeAs .workerAdd c workerAdd))

/-- WORKER_REMOVE: the take of a WORKER REMOVE card (R11). -/
def execWorkerRemove (c : Fin 64) (s : State) : Host.Outcome State Fault Refusal :=
  .next (publish s (s.takeAs .workerRemove c workerRemove))

/-- BOARD: the take of a BOARD card (R12, R13). -/
def execBoard (c : Fin 64) (s : State) : Host.Outcome State Fault Refusal :=
  .next (publish s (s.takeAs .board c boardCard))

/-- ALIGHT: the take of an ALIGHT card (R14). -/
def execAlight (c : Fin 64) (s : State) : Host.Outcome State Fault Refusal :=
  .next (publish s (s.takeAs .alight c alightCard))

/-- FLAGS_CLEAR: the take of a FLAGS CLEAR card (R15). -/
def execFlagsClear (c : Fin 64) (s : State) : Host.Outcome State Fault Refusal :=
  .next (publish s (s.takeAs .flagsClear c flagsClear))

end Sys2Proof.Machine
end

