-- ==== Sys2Proof/Machine/Grading.lean ====
section
/-! DEFINITION. Link grading (spec/03_link_grading.md): samples, settling, smoothing, hysteresis, LOST, the noise floor, and SITE SET. -/

namespace Sys2Proof.Machine

/-- The link of truck t changed. -/
def State.updLink (s : State) (t : Nat) (f : Link → Link) : State := s.setLink t (f (s.link t))

/-- What a slot report says of a truck's slot (R24, R25): a GOOD burst, a GARBLED one, or NOTHING HEARD. -/
inductive Heard where
  | good (rssi : Int)
  | garbled (rssi : Int)
  | nothing
deriving DecidableEq, Repr

/-! ### Clamps and samples (R42 to R44) -/

/-- R43: an RSSI clamped to -130..-40. -/
def clampRssi (r : Int) : Int := max (-130) (min (-40) r)

/-- R42: a noise floor clamped to -130..-80. -/
def clampNoise (n : Int) : Int := max (-130) (min (-80) n)

/-- R44: the sample of a GOOD burst: ten times the margin over the noise floor, the margin clamped to 0..50. -/
def goodSample (rssi noise : Int) : Nat := 10 * (max 0 (min 50 (clampRssi rssi - noise))).toNat

/-- R44: the sample of a report, with the quality as it stands before it. -/
def sample (h : Heard) (quality : Nat) (noise : Int) : Nat :=
  match h with
  | .good r => goodSample r noise
  | .garbled _ => quality - 60
  | .nothing => 0

/-- R43: the CLIPPED flag after a report. -/
def Link.clip (l : Link) (h : Heard) : Link :=
  match h with
  | .good r => { l with clipped := l.clipped || decide (clampRssi r ≠ r) }
  | .garbled r => { l with clipped := l.clipped || decide (clampRssi r ≠ r) }
  | .nothing => l

/-- R44: the silent count after a report. -/
def Link.count (l : Link) (h : Heard) : Link :=
  match h with
  | .good _ => { l with silent := 0 }
  | .garbled _ => { l with silent := 0 }
  | .nothing => { l with silent := min (l.silent + 1) 255 }

/-! ### Settling, smoothing, hysteresis (R46 to R48) -/

/-- R46: the grade set from Q at the end of settling. -/
def settledGrade (st : Settings) (q : Nat) : Grade :=
  if st.fairUp ≤ q then .strong else if st.weakUp ≤ q then .fair else .weak

/-- R46: one settling step with sample x. -/
def Link.settleStep (l : Link) (st : Settings) (x : Nat) : Link :=
  let q := if l.settle = 0 then x else (l.quality + x + 1) / 2
  let l := { l with quality := q, settle := l.settle + 1 }
  if l.settle = 4 then { l with grade := settledGrade st q } else l

/-- R47: smoothing. -/
def smooth (q x : Nat) : Nat := (3 * q + x + 2) / 4

/-- R48: the target grade. -/
def targetGrade (st : Settings) (g : Grade) (q : Nat) : Grade :=
  match g with
  | .strong => if q < st.weakDown then .weak else if q < st.fairDown then .fair else .strong
  | .fair => if st.fairUp ≤ q then .strong else if q < st.weakDown then .weak else .fair
  | .weak => if st.fairUp ≤ q then .strong else if st.weakUp ≤ q then .fair else .weak
  | .settling => .settling
  | .lost => .lost

/-- R48: the direction of a target: grades rank STRONG, FAIR, WEAK. -/
def runDir (g target : Grade) : RunDir :=
  if target = g then .none else if target.code < g.code then .up else .down

/-- R48: the run moves, and at 3 the grade becomes the target. -/
def Link.hysteresis (l : Link) (st : Settings) : Link :=
  let target := targetGrade st l.grade l.quality
  let dir := runDir l.grade target
  if target = l.grade then { l with run := 0, dir := .none }
  else
    let run := if 1 ≤ l.run ∧ dir = l.dir then l.run + 1 else 1
    if 3 ≤ run then { l with grade := target, run := 0, dir := .none } else { l with run, dir }

/-- R47, R48: a report on a STRONG, FAIR or WEAK truck. -/
def Link.graded (l : Link) (st : Settings) (x : Nat) : Link :=
  ({ l with quality := smooth l.quality x }).hysteresis st

/-! ### Notices (R51) -/

/-- R51, R186: the reason code of GRADE CHANGE. -/
def gradeChangeCode (old new : Grade) : Nat :=
  match old, new with
  | .strong, .fair => 1
  | .strong, .weak => 2
  | .fair, .strong => 3
  | .fair, .weak => 4
  | .weak, .strong => 5
  | .weak, .fair => 6
  | _, _ => 0

/-- R51: GRADE CHANGE raised for a truck with the link-notice option whose grade has changed from `old`. -/
def State.raiseGradeChange (s : State) (t : Nat) (old : Grade) : State :=
  let l := s.link t
  if l.grade ≠ old ∧ (s.truck t).linkNotice then
    s.raise { kind := .gradeChange, reason := gradeChangeCode old l.grade, truck := t, value := l.quality }
  else s

/-- R45: an ON AIR truck graded LOST: SILENT, and TRUCK LOST with Q as held. -/
def State.gradeLost (s : State) (t : Nat) : State :=
  let s := s.updLink t fun l => { l with grade := .lost, run := 0, dir := .none }
  let s := s.updTruck t fun x => { x with state := .silent }
  s.raise { kind := .truckLost, reason := 1, truck := t, value := (s.link t).quality }

/-- R49: a GOOD burst takes a truck out of LOST: SETTLING afresh with this sample, ON AIR, TRUCK BACK, Switching Control told. -/
def State.leaveLost (s : State) (t x : Nat) : State :=
  let s := s.updLink t fun l =>
    ({ l with grade := .settling, settle := 0, run := 0, dir := .none }).settleStep s.settings x
  let s := s.updTruck t fun y => { y with state := .onAir }
  let s := s.raise { kind := .truckBack, reason := 1, truck := t, value := (s.link t).quality }
  s.truckAvailable t

/-! ### A report (R41) -/

/-- R41: whether a report is GOOD. -/
def Heard.isGood : Heard → Bool
  | .good _ => true | .garbled _ => false | .nothing => false

/-- R41: a report of an ON AIR truck that is not LOST after its LOST check. -/
def State.onAirStep (s : State) (t x : Nat) : State :=
  let old := (s.link t).grade
  if old = .settling then s.updLink t fun l => l.settleStep s.settings x
  else (s.updLink t fun l => l.graded s.settings x).raiseGradeChange t old

/-- R41: a report of an ON AIR truck. -/
def State.onAirReport (s : State) (t x : Nat) (h : Heard) : State :=
  if h = .nothing ∧ s.settings.lostCount ≤ (s.link t).silent then s.gradeLost t else s.onAirStep t x

/-- R41: one report taken for truck t, by its state and grade. A truck that is PARKED or VACANT gives none. -/
def State.gradeReport (s : State) (t : Nat) (h : Heard) : State :=
  let x := sample h (s.link t).quality s.noise
  let counted := s.updLink t fun l => (l.clip h).count h
  match (s.truck t).state with
  | .vacant => s
  | .parked => s
  | .registered => if h.isGood then counted.updLink t fun l => l.settleStep s.settings x else counted
  | .onAir =>
    if (s.link t).grade = .lost then (if h.isGood then counted.leaveLost t x else counted)
    else counted.onAirReport t x h
  | .silent => if h.isGood then counted.leaveLost t x else counted

/-! ### The noise report (R42) -/

/-- R42: a noise report taken while a round runs. -/
def State.noiseTaken (s : State) (dBm : Int) : State :=
  { s with noise := clampNoise dBm, siteClipped := s.siteClipped || decide (clampNoise dBm ≠ dBm) }

/-- R22, R42: the header of the running round has completed; the noise floor keeps its value. -/
def State.headerCompleted (s : State) : State :=
  { s with round := s.round.map fun r => { r with headerDone := true } }

/-! ### SITE SET (R20, R40, R64) -/

/-- R40, R185: the given flag of setting number `i`. -/
def given (r : Req) (i : Nat) : Bool := (r 8).getLsbD i

/-- A setting as it stands after the card. -/
def giveOr (r : Req) (i : Nat) (value kept : Nat) : Nat := if given r i then value else kept

/-- R40, R64: the settings as they would stand after the card. -/
def Settings.after (st : Settings) (r : Req) : Settings :=
  { weakDown := giveOr r 1 (r.num 10) st.weakDown, weakUp := giveOr r 2 (r.num 11) st.weakUp,
    fairDown := giveOr r 3 (r.num 12) st.fairDown, fairUp := giveOr r 4 (r.num 13) st.fairUp,
    lostCount := giveOr r 5 (clampTo 3 20 (r.num 14)) st.lostCount,
    pollPeriod := giveOr r 6 (clampTo 2 30 (r.num 15)) st.pollPeriod,
    probePeriod := giveOr r 7 (clampTo 4 30 (r.num 16)) st.probePeriod }

/-- R40: the offset of the first threshold, in card order, at which the combination rule breaks:
0 < weakDown < weakUp ≤ fairDown < fairUp ≤ 500 (log 16). -/
def Settings.combinationFault (st : Settings) : Option Nat :=
  if st.weakDown = 0 then some 10
  else if st.weakUp ≤ st.weakDown then some 11
  else if st.fairDown < st.weakUp then some 12
  else if st.fairUp ≤ st.fairDown ∨ 500 < st.fairUp then some 13
  else none

/-- R40, R64: the first given setting clamped. -/
def siteClamped (r : Req) : Option Nat :=
  firstClamped [(14, given r 5 && !inRange 3 20 (r.num 14)), (15, given r 6 && !inRange 2 30 (r.num 15)),
    (16, given r 7 && !inRange 4 30 (r.num 16))]

/-- SITE SET (R20, R40, R64); AUTHORITY is read first (R175). -/
def siteSet : Req → State → Take := needAuthority fun r s =>
  let st := s.settings.after r
  if 255 < r.num 8 then .refuse s (.badField 8)
  else match st.combinationFault with
    | some off => .refuse s (.badCombination off)
    | none =>
      .answered { s with settings := st, siteCode := giveOr r 0 (r.num 9) s.siteCode } (.doneOr (siteClamped r))

/-! ### Meanings -/

/-- R22, R36: a noise report is taken while a round runs and its header is still being sent (log 3). -/
def State.headerRunning (s : State) : Bool :=
  match s.round with
  | some r => !r.headerDone
  | none => false

/-- NOISE_REPORT (R42): taken while the header is sent; the site block is republished in any case. -/
def execNoiseReport (dBm : Int) (s : State) : Host.Outcome State Fault Refusal :=
  .next (if s.headerRunning then publish s (s.noiseTaken dBm) [siteBase] else s)

/-- HEADER_COMPLETE (R22, R42): the running round's header has completed. -/
def execHeaderComplete (s : State) : Host.Outcome State Fault Refusal :=
  .next (publish s s.headerCompleted)

/-- SITE_SET: the take of a SITE SET card (R40). It republishes the site block even when no setting changes (R53); a refused
card does not. -/
def execSiteSet (c : Fin 64) (s : State) : Host.Outcome State Fault Refusal :=
  .next (publish s (s.takeAs .siteSet c siteSet) (s.takeForces .siteSet c siteSet fun _ _ => [siteBase]))

end Sys2Proof.Machine
end

