-- ==== Sys2Proof/Machine/Programs.lean ====
section
/-! DEFINITION. Switching programs (spec/09_switching_programs.md): program cards, the load's staging copy, the READBACK and EXECUTED
cells, and the ends of waits. -/

namespace Sys2Proof.Machine

/-! ### Staging copies (R177) -/

/-- R177: the staging words of a copy that are still to be read, as they stand. -/
def State.restOfCopy (s : State) (c : Copy) : List Word :=
  (List.range (c.total - c.read.length)).map fun i => s.rawWord (stagingBase c.buffer + c.read.length + i)

/-- R177: all the words of a copy once its last word is read. -/
def State.copyWords (s : State) (c : Copy) : List Word := c.read ++ s.restOfCopy c

/-- The copy of a card taken out of the copies in progress. -/
def State.endCopy (s : State) (card : Nat) : State :=
  { s with copies := s.copies.filter fun c => decide (c.card ≠ card) }

/-- A copy started for a card. -/
def State.startCopy (s : State) (c : Copy) : State := { s with copies := s.copies ++ [c] }

/-! ### PROGRAM LOAD (R152, R153) -/

/-- R152: the loads in copy. -/
def State.programJobs (s : State) : List ProgramJob :=
  s.copies.filterMap fun c => match c.job with
    | .program j => some j
    | .order _ => none

/-- R152: the lowest-numbered EMPTY record that no load in copy reserves. -/
def State.freeProgramIndex (s : State) : Option Nat :=
  lowestFree Config.programs fun g =>
    decide ((s.program g).state = .empty) && !s.programJobs.any fun j => decide (j.record = g)

/-- PROGRAM LOAD (R152): the checks, the reservation and the start of the copy. -/
def programLoad (card : Nat) (r : Req) (s : State) : Take :=
  if !idOk (r.num 8) then .refuse s (.badField 8)
  else match ProgramMode.ofCode (r.num 9) with
    | none => .refuse s (.badField 9)
    | some mode =>
      if 7 < r.num 10 then .refuse s (.badField 10)
      else if !inRange 1 24 (r.num 11) then .refuse s (.badField 11)
      else if (s.findProgram (r.num 8)).isSome || s.programJobs.any fun j => decide (j.number = r.num 8) then
        .refuse s (.duplicate 8)
      else match s.freeProgramIndex with
        | none => .refuse s .noRoom
        | some g =>
          ⟨s.startCopy { card, buffer := r.num 10, total := 8 * r.num 11,
                         job := .program { record := g, number := r.num 8, mode, count := r.num 11 } }, none⟩

/-- R152, R185: a step as the staging buffer gives it. -/
structure RawStep where
  device : Nat
  action : Nat
  rule : Nat
  permit : Nat
  radio : Nat
  guard : Nat
  ref : Nat

/-- R185: step number i + 1 in the words of a copy. -/
def rawStep (ws : List Word) (i : Nat) : RawStep :=
  let w (j : Nat) : Nat := (ws.getD (8 * i + j) 0).toNat
  { device := w 0, action := w 1 % 256, rule := w 1 / 256, permit := w 2, radio := w 3 + 65536 * w 4,
    guard := w 5, ref := w 6 }

/-- R153 stage 1: a field out of its range or list. -/
def RawStep.badField (x : RawStep) : Bool :=
  (Action.ofCode x.action).isNone || (Guard.ofCode x.guard).isNone || (ConfirmRule.ofCode x.rule).isNone
  || !idOk x.device || !inRange 0 65534 x.ref || !inRange 0 65534 x.permit || !radioOk x.radio

/-- R153 stage 2: a permit number with OPEN or CLOSE, or none with TAG or UNTAG. -/
def RawStep.badCombination (x : RawStep) : Bool :=
  if x.action ≤ 1 then decide (x.permit ≠ 0) else decide (x.permit = 0)

/-- R153 stage 3: an object named that does not exist. -/
def State.missing (s : State) (x : RawStep) : Bool :=
  (s.findDevice x.device).isNone || (decide (x.ref ≠ 0) && (s.findDevice x.ref).isNone)
  || (decide (x.permit ≠ 0) && (s.findPermit x.permit).isNone) || (s.findTruck x.radio).isNone

/-- R153: the number, from 1, of the first step that `p` names. -/
def firstStep (p : RawStep → Bool) (steps : List RawStep) : Option Nat :=
  let n := (steps.takeWhile fun x => !p x).length
  if n < steps.length then some (n + 1) else none

/-- R153: the stages in order, the first failure giving the answer. -/
def State.loadFault (s : State) (steps : List RawStep) : Option Answer :=
  match firstStep RawStep.badField steps with
  | some k => some (.badField k)
  | none =>
    match firstStep RawStep.badCombination steps with
    | some k => some (.badCombination k)
    | none => (firstStep s.missing steps).map .noSuch

/-- R151, R153: the step record that a checked step fills. -/
def State.loadStep (s : State) (x : RawStep) : Step :=
  let device := (s.findDevice x.device).getD 0
  { device, action := (Action.ofCode x.action).getD .openIt,
    permit := if x.permit = 0 then none else s.findPermit x.permit,
    truck := (s.findTruck x.radio).getD 0, guard := (Guard.ofCode x.guard).getD .always,
    ref := if x.ref = 0 then device else (s.findDevice x.ref).getD 0,
    rule := (ConfirmRule.ofCode x.rule).getD .crew }

/-- R153: a load whose copy has read every word: checked, filled and answered. -/
def State.loadComplete (s : State) (card : Nat) (job : ProgramJob) (ws : List Word) : State :=
  let steps := (List.range job.count).map (rawStep ws)
  let s := s.endCopy card
  match s.loadFault steps with
  | some a => s.answerCard card a
  | none =>
    (s.setProgram job.record { number := job.number, mode := job.mode, state := .loaded, steps := steps.map s.loadStep,
                               loadedAt := s.ageCounter }).answerCard card (.ok [toWord job.record])

/-- PROGRAM_LOAD_COPY_COMPLETE for a card: its copy reads what is left and the owner completes it (R153, R177). -/
def State.programCopyComplete (s : State) (card : Nat) : State :=
  match s.copies.find? fun c => decide (c.card = card) with
  | none => s
  | some c =>
    match c.job with
    | .program job => s.loadComplete card job (s.copyWords c)
    | .order _ => s

/-! ### Cards that name a program or a step -/

/-- The range and existence checks of program cards (R154). -/
def onProgram (act : Nat → State → Take) (r : Req) (s : State) : Take :=
  if !idOk (r.num 8) then .refuse s (.badField 8)
  else match s.findProgram (r.num 8) with
    | none => .refuse s (.noSuch 8)
    | some g => act g s

/-- The range and existence checks of STEP RELEASE and STEP CONFIRM (R154). -/
def onStep (act : Nat → Nat → Step → State → Take) (r : Req) (s : State) : Take :=
  if !idOk (r.num 8) then .refuse s (.badField 8)
  else if !inRange 1 24 (r.num 9) then .refuse s (.badField 9)
  else match s.findProgram (r.num 8) with
    | none => .refuse s (.noSuch 8)
    | some g =>
      match (s.program g).step (r.num 9) with
      | none => .refuse s (.noSuch 9)
      | some st => act g (r.num 9) st s

/-- The state code of step k of program g. -/
def State.stepStateWord (s : State) (g k : Nat) : Word :=
  match (s.program g).step k with
  | some st => toWord st.state.code
  | none => 0

/-- The state code of program g. -/
def State.programStateWord (s : State) (g : Nat) : Word := toWord (s.program g).state.code

/-- R150: a program becomes RUNNING with halt reason NONE, and PROGRAM STATE is raised. -/
def State.runProgram (s : State) (g : Nat) : State :=
  (s.updProgram g fun x => { x with state := .running, halt := .none }).raiseProgramState g

/-- R154: a release of the next step is attempted in CHAINED mode. -/
def State.chainedAttempt (s : State) (g : Nat) : State :=
  let x := s.program g
  if x.mode = .chained then s.attempt g x.next else s

/-- PROGRAM START (R154). -/
def programStart : Req → State → Take := onProgram fun g s =>
  match (s.program g).state with
  | .loaded =>
    let s := (s.updProgram g fun x => { x with timeStarted := s.clock }).runProgram g
    let s := s.chainedAttempt g
    .answered s (.ok [s.stepStateWord g 1])
  | .done => .refuse s (.wrongState .finished)
  | .aborted => .refuse s (.wrongState .finished)
  | .empty => .refuse s (.noSuch 8)
  | .running => .refuse s (.wrongState .notReady)
  | .halting => .refuse s (.wrongState .notReady)
  | .halted => .refuse s (.wrongState .notReady)

/-- R154: state, pending detail and refusal reason of step k. -/
def State.releaseAnswer (s : State) (g k : Nat) : List Word :=
  match (s.program g).step k with
  | some st => [toWord st.state.code, toWord st.pending.code, toWord st.refusal.code]
  | none => []

/-- STEP RELEASE (R154). -/
def stepRelease : Req → State → Take := onStep fun g k st s =>
  if (s.program g).state ≠ .running then .refuse s (.wrongState .notReady)
  else if st.state.outstanding then .refuse s (.wrongState .stepOutstanding)
  else if st.state.finished then .refuse s (.wrongState .finished)
  else if st.state = .pending ∧ st.pending ≠ .none then .answered s (.ok (s.releaseAnswer g k))
  else
    let s := s.attempt g k
    .answered s (.ok (s.releaseAnswer g k))

/-- R161: an EXECUTED step confirmed by the dispatcher: the position with source DISPATCH, the device event, the
confirmation. -/
def State.dispatchConfirm (s : State) (g k : Nat) (st : Step) : State :=
  let s := match st.action.target with
    | some pos => (s.setPosition st.device pos .dispatch).reevaluate st.device .pointLost
    | none => s
  s.confirmStep g k false

/-- STEP CONFIRM (R161). -/
def stepConfirm : Req → State → Take := onStep fun g k st s =>
  match st.state with
  | .executed =>
    let s := s.dispatchConfirm g k st
    .answered s (.ok [s.programStateWord g])
  | .released => .refuse s (.wrongState .stepOutstanding)
  | .readBack => .refuse s (.wrongState .stepOutstanding)
  | .pending => .refuse s (.wrongState .notReady)
  | .refused => .refuse s (.wrongState .notReady)
  | .confirmed => .refuse s (.wrongState .finished)
  | .skipped => .refuse s (.wrongState .finished)

/-- R163: a RUNNING program halted by the operator. DESIGN CHOICE: its waits are ended, and the room that this frees is offered,
before PROGRAM HALTED is raised; the rules give no order (log 31). -/
def State.haltProgram (s : State) (g : Nat) : State :=
  if (s.program g).hasOutstanding then
    (s.updProgram g fun x => { x with state := .halting, halt := .operator }).endWaits g
  else
    ((s.updProgram g fun x => { x with state := .halted, halt := .operator }).endWaits g).raiseHalted g

/-- PROGRAM HALT (R163). -/
def programHalt : Req → State → Take := onProgram fun g s =>
  match (s.program g).state with
  | .running => .answered (s.haltProgram g) .ok
  | .halting => .answered s .ok
  | .halted => .answered s .ok
  | .loaded => .refuse s (.wrongState .notReady)
  | .done => .refuse s (.wrongState .finished)
  | .aborted => .refuse s (.wrongState .finished)
  | .empty => .refuse s (.noSuch 8)

/-- R164: the step that PROGRAM RESUME finds REFUSED is made PENDING again. -/
def Step.retried (x : Step) : Step :=
  if x.state = .refused then { x with state := .pending, refusal := .none, wrong := 0 } else x

/-- R164: PROGRAM RESUME without the skip flag. -/
def State.resumeProgram (s : State) (g : Nat) : State :=
  let k := (s.program g).next
  (s.updStep g k Step.retried).runProgram g

/-- R164: what follows a resume that leaves a step: an attempt in CHAINED mode if the next step is PENDING. -/
def State.afterResume (s : State) (g : Nat) : State :=
  let x := s.program g
  match x.step x.next with
  | some st => if st.state = .pending then s.chainedAttempt g else s
  | none => s

/-- R164: PROGRAM RESUME with the skip flag: the next step SKIPPED. Where a step then remains, the program becomes RUNNING, and
STEP STATE is raised after PROGRAM STATE; where none does, it becomes DONE under R160 instead, its halt reason as it stood
(DEDUCED, log 21). -/
def State.resumeSkipping (s : State) (g : Nat) (st : Step) : State :=
  let k := (s.program g).next
  let s := s.updStep g k fun x => { x with state := .skipped }
  let last := decide ((s.program g).steps.length < (s.program g).firstOpen)
  let s := if last then s else s.runProgram g
  let s := s.raise (s.stepNotice .stepState g k st StepState.skipped.code)
  let s := s.updProgram g fun x => { x with next := x.firstOpen }
  if last then s.programMovesOn g else s.afterResume g

/-- R164: PROGRAM RESUME taken in HALTED. -/
def resumeHalted (skip : Bool) (g : Nat) (s : State) : Take :=
  let x := s.program g
  match x.step x.next with
  | none =>
    let s := (s.resumeProgram g).afterResume g
    .answered s (.ok [s.programStateWord g])
  | some st =>
    if skip then
      if st.state = .executed then .refuse s (.wrongState .stepExecuted)
      else
        let s := s.resumeSkipping g st
        .answered s (.ok [s.programStateWord g])
    else
      let s := (s.resumeProgram g).afterResume g
      .answered s (.ok [s.programStateWord g])

/-- PROGRAM RESUME (R164). -/
def programResume (r : Req) (s : State) : Take :=
  if !idOk (r.num 8) then .refuse s (.badField 8)
  else if 1 < r.num 9 then .refuse s (.badField 9)
  else match s.findProgram (r.num 8) with
    | none => .refuse s (.noSuch 8)
    | some g =>
      match (s.program g).state with
      | .halted => resumeHalted (decide (r.num 9 = 1)) g s
      | .halting => .refuse s (.wrongState .stepOutstanding)
      | .done => .refuse s (.wrongState .finished)
      | .aborted => .refuse s (.wrongState .finished)
      | .loaded => .refuse s (.wrongState .notReady)
      | .running => .refuse s (.wrongState .notReady)
      | .empty => .refuse s (.noSuch 8)

/-- R165: the take of PROGRAM ABORT. -/
def State.abortProgram (s : State) (g : Nat) : State :=
  let s := (s.recallSteps g fun _ => true).foldl (fun s k => s.pullBack g k) s
  let s := (s.updProgram g fun x => { x with state := .aborted, timeEnded := s.clock }).endWaits g
  s.raiseProgramState g

/-- PROGRAM ABORT (R165). -/
def programAbort : Req → State → Take := onProgram fun g s =>
  let x := s.program g
  if x.state = .done ∨ x.state = .aborted then .refuse s (.wrongState .finished)
  else if x.steps.any fun st => decide (st.state = .executed) then .refuse s (.wrongState .stepExecuted)
  else .answered (s.abortProgram g) .ok

/-- PROGRAM CLEAR (R166). -/
def programClear : Req → State → Take := onProgram fun g s =>
  let x := s.program g
  if x.state = .running ∨ x.state = .halting ∨ x.state = .halted then .refuse s (.wrongState .notReady)
  else if 0 < x.cancels then .refuse s (.wrongState .stepOutstanding)
  else .answered (s.setProgram g {}) (.ok [toWord g])

/-! ### READBACK and EXECUTED (R158, R159) -/

/-- R158, R159: the step that a cell from truck t names, where the cell is not ignored. -/
def State.cellStep (s : State) (t number k : Nat) : Option (Nat × Step) :=
  match s.findProgram number with
  | none => none
  | some g =>
    match (s.program g).step k with
    | none => none
    | some st => if st.truck = t then some (g, st) else none

/-- R158: a readback that matches the step. -/
def State.readbackMatches (s : State) (st : Step) (device : Nat) (action : Action) : Bool :=
  decide ((s.device st.device).id = device) && decide (st.action = action)

/-- R158: the third wrong readback: the step REFUSED, its cells withdrawn, STEP CANCEL queued, the program HALTED. DESIGN CHOICE:
the program's waits are ended, and their room offered, before the two notices (log 31). -/
def State.readbackRefused (s : State) (g k : Nat) (st : Step) : State :=
  let number := (s.program g).number
  let s := s.updStep g k fun x => { x.cellWithdrawn with state := .refused, refusal := .readback }
  let s := s.freeDevice st.device
  let s := s.tagStepEnded st
  let s := s.withdrawB st.truck fun c => isStepCell number k c || isReadbackWrong number k c
  let s := s.queueCancel st.truck g k
  let s := s.updProgram g fun x =>
    if x.state = .halted then x else { x with state := .halted, halt := .readback }
  let s := s.endWaits g
  let s := s.raise (s.stepNotice .stepRefused g k st StepReason.readback.code)
  s.raiseHalted g

/-- R158: a readback that does not match. -/
def State.readbackWrong (s : State) (t g k : Nat) (st : Step) : State :=
  let s := s.updStep g k fun x => { x with state := .released, wrong := x.wrong + 1 }
  if st.wrong + 1 < 3 then
    s.addGroup t [.readbackWrong (s.program g).number k (s.device st.device).id st.action (s.stepPermitNumber st)]
  else s.readbackRefused g k st

/-- R158: a READBACK cell from truck t. -/
def State.readback (s : State) (t number k device : Nat) (action : Action) : State :=
  match s.cellStep t number k with
  | none => s
  | some (g, st) =>
    if st.state.recallable then
      if s.readbackMatches st device action then
        (s.updStep g k fun x => { x with state := .readBack }).addGroup t [.readbackOk number k]
      else s.readbackWrong t g k st
    else s

/-- R159 step 2: the action of an executed step takes effect on its device. -/
def State.stepEffect (s : State) (g k : Nat) (st : Step) : State :=
  match st.action, st.permit with
  | .openIt, _ => (s.setPosition st.device .opened .crew).reevaluate st.device .pointLost
  | .closeIt, _ => (s.setPosition st.device .closed .crew).reevaluate st.device .pointLost
  | .tag, some p =>
    let done := s.tagAdd st.device p
    done.2.updStep g k fun x => { x with tagResult := done.1 }
  | .untag, some p =>
    let done := s.tagRemove st.device p
    done.2.updStep g k fun x => { x with tagResult := done.1 }
  | .tag, none => s
  | .untag, none => s

/-- R159 step 3: the step is confirmed at once. -/
def Step.confirmsAtOnce (st : Step) : Bool := st.action.target.isNone || decide (st.rule = .crew)

/-- R159: an EXECUTED cell from truck t. -/
def State.executed (s : State) (t number k : Nat) : State :=
  match s.cellStep t number k with
  | none => s
  | some (g, st) =>
    if st.state = .readBack then
      let s := s.updStep g k fun x => { x with state := .executed }
      let s := s.raise (s.stepNotice .stepState g k st StepState.executed.code)
      let s := s.stepEffect g k st
      if st.confirmsAtOnce then s.confirmStep g k false else s
    else s

/-- R127: the device entry that an EXECUTED cell from truck t republishes in any case: that of an OPEN or CLOSE step which it
brings to EXECUTED. -/
def State.executedRecord (s : State) (t number k : Nat) : List Nat :=
  match s.cellStep t number k with
  | none => []
  | some (_, st) => if st.state = .readBack ∧ st.action.target.isSome = true then [deviceBase st.device] else []

/-! ### Port reset (R167) -/

/-- R167: a RELEASED or READ BACK step pulled back; its cells leave the list, and its STEP CANCEL waits until the reset has
taken effect. -/
def State.resetStep (s : State) (g k : Nat) : State :=
  match (s.program g).step k with
  | none => s
  | some st =>
    let s := s.updStep g k fun x => { x with state := .pending, wrong := 0, instruction := .none }
    let s := s.removeCells st.truck (isStepOrReply (s.program g).number k)
    let s := s.freeDevice st.device
    let s := s.tagStepEnded st
    s.raise (s.stepNotice .stepState g k st stepCancelledCode)

/-- R167: the programs' steps to pull back, as program index, step number and truck: by ascending program index, then step
number (the order is the model's choice, log 27). -/
def State.resetSteps (s : State) : List (Nat × Nat × Nat) :=
  (List.range Config.programs).flatMap fun g =>
    (s.recallSteps g fun _ => true).map fun k => (g, k, (((s.program g).step k).map (·.truck)).getD 0)

/-- R167: a RUNNING or HALTING program becomes HALTED with reason RESET. -/
def State.resetProgram (s : State) (g : Nat) : State :=
  let st := (s.program g).state
  if st = .running ∨ st = .halting then
    (s.updProgram g fun x => { x with state := .halted, halt := .reset }).raiseHalted g
  else s

/-- R167: Switching Control takes a port reset. Steps are pulled back, waits ended, programs halted; then freed room is
offered and the STEP CANCEL cells are queued (log 12); each by ascending program index or truck index, and the STEP CANCEL
cells in the order of the pull-backs (the model's choice, log 27). -/
def State.switchingReset (s : State) : State :=
  let recalls := s.resetSteps
  let s := recalls.foldl (fun s r => s.resetStep r.1 r.2.1) s
  let s := (List.range Config.programs).foldl (fun s g => s.dropWaits g) s
  let s := (List.range Config.programs).foldl (fun s g => s.resetProgram g) s
  let s := (List.range Config.trucks).foldl (fun s t => s.offer t) s
  recalls.foldl (fun s r => s.queueCancel r.2.2 r.1 r.2.1) s

/-! ### Meanings -/

/-- PROGRAM_LOAD_COPY_COMPLETE: the copy of a PROGRAM LOAD card completes (R153). -/
def execProgramLoadCopyComplete (c : Fin 64) (s : State) : Host.Outcome State Fault Refusal :=
  .next (publish s (s.programCopyComplete c))

/-- WAITING_GROUP_OFFER: room of a truck's list offered to its waiting groups (R33). -/
def execWaitingGroupOffer (t : Fin 96) (s : State) : Host.Outcome State Fault Refusal :=
  .next (publish s (s.offer t))

/-- R156: a truck that may have come ON AIR or been unparked: neither VACANT nor PARKED (log 3). -/
def State.onChannel (s : State) (t : Nat) : Bool :=
  decide ((s.truck t).state ≠ .vacant) && decide ((s.truck t).state ≠ .parked)

/-- STEP_WAIT_TRUCK_END: a truck has come ON AIR or is unparked (R156). -/
def execStepWaitTruckEnd (t : Fin 96) (s : State) : Host.Outcome State Fault Refusal :=
  .next (publish s (if s.onChannel t then s.truckAvailable t else s))

/-- PROGRAM_LOAD: the take of a PROGRAM LOAD card (R152). -/
def execProgramLoad (c : Fin 64) (s : State) : Host.Outcome State Fault Refusal :=
  .next (publish s (s.takeAs .programLoad c (programLoad c)))

/-- PROGRAM_START: the take of a PROGRAM START card (R154). -/
def execProgramStart (c : Fin 64) (s : State) : Host.Outcome State Fault Refusal :=
  .next (publish s (s.takeAs .programStart c programStart))

/-- STEP_RELEASE: the take of a STEP RELEASE card (R154). -/
def execStepRelease (c : Fin 64) (s : State) : Host.Outcome State Fault Refusal :=
  .next (publish s (s.takeAs .stepRelease c stepRelease))

/-- R127: the device entry that a STEP CONFIRM card republishes in any case: that of the OPEN or CLOSE step it confirms. -/
def confirmedRecord (r : Req) (s : State) : List Nat :=
  match s.findProgram (r.num 8) with
  | none => []
  | some g =>
    match (s.program g).step (r.num 9) with
    | none => []
    | some st => if st.action.target.isSome then [deviceBase st.device] else []

/-- STEP_CONFIRM: the take of a STEP CONFIRM card (R161); the entry of a device whose position it sets is republished in any
case (R127). -/
def execStepConfirm (c : Fin 64) (s : State) : Host.Outcome State Fault Refusal :=
  .next (publish s (s.takeAs .stepConfirm c stepConfirm) (s.takeForces .stepConfirm c stepConfirm confirmedRecord))

/-- PROGRAM_HALT: the take of a PROGRAM HALT card (R163). -/
def execProgramHalt (c : Fin 64) (s : State) : Host.Outcome State Fault Refusal :=
  .next (publish s (s.takeAs .programHalt c programHalt))

/-- PROGRAM_RESUME: the take of a PROGRAM RESUME card (R164). -/
def execProgramResume (c : Fin 64) (s : State) : Host.Outcome State Fault Refusal :=
  .next (publish s (s.takeAs .programResume c programResume))

/-- PROGRAM_ABORT: the take of a PROGRAM ABORT card (R165). -/
def execProgramAbort (c : Fin 64) (s : State) : Host.Outcome State Fault Refusal :=
  .next (publish s (s.takeAs .programAbort c programAbort))

/-- PROGRAM_CLEAR: the take of a PROGRAM CLEAR card (R166). -/
def execProgramClear (c : Fin 64) (s : State) : Host.Outcome State Fault Refusal :=
  .next (publish s (s.takeAs .programClear c programClear))

end Sys2Proof.Machine
end

