-- ==== Sys2Proof/Machine/Orders.lean ====
section
/-! DEFINITION. Work orders (spec/05_work_orders.md): order cards, the post's staging copy, the delivery queue, delivery progress and
the ORDER STATUS cell. -/

namespace Sys2Proof.Machine

/-- Order i changed. -/
def State.updOrder (s : State) (i : Nat) (f : Order → Order) : State := s.setOrder i (f (s.order i))

/-! ### ORDER POST (R73, R74) -/

/-- R72: the pages a text of length L takes. -/
def pagesFor (l : Nat) : Nat := (l + 63) / 64

/-- R71: the cells of an order of text length L. -/
def cellsFor (l : Nat) : Nat := 1 + (l + 7) / 8

/-- R73: records free and unreserved. -/
def State.openRecords (s : State) : List Nat :=
  (List.range Config.orders).filter fun i => !(s.order i).inUse && !s.orderJobs.any fun j => decide (j.record = i)

/-- R73: free pages that no copy reserves, in free-list order. -/
def State.openPages (s : State) : List Nat := s.freePages.filter fun p => !s.reservedPages.contains p

/-- R73: orders in a truck's queue and copies in progress for that truck. -/
def State.queueLoad (s : State) (t : Nat) : Nat :=
  (s.queue t).length + s.orderJobs.countP fun j => decide (j.truck = t)

/-- R73: the permit link that a card's permit number asks for: absent, present, or naming no permit. -/
def State.linkFor (s : State) (number : Nat) : Option (Option PermitLink) :=
  if number = 0 then some none
  else (s.findPermit number).map fun p => some ⟨p, number⟩

/-- R73: a linked permit that is CLOSED or CANCELLED. -/
def State.linkEnded (s : State) (link : Option PermitLink) : Bool :=
  match link with
  | none => false
  | some l => decide ((s.permit l.index).state = .closed) || decide ((s.permit l.index).state = .cancelled)

/-- R74: the reservation and the copy of a post that passes its checks. -/
def State.reserveOrder (s : State) (card record t : Nat) (priority : Priority) (link : Option PermitLink) (r : Req) :
    State :=
  s.startCopy { card, buffer := r.num 12, total := (r.num 13 + 1) / 2,
                job := .order { record, number := r.num 8, truck := t, priority, link, length := r.num 13,
                                pages := s.openPages.take (pagesFor (r.num 13)) } }

/-- R73: the owner's checks of ORDER POST, after its fields. -/
def postOwner (card t : Nat) (priority : Priority) (link : Option PermitLink) (r : Req) (s : State) : Take :=
  if (s.findOrder (r.num 8)).isSome || s.orderJobs.any fun j => decide (j.number = r.num 8) then
    .refuse s (.duplicate 8)
  else match s.openRecords with
    | [] => .refuse s (.noRoom [0, toWord s.openPages.length, toWord (s.queueLoad t)])
    | record :: rest =>
      if s.openPages.length < pagesFor (r.num 13) ∨ Config.queueRoom ≤ s.queueLoad t then
        .refuse s (.noRoom [toWord (rest.length + 1), toWord s.openPages.length, toWord (s.queueLoad t)])
      else if s.linkEnded link then .refuse s (.wrongState .permitState)
      else ⟨s.reserveOrder card record t priority link r, none⟩

/-- ORDER POST (R73, R74). -/
def orderPost (card : Nat) (r : Req) (s : State) : Take :=
  if !idOk (r.num 8) then .refuse s (.badField 8)
  else if !radioOk (r.radio 9) then .refuse s (.badField 9)
  else match Priority.ofCode (r.num 11) with
    | none => .refuse s (.badField 11)
    | some priority =>
      if 7 < r.num 12 then .refuse s (.badField 12)
      else if !inRange 1 1024 (r.num 13) then .refuse s (.badField 13)
      else if r.num 14 = 65535 then .refuse s (.badField 14)
      else match s.findTruck (r.radio 9) with
        | none => .refuse s (.noSuch 9)
        | some t =>
          match s.linkFor (r.num 14) with
          | none => .refuse s (.noSuch 14)
          | some link => postOwner card t priority link r s

/-! ### The delivery queue (R77 to R79) -/

/-- R77: an order in SENDING or STALLED, which holds first place. -/
def Order.holdsFirst (o : Order) : Bool := decide (o.state = .sending) || decide (o.state = .stalled)

/-- R78: order i put after every order of equal or higher priority. -/
def State.byPriority (s : State) (i : Nat) (q : List Nat) : List Nat :=
  let ahead (j : Nat) : Bool := decide ((s.order i).priority.code ≤ (s.order j).priority.code)
  q.takeWhile ahead ++ i :: q.dropWhile ahead

/-- R79: order i put back by priority and queue sequence. -/
def State.bySequence (s : State) (i : Nat) (q : List Nat) : List Nat :=
  let o := s.order i
  let ahead (j : Nat) : Bool :=
    decide (o.priority.code < (s.order j).priority.code)
    || (decide (o.priority = (s.order j).priority) && older s.orderSeq (s.order j).seq o.seq)
  q.takeWhile ahead ++ i :: q.dropWhile ahead

/-- R78, R79: order i enters the delivery queue of truck t. -/
def State.enqueue (s : State) (t i : Nat) : State :=
  match s.queue t with
  | [] => s.setQueue t [i]
  | head :: rest =>
    let o := s.order head
    if o.holdsFirst then
      if (s.order i).priority = .emergency ∧ o.priority ≠ .emergency then
        let s := s.updOrder head fun x => { x with state := .queued, attempts := 0 }
        s.setQueue t (i :: s.bySequence head rest)
      else s.setQueue t (head :: s.byPriority i rest)
    else s.setQueue t (s.byPriority i (head :: rest))

/-- R77: an order leaves its truck's queue. -/
def State.dequeue (s : State) (t i : Nat) : State := s.setQueue t ((s.queue t).filter fun j => decide (j ≠ i))

/-- R72: an order's pages return to the tail of the free list, in page-list order. -/
def State.giveBackPages (s : State) (i : Nat) : State :=
  let pages := (s.order i).pages
  { s.updOrder i fun x => { x with pages := [] } with freePages := s.freePages ++ pages }

/-! ### The copy completes (R75) -/

/-- R74: the text bytes of the copied words: the low byte of each word first, L bytes in all. -/
def textBytes (l : Nat) (ws : List Word) : List Byte := (ws.flatMap fun w => [lowByte w, highByte w]).take l

/-- R72: text written into pages, 64 bytes to a page. -/
def writePages (pool : Memory) : List Nat → List Byte → Memory
  | [], _ => pool
  | p :: rest, bytes => writePages (memSetBytes pool (64 * p) (bytes.take 64)) rest (bytes.drop 64)

/-- R75: the record that a completed copy fills. -/
def OrderJob.filled (j : OrderJob) (now : Nat) (seq : DWord) : Order :=
  { inUse := true, number := j.number, truck := j.truck, priority := j.priority, link := j.link, length := j.length,
    pages := j.pages, cells := List.replicate (cellsFor j.length) {}, state := .queued, seq,
    timePosted := now, timeStatus := now }

/-- R75: a completed copy: the record filled, the pages taken, the queue sequence given, the card answered. -/
def State.postComplete (s : State) (card : Nat) (j : OrderJob) (ws : List Word) : State :=
  let s := s.endCopy card
  let s := s.setOrder j.record (j.filled s.clock s.orderSeq)
  let s := { s with pool := writePages s.pool j.pages (textBytes j.length ws),
                    freePages := s.freePages.filter fun p => !j.pages.contains p,
                    orderSeq := s.orderSeq + 1 }
  let s := s.enqueue j.truck j.record
  s.answerCard card (.ok [toWord j.record, toWord j.pages.length, toWord (cellsFor j.length)])

/-- ORDER_POST_COPY_COMPLETE for a card (R75, R177). -/
def State.orderCopyComplete (s : State) (card : Nat) : State :=
  match s.copies.find? fun c => decide (c.card = card) with
  | none => s
  | some c =>
    match c.job with
    | .order j => s.postComplete card j (s.copyWords c)
    | .program _ => s

/-! ### Cells (R80) -/

/-- R80: byte k of an order's text, 0 past its length. -/
def State.textByte (s : State) (o : Order) (k : Nat) : Byte :=
  if k < o.length then memByte s.pool (64 * (o.pages.getD (k / 64) 0) + k % 64) else 0

/-- R80: cell n of order i: cell 0 the ORDER NOTE, cell n the TEXT of block n - 1. -/
def State.orderCell (s : State) (i n : Nat) : OrderCell :=
  let o := s.order i
  if n = 0 then .note o.number o.priority.code (o.cells.length - 1) ((o.link.map (·.number)).getD 0)
  else .text o.number (n - 1) ((List.range 8).map fun b => s.textByte o (8 * (n - 1) + b))

/-- R80, R62: the cells that a truck's head order offers, in block order. -/
def State.offeredCells (s : State) (t : Nat) : List (Nat × Nat) :=
  match s.queue t with
  | [] => []
  | i :: _ =>
    let o := s.order i
    if o.state = .queued ∨ o.state = .sending then
      ((List.range o.cells.length).filter fun n =>
        !(o.cells.getD n {}).delivered && !(o.cells.getD n {}).inFlight).map fun n => (i, n)
    else []

/-- R81: cells of order i in flight; a QUEUED order becomes SENDING. -/
def State.orderSending (s : State) (i n : Nat) : State :=
  s.updOrder i fun x =>
    { x with cells := x.cells.modify n (fun m => { m with inFlight := true }),
             state := if x.state = .queued then .sending else x.state }

/-! ### Delivery progress (R82 to R87) -/

/-- R87: the outcome of a transaction that carried cells of an order reaches the record. -/
def Order.wants (o : Order) (number : Nat) : Bool :=
  o.inUse && decide (o.number = number)
  && (decide (o.state = .queued) || decide (o.state = .sending) || decide (o.state = .stalled))

/-- R86: an order with every cell delivered. -/
def State.orderDelivered (s : State) (i : Nat) : State :=
  let o := s.order i
  let s := s.updOrder i fun x => { x with state := .delivered, timeDelivered := s.clock }
  let s := (s.giveBackPages i).dequeue o.truck i
  s.raise { kind := .orderDelivered, truck := o.truck, item := o.number, value := o.cells.length }

/-- R82: cells of order i marked delivered. -/
def State.cellsDelivered (s : State) (i : Nat) (ns : List Nat) : State :=
  let before := (s.order i).lowestUndelivered
  let s := s.updOrder i fun x =>
    { x with cells := ns.foldl (fun cells n => cells.modify n fun _ => { delivered := true, inFlight := false }) x.cells }
  let s := s.updOrder i fun x => if x.lowestUndelivered = before then x else { x with attempts := 0 }
  if (s.order i).lowestUndelivered = none then s.orderDelivered i else s

/-- R84: the attempt count of a SENDING order has reached 4. -/
def State.orderStalled (s : State) (i : Nat) : State :=
  let s := s.updOrder i fun x => { x with state := .stalled }
  let o := s.order i
  s.raise { kind := .orderStalled, reason := 1, truck := o.truck, item := o.number, value := o.deliveredCount }

/-- R83: cells of order i failed. -/
def State.cellsFailed (s : State) (i : Nat) (ns : List Nat) : State :=
  let s := s.updOrder i fun x =>
    { x with cells := ns.foldl (fun cells n => cells.modify n fun m => { m with inFlight := false }) x.cells }
  let o := s.order i
  if o.state = .sending ∧ (o.lowestUndelivered.any fun n => ns.contains n) then
    let s := s.updOrder i fun x => { x with attempts := x.attempts + 1 }
    if 4 ≤ (s.order i).attempts then s.orderStalled i else s
  else s

/-- R85: truck t was heard: a STALLED order at the head of its queue returns to SENDING unless the grade is LOST. -/
def State.stallResume (s : State) (t : Nat) : State :=
  match s.queue t with
  | [] => s
  | i :: _ =>
    if (s.order i).state = .stalled ∧ (s.link t).grade ≠ .lost then
      let s := s.updOrder i fun x => { x with state := .sending, attempts := 0 }
      let o := s.order i
      s.raise { kind := .orderStalled, reason := 2, truck := o.truck, item := o.number, value := o.deliveredCount }
    else s

/-- R85: the head order of truck t is STALLED. -/
def State.headStalled (s : State) (t : Nat) : Bool :=
  match s.queue t with
  | [] => false
  | i :: _ => decide ((s.order i).state = .stalled)

/-! ### ORDER STATUS (R88 to R90) -/

/-- R89: the state that a report code takes an order to; none for an ignored report.
Codes: ACCEPT 0, DECLINE 1, EN ROUTE 2, ON SITE 3, COMPLETE 4 (R189). -/
def OrderState.reported (st : OrderState) (code : Nat) : Option OrderState :=
  match st, code with
  | .delivered, 0 => some .accepted
  | .delivered, 1 => some .declined
  | .delivered, 2 => some .enRoute
  | .accepted, 2 => some .enRoute
  | .delivered, 3 => some .onSite
  | .accepted, 3 => some .onSite
  | .enRoute, 3 => some .onSite
  | .delivered, 4 => some .complete
  | .accepted, 4 => some .complete
  | .enRoute, 4 => some .complete
  | .onSite, 4 => some .complete
  | _, _ => none

/-- R90: the linked permit exists in a state other than CLOSED. -/
def State.permitOpen (s : State) (link : Option PermitLink) : Bool :=
  match link with
  | none => false
  | some l =>
    let x := s.permit l.index
    x.inUse && decide (x.number = l.number) && decide (x.state ≠ .closed)

/-- R88: a STATUS REPLY to truck t. -/
def State.statusReply (s : State) (t number : Nat) (result : StatusResult) : State :=
  s.addGroup t [.statusReply number result]

/-- R186: the reason code of ORDER STATUS with reason PERMIT OPEN. -/
def permitOpenCode : Nat := 11

/-- R90: a COMPLETE report held at ON SITE by an open permit. -/
def State.completeHeld (s : State) (t i : Nat) : State :=
  let s := s.updOrder i fun x => { x with state := .onSite, timeStatus := s.clock }
  let o := s.order i
  let s := s.statusReply t o.number .permitOpen
  s.raise { kind := .orderStatus, reason := permitOpenCode, truck := o.truck, item := o.number, value := o.state.code }

/-- R89: a report taken. -/
def State.reportTaken (s : State) (i : Nat) (st : OrderState) : State :=
  let s := s.updOrder i fun x => { x with state := st, timeStatus := s.clock }
  let o := s.order i
  s.raise { kind := .orderStatus, reason := o.state.code, truck := o.truck, item := o.number }

/-- R88: an ORDER STATUS cell from truck t. -/
def State.orderStatus (s : State) (t number code : Nat) : State :=
  match s.findOrder number with
  | none => s.statusReply t number .notYours
  | some i =>
    if (s.order i).truck ≠ t then s.statusReply t number .notYours
    else match (s.order i).state.reported code with
      | none => s
      | some st => if st = .complete ∧ s.permitOpen (s.order i).link then s.completeHeld t i else s.reportTaken i st

/-! ### ORDER WITHDRAW and ORDER CLEAR (R91, R93) -/

/-- The range and existence checks of ORDER WITHDRAW and ORDER CLEAR. -/
def onOrder (act : Nat → State → Take) (r : Req) (s : State) : Take :=
  if !idOk (r.num 8) then .refuse s (.badField 8)
  else match s.findOrder (r.num 8) with
    | none => .refuse s (.noSuch 8)
    | some i => act i s

/-- R91: an order with no cell delivered and none in flight. -/
def Order.untouched (o : Order) : Bool := o.cells.all fun m => !m.delivered && !m.inFlight

/-- R91: the order leaves the queue, its pages freed, in a new state. -/
def State.leaveQueue (s : State) (i : Nat) (st : OrderState) : State :=
  let t := (s.order i).truck
  ((s.updOrder i fun x => { x with state := st, timeStatus := s.clock }).giveBackPages i).dequeue t i

/-- R91: the order becomes WITHDRAWING and its ORDER WITHDRAW cell is queued. -/
def State.withdrawOrder (s : State) (i : Nat) : State :=
  let o := s.order i
  (s.leaveQueue i .withdrawing).addGroup o.truck [.orderWithdraw o.number]

/-- ORDER WITHDRAW (R91). -/
def orderWithdrawCard : Req → State → Take := onOrder fun i s =>
  match (s.order i).state with
  | .queued =>
    if (s.order i).untouched then .answered (s.leaveQueue i .withdrawn) .ok else .answered (s.withdrawOrder i) .ok
  | .sending => .answered (s.withdrawOrder i) .ok
  | .stalled => .answered (s.withdrawOrder i) .ok
  | .delivered => .answered (s.withdrawOrder i) .ok
  | .accepted => .answered (s.withdrawOrder i) .ok
  | .enRoute => .answered (s.withdrawOrder i) .ok
  | .onSite => .answered (s.withdrawOrder i) .ok
  | .withdrawing => .answered s .ok
  | .withdrawn => .refuse s (.wrongState .finished)
  | .complete => .refuse s (.wrongState .finished)
  | .declined => .refuse s (.wrongState .finished)

/-- ORDER CLEAR (R93). -/
def orderClear : Req → State → Take := onOrder fun i s =>
  if (s.order i).state.finished then .answered (s.setOrder i {}) (.ok [toWord i])
  else .refuse s (.wrongState .finished)

/-! ### Meanings -/

/-- ORDER_POST_COPY_COMPLETE: the copy of an ORDER POST card completes (R75). -/
def execOrderPostCopyComplete (c : Fin 64) (s : State) : Host.Outcome State Fault Refusal :=
  .next (publish s (s.orderCopyComplete c))

/-- ORDER_STALL_RESUME: truck t is heard and its STALLED order resumes (R85). -/
def execOrderStallResume (t : Fin 96) (s : State) : Host.Outcome State Fault Refusal :=
  .next (publish s (s.stallResume t))

/-- ORDER_POST: the take of an ORDER POST card (R74). -/
def execOrderPost (c : Fin 64) (s : State) : Host.Outcome State Fault Refusal :=
  .next (publish s (s.takeAs .orderPost c (orderPost c)))

/-- ORDER_WITHDRAW: the take of an ORDER WITHDRAW card (R91). -/
def execOrderWithdraw (c : Fin 64) (s : State) : Host.Outcome State Fault Refusal :=
  .next (publish s (s.takeAs .orderWithdraw c orderWithdrawCard))

/-- ORDER_CLEAR: the take of an ORDER CLEAR card (R93). -/
def execOrderClear (c : Fin 64) (s : State) : Host.Outcome State Fault Refusal :=
  .next (publish s (s.takeAs .orderClear c orderClear))

end Sys2Proof.Machine
end

