-- ==== Sys2Proof/Machine/Planning.lean ====
section
/-! DEFINITION. Round planning (spec/04_round_planning.md): counters, the plan, the composed cells, and quiet periods. -/

namespace Sys2Proof.Machine

/-! ### Counters (R55) -/

/-- A count that stops at 255. -/
def upTo255 (n : Nat) : Nat := min (n + 1) 255

/-- R55: the counters of one truck advanced at a round start. -/
def State.advanceCounter (s : State) (t : Nat) : State :=
  let c := s.counter t
  match (s.truck t).state with
  | .onAir => s.setCounter t { c with sinceUp := upTo255 c.sinceUp }
  | .registered => s.setCounter t { sinceUp := upTo255 c.sinceUp, probe := upTo255 c.probe }
  | .silent => s.setCounter t { sinceUp := upTo255 c.sinceUp, probe := upTo255 c.probe }
  | .parked => s
  | .vacant => s

/-- R55: the counters of every truck advanced. -/
def State.advanceCounters (s : State) : State :=
  (List.range Config.trucks).foldl (fun s t => s.advanceCounter t) s

/-- R55: an UP slot of truck t has run. -/
def State.upRun (s : State) (t : Nat) : State := s.setCounter t {}

/-! ### Composing a DOWN (R57, R62) -/

/-- R50: the rate of a grade. -/
def Grade.rate : Grade → Nat
  | .settling => 1 | .strong => 4 | .fair => 2 | .weak => 1 | .lost => 1

/-- R57: the classes a sweep serves. -/
inductive CellClass where
  | a | b | c
deriving DecidableEq, Repr

/-- R57: the control cells of truck t that no DOWN of this plan carries yet, class A first, oldest first. -/
def State.freeEntries (s : State) (t : Nat) : List Entry := (s.list t).cells.filter fun e => !e.inFlight

/-- R57 condition 1: truck t has an unplanned cell of a class. -/
def State.hasWork (s : State) (cls : CellClass) (t : Nat) : Bool :=
  match cls with
  | .a => (s.freeEntries t).any fun e => e.cell.isA
  | .b => (s.freeEntries t).any fun e => !e.cell.isA
  | .c => !(s.offeredCells t).isEmpty

/-- R62: the cells of one DOWN of rate r. -/
def State.compose (s : State) (t r : Nat) : List Carried :=
  let controls := (s.freeEntries t).map fun e => Carried.control e.age e.cell
  let orders := (s.offeredCells t).map fun p => Carried.order p.1 p.2 (s.orderCell p.1 p.2)
  (controls ++ orders).take r

/-- R35, R81: a composed cell is in flight; a QUEUED order whose cell is taken becomes SENDING. -/
def State.markFlight (s : State) (t : Nat) (c : Carried) : State :=
  match c with
  | .control age _ =>
    let l := s.list t
    s.setList t { l with cells := l.cells.map fun e => if e.age = age then { e with inFlight := true } else e }
  | .order i n _ => s.orderSending i n

/-! ### Grants (R57 to R61) -/

/-- A plan being built: the state as the grants leave it, and slots 1 on in order. -/
structure Plan where
  state : State
  slots : List PlanSlot

/-- The slots of truck t in a plan. -/
def Plan.slotsOf (p : Plan) (t : Nat) : Nat := p.slots.countP fun x => decide (x.truck = t)

/-- R57, R61: a transaction granted to truck t: the lowest two unassigned slots, the DOWN composed now. -/
def Plan.grant (p : Plan) (t : Nat) : Plan :=
  let s := p.state
  let rate := (s.link t).grade.rate
  let radioId := (s.truck t).radioId
  let cells := s.compose t rate
  { state := cells.foldl (fun s c => s.markFlight t c) s,
    slots := p.slots ++ [{ truck := t, radioId, rate, dir := .down, cells },
                         { truck := t, radioId, rate, dir := .up, closes := true }] }

/-- R57: the four conditions of a transaction. -/
def Plan.grants (p : Plan) (cls : CellClass) (t : Nat) : Bool :=
  p.state.hasWork cls t && decide ((p.state.truck t).state = .onAir) && decide (p.slotsOf t ≤ 4)
  && decide (p.slots.length + 2 ≤ Config.planSlots)

/-- R58: the truck entries in round-robin order from the index after a pointer to the pointer itself. -/
def roundRobin (pointer : Nat) : List Nat := (List.range Config.trucks).map fun i => (pointer + 1 + i) % Config.trucks

/-- R58, R60: one class of a sweep: the plan, and the last truck granted. -/
def Plan.sweepClass (p : Plan) (cls : CellClass) (pointer : Nat) : Plan × Option Nat :=
  (roundRobin pointer).foldl
    (fun acc t => if acc.1.grants cls t then (acc.1.grant t, some t) else acc) (p, none)

/-- R58: sweep 1, which moves the pointers. -/
def Plan.sweep1 (p : Plan) : Plan :=
  let a := p.sweepClass .a p.state.pointerA
  let p := { a.1 with state := { a.1.state with pointerA := a.2.getD a.1.state.pointerA } }
  let b := p.sweepClass .b p.state.pointerB
  let p := { b.1 with state := { b.1.state with pointerB := b.2.getD b.1.state.pointerB } }
  let c := p.sweepClass .c p.state.pointerC
  { c.1 with state := { c.1.state with pointerC := c.2.getD c.1.state.pointerC } }

/-- R54: the pointer of a class. -/
def State.pointer (s : State) (cls : CellClass) : Nat :=
  match cls with
  | .a => s.pointerA
  | .b => s.pointerB
  | .c => s.pointerC

/-- R60: one class of sweeps 2 and 3, which leave the pointers. -/
def Plan.sweepOne (p : Plan) (cls : CellClass) : Plan := (p.sweepClass cls (p.state.pointer cls)).1

/-- R60: sweeps 2 and 3. -/
def Plan.sweepMore (p : Plan) : Plan := ((p.sweepOne .a).sweepOne .b).sweepOne .c

/-- R59: an UP-only slot given to truck t. -/
def Plan.giveUp (p : Plan) (t rate : Nat) : Plan :=
  { p with slots := p.slots ++ [{ truck := t, radioId := (p.state.truck t).radioId, rate, dir := .up }] }

/-- R59 case 3: a probe given to truck t, its probe counter 0. -/
def Plan.giveProbe (p : Plan) (t : Nat) : Plan :=
  let p := p.giveUp t 1
  { p with state := p.state.setCounter t { p.state.counter t with probe := 0 } }

/-- R59: class D at one truck. -/
def Plan.visitD (p : Plan) (t : Nat) : Plan :=
  let s := p.state
  let x := s.truck t
  let c := s.counter t
  if Config.planSlots ≤ p.slots.length ∨ 0 < p.slotsOf t then p
  else match x.state with
    | .onAir =>
      if x.more ∨ x.access ∨ s.settings.pollPeriod ≤ c.sinceUp then p.giveUp t (s.link t).grade.rate else p
    | .registered => if s.settings.probePeriod ≤ c.probe then p.giveProbe t else p
    | .silent => if s.settings.probePeriod ≤ c.probe then p.giveProbe t else p
    | .parked => p
    | .vacant => p

/-- R59: class D. -/
def Plan.classD (p : Plan) : Plan := (List.range Config.trucks).foldl (fun p t => p.visitD t) p

/-- R63: the ACCESS flag of every truck the plan gives an UP slot is cleared. -/
def Plan.clearAccess (p : Plan) : Plan :=
  { p with state := p.slots.foldl (fun s x =>
      if x.dir = .up then s.updTruck x.truck fun y => { y with access := false } else s) p.state }

/-- R56 steps 3 to 6: the plan of a round that is not quiet. -/
def State.buildPlan (s : State) : Plan :=
  (({ state := s, slots := [] } : Plan).sweep1.classD.sweepMore.sweepMore).clearAccess

/-- R56: the round's plan, counters first. In a quiet round it is empty and the other steps, step 6 with its slots planned
among them, are passed over (R56 step 2, R68). -/
def State.planRound (s : State) : Plan :=
  let s := s.advanceCounters
  if s.quiet then { state := s, slots := [] }
  else
    let p := s.buildPlan
    { p with state := { p.state with slotsPlanned := p.slots.length } }

/-! ### Quiet periods (R65 to R67) -/

/-- R65: a watch of a roster entry in use is PROMPTED. -/
def State.anyPrompted (s : State) : Bool :=
  s.watches.any fun e => decide (e.2.state = .prompted) && (s.worker e.1).inUse

/-- QUIET (R65). -/
def quietCard (r : Req) (s : State) : Take :=
  let duration := clampTo 10 600 (r.num 8)
  if s.anyPrompted then .refuse s (.wrongState .promptOpen)
  else
    let s := { s with quiet := true, quietStart := if s.quiet then s.quietStart else s.clock,
                      quietEnd := satAdd s.clock duration }
    .answered s (.doneOr (firstClamped [(8, !inRange 10 600 (r.num 8))]) (dwordWords s.quietEnd))

/-- END QUIET (R66). -/
def endQuietCard (_ : Req) (s : State) : Take := .answered (s.endQuietPeriod .endQuiet) .ok

/-- R67: the site clock has reached quiet end. -/
def State.quietExpired (s : State) : State :=
  if s.quiet && decide (s.quietEnd ≤ s.clock) then s.endQuietPeriod .expired else s

/-! ### Meanings -/

/-- QUIET: the take of a QUIET card (R65). -/
def execQuiet (c : Fin 64) (s : State) : Host.Outcome State Fault Refusal :=
  .next (publish s (s.takeAs .quiet c quietCard))

/-- END_QUIET: the take of an END QUIET card (R66). -/
def execEndQuiet (c : Fin 64) (s : State) : Host.Outcome State Fault Refusal :=
  .next (publish s (s.takeAs .endQuiet c endQuietCard))

/-- QUIET_END_REACHED (R67). -/
def execQuietEndReached (s : State) : Host.Outcome State Fault Refusal :=
  .next (publish s s.quietExpired)

end Sys2Proof.Machine
end

