-- ==== Sys2Proof/Machine/Channel.lean ====
section
/-! DEFINITION. The crew channel (spec/02_the_crew_channel.md): seconds, rounds, slots, modem reports, transactions and routing. -/

namespace Sys2Proof.Machine

/-! ### Rounds (R19, R35, R36) -/

/-- R36: the list with no entry in flight; attempt counts, ages and places are kept. -/
def CellList.landed (l : CellList) : CellList := { l with cells := l.cells.map fun e => { e with inFlight := false } }

/-- R36, R81: the order with no cell in flight; its delivered set and attempt count are kept. -/
def Order.landed (o : Order) : Order := { o with cells := o.cells.map fun m => { m with inFlight := false } }

/-- R36: no control cell and no order cell is in flight any longer. -/
def State.clearFlight (s : State) : State :=
  { s with lists := tableMap {} CellList.landed s.lists, orders := tableMap {} Order.landed s.orders }

/-- R35, R36: the running round ends or is cut: what is still in flight returns to its place, the snapshot empties (log 11). -/
def State.endRound (s : State) : State :=
  if s.round.isSome then { s.clearFlight with round := none, modemOut := .idle } else s

/-- R19: a round starts: its number, its plan and snapshot, and its header handed to the modem. -/
def State.startRound (s : State) : State :=
  let s := { s with roundNumber := s.roundNumber + 1 }
  let p := s.planRound
  let r : Round := { quiet := p.state.quiet, slots := p.slots }
  { p.state with round := some r, modemOut := .header (p.state.headerBurst r) }

/-- ROUND_BOUNDARY (R18, R19): the running round ends, and a new one starts if TRANSMIT ENABLE is set and the modem READY. -/
def State.boundary (s : State) : State :=
  let s := s.endRound
  if s.transmitEnable && s.modemReady then s.startRound else s

/-! ### The slot engine (R21) -/

/-- R21: what the part gives the modem in slot k of the running round. -/
def Round.slotAct (r : Round) (k : Nat) : ModemOut :=
  if r.quiet ∨ 26 ≤ k then .receive k 1
  else match r.slots[k - 1]? with
    | none => .idle
    | some p =>
      match p.dir with
      | .down => .burst k p.rate (downBurst p)
      | .up => .receive k p.rate

/-- R21: slot k begins; slot 0 is the header's. -/
def State.beginSlot (s : State) (k : Nat) : State :=
  match s.round with
  | none => s
  | some r => if k = 0 then s else { s with round := some { r with slot := k }, modemOut := r.slotAct k }

/-! ### Outcomes of transactions (R28 to R30) -/

/-- The truck whose list holds the entry of an age, and the entry: a cell is known by its age wherever it has moved. -/
def State.entryOf (s : State) (age : DWord) : Option (Nat × Entry) :=
  match s.lists.find? fun l => l.2.cells.any fun e => decide (e.age = age) with
  | none => none
  | some l => (l.2.cells.find? fun e => decide (e.age = age)).map fun e => (l.1, e)

/-- R138: a delivered issue cell. -/
def State.issueCellDelivered (s : State) (number : Nat) : State :=
  match s.findPermit number with
  | none => s
  | some p =>
    s.updPermit p fun x =>
      if x.issueCells = .queued then
        let n := x.issueDelivered + 1
        { x with issueDelivered := n,
                 issueCells := if 1 + (x.points.length + 2) / 3 ≤ n then .delivered else .queued }
      else x

/-- R92: the ORDER WITHDRAW cell of a WITHDRAWING order is delivered. -/
def State.withdrawDelivered (s : State) (number : Nat) : State :=
  match s.findOrder number with
  | none => s
  | some i =>
    if (s.order i).state = .withdrawing then
      let s := s.updOrder i fun x => { x with state := .withdrawn, timeStatus := s.clock }
      s.raise { kind := .orderWithdrawn, truck := (s.order i).truck, item := number }
    else s

/-- R102, R111: the record of a worker takes the delivery of its PROMPT or ALARM SEEN. -/
def State.workerTold (s : State) (badge : Nat) (f : Watch → Watch) : State :=
  match s.findWorker badge with
  | none => s
  | some w => s.updWatch w f

/-- R29: the owner of a control cell is told that the cell was delivered. -/
def State.cellDelivered (s : State) (c : DownCell) : State :=
  match c with
  | .prompt badge => s.workerTold badge fun x => { x with prompt := .delivered }
  | .alarmSeenWorker badge =>
    s.workerTold badge fun x => { x with alarm := x.alarm.map fun a => { a with seen := .delivered } }
  | .alarmSeenTruck t => s.setTruckAlarm t ((s.truckAlarm t).map fun a => { a with seen := .delivered })
  | .step number k _ _ _ =>
    match s.findProgram number with
    | none => s
    | some g => s.updStep g k fun x => if x.instruction = .queued then { x with instruction := .delivered } else x
  | .stepCancel number _ =>
    match s.findProgram number with
    | none => s
    | some g => s.updProgram g fun x => { x with cancels := x.cancels - 1 }
  | .permitIssue number _ _ _ => s.issueCellDelivered number
  | .points number _ => s.issueCellDelivered number
  | .orderWithdraw number => s.withdrawDelivered number
  | .readbackOk _ _ => s
  | .readbackWrong _ _ _ _ _ => s
  | .signReply _ _ _ => s
  | .statusReply _ _ => s

/-- R30, R186: the subject fields of DELIVERY TROUBLE (log 15). -/
def State.troubleSubject (s : State) (c : DownCell) : Notice :=
  let n : Notice := { kind := .deliveryTrouble, reason := c.kind, value := 4 }
  match c with
  | .prompt badge => { n with badge }
  | .alarmSeenWorker badge => { n with badge }
  | .alarmSeenTruck _ => n
  | .step program step _ _ _ => { n with program, step }
  | .readbackOk program step => { n with program, step }
  | .readbackWrong program step _ _ _ => { n with program, step }
  | .stepCancel program step => { n with program, step }
  | .permitIssue number _ _ _ => { n with permitNumber := number, permit := (s.findPermit number).getD 0 }
  | .points number _ => { n with permitNumber := number, permit := (s.findPermit number).getD 0 }
  | .signReply number badge _ => { n with permitNumber := number, badge }
  | .orderWithdraw number => { kind := .withdrawUnconfirmed, item := number, value := 4 }
  | .statusReply number _ => { n with item := number }

/-- R30, R92: DELIVERY TROUBLE, or WITHDRAW UNCONFIRMED for an ORDER WITHDRAW cell, at the fourth failure. -/
def State.raiseTrouble (s : State) (t : Nat) (c : DownCell) : State := s.raise { s.troubleSubject c with truck := t }

/-- R29: a control cell delivered: the entry leaves the list, its owner is told, freed class B room is offered. A STEP of a
program since freed tells the new program nothing (R162). -/
def State.controlDelivered (s : State) (age : DWord) : State :=
  match s.entryOf age with
  | none => s
  | some (t, e) =>
    let l := s.list t
    let s := s.setList t { l with cells := l.cells.filter fun x => decide (x.age ≠ age) }
    let s := if s.staleStep e then s else s.cellDelivered e.cell
    if e.cell.isA then s else s.offer t

/-- R29, R30: an entry after a failed transaction. -/
def Entry.failed (e : Entry) : Entry :=
  let n := min (e.attempts + 1) 255
  { e with inFlight := false, attempts := n, reported := e.reported || decide (n = 4) }

/-- R29, R30: a control cell failed: it stays at its place; the fourth failure is reported once. -/
def State.controlFailed (s : State) (age : DWord) : State :=
  match s.entryOf age with
  | none => s
  | some (t, e) =>
    let l := s.list t
    let s := s.setList t { l with cells := l.cells.map fun x => if x.age = age then x.failed else x }
    if e.failed.attempts = 4 ∧ ¬ e.reported then s.raiseTrouble t e.cell else s

/-- The order cells of a DOWN: order index, cell number and order number. -/
def orderCells (cells : List Carried) : List (Nat × Nat × Nat) :=
  cells.filterMap fun c => match c with
    | .control _ _ => none
    | .order i n content => some (i, n, match content with
        | .note number _ _ _ => number
        | .text number _ _ => number)

/-- R29, R87: the outcome of the order cells of a DOWN, given to their order. -/
def State.settleOrder (s : State) (delivered : Bool) (cells : List (Nat × Nat × Nat)) (i : Nat) : State :=
  let mine := cells.filter fun c => decide (c.1 = i)
  let ns := mine.map fun c => c.2.1
  if mine.all fun c => (s.order i).wants c.2.2 then
    if delivered then s.cellsDelivered i ns else s.cellsFailed i ns
  else s

/-- R29: one control cell of a DOWN settled. -/
def State.settleControl (s : State) (delivered : Bool) (c : Carried) : State :=
  match c with
  | .control age _ => if delivered then s.controlDelivered age else s.controlFailed age
  | .order _ _ _ => s

/-- R29: the outcome of a transaction applied to each cell the DOWN carried. -/
def State.settle (s : State) (delivered : Bool) (cells : List Carried) : State :=
  let s := cells.foldl (fun s c => s.settleControl delivered c) s
  let mine := orderCells cells
  (mine.map (·.1)).eraseDups.foldl (fun s i => s.settleOrder delivered mine i) s

/-! ### Routing (R27) -/

/-- R27: a cell handed to its owner as from truck t. -/
def State.routeCell (s : State) (t : Nat) (c : UpCell) : State :=
  match c with
  | .idle => s
  | .checkIn badge => s.checkIn t badge
  | .panic badge => s.alarmCell t badge false
  | .manDown badge => s.alarmCell t badge true
  | .orderStatus number code => s.orderStatus t number code
  | .readback program step device action => s.readback t program step device action
  | .executed program step => s.executed t program step
  | .unplanned device position => s.unplanned t device position
  | .acceptPermit number badge count check => s.acceptPermit t number badge count check
  | .signOn number badge => s.signOn t number badge
  | .signOff number badge => s.signOff t number badge
  | .surrender number badge => s.surrender t number badge
  | .access => s.updTruck t fun x => { x with access := true }

/-- R27: the 12 bytes of a cell routed; a cell of unknown kind or with a code outside its list is dropped. -/
def State.routeBytes (s : State) (t : Nat) (l : List Byte) : State :=
  match UpCell.ofBytes l with
  | some c => s.routeCell t c
  | none => s

/-- R25 step 5, R27: the cells of a burst routed, in burst order. -/
def State.routeCells (s : State) (t : Nat) (cells : List (List Byte)) : State := cells.foldl (fun s l => s.routeBytes t l) s

/-- The records that a cell from truck t republishes in any case, in the state that takes it: a repeated alarm the worker's
(R107), an UNPLANNED cell the device entry (R126), an EXECUTED cell that sets a position the step's device entry (R127). -/
def State.cellRecord (s : State) (t : Nat) (c : UpCell) : List Nat :=
  match c with
  | .panic badge => ((s.repeatedAlarm badge .panic).map workerBase).toList
  | .manDown badge => ((s.repeatedAlarm badge .manDown).map workerBase).toList
  | .unplanned device _ => ((s.findDevice device).map deviceBase).toList
  | .executed program step => s.executedRecord t program step
  | .idle => [] | .checkIn _ => [] | .orderStatus _ _ => [] | .readback _ _ _ _ => [] | .acceptPermit _ _ _ _ => []
  | .signOn _ _ => [] | .signOff _ _ => [] | .surrender _ _ => [] | .access => []

/-- The records that the cells of a burst from truck t republish in any case, each cell in the state that takes it. -/
def State.cellRecords (s : State) (t : Nat) : List (List Byte) → List Nat
  | [] => []
  | l :: rest =>
    ((UpCell.ofBytes l).map (s.cellRecord t)).getD [] ++ (s.routeBytes t l).cellRecords t rest

/-! ### Reports (R25, R26) -/

/-- R25 steps 3 and 4: a GOOD burst graded, the UP slot run, the truck heard. `stalled` says that the truck's head order was
STALLED before the event (R85). -/
def State.hearBurst (s : State) (t : Nat) (h : Heard) (u : UpBurst) (stalled : Bool) : State :=
  let s := (((s.gradeReport t h).upRun t).markHeard t u.more).firstHeard t
  if stalled then s.stallResume t else s

/-- R25 steps 3 to 5: the sample and the UP slot run; of a GOOD burst also the truck heard and the cells routed. -/
def State.takeReport (s : State) (t : Nat) (h : Heard) (burst : Option UpBurst) (stalled : Bool) : State :=
  match burst with
  | none => (s.gradeReport t h).upRun t
  | some u => (s.hearBurst t h u stalled).routeCells t u.cells

/-- R53: the truck record that the Link Grader republishes in any case: that of a truck whose report it has handled. -/
def State.gradedRecord (s : State) (t radioId : Nat) : List Nat :=
  if (s.truck t).radioId = radioId ∧ (s.truck t).state ≠ .parked then [truckBase t] else []

/-- R53, R107, R126, R127: the records republished in any case by a report of truck t, the Link Grader's and its cells'. -/
def State.reportRecords (s : State) (t radioId : Nat) (h : Heard) (burst : Option UpBurst) (stalled : Bool) : List Nat :=
  s.gradedRecord t radioId ++
    (match burst with
     | none => []
     | some u => (s.hearBurst t h u stalled).cellRecords t u.cells)

/-- R24, R25 step 1: a report of a planned UP slot as it counts for its truck. -/
def attributed (rate radioId : Nat) (report : SlotReport) : Heard × Option UpBurst :=
  match report with
  | .nothingHeard => (.nothing, none)
  | .received bytes rssi =>
    match classify rate bytes with
    | none => (.garbled rssi, none)
    | some u => if u.radioId = radioId then (.good rssi, some u) else (.garbled rssi, none)

/-- R28: the transaction is delivered. -/
def downHeard (burst : Option UpBurst) : Bool :=
  match burst with
  | none => false
  | some u => u.downHeard

/-- R35: slot k's report marked as handled. -/
def Round.handle (r : Round) (k : Nat) : Round :=
  { r with slots := r.slots.modify (k - 1) fun p => { p with handled := true } }

/-- The planned UP slot k of the running round whose report is still to come, with the cells its report settles. -/
def State.awaited (s : State) (k : Nat) : Option (PlanSlot × List Carried) :=
  match s.round with
  | none => none
  | some r =>
    if k = 0 then none
    else match r.slots[k - 1]? with
      | none => none
      | some p =>
        if p.dir = .up ∧ ¬ p.handled then
          some (p, if p.closes then ((r.slots[k - 2]?).map (·.cells)).getD [] else [])
        else none

/-- R35: the report of planned slot k marked as handled. -/
def State.handleSlot (s : State) (k : Nat) : State := { s with round := s.round.map fun r => r.handle k }

/-- R25: the report of planned UP slot k, whose plan is `p` and whose transaction's cells are `cells`. -/
def State.upReport (s : State) (k : Nat) (p : PlanSlot) (cells : List Carried) (report : SlotReport) : State :=
  let s := s.handleSlot k
  if (s.truck p.truck).radioId ≠ p.radioId then s
  else
    let heard := attributed p.rate p.radioId report
    (s.settle (downHeard heard.2) cells).takeReport p.truck heard.1 heard.2 (s.headStalled p.truck)

/-- The records that the report of planned UP slot k republishes in any case. -/
def State.upRecord (s : State) (k : Nat) (p : PlanSlot) (cells : List Carried) (report : SlotReport) : List Nat :=
  let s := s.handleSlot k
  if (s.truck p.truck).radioId ≠ p.radioId then []
  else
    let heard := attributed p.rate p.radioId report
    (s.settle (downHeard heard.2) cells).reportRecords p.truck p.radioId heard.1 heard.2 (s.headStalled p.truck)

/-- R21: slot k of the running round is open. -/
def State.slotOpen (s : State) (k : Nat) : Bool :=
  match s.round with
  | none => false
  | some r => decide (1 ≤ k) && (r.quiet || decide (26 ≤ k))

/-- R17: the badge of the first PANIC or MAN DOWN cell of a burst. -/
def firstAlarm : List (List Byte) → Option Nat
  | [] => none
  | l :: rest =>
    match UpCell.ofBytes l with
    | some (.panic badge) => some badge
    | some (.manDown badge) => some badge
    | _ => firstAlarm rest

/-- R16, R17, R67: a GOOD burst from a radio that no truck entry holds (order of the notices: DEDUCED, log 23). -/
def State.strayBurst (s : State) (u : UpBurst) (rssi : Int) : State :=
  match firstAlarm u.cells with
  | none => s.strayUnit u.radioId rssi
  | some badge =>
    (s.endQuietPeriod .alarmCell (strayNotice .quietEnded u.radioId)).strayAlarm u.radioId badge rssi

/-- R26: the GOOD burst that a report of an open slot carries. -/
def openBurst (report : SlotReport) : Option (UpBurst × Int) :=
  match report with
  | .nothingHeard => none
  | .received bytes rssi => (classify 1 bytes).map fun u => (u, rssi)

/-- R26: a GOOD burst heard in an open slot. -/
def State.openReport (s : State) (u : UpBurst) (rssi : Int) : State :=
  match s.findTruck u.radioId with
  | none => s.strayBurst u rssi
  | some t => s.takeReport t (.good rssi) (some u) (s.headStalled t)

/-- The records that a GOOD burst heard in an open slot republishes in any case. -/
def State.openRecord (s : State) (u : UpBurst) (rssi : Int) : List Nat :=
  match s.findTruck u.radioId with
  | none => []
  | some t => s.reportRecords t u.radioId (.good rssi) (some u) (s.headStalled t)

/-! ### The modem link (R22, R37) -/

/-- R36, R37: a not-ready report. -/
def State.notReady (s : State) : State :=
  let fault := s.modemReady
  let s := { s.endRound with modemReady := false }
  if fault then s.raise { kind := .modemFault, value := s.roundNumber.toNat } else s

/-! ### Meanings -/

/-- SITE_SECOND (R18): the clock rises by 1, stopping at its maximum; the site block is republished. -/
def execSiteSecond (s : State) : Host.Outcome State Fault Refusal :=
  .next (publish s { s with clock := min (s.clock + 1) Config.clockMax } [siteBase])

/-- ROUND_BOUNDARY (R19). -/
def execRoundBoundary (s : State) : Host.Outcome State Fault Refusal := .next (publish s s.boundary)

/-- SLOT_START (R21). -/
def execSlotStart (k : Fin 32) (s : State) : Host.Outcome State Fault Refusal := .next (publish s (s.beginSlot k))

/-- MODEM_READY (R22). -/
def execModemReady (s : State) : Host.Outcome State Fault Refusal := .next (publish s { s with modemReady := true })

/-- MODEM_NOT_READY (R36, R37). -/
def execModemNotReady (s : State) : Host.Outcome State Fault Refusal := .next (publish s s.notReady)

/-- UP_SLOT_REPORT (R25). -/
def execUpSlotReport (k : Fin 32) (report : SlotReport) (s : State) : Host.Outcome State Fault Refusal :=
  match s.awaited k with
  | none => .next s
  | some (p, cells) => .next (publish s (s.upReport k p cells report) (s.upRecord k p cells report))

/-- OPEN_SLOT_REPORT (R26). -/
def execOpenSlotReport (k : Fin 32) (report : SlotReport) (s : State) : Host.Outcome State Fault Refusal :=
  match openBurst report with
  | none => .next s
  | some (u, rssi) => .next (if s.slotOpen k then publish s (s.openReport u rssi) (s.openRecord u rssi) else s)

end Sys2Proof.Machine
end

