-- ==== Sys2Proof/Machine/Port.lean ====
section
/-! DEFINITION. The Exchange Port (spec/10_the_exchange_memory.md): host writes, the registers, the rack scan, port reset, power-on,
and the work the part does on its own. -/

namespace Sys2Proof.Machine

/-! ### Host writes to exchange memory (R169, R174, R177, R180) -/

/-- R169: a write the host may not make is dropped, WRITE REFUSED set and its offset latched. -/
def State.refuseWrite (s : State) (off : Nat) : State := { s with writeRefused := true, refusedWrite := off }

/-- R174: a write to a state or answer word against the ownership rules is dropped with CARD FAULT. -/
def State.faultCard (s : State) : State := { s with cardFault := true }

/-- R174: a host write to the state word of card c. -/
def State.writeCardState (s : State) (c : Nat) (v : Word) : State :=
  let st := s.cardStateWord c
  if st = CardState.empty.code ∧ v = CardState.posted.code then s.setCardState c .posted
  else if st = CardState.posted.code ∧ v = CardState.posted.code then s
  else if st = CardState.posted.code ∧ v = CardState.empty.code then s.setCardState c .empty
  else if st = CardState.answered.code ∧ v = CardState.empty.code then s.setCardState c .empty
  else s.faultCard

/-- R174: the card's answer words are the host's to write: it is EMPTY or POSTED. -/
def State.answerWritable (s : State) (c : Nat) : Bool :=
  decide (s.cardStateWord c = CardState.empty.code) || decide (s.cardStateWord c = CardState.posted.code)

/-- R174: a host write to word w of card c: the state word, an answer word (2 to 7), or the kind and request words. -/
def State.writeCard (s : State) (c w : Nat) (v : Word) : State :=
  if w = 0 then s.writeCardState c v
  else if 2 ≤ w ∧ w ≤ 7 then if s.answerWritable c then s.setRaw (cardBase c + w) v else s.faultCard
  else s.setRaw (cardBase c + w) v

/-- R180: the state word of a FILLED slot written EMPTY: the slot is freed, and the hold list's head takes it at once. -/
def State.freeSlot (s : State) (k : Nat) : State := (s.setRaw (slotBase k) 0).refillSlot k

/-- R180: a host write to word w of slot k. -/
def State.writeSlot (s : State) (k w : Nat) (v : Word) : State :=
  if w = 0 ∧ v = 0 ∧ s.slotFilled k then s.freeSlot k else s.refuseWrite (slotBase k + w)

/-- R169: a host write of one word. -/
def State.hostWrite (s : State) (off : Nat) (v : Word) : State :=
  if off < slotBase 0 then s.writeCard (off / 64) (off % 64) v
  else if off < stagingBase 0 then s.writeSlot ((off - slotBase 0) / 16) ((off - slotBase 0) % 16) v
  else if off < siteBase then s.setRaw off v
  else s.refuseWrite off

/-- Host writes of consecutive words. -/
def State.hostWrites (s : State) (off : Nat) : List Word → State
  | [] => s
  | v :: rest => (s.hostWrite off v).hostWrites (off + 1) rest

/-- CARD_POST: the kind, the request words from word 8 on, then POSTED to the state word (log 7). -/
def State.postCard (s : State) (c : Nat) (kind : Word) (request : List Word) : State :=
  let s := s.hostWrite (cardBase c + 1) kind
  let s := s.hostWrites (cardBase c + 8) (request.take 56)
  s.hostWrite (cardBase c) CardState.posted.code

/-- R180: a slot left EMPTY takes the head of the hold list. -/
def State.holdRefill (s : State) : State :=
  match s.emptySlot with
  | some k => s.refillSlot k
  | none => s

/-! ### CALL and the scan (R173) -/

/-- R173: a write to CALL, of any value. -/
def State.callWritten (s : State) : State :=
  if s.published && s.scan.isNone then { s with scan := some 0 } else { s with callPending := true }

/-- R173: a pending CALL starts its scan, where the first publication can complete or the running scan has no POSTED card
ahead of it. -/
def State.restartScan (s : State) : State :=
  if !s.callPending then s
  else if !s.published then s.firstPublication
  else match s.scan with
    | some p => if s.nonePosted p Config.cards then s.scanEnd else s
    | none => s.scanEnd

/-- UNKNOWN KIND: the answer of check 1 (R175). -/
def unknownCard (_ : Req) (s : State) : Take := .refuse s ⟨.unknownKind, 0, []⟩

/-! ### CONTROL (R172) -/

/-- R172, R36: TRANSMIT ENABLE written; clearing it cuts a running round. -/
def State.setTransmit (s : State) (on : Bool) : State :=
  if on then { s with transmitEnable := true } else { s.endRound with transmitEnable := false }

/-! ### Port reset (R181) -/

/-- R181 step 2: a card in POSTED or TAKEN is answered ABANDONED. -/
def State.abandonCard (s : State) (c : Nat) : State :=
  if s.cardPosted c || s.cardTaken c then s.answerCard c ⟨.abandoned, 0, []⟩ else s

/-- R181 step 1: a running scan ends and CALL-pending clears. -/
def State.stopScan (s : State) : State := { s with scan := none, callPending := false }

/-- R181 step 2: every card POSTED or TAKEN answered ABANDONED, every copy ended. -/
def State.abandonCards (s : State) : State := { (List.range Config.cards).foldl State.abandonCard s with copies := [] }

/-- R181 step 3: slot k made EMPTY. DESIGN CHOICE: its state word alone is written, and words 1 to 15 keep the old notice
(log 33). -/
def State.emptySlotWord (s : State) (k : Nat) : State := s.setRaw (slotBase k) 0

/-- R181 step 3: every notice slot EMPTY, the hold list empty. -/
def State.emptyBoard (s : State) : State :=
  { (List.range Config.noticeSlots).foldl State.emptySlotWord s with hold := [] }

/-- R181 steps 4 and 5: the sticky bits, the refused-write address, NOTICE ENABLE and AUTHORITY cleared. -/
def State.clearPort (s : State) : State :=
  { s with missed := false, writeRefused := false, cardFault := false, portResetDone := false, refusedWrite := 0,
           noticeEnable := false, authority := false }

/-- R181: the Exchange Port's part of a port reset, in order. -/
def State.exchangeReset (s : State) : State := s.stopScan.abandonCards.emptyBoard.clearPort

/-- R181: a port reset: the Exchange Port first, then the Channel Controller (R38) and Switching Control (R167); every other
block keeps what it holds. -/
def State.portReset (s : State) : State :=
  { s.exchangeReset.endRound.switchingReset with portResetDone := true }

/-- R172: a write of CONTROL with PORT RESET as 1: the other three bits first. -/
def State.controlReset (s : State) (notice transmit authority : Bool) : State :=
  ({ s with noticeEnable := notice, authority }.setTransmit transmit).portReset

/-! ### Power-on and the part's own work (R170, R173, R177, R182) -/

/-- R182, R170: power-on, then the first publication. The waiting commands are not the part's and stay. -/
def State.powerOn (s : State) : State := { State.reset with pending := s.pending }.firstPublication

/-- R177: a copy reads its next word. -/
def State.copyOne (s : State) (c : Copy) : Copy :=
  if c.read.length < c.total then { c with read := c.read ++ [s.rawWord (stagingBase c.buffer + c.read.length)] } else c

/-- R173: a running scan passes over a card that is not POSTED. -/
def State.scanOne (s : State) : State :=
  match s.scan with
  | some p => if s.cardPosted p then s else s.scanAdvance p
  | none => s

/-- What the part does while no command waits (log 2): the first publication; then the scan passes one card that is not
POSTED, and each staging copy reads its next word. -/
def State.background (s : State) : State :=
  if s.published then { s.scanOne with copies := s.copies.map s.copyOne } else s.firstPublication

/-! ### Meanings -/

/-- POWER_ON (R182). -/
def execPowerOn (s : State) : Host.Outcome State Fault Refusal := .next s.powerOn

/-- HOLD_LIST_REFILL (R180). -/
def execHoldListRefill (s : State) : Host.Outcome State Fault Refusal := .next (publish s s.holdRefill)

/-- UNKNOWN_KIND: the take of a card whose kind the part does not know (R175). -/
def execUnknownKind (c : Fin 64) (s : State) : Host.Outcome State Fault Refusal :=
  .next (publish s (s.takeWhen c (fun w => !knownKind w) unknownCard))

/-- CALL (R173). -/
def execCall (_value : Word) (s : State) : Host.Outcome State Fault Refusal := .next (publish s s.callWritten)

/-- SCAN_RESTART (R173). -/
def execScanRestart (s : State) : Host.Outcome State Fault Refusal := .next (publish s s.restartScan)

/-- NOTICE_ENABLE (R172). -/
def execNoticeEnable (on : Bool) (s : State) : Host.Outcome State Fault Refusal := .next { s with noticeEnable := on }

/-- TRANSMIT_ENABLE (R172, R36). -/
def execTransmitEnable (on : Bool) (s : State) : Host.Outcome State Fault Refusal := .next (publish s (s.setTransmit on))

/-- AUTHORITY (R172). -/
def execAuthority (on : Bool) (s : State) : Host.Outcome State Fault Refusal := .next { s with authority := on }

/-- PORT_RESET (R172, R181). -/
def execPortReset (notice transmit authority : Bool) (s : State) : Host.Outcome State Fault Refusal :=
  .next (publish s (s.controlReset notice transmit authority))

/-- CLEAR_MISSED (R171). -/
def execClearMissed (s : State) : Host.Outcome State Fault Refusal := .next { s with missed := false }

/-- CLEAR_WRITE_REFUSED (R171); the refused-write address stands (R169). -/
def execClearWriteRefused (s : State) : Host.Outcome State Fault Refusal := .next { s with writeRefused := false }

/-- CLEAR_CARD_FAULT (R171). -/
def execClearCardFault (s : State) : Host.Outcome State Fault Refusal := .next { s with cardFault := false }

/-- CLEAR_PORT_RESET_DONE (R171). -/
def execClearPortResetDone (s : State) : Host.Outcome State Fault Refusal := .next { s with portResetDone := false }

/-- REGISTER_WRITE_DROPPED (R171): no STATUS bit is set. -/
def execRegisterWriteDropped (_value : Word) (s : State) : Host.Outcome State Fault Refusal := .next s

/-- CARD_POST (R174). -/
def execCardPost (c : Fin 64) (kind : Word) (request : List Word) (s : State) : Host.Outcome State Fault Refusal :=
  .next (publish s (s.postCard c kind request))

/-- CARD_TAKE_BACK (R174): EMPTY written to the state word of a card. -/
def execCardTakeBack (c : Fin 64) (s : State) : Host.Outcome State Fault Refusal :=
  .next (publish s (s.hostWrite (cardBase c) 0))

/-- CARD_EMPTY (R174): EMPTY written to the state word of a card. -/
def execCardEmpty (c : Fin 64) (s : State) : Host.Outcome State Fault Refusal :=
  .next (publish s (s.hostWrite (cardBase c) CardState.empty.code))

/-- CARD_FAULT (R174): a write to a state or answer word of a card. -/
def execCardFault (c : Fin 64) (word : Fin 8) (value : Word) (s : State) : Host.Outcome State Fault Refusal :=
  .next (publish s (s.hostWrite (cardBase c + word) value))

/-- NOTICE_SLOT_FREE (R180): EMPTY written to the state word of a slot. -/
def execNoticeSlotFree (k : Fin 128) (s : State) : Host.Outcome State Fault Refusal :=
  .next (publish s (s.hostWrite (slotBase k) 0))

/-- WRITE_REFUSED (R169): a write of any word of exchange memory. -/
def execWriteRefused (off : Fin 32768) (value : Word) (s : State) : Host.Outcome State Fault Refusal :=
  .next (publish s (s.hostWrite off value))

/-- STAGING_BUFFER_WRITE (R177). -/
def execStagingBufferWrite (b : Fin 8) (w : Fin 512) (value : Word) (s : State) : Host.Outcome State Fault Refusal :=
  .next (publish s (s.hostWrite (stagingBase b + w) value))

end Sys2Proof.Machine
end

