-- ==== Sys2Proof/Machine/Dispatch.lean ====
section
/-! DEFINITION. One arm for each command. -/

namespace Sys2Proof.Machine

def exec (i : Instr) (s : State) : Host.Outcome State Fault Refusal :=
  match i with
  | .powerOn => Sys2Proof.Machine.execPowerOn s
  | .siteSecond => Sys2Proof.Machine.execSiteSecond s
  | .roundBoundary => Sys2Proof.Machine.execRoundBoundary s
  | .slotStart slot => Sys2Proof.Machine.execSlotStart slot s
  | .headerComplete => Sys2Proof.Machine.execHeaderComplete s
  | .noiseReport dBm => Sys2Proof.Machine.execNoiseReport dBm s
  | .modemReady => Sys2Proof.Machine.execModemReady s
  | .modemNotReady => Sys2Proof.Machine.execModemNotReady s
  | .upSlotReport slot report => Sys2Proof.Machine.execUpSlotReport slot report s
  | .openSlotReport slot report => Sys2Proof.Machine.execOpenSlotReport slot report s
  | .deadlineReached worker => Sys2Proof.Machine.execDeadlineReached worker s
  | .graceEndReached worker => Sys2Proof.Machine.execGraceEndReached worker s
  | .quietEndReached => Sys2Proof.Machine.execQuietEndReached s
  | .orderPostCopyComplete card => Sys2Proof.Machine.execOrderPostCopyComplete card s
  | .programLoadCopyComplete card => Sys2Proof.Machine.execProgramLoadCopyComplete card s
  | .waitingGroupOffer truck => Sys2Proof.Machine.execWaitingGroupOffer truck s
  | .stepWaitTruckEnd truck => Sys2Proof.Machine.execStepWaitTruckEnd truck s
  | .orderStallResume truck => Sys2Proof.Machine.execOrderStallResume truck s
  | .permitClose permit => Sys2Proof.Machine.execPermitClose permit s
  | .holdListRefill => Sys2Proof.Machine.execHoldListRefill s
  | .truckAdd card => Sys2Proof.Machine.execTruckAdd card s
  | .truckRemove card => Sys2Proof.Machine.execTruckRemove card s
  | .truckPark card => Sys2Proof.Machine.execTruckPark card s
  | .truckUnpark card => Sys2Proof.Machine.execTruckUnpark card s
  | .workerAdd card => Sys2Proof.Machine.execWorkerAdd card s
  | .workerRemove card => Sys2Proof.Machine.execWorkerRemove card s
  | .board card => Sys2Proof.Machine.execBoard card s
  | .alight card => Sys2Proof.Machine.execAlight card s
  | .flagsClear card => Sys2Proof.Machine.execFlagsClear card s
  | .siteSet card => Sys2Proof.Machine.execSiteSet card s
  | .quiet card => Sys2Proof.Machine.execQuiet card s
  | .endQuiet card => Sys2Proof.Machine.execEndQuiet card s
  | .orderPost card => Sys2Proof.Machine.execOrderPost card s
  | .orderWithdraw card => Sys2Proof.Machine.execOrderWithdraw card s
  | .orderClear card => Sys2Proof.Machine.execOrderClear card s
  | .watchStart card => Sys2Proof.Machine.execWatchStart card s
  | .watchStop card => Sys2Proof.Machine.execWatchStop card s
  | .watchCheck card => Sys2Proof.Machine.execWatchCheck card s
  | .alarmAck card => Sys2Proof.Machine.execAlarmAck card s
  | .alarmResolve card => Sys2Proof.Machine.execAlarmResolve card s
  | .deviceAdd card => Sys2Proof.Machine.execDeviceAdd card s
  | .deviceRemove card => Sys2Proof.Machine.execDeviceRemove card s
  | .deviceReport card => Sys2Proof.Machine.execDeviceReport card s
  | .permitDraft card => Sys2Proof.Machine.execPermitDraft card s
  | .permitIssue card => Sys2Proof.Machine.execPermitIssue card s
  | .permitResume card => Sys2Proof.Machine.execPermitResume card s
  | .permitCancel card => Sys2Proof.Machine.execPermitCancel card s
  | .permitForceClose card => Sys2Proof.Machine.execPermitForceClose card s
  | .permitClear card => Sys2Proof.Machine.execPermitClear card s
  | .programLoad card => Sys2Proof.Machine.execProgramLoad card s
  | .programStart card => Sys2Proof.Machine.execProgramStart card s
  | .stepRelease card => Sys2Proof.Machine.execStepRelease card s
  | .stepConfirm card => Sys2Proof.Machine.execStepConfirm card s
  | .programHalt card => Sys2Proof.Machine.execProgramHalt card s
  | .programResume card => Sys2Proof.Machine.execProgramResume card s
  | .programAbort card => Sys2Proof.Machine.execProgramAbort card s
  | .programClear card => Sys2Proof.Machine.execProgramClear card s
  | .unknownKind card => Sys2Proof.Machine.execUnknownKind card s
  | .call value => Sys2Proof.Machine.execCall value s
  | .scanRestart => Sys2Proof.Machine.execScanRestart s
  | .noticeEnable on => Sys2Proof.Machine.execNoticeEnable on s
  | .transmitEnable on => Sys2Proof.Machine.execTransmitEnable on s
  | .authority on => Sys2Proof.Machine.execAuthority on s
  | .portReset notice transmit authority => Sys2Proof.Machine.execPortReset notice transmit authority s
  | .clearMissed => Sys2Proof.Machine.execClearMissed s
  | .clearWriteRefused => Sys2Proof.Machine.execClearWriteRefused s
  | .clearCardFault => Sys2Proof.Machine.execClearCardFault s
  | .clearPortResetDone => Sys2Proof.Machine.execClearPortResetDone s
  | .registerWriteDropped value => Sys2Proof.Machine.execRegisterWriteDropped value s
  | .cardPost card kind request => Sys2Proof.Machine.execCardPost card kind request s
  | .cardTakeBack card => Sys2Proof.Machine.execCardTakeBack card s
  | .cardEmpty card => Sys2Proof.Machine.execCardEmpty card s
  | .cardFault card word value => Sys2Proof.Machine.execCardFault card word value s
  | .noticeSlotFree slot => Sys2Proof.Machine.execNoticeSlotFree slot s
  | .writeRefused offset value => Sys2Proof.Machine.execWriteRefused offset value s
  | .stagingBufferWrite buffer word value => Sys2Proof.Machine.execStagingBufferWrite buffer word value s

end Sys2Proof.Machine
end

