-- ==== Sys2Proof/Machine/Step.lean ====
section
/-! DEFINITION. One step: the command at the front of the queue, or the part's own work when none waits. -/

namespace Sys2Proof.Machine

/-- One step. The command at the front of the queue is taken off and runs on the state with the queue's rest; on an empty
queue the part does its own work (log 2). -/
def step (s : State) : Host.Outcome State Fault Refusal :=
  match s.pending with
  | [] => .next (publish s s.background)
  | c :: rest => exec c { s with pending := rest }

/-- A command put at the front of the queue. -/
def State.pushCommand (s : State) (c : Instr) : State := { s with pending := c :: s.pending }

/-- The command that a word spells, put at the front of the queue; the state as it is where the word spells none. The table
gives no row any bits, so no word spells one (log 22). -/
def State.withFetchWord (s : State) (nbits w : Nat) : State :=
  match decodeTableWord nbits w with
  | some c => s.pushCommand c
  | none => s

end Sys2Proof.Machine
end

