-- ==== Sys2Proof/Safety.lean ====
section
/-! DEFINITION. The words that claims use: a card under the scan and its answer, the commands that take cards, the report of a
planned slot, the plan of a round, notices raised in order, an alarm entered, waits ended, and the invariant of the machine. -/

namespace Sys2Proof.Machine

/-! ### A card under the scan (R173 to R176) -/

/-- The rack scan, from `s`, can take card c next; it does so in `s1`, in which the card is POSTED and of kind `k`. -/
def AtCard (s : State) (c : Nat) (k : CardKind) (s1 : State) : Prop :=
  s.scanReach c = some s1 ∧ s1.cardPosted c = true ∧ s1.card c 1 = k.code

/-- The end of an event from `s` in which the owner's act has left `u`: card c answered, the scan moved on, the records
changed published, and those of `forced` in any case. -/
def answeredAs (s u : State) (c : Nat) (a : Answer) (forced : List Nat := []) : State :=
  publish s ((u.answerCard c a).scanAdvance c) forced

/-- The end of an event from `s` in which the owner's act has left `u`: card c TAKEN, the scan moved on, the records changed
published. -/
def takenAs (s u : State) (c : Nat) : State := publish s ((u.setCardState c .taken).scanAdvance c)

/-- The command that takes a card of a kind. -/
def cardCommand (k : CardKind) (c : Fin 64) : Instr :=
  match k with
  | .truckAdd => .truckAdd c
  | .truckRemove => .truckRemove c
  | .truckPark => .truckPark c
  | .truckUnpark => .truckUnpark c
  | .workerAdd => .workerAdd c
  | .workerRemove => .workerRemove c
  | .board => .board c
  | .alight => .alight c
  | .flagsClear => .flagsClear c
  | .siteSet => .siteSet c
  | .quiet => .quiet c
  | .endQuiet => .endQuiet c
  | .orderPost => .orderPost c
  | .orderWithdraw => .orderWithdraw c
  | .orderClear => .orderClear c
  | .watchStart => .watchStart c
  | .watchStop => .watchStop c
  | .watchCheck => .watchCheck c
  | .alarmAck => .alarmAck c
  | .alarmResolve => .alarmResolve c
  | .deviceAdd => .deviceAdd c
  | .deviceRemove => .deviceRemove c
  | .deviceReport => .deviceReport c
  | .permitDraft => .permitDraft c
  | .permitIssue => .permitIssue c
  | .permitResume => .permitResume c
  | .permitCancel => .permitCancel c
  | .permitForceClose => .permitForceClose c
  | .permitClear => .permitClear c
  | .programLoad => .programLoad c
  | .programStart => .programStart c
  | .stepRelease => .stepRelease c
  | .stepConfirm => .stepConfirm c
  | .programHalt => .programHalt c
  | .programResume => .programResume c
  | .programAbort => .programAbort c
  | .programClear => .programClear c

/-- What the owner of a kind does at the take of card c. -/
def cardOwner (k : CardKind) (c : Nat) : Req → State → Take :=
  match k with
  | .truckAdd => truckAdd
  | .truckRemove => truckRemove
  | .truckPark => truckPark
  | .truckUnpark => truckUnpark
  | .workerAdd => workerAdd
  | .workerRemove => workerRemove
  | .board => boardCard
  | .alight => alightCard
  | .flagsClear => flagsClear
  | .siteSet => siteSet
  | .quiet => quietCard
  | .endQuiet => endQuietCard
  | .orderPost => orderPost c
  | .orderWithdraw => orderWithdrawCard
  | .orderClear => orderClear
  | .watchStart => watchStart
  | .watchStop => watchStop
  | .watchCheck => watchCheck
  | .alarmAck => alarmAck
  | .alarmResolve => alarmResolve
  | .deviceAdd => deviceAdd
  | .deviceRemove => deviceRemove
  | .deviceReport => deviceReport
  | .permitDraft => permitDraft
  | .permitIssue => permitIssue
  | .permitResume => permitResume
  | .permitCancel => permitCancel
  | .permitForceClose => permitForceClose
  | .permitClear => permitClear
  | .programLoad => programLoad c
  | .programStart => programStart
  | .stepRelease => stepRelease
  | .stepConfirm => stepConfirm
  | .programHalt => programHalt
  | .programResume => programResume
  | .programAbort => programAbort
  | .programClear => programClear

/-! ### Polls (R24, R25) -/

/-- Slot k of the running round `r` is the UP slot `p` of a poll whose report is still to come, and the truck entry it names
still holds the radio id of the snapshot (R25 step 1); `p` closes no transaction. -/
structure Polled (s : State) (k : Fin 32) (r : Round) (p : PlanSlot) : Prop where
  slot : 1 ≤ k.val
  running : s.round = some r
  planned : r.slots[k.val - 1]? = some p
  up : p.dir = .up
  unhandled : p.handled = false
  poll : p.closes = false
  radio : (s.truck p.truck).radioId = p.radioId

/-- R25 steps 1 and 2: slot k is the planned UP slot `p` whose report is still to come, and the entry of its truck still holds the
radio id of the snapshot; `base` is the state once the slot is marked handled and, where it closes a transaction, the cells of
that transaction's DOWN are settled as `delivered` says. -/
def ReportOf (s : State) (k : Fin 32) (p : PlanSlot) (delivered : Bool) (base : State) : Prop :=
  (∃ r, Polled s k r p ∧ base = { s with round := some (r.handle k) }) ∨
  (∃ r d, s.round = some r ∧ 2 ≤ k.val ∧ r.slots[k.val - 2]? = some d ∧ r.slots[k.val - 1]? = some p ∧ p.dir = .up ∧
    p.handled = false ∧ p.closes = true ∧ (s.truck p.truck).radioId = p.radioId ∧
    base = ({ s with round := some (r.handle k) } : State).settle delivered d.cells)

/-! ### The plan of a round (R57 to R62) -/

/-- R62: what a round start finds to send to truck i: its control cells as its list has them, then the undelivered cells of its
head order in block order, while that order is QUEUED or SENDING. -/
def State.workOf (s : State) (i : Nat) : List Carried :=
  ((s.list i).cells.map fun e => Carried.control e.age e.cell) ++
    (match s.queue i with
     | [] => []
     | o :: _ =>
       if (s.order o).state = .queued ∨ (s.order o).state = .sending then
         ((List.range (s.order o).cells.length).filter fun n => !((s.order o).cells.getD n {}).delivered).map
           fun n => Carried.order o n (s.orderCell o n)
       else [])

/-- R57: a cell is of a class. -/
def Carried.inClass (cls : CellClass) : Carried → Bool
  | .control _ cell => if cell.isA then decide (cls = .a) else decide (cls = .b)
  | .order _ _ _ => decide (cls = .c)

/-- R59, R61: a slot given to truck i, at the rate its grade gives, or at 1 if it is not ON AIR. -/
def State.slotFor (s : State) (i : Nat) (dir : Dir) : PlanSlot :=
  { truck := i, radioId := (s.truck i).radioId, dir := dir
    rate := if (s.truck i).state = .onAir then (s.link i).grade.rate else 1 }

/-- R62: the work of truck i that the DOWNs in `slots` have not taken, each of which takes as many cells as its rate. -/
def State.workLeft (s : State) (slots : List PlanSlot) (i : Nat) : List Carried :=
  (s.workOf i).drop ((s.slotFor i .down).rate * slots.countP fun x => decide (x.truck = i) && decide (x.dir = .down))

/-- R57, R58, R60: the trucks that class `cls` of a sweep grants a transaction, in order, when the slots given before it are
`slots`: round robin from the index after the pointer, ON AIR, with work of the class left and at most 4 slots so far, as far
as two slots each remain of the 25. -/
def State.grantedIn (s : State) (slots : List PlanSlot) (cls : CellClass) (pointer : Nat) : List Nat :=
  (((List.range 96).map fun j => (pointer + 1 + j) % 96).filter fun i =>
    decide ((s.truck i).state = .onAir) && decide (slots.countP (fun x => decide (x.truck = i)) ≤ 4)
    && (s.workLeft slots i).any (Carried.inClass cls)).take ((25 - slots.length) / 2)

/-- R57, R61, R62: the slots after a class of a sweep: to each truck granted, a DOWN with the next of its work, and the UP that
closes it. -/
def State.afterClass (s : State) (cls : CellClass) (pointer : Nat) (slots : List PlanSlot) : List PlanSlot :=
  slots ++ (s.grantedIn slots cls pointer).flatMap fun i =>
    [{ s.slotFor i .down with cells := (s.workLeft slots i).take (s.slotFor i .down).rate },
     { s.slotFor i .up with closes := true }]

/-- R55, R59: the trucks that class D finds due when the slots given before it are `slots`: those without a slot that are ON AIR
with MORE or ACCESS set or at their poll, and those REGISTERED or SILENT at their probe, by ascending index, as far as slots
remain. -/
def State.dueIn (s : State) (slots : List PlanSlot) : List Nat :=
  ((List.range 96).filter fun i =>
    let x := s.truck i
    decide (slots.countP (fun x => decide (x.truck = i)) = 0) &&
      (decide (x.state = .onAir) &&
          (x.more || x.access || decide (s.settings.pollPeriod ≤ min ((s.counter i).sinceUp + 1) 255))
       || (decide (x.state = .registered) || decide (x.state = .silent)) &&
          decide (s.settings.probePeriod ≤ min ((s.counter i).probe + 1) 255))).take (25 - slots.length)

/-! ### Notices, alarms and ended waits (R104, R144, R163, R178) -/

/-- R178: the notice board and the hold list of `u` are those of `s` once `told` have been raised, in their order. -/
def State.BoardAfter (s u : State) (told : List Notice) : Prop :=
  u.mem = (told.foldl State.raise s).mem ∧ u.hold = (told.foldl State.raise s).hold ∧
    u.missed = (told.foldl State.raise s).missed

/-- R104, R106, R107, R144: the end of an event that has brought worker w to ALARM and has left `x`: WORKER ALARM, `told`, is
raised; then an ISSUED permit that the worker is a member of becomes SUSPENDED and takes the member's entry, one already
SUSPENDED takes an entry it does not hold (its time of last state change as it stands: DEDUCED, log 29), and PERMIT SUSPENDED
is raised with reason MEMBER ALARM. -/
def State.afterAlarm (x : State) (w : Nat) (told : Notice) : State :=
  match (x.worker w).membership with
  | none => x.raise told
  | some p =>
    let a := x.permit p
    let joins (b : Permit) : Permit :=
      { b with alarmCauses := if a.alarmCauses.contains w then a.alarmCauses else a.alarmCauses ++ [w] }
    let suspends (b : Permit) : State :=
      { x.raise told with permits := tableSet {} x.permits p b }.raise
        { kind := .permitSuspended, reason := 3, permit := p, permitNumber := a.number, worker := w }
    if a.state = .issued then suspends (joins { a with state := .suspended, timeChanged := x.clock })
    else if a.state = .suspended ∧ w ∉ a.alarmCauses then suspends (joins a)
    else x.raise told

/-- R163: the waiting groups of truck t's list that are no STEP group of the program of this number. -/
def State.waitingBut (s : State) (number t : Nat) : List (List DownCell) :=
  (s.list t).waiting.filter fun group => !group.any (isStepOf number)

/-- R33, R163: where the STEP groups of the program of this number leave the waiting queues, no group behind them finds room: at
each truck the head of the queue is none of them, or no group is left, or the next does not fit. -/
def State.NoneMovesUp (s : State) (number : Nat) : Prop :=
  ∀ t, (∀ group rest, (s.list t).waiting = group :: rest → group.any (isStepOf number) = false) ∨
    s.waitingBut number t = [] ∨
    ∃ group rest, s.waitingBut number t = group :: rest ∧ 7 < (s.list t).countB + group.length

/-- R163: `lists` are the control-cell lists of `s` once those STEP groups have left the waiting queues. -/
def State.ListsWithout (s : State) (number : Nat) (lists : Table CellList) : Prop :=
  ∀ t, tableGet {} lists t = { s.list t with waiting := s.waitingBut number t }

/-! ### Host writes -/

/-- The command is a host write to exchange memory. -/
def isHostWrite : Instr → Bool
  | .cardPost _ _ _ => true
  | .cardTakeBack _ => true
  | .cardEmpty _ => true
  | .cardFault _ _ _ => true
  | .noticeSlotFree _ => true
  | .writeRefused _ _ => true
  | .stagingBufferWrite _ _ _ => true
  | _ => false

/-! ### The invariant -/

/-- R40, R64: the ranges of the settings. -/
structure Settings.Legal (st : Settings) : Prop where
  thresholds : 0 < st.weakDown ∧ st.weakDown < st.weakUp ∧ st.weakUp ≤ st.fairDown ∧ st.fairDown < st.fairUp ∧
    st.fairUp ≤ 500
  lostCount : 3 ≤ st.lostCount ∧ st.lostCount ≤ 20
  pollPeriod : 2 ≤ st.pollPeriod ∧ st.pollPeriod ≤ 30
  probePeriod : 4 ≤ st.probePeriod ∧ st.probePeriod ≤ 30

/-- R39: the ranges of quality, run count and silent count, and the tie of run direction to run count. -/
structure Link.Legal (l : Link) : Prop where
  quality : l.quality ≤ 500
  run : l.run ≤ 2
  dir : l.run = 0 ↔ l.dir = .none
  silent : l.silent ≤ 255

/-- Memories and tables are in canonical form, so that equal machines are equal data. -/
structure State.Canonical (s : State) : Prop where
  mem : Memory.wf s.mem = true
  pool : Memory.wf s.pool = true
  trucks : tableWf {} s.trucks = true
  links : tableWf {} s.links = true
  counters : tableWf {} s.counters = true
  lists : tableWf {} s.lists = true
  queues : tableWf [] s.queues = true
  truckAlarms : tableWf none s.truckAlarms = true
  workers : tableWf {} s.workers = true
  watches : tableWf {} s.watches = true
  orders : tableWf {} s.orders = true
  devices : tableWf {} s.devices = true
  permits : tableWf {} s.permits = true
  programs : tableWf {} s.programs = true

/-- R31, R33: the entries of a list stand class A before class B, and at most 7 of them are of class B. -/
structure CellList.Legal (l : CellList) : Prop where
  order : l.cells.Pairwise fun x e => e.cell.isA = true → x.cell.isA = true
  room : l.countB ≤ Config.classBRoom

/-- R31, R33: every control-cell list keeps its order and its class B room. -/
def State.ListsLegal (s : State) : Prop := ∀ t, (s.list t).Legal

/-- R31: no entry of the list is in flight. -/
def CellList.Still (l : CellList) : Prop := ∀ e ∈ l.cells, e.inFlight = false

/-- R81: no cell of the order is in flight. -/
def Order.Still (o : Order) : Prop := ∀ m ∈ o.cells, m.inFlight = false

/-- R31, R81: nothing is in flight. -/
def State.Grounded (s : State) : Prop := (∀ t, (s.list t).Still) ∧ ∀ i, (s.order i).Still

/-- R179, R180: while the hold list holds any notice, the board has no EMPTY slot. -/
def State.HeldOnlyFull (s : State) : Prop := s.hold = [] ∨ s.emptySlot = none

/-- The invariant: canonical form; the clock within its range (R18); the noise floor within -130 to -80 (R39); legal
settings (R40, R64) and grading fields (R39); a round runs only with TRANSMIT ENABLE set and the modem READY (R19, R36,
R172), and without one nothing is in flight (R31, R36); class A before class B, and at most 7 of class B, in every control-cell
list (R31, R33); at most 16 notices held, and only while the board is full (R179); the scan position below 64, and no scan before the
first publication (R170, R173). -/
structure State.Inv (s : State) : Prop where
  canonical : s.Canonical
  clock : s.clock ≤ Config.clockMax
  noise : -130 ≤ s.noise ∧ s.noise ≤ -80
  settings : s.settings.Legal
  links : ∀ t, (s.link t).Legal
  round : s.round.isSome = true → s.transmitEnable = true ∧ s.modemReady = true
  lists : s.ListsLegal
  flight : s.round = none → s.Grounded
  holdRoom : s.hold.length ≤ Config.holdRoom
  held : s.HeldOnlyFull
  scan : ∀ p, s.scan = some p → p < Config.cards ∧ s.published = true

end Sys2Proof.Machine
end

