-- ==== Sys2Proof/Certificates/Slice0/Obligations.lean ====
section
/-! DEFINITION. The statements for the provers. -/

section Statements

open Sys2Proof Sys2Proof.Machine


/-! ### The machine as a whole -/

/-- The command at the front of the queue runs on the state with the queue's rest. -/
def Obligations.FrontCommandRuns : Prop :=
  ∀ (s : State) (c : Instr) (rest : List Instr),
    step { s with pending := c :: rest } = exec c { s with pending := rest }

/-- What a step does when no command waits (the model's choice, log 2): the first publication, or the scan passing one card
that is not POSTED, or the staging copies reading on. -/
def Obligations.IdleStep : Prop :=
  ∀ s : State, s.pending = [] →
    (s.published = false → s.callPending = false → step s = .next { s with published := true }) ∧
    (s.published = false → s.callPending = true →
      step s = .next { s with published := true, scan := some 0, callPending := false }) ∧
    (s.published = true → s.scan = none → step s = .next { s with copies := s.copies.map s.copyOne }) ∧
    (∀ p, s.published = true → s.scan = some p → s.cardPosted p = true →
      step s = .next { s with copies := s.copies.map s.copyOne }) ∧
    (∀ p, s.published = true → s.scan = some p → s.cardPosted p = false → p < 63 →
      step s = .next { s with scan := some (p + 1), copies := s.copies.map s.copyOne }) ∧
    (s.published = true → s.scan = some 63 → s.cardPosted 63 = false → s.callPending = false →
      step s = .next { s with scan := none, copies := s.copies.map s.copyOne }) ∧
    (s.published = true → s.scan = some 63 → s.cardPosted 63 = false → s.callPending = true →
      step s = .next { s with scan := some 0, callPending := false, copies := s.copies.map s.copyOne })

/-- R182: what the Exchange Port holds at power-on, and that the command POWER_ON brings the part there, the first publication
run, after which a CALL starts a scan. -/
def Obligations.PowerOnExchangePort : Prop :=
  (∀ w, State.reset.readWord w = 0) ∧
  (∀ c, State.reset.cardStateWord c = CardState.empty.code) ∧ (∀ k, State.reset.slotFilled k = false) ∧
  State.reset.hold = [] ∧ State.reset.scan = none ∧ State.reset.callPending = false ∧
  State.reset.noticeWaiting = false ∧ State.reset.missed = false ∧ State.reset.writeRefused = false ∧
  State.reset.cardFault = false ∧ State.reset.scanning = false ∧ State.reset.channelOn = false ∧
  State.reset.portResetDone = false ∧ State.reset.transmitEnable = false ∧ State.reset.noticeEnable = false ∧
  State.reset.authority = false ∧ State.reset.noticeLine = false ∧ State.reset.refusedWrite = 0 ∧
  ∀ s : State, exec .powerOn s = .next { State.reset with pending := s.pending, published := true } ∧
    ∀ v, exec (.call v) { State.reset with pending := s.pending, published := true } =
      .next { State.reset with pending := s.pending, published := true, scan := some 0 }

/-- What the other blocks hold at power-on. -/
def Obligations.PowerOnOtherBlocks : Prop :=
  State.reset.clock = 0 ∧ State.reset.roundNumber = 0 ∧ State.reset.siteCode = 0 ∧ State.reset.modemReady = false ∧
  State.reset.round = none ∧ State.reset.ageCounter = 0 ∧
  State.reset.noise = -120 ∧ State.reset.siteClipped = false ∧
  State.reset.settings = { weakDown := 120, weakUp := 160, fairDown := 200, fairUp := 240, lostCount := 5,
                           pollPeriod := 8, probePeriod := 8 } ∧
  State.reset.pointerA = 95 ∧ State.reset.pointerB = 95 ∧ State.reset.pointerC = 95 ∧ State.reset.quiet = false ∧
  State.reset.quietStart = 0 ∧ State.reset.quietEnd = 0 ∧ State.reset.lastQuietCause = .none ∧
  State.reset.slotsPlanned = 0 ∧ State.reset.strayId = 0 ∧
  State.reset.freePages = List.range 1024 ∧ State.reset.orderSeq = 0 ∧
  (∀ t,
    State.reset.truck t = { radioId := 0, callSign := List.replicate 8 0x20, state := .vacant, stateBefore := .registered
                            linkNotice := false, crew := [], lastHeard := 0, more := false, access := false } ∧
    State.reset.link t = { quality := 0, grade := .settling, settle := 0, run := 0, dir := .none, silent := 0
                           clipped := false } ∧
    State.reset.counter t = { sinceUp := 0, probe := 0 } ∧ State.reset.list t = { cells := [], waiting := [] } ∧
    State.reset.queue t = [] ∧ State.reset.truckAlarm t = none) ∧
  (∀ w, (State.reset.worker w).inUse = false ∧ (State.reset.watch w).state = .off ∧ (State.reset.watch w).mode = .off ∧
    (State.reset.watch w).interval = 1800 ∧ (State.reset.watch w).grace = 300 ∧ (State.reset.watch w).alarm = none) ∧
  (∀ i, (State.reset.order i).inUse = false) ∧ (∀ d, (State.reset.device d).inUse = false) ∧
  (∀ p, (State.reset.permit p).inUse = false) ∧ ∀ g, (State.reset.program g).state = .empty

/-- The state after reset meets the invariant. -/
def Obligations.ResetMeetsInv : Prop :=
 State.reset.Inv

/-- Every step from a state that meets the invariant gives one that meets it. -/
def Obligations.StepKeepsInv : Prop :=
 ∀ s t : State, s.Inv → step s = .next t → t.Inv

/-- No command stops the part: each answers a next state, and leaves the waiting commands as they stand. -/
def Obligations.EveryCommandCompletes : Prop :=
  ∀ (c : Instr) (s : State), ∃ t : State, exec c s = .next t ∧ t.pending = s.pending

/-- R18, R19, R22, R172, R177: the site clock moves only at a second, the round number only at a round boundary, the modem
link state only at a ready or not-ready report, a bit of CONTROL only by a write of CONTROL or a port reset, and a staging
buffer only by a host write; power-on apart. -/
def Obligations.StateMovesOnItsCommands : Prop :=
  (∀ (c : Instr) (s t : State), exec c s = .next t → c ≠ .powerOn →
     (c ≠ .siteSecond → t.clock = s.clock) ∧
     (c ≠ .roundBoundary → t.roundNumber = s.roundNumber) ∧
     (c ≠ .modemReady → c ≠ .modemNotReady → t.modemReady = s.modemReady) ∧
     (c ≠ .roundBoundary → t.round.isSome = true → s.round.isSome = true)) ∧
  (∀ (c : Instr) (s t : State), exec c s = .next t → c ≠ .powerOn → (∀ n x a, c ≠ .portReset n x a) →
     ((∀ b, c ≠ .noticeEnable b) → t.noticeEnable = s.noticeEnable) ∧
     ((∀ b, c ≠ .transmitEnable b) → t.transmitEnable = s.transmitEnable) ∧
     ((∀ b, c ≠ .authority b) → t.authority = s.authority)) ∧
  (∀ (c : Instr) (s t : State), exec c s = .next t → c ≠ .powerOn →
     (∀ b w v, c ≠ .stagingBufferWrite b w v) → (∀ o v, c ≠ .writeRefused o v) →
     ∀ w, stagingBase 0 ≤ w → w < siteBase → t.rawWord w = s.rawWord w)

/-- R172, R175: the settings of SITE SET change only at the take of a SITE SET card with AUTHORITY set, or at power-on. -/
def Obligations.SettingsNeedAuthority : Prop :=
  ∀ (c : Instr) (s t : State), exec c s = .next t →
    (t.settings ≠ s.settings ∨ t.siteCode ≠ s.siteCode) →
    c = .powerOn ∨ ∃ k, c = .siteSet k ∧ s.authority = true


/-! ### Cards and the scan (R173 to R176) -/

/-- R175: a card of any kind that its checks refuse is answered with the refusal and changes nothing else: an override card
taken with AUTHORITY clear with NOT AUTHORISED, whatever its fields hold, and a card of a kind the part does not know with
UNKNOWN KIND. -/
def Obligations.RefusedCardChangesNothing : Prop :=
  (∀ (s s1 : State) (k : CardKind) (c : Fin 64) (a : Answer), AtCard s c k s1 →
     (cardOwner k c (s1.card c) s1).answer = some a → a.code ≠ .done → a.code ≠ .doneClamped →
     exec (cardCommand k c) s = .next (answeredAs s s1 c a)) ∧
  (∀ (s s1 : State) (c : Fin 64), s.authority = false →
     (AtCard s c .siteSet s1 → exec (.siteSet c) s = .next (answeredAs s s1 c ⟨.notAuthorised, 0, []⟩)) ∧
     (AtCard s c .permitForceClose s1 →
       exec (.permitForceClose c) s = .next (answeredAs s s1 c ⟨.notAuthorised, 0, []⟩))) ∧
  (∀ (s s1 : State) (c : Fin 64), s.scanReach c = some s1 → s1.cardPosted c = true → knownKind (s1.card c 1) = false →
     exec (.unknownKind c) s = .next (answeredAs s s1 c ⟨.unknownKind, 0, []⟩))

/-- R173: a scan at position p takes next the first card from p on that is POSTED; a scan that has none left and has a CALL
pending starts again at position 0. A card command whose card the scan cannot be at next changes nothing (the model's choice,
log 3). -/
def Obligations.ScanTakesInOrder : Prop :=
  (∀ (s : State) (p : Nat) (c : Fin 64), s.published = true → s.scan = some p →
     ((p ≤ c ∧ ∀ i, p ≤ i → i < c → s.cardPosted i = false) → s.scanReach c = some { s with scan := some c.val }) ∧
     ((c < p ∧ s.callPending = true ∧ ∀ i < 64, p ≤ i ∨ i < c → s.cardPosted i = false) →
       s.scanReach c = some { s with scan := some c.val, callPending := false }) ∧
     (∀ i, p ≤ i → i < c → s.cardPosted i = true → s.scanReach c = none) ∧
     (c < p → s.callPending = false → s.scanReach c = none)) ∧
  (∀ (s : State) (k : CardKind) (c : Fin 64), s.scanReach c = none →
     exec (cardCommand k c) s = .next s ∧ exec (.unknownKind c) s = .next s)

/-- R176, R173: the end of a take: the answer words, then the state word ANSWERED; every other word of the rack, the board and
the buffers, and every table, as the owner left it; the scan moved on by one card. -/
def Obligations.AnswerWrittenWhole : Prop :=
  ∀ (s u : State) (c : Fin 64) (a : Answer),
    let t := answeredAs s u c a
    t.card c 0 = CardState.answered.code ∧ t.card c 2 = toWord a.code.code ∧ t.card c 3 = toWord a.detail ∧
    (∀ i < 4, t.card c (4 + i) = a.values.getD i 0) ∧
    (∀ w, (w < cardBase c ∨ w = cardBase c + 1 ∨ cardBase c + 8 ≤ w) → t.rawWord w = u.rawWord w) ∧
    t = { u with mem := t.mem, scan := t.scan, callPending := t.callPending, passages := t.passages } ∧
    (c.val < 63 → t.scan = some (c.val + 1) ∧ t.callPending = u.callPending) ∧
    (c.val = 63 → u.callPending = false → t.scan = none ∧ t.callPending = false) ∧
    (c.val = 63 → u.callPending = true → t.scan = some 0 ∧ t.callPending = false)


/-! ### Notices and publication (R170, R178 to R180) -/

/-- R178: a notice raised takes the lowest-numbered EMPTY slot, with the present site second, and changes no other word. -/
def Obligations.NoticeTakesLowestSlot : Prop :=
  ∀ (s : State) (n : Notice) (k : Nat), s.emptySlot = some k →
    let t := s.raise n
    k < 128 ∧ s.slotFilled k = false ∧ (∀ j < k, s.slotFilled j = true) ∧
    (∀ i < 16, t.rawWord (slotBase k + i) = (noticeWords { n with raised := s.clock }).getD i 0) ∧
    (∀ w, (w < slotBase k ∨ slotBase k + 16 ≤ w) → t.rawWord w = s.rawWord w) ∧
    t.slotFilled k = true ∧ t.noticeWaiting = true ∧ t = { s with mem := t.mem }

/-- R179: where a notice goes that finds no EMPTY slot; the hold list stays in order of class, a new notice after those of its
own class, and within 16. -/
def Obligations.HoldListPlacesNotice : Prop :=
  (∀ (s : State) (n : Notice), s.emptySlot = none →
     let m := { n with raised := s.clock }
     (s.hold.length < 16 → s.raise n = { s with hold := holdInsert m s.hold }) ∧
     (16 ≤ s.hold.length → (∀ x ∈ s.hold, x.kind.cls ≤ n.kind.cls) → s.raise n = { s with missed := true }) ∧
     (∀ x ∈ s.hold, 16 ≤ s.hold.length → n.kind.cls < x.kind.cls → (∀ y ∈ s.hold, y.kind.cls ≤ x.kind.cls) →
       s.raise n = { s with hold := holdInsert m (dropYoungest x.kind.cls s.hold), missed := true })) ∧
  (∀ (s : State) (n : Notice), s.hold.Pairwise (fun x y => x.kind.cls ≤ y.kind.cls) → s.hold.length ≤ 16 →
     (s.raise n).hold.Pairwise (fun x y => x.kind.cls ≤ y.kind.cls) ∧ (s.raise n).hold.length ≤ 16 ∧
     (s.emptySlot = none → s.hold.length < 16 → ∀ c,
       (s.raise n).hold.filter (fun x => decide (x.kind.cls = c)) =
         s.hold.filter (fun x => decide (x.kind.cls = c)) ++
           (if n.kind.cls = c then [{ n with raised := s.clock }] else [])))

/-- R170: an event gives the edition word of a record one passage if the record's published words differ after it or a rule
republishes the record in any case, and none otherwise: the site block and every truck, worker, order, device, permit and
program record. (That "changed" is read off the published words, and that an event gives at most one passage, is the model's
choice, log 6.) -/
def Obligations.EditionFollowsChange : Prop :=
  ∀ (s s' : State) (forced : List Nat), s'.published = true →
    let t := publish s s' forced
    let moves (base : Nat) (before after : List Word) : Prop :=
      t.edition base = s'.edition base + (if before = after ∧ base ∉ forced then 0 else 2)
    (∀ i < 96, moves (truckBase i) (s.truckWords i) (s'.truckWords i)) ∧
    (∀ i < 192, moves (workerBase i) (s.workerWords i) (s'.workerWords i)) ∧
    (∀ i < 256, moves (orderBase i) (s.orderWords i) (s'.orderWords i)) ∧
    (∀ i < 512, moves (deviceBase i) (s.deviceWords i) (s'.deviceWords i)) ∧
    (∀ i < 32, moves (permitBase i) (s.permitWords i) (s'.permitWords i)) ∧
    (∀ i < 16, moves (programBase i) (s.programWords i) (s'.programWords i)) ∧
    moves siteBase s.siteWords s'.siteWords ∧
    t = { s' with passages := t.passages }


/-! ### Registers and host writes (R169 to R174, R177, R180, R181) -/

/-- R171, R172: the CONTROL bits NOTICE ENABLE and AUTHORITY take the values written, a sticky bit is cleared by a 1, and a
dropped register write changes nothing; R172: the notice line is a level, asserted as its conditions stand. -/
def Obligations.RegisterWrites : Prop :=
  (∀ (s : State) (b : Bool) (v : Word),
     exec (.noticeEnable b) s = .next { s with noticeEnable := b } ∧
     exec (.authority b) s = .next { s with authority := b } ∧
     exec .clearMissed s = .next { s with missed := false } ∧
     exec .clearWriteRefused s = .next { s with writeRefused := false } ∧
     exec .clearCardFault s = .next { s with cardFault := false } ∧
     exec .clearPortResetDone s = .next { s with portResetDone := false } ∧
     exec (.registerWriteDropped v) s = .next s) ∧
  (∀ s : State, s.noticeLine = false ↔
     (s.noticeEnable = false ∨
       ((∀ k < 128, s.rawWord (slotBase k) = 0) ∧ s.missed = false ∧ s.writeRefused = false ∧ s.cardFault = false)))

/-- R172, R36: TRANSMIT ENABLE written; a clear while a round runs cuts the round, and every cell in flight returns to its
place with its age and attempt count. -/
def Obligations.TransmitEnableWrites : Prop :=
  ∀ s : State,
    exec (.transmitEnable true) s = .next { s with transmitEnable := true } ∧
    (s.round = none → exec (.transmitEnable false) s = .next { s with transmitEnable := false }) ∧
    (s.Inv → s.round.isSome = true → ∃ t : State, exec (.transmitEnable false) s = .next t ∧
      t.transmitEnable = false ∧ t.round = none ∧ t.channelOn = false ∧ t.modemOut = .idle ∧
      t.roundNumber = s.roundNumber ∧ t.clock = s.clock ∧ t.links = s.links ∧ t.noise = s.noise ∧ t.mem = s.mem ∧
      (∀ i, (t.list i).cells = (s.list i).cells.map (fun e => { e with inFlight := false }) ∧
        (t.list i).waiting = (s.list i).waiting) ∧
      (∀ i, t.order i = { s.order i with cells := (s.order i).cells.map fun m => { m with inFlight := false } }))

/-- R181, R38, R167: what a port reset leaves: the scan idle, every card that was POSTED or TAKEN answered ABANDONED and every
other card as it stood, no copy, the sticky bits other than MISSED clear, NOTICE ENABLE and AUTHORITY clear, TRANSMIT ENABLE
as written, no round, no program RUNNING or HALTING; the clock, the settings, the staging buffers and the trucks kept. Where
no program runs or halts and no step is RELEASED or READ BACK, so that the reset raises no notice: every slot EMPTY, the hold
list empty, MISSED clear. Under the invariant: every RELEASED or READ BACK step PENDING, its device free, its cells out of the
list and its STEP CANCEL queued; every wait ended; RUNNING and HALTING programs HALTED with reason RESET; the tag steps
outstanding of a permit fallen, and R147 tested; every other step, list, queue, order, permit, device and truck alarm kept.
The notices stand on the emptied board (by ascending program and step, STEP STATE first: the model's choice, log 27; the cells
of a step are those of its program and step number: DESIGN CHOICE, log 32). -/
def Obligations.PortResetLeaves : Prop :=
  ∀ (s : State) (n x a : Bool), ∃ t : State, exec (.portReset n x a) s = .next t ∧
    t.scan = none ∧ t.callPending = false ∧ t.copies = [] ∧
    t.writeRefused = false ∧ t.cardFault = false ∧ t.refusedWrite = 0 ∧ t.portResetDone = true ∧
    t.noticeEnable = false ∧ t.authority = false ∧ t.transmitEnable = x ∧
    t.round = none ∧ (∀ g < 16, (t.program g).state ≠ .running ∧ (t.program g).state ≠ .halting) ∧
    (∀ c < 64, (s.cardPosted c = true ∨ s.cardTaken c = true) →
      t.card c 0 = CardState.answered.code ∧ t.card c 2 = 10 ∧ ∀ i < 5, t.card c (3 + i) = 0) ∧
    (∀ c < 64, s.cardPosted c = false → s.cardTaken c = false → ∀ i < 64, t.card c i = s.card c i) ∧
    ((∀ g, (s.program g).state ≠ .running ∧ (s.program g).state ≠ .halting ∧
        ∀ st ∈ (s.program g).steps, st.state ≠ .released ∧ st.state ≠ .readBack) →
      (∀ k < 128, t.slotFilled k = false) ∧ t.hold = [] ∧ t.missed = false) ∧
    (∀ w, stagingBase 0 ≤ w → t.rawWord w = s.rawWord w) ∧
    t.clock = s.clock ∧ t.roundNumber = s.roundNumber ∧ t.siteCode = s.siteCode ∧ t.modemReady = s.modemReady ∧
    t.settings = s.settings ∧ t.trucks = s.trucks ∧ t.links = s.links ∧ t.quiet = s.quiet ∧ t.watches = s.watches ∧
    t.workers = s.workers ∧
    t = { s with
      mem := t.mem, hold := t.hold, missed := t.missed, scan := none, callPending := false, copies := []
      writeRefused := false, cardFault := false, refusedWrite := 0, portResetDone := true, noticeEnable := false
      authority := false, transmitEnable := x, round := none, modemOut := t.modemOut, lists := t.lists, orders := t.orders
      programs := t.programs, devices := t.devices, permits := t.permits, ageCounter := t.ageCounter
      passages := t.passages } ∧
    (s.Inv → (∀ e ∈ s.programs, e.1 < 16) →
      let back (st : Step) : Bool := decide (st.state = .released) || decide (st.state = .readBack)
      let recalled (g k : Nat) (st : Step) : Prop := (s.program g).step k = some st ∧ back st = true
      let own (g k : Nat) (c : DownCell) : Bool := isStepCell (s.program g).number k c ||
        isReadbackOk (s.program g).number k c || isReadbackWrong (s.program g).number k c
      let down (e : Entry) : Entry := { e with inFlight := false }
      let ended (p : Nat) : Nat := ((List.range 16).map fun g => (s.program g).steps.countP fun st =>
        back st && decide (st.action = .tag) && decide (st.permit = some p)).sum
      let runs (g : Nat) : Prop := (s.program g).state = .running ∨ (s.program g).state = .halting
      (∀ g, t.program g = { s.program g with
        state := if runs g then .halted else (s.program g).state
        halt := if runs g then .reset else (s.program g).halt, cancels := (t.program g).cancels
        steps := (s.program g).steps.map fun st =>
          { (if back st then { st with state := .pending, wrong := 0, instruction := .none } else st) with
            pending := .none } }) ∧
      (∀ d, ((∃ g k st, recalled g k st ∧ st.device = d) → t.device d = { s.device d with outstanding := none }) ∧
        ((¬ ∃ g k st, recalled g k st ∧ st.device = d) → t.device d = s.device d)) ∧
      (∀ i, t.order i = { s.order i with cells := (s.order i).cells.map fun m => { m with inFlight := false } }) ∧
      (∀ g k st, recalled g k st → (t.list st.truck).present (.stepCancel (s.program g).number k) = true) ∧
      (∀ i, (¬ ∃ g k st, recalled g k st ∧ st.truck = i) →
        ((s.list i).waiting = [] ∨ ∃ grp rest, (s.list i).waiting = grp :: rest ∧ 7 < (s.list i).countB + grp.length) →
        (∀ grp ∈ (s.list i).waiting, ∀ c ∈ grp, ∀ g < 16, isStepOf (s.program g).number c = false) →
        t.list i = { cells := (s.list i).cells.map down, waiting := (s.list i).waiting }) ∧
      ((∀ i, (s.list i).waiting = []) →
        (∀ i, ∀ e ∈ (s.list i).cells, (∀ g k st, recalled g k st → st.truck = i → own g k e.cell = false) →
          down e ∈ (t.list i).cells) ∧
        (∀ i, ∀ e ∈ (t.list i).cells, (∃ x ∈ (s.list i).cells, e = down x) ∨
          ∃ g k st, recalled g k st ∧ st.truck = i ∧ e.cell = .stepCancel (s.program g).number k) ∧
        (∀ g k st, recalled g k st → ∀ e ∈ (t.list st.truck).cells, own g k e.cell = false) ∧
        ((∀ g h, (s.program g).steps ≠ [] → (s.program h).steps ≠ [] →
            (s.program g).number = (s.program h).number → g = h) →
          ∀ g, (t.program g).cancels = (s.program g).cancels + (List.range (s.program g).steps.length).countP fun i =>
            match (s.program g).steps[i]? with
            | some st => back st && !(s.list st.truck).present (.stepCancel (s.program g).number (i + 1))
            | none => false) ∧
        (∀ p, let y := { s.permit p with tagSteps := (s.permit p).tagSteps - ended p }
          (ended p = 0 → t.permit p = s.permit p) ∧
          (0 < ended p → ((s.permit p).state = .surrendered ∨ (s.permit p).state = .cancelled) →
            y.tagsHeld = 0 → y.tagSteps = 0 →
            t.permit p = { y with state := .closed, timeClosed := s.clock, timeChanged := s.clock }) ∧
          (0 < ended p → (((s.permit p).state ≠ .surrendered ∧ (s.permit p).state ≠ .cancelled) ∨ y.tagsHeld ≠ 0 ∨
            y.tagSteps ≠ 0) → t.permit p = y)) ∧
        (let steps := (List.range 16).flatMap fun g => (List.range (s.program g).steps.length).filterMap fun i =>
            match (s.program g).steps[i]? with
            | some st => if back st then some ({ kind := .stepState, reason := 7, program := (s.program g).number, step := i + 1
                                                 device := st.device, item := (s.device st.device).id } : Notice) else none
            | none => none
         let halts := ((List.range 16).filter fun g => decide ((s.program g).state = .running) ||
            decide ((s.program g).state = .halting)).map fun g =>
              ({ kind := .programHalted, reason := 10, program := (s.program g).number, step := (s.program g).next } : Notice)
         (∀ p, ended p = 0) → (steps ++ halts).length ≤ 128 → t.hold = [] ∧ t.missed = false ∧
          (∀ j m, (steps ++ halts)[j]? = some m → ∀ i < 16,
            t.rawWord (slotBase j + i) = (noticeWords { m with raised := s.clock }).getD i 0) ∧
          ∀ j < 128, (steps ++ halts).length ≤ j → t.slotFilled j = false)))

/-- R173: a CALL in IDLE starts a scan at position 0; before the first publication or while a scan runs it sets CALL-pending.
A pending CALL starts its scan when the first publication completes or the running scan ends. -/
def Obligations.CallStartsScan : Prop :=
  ∀ (s : State) (v : Word),
    (s.published = true → s.scan = none → exec (.call v) s = .next { s with scan := some 0 }) ∧
    (s.published = false → exec (.call v) s = .next { s with callPending := true }) ∧
    (s.scan.isSome = true → exec (.call v) s = .next { s with callPending := true }) ∧
    (s.callPending = true → s.published = false →
      exec .scanRestart s = .next { s with published := true, scan := some 0, callPending := false }) ∧
    (∀ p, s.callPending = true → s.published = true → s.scan = some p →
      (∀ i < 64, p ≤ i → s.cardPosted i = false) →
      exec .scanRestart s = .next { s with scan := some 0, callPending := false })

/-- R174: posting a card: the kind and the request words as written, in any state; the state word POSTED if the card was EMPTY
or POSTED, and otherwise kept with CARD FAULT set; every other word kept. -/
def Obligations.CardPosts : Prop :=
  ∀ (s : State) (c : Fin 64) (kind : Word) (request : List Word), request.length ≤ 56 →
    ∃ t : State, exec (.cardPost c kind request) s = .next t ∧
      t.card c 1 = kind ∧ (∀ i, (h : i < request.length) → t.card c (8 + i) = request[i]) ∧
      (∀ i < 56, request.length ≤ i → t.card c (8 + i) = s.card c (8 + i)) ∧
      (∀ i, 2 ≤ i → i < 8 → t.card c i = s.card c i) ∧
      (∀ w, (w < cardBase c ∨ cardBase c + 64 ≤ w) → t.rawWord w = s.rawWord w) ∧
      ((s.card c 0 = CardState.empty.code ∨ s.card c 0 = CardState.posted.code) →
        t.card c 0 = CardState.posted.code ∧ t = { s with mem := t.mem }) ∧
      (s.card c 0 ≠ CardState.empty.code → s.card c 0 ≠ CardState.posted.code →
        t.card c 0 = s.card c 0 ∧ t = { s with mem := t.mem, cardFault := true })

/-- R174: EMPTY written to a POSTED or ANSWERED card empties it; any other unlisted write to the state word, and any write to
an answer word of a card TAKEN or ANSWERED, is dropped with CARD FAULT. -/
def Obligations.CardStateWrites : Prop :=
  ∀ (s : State) (c : Fin 64) (v : Word),
    (s.card c 0 = CardState.posted.code → exec (.cardTakeBack c) s = .next (s.setRaw (cardBase c) 0)) ∧
    (s.card c 0 = CardState.answered.code → exec (.cardEmpty c) s = .next (s.setRaw (cardBase c) 0)) ∧
    (s.card c 0 = CardState.empty.code ∨ s.card c 0 = CardState.taken.code →
      exec (.cardTakeBack c) s = .next { s with cardFault := true } ∧
      exec (.cardEmpty c) s = .next { s with cardFault := true }) ∧
    (s.card c 0 = CardState.empty.code → v ≠ CardState.posted.code →
      exec (.cardFault c 0 v) s = .next { s with cardFault := true }) ∧
    (s.card c 0 = CardState.posted.code → v ≠ CardState.posted.code → v ≠ CardState.empty.code →
      exec (.cardFault c 0 v) s = .next { s with cardFault := true }) ∧
    (s.card c 0 = CardState.taken.code → exec (.cardFault c 0 v) s = .next { s with cardFault := true }) ∧
    (s.card c 0 = CardState.answered.code → v ≠ CardState.empty.code →
      exec (.cardFault c 0 v) s = .next { s with cardFault := true }) ∧
    (∀ i : Fin 8, 2 ≤ i.val → (s.card c 0 = CardState.taken.code ∨ s.card c 0 = CardState.answered.code) →
      exec (.cardFault c i v) s = .next { s with cardFault := true }) ∧
    (∀ i : Fin 8, 2 ≤ i.val → (s.card c 0 = CardState.empty.code ∨ s.card c 0 = CardState.posted.code) →
      exec (.cardFault c i v) s = .next (s.setRaw (cardBase c + i) v))

/-- R180: a FILLED slot freed becomes EMPTY, or takes the head of the hold list in the same event; no other word changes.
HOLD_LIST_REFILL as a command of its own moves the head into the lowest EMPTY slot where there is one, and changes nothing
with an empty list or no EMPTY slot (that the row acts only if the state still calls for it is the model's choice, log 19). -/
def Obligations.SlotFreedAndRefilled : Prop :=
  ∀ (s : State) (k : Fin 128),
    (s.slotFilled k = true → s.hold = [] → ∃ t : State, exec (.noticeSlotFree k) s = .next t ∧
      t.slotFilled k = false ∧ (∀ w, w ≠ slotBase k → t.rawWord w = s.rawWord w) ∧ t = { s with mem := t.mem }) ∧
    (∀ n rest, s.slotFilled k = true → s.hold = n :: rest → ∃ t : State, exec (.noticeSlotFree k) s = .next t ∧
      t.hold = rest ∧ (∀ i < 16, t.rawWord (slotBase k + i) = (noticeWords n).getD i 0) ∧
      (∀ w, (w < slotBase k ∨ slotBase k + 16 ≤ w) → t.rawWord w = s.rawWord w) ∧
      t = { s with mem := t.mem, hold := rest, passages := t.passages }) ∧
    (s.slotFilled k = false → exec (.noticeSlotFree k) s =
      .next (publish s { s with writeRefused := true, refusedWrite := slotBase k })) ∧
    (s.hold = [] → exec .holdListRefill s = .next s) ∧
    (s.emptySlot = none → exec .holdListRefill s = .next s) ∧
    (∀ n rest, s.emptySlot = some k.val → s.hold = n :: rest → ∃ t : State, exec .holdListRefill s = .next t ∧
      t.hold = rest ∧ (∀ i < 16, t.rawWord (slotBase k + i) = (noticeWords n).getD i 0) ∧
      (∀ w, (w < slotBase k ∨ slotBase k + 16 ≤ w) → t.rawWord w = s.rawWord w) ∧
      t = { s with mem := t.mem, hold := rest, passages := t.passages })

/-- R169, R177, R180: a write of a word that the host may not write is dropped, with WRITE REFUSED set and its offset latched;
a word of a staging buffer written reads back, and nothing else changes. -/
def Obligations.HostWritesByOwnership : Prop :=
  (∀ (s : State) (off : Fin 32768) (v : Word),
     (siteBase ≤ off.val → exec (.writeRefused off v) s =
       .next (publish s { s with writeRefused := true, refusedWrite := off })) ∧
     (∀ (k : Fin 128) (i : Nat), i < 16 → off.val = slotBase k + i → (i ≠ 0 ∨ v ≠ 0 ∨ s.slotFilled k = false) →
       exec (.writeRefused off v) s = .next (publish s { s with writeRefused := true, refusedWrite := off }))) ∧
  (∀ (s : State) (b : Fin 8) (w : Fin 512) (v : Word),
     ∃ t : State, exec (.stagingBufferWrite b w v) s = .next t ∧ t.readWord (stagingBase b + w) = v ∧
       (∀ o, o ≠ stagingBase b + w → t.readWord o = s.readWord o) ∧ t = { s with mem := t.mem })


/-! ### Time, rounds and the modem (R18 to R37, R42 to R68) -/

/-- R18, R19: at a site second the clock rises by 1, stopping at its maximum, and the site block is republished. At a round
boundary a round starts if TRANSMIT ENABLE is set and the modem READY: the round number rises by 1, CHANNEL ON is set, and the
header goes to the modem. Otherwise no round runs and the round number stands. R54, R56, R68: slots planned is the length of
the plan; a quiet round has an empty plan and leaves slots planned and the class pointers as they stand. R35, R55, R59, R63,
R81: what a round start moves: every counter by its truck's state, a probed truck's probe counter to 0; ACCESS cleared where
the plan gives an UP; in flight exactly the cells that the plan carries; a QUEUED order SENDING when one of its cells is
taken. (Where a boundary comes while a running round has the report of an UP slot missing, the cells of that transaction
return first, with no attempt counted: DEDUCED, log 11.) -/
def Obligations.SecondsAndRoundBoundaries : Prop :=
  (∀ s : State, ∃ t : State, exec .siteSecond s = .next t ∧
     (s.clock < 4294967295 → t.clock = s.clock + 1) ∧ (s.clock = 4294967295 → t.clock = 4294967295) ∧
     (s.published = true → t.edition siteBase = s.edition siteBase + 2) ∧
     t = { s with clock := t.clock, passages := t.passages }) ∧
  (∀ s : State,
     ((s.transmitEnable = false ∨ s.modemReady = false) → ∃ t : State, exec .roundBoundary s = .next t ∧
       t.round = none ∧ t.roundNumber = s.roundNumber ∧ t.channelOn = false ∧ t.counters = s.counters) ∧
     (s.transmitEnable = true → s.modemReady = true → ∃ (t : State) (r : Round), exec .roundBoundary s = .next t ∧
       t.round = some r ∧ t.roundNumber = s.roundNumber + 1 ∧ t.channelOn = true ∧
       r.quiet = s.quiet ∧ r.headerDone = false ∧ r.slot = 0 ∧
       t.modemOut = .header (t.headerBurst r) ∧
       (s.quiet = false → t.slotsPlanned = r.slots.length) ∧
       (s.quiet = true → r.slots = [] ∧ t.slotsPlanned = s.slotsPlanned ∧
         t.pointerA = s.pointerA ∧ t.pointerB = s.pointerB ∧ t.pointerC = s.pointerC))) ∧
  (∀ (s t : State) (r : Round), s.Inv → s.transmitEnable = true → s.modemReady = true →
     exec .roundBoundary s = .next t → t.round = some r →
     let named (i : Nat) : Bool := r.slots.any fun p => decide (p.truck = i)
     let heard (i : Nat) : Bool := r.slots.any fun p => decide (p.truck = i) && decide (p.dir = .up)
     let carries (i : Nat) (age : DWord) : Bool := r.slots.any fun p => decide (p.truck = i) && p.cells.any fun
       | .control a _ => decide (a = age)
       | .order _ _ _ => false
     let takes (o n : Nat) : Bool := r.slots.any fun p => p.cells.any fun
       | .control _ _ => false
       | .order i m _ => decide (i = o) && decide (m = n)
     let taken (o : Nat) : Bool := r.slots.any fun p => p.cells.any fun
       | .control _ _ => false
       | .order i _ _ => decide (i = o)
     (∀ i < 96,
       ((s.truck i).state = .onAir →
         t.counter i = { s.counter i with sinceUp := min ((s.counter i).sinceUp + 1) 255 }) ∧
       ((s.truck i).state = .registered ∨ (s.truck i).state = .silent → t.counter i = {
         sinceUp := min ((s.counter i).sinceUp + 1) 255
         probe := if named i then 0 else min ((s.counter i).probe + 1) 255 }) ∧
       ((s.truck i).state = .parked ∨ (s.truck i).state = .vacant → t.counter i = s.counter i)) ∧
     (∀ i, t.truck i = { s.truck i with access := (s.truck i).access && !heard i }) ∧
     (∀ i, t.list i = { s.list i with
       cells := (s.list i).cells.map fun e => { e with inFlight := carries i e.age } }) ∧
     (∀ o, t.order o = { s.order o with
       cells := (s.order o).cells.mapIdx fun n m => { m with inFlight := takes o n }
       state := if (s.order o).state = .queued ∧ taken o = true then .sending else (s.order o).state }) ∧
     t = { s with
       round := t.round, roundNumber := t.roundNumber, modemOut := t.modemOut, counters := t.counters, trucks := t.trucks
       lists := t.lists, orders := t.orders, pointerA := t.pointerA, pointerB := t.pointerB, pointerC := t.pointerC
       slotsPlanned := t.slotsPlanned, passages := t.passages })

/-- R57, R61, R62: every plan gives at most 25 slots, at most 6 to one truck; a DOWN stands in slot k with the UP of the same
truck in slot k + 1, and carries 1 to its rate of cells; no slot goes to a truck that is VACANT or PARKED, and only UP slots
to one that is not ON AIR. R56 to R62: the plan exactly, where no list holds one age twice and no order heads two queues:
sweep 1 class by class from the pointers, which move to the last truck granted, class D, then sweeps 2 and 3. -/
def Obligations.PlansKeepTheirBounds : Prop :=
  (∀ (s t : State) (r : Round), exec .roundBoundary s = .next t → t.round = some r → s.transmitEnable = true →
    s.modemReady = true →
    r.slots.length ≤ 25 ∧ (∀ i, r.slots.countP (fun p => decide (p.truck = i)) ≤ 6) ∧
    (∀ k p, r.slots[k]? = some p → p.dir = .down →
      1 ≤ p.cells.length ∧ p.cells.length ≤ p.rate ∧ (t.truck p.truck).state = .onAir ∧
      ∃ q, r.slots[k + 1]? = some q ∧ q.dir = .up ∧ q.closes = true ∧ q.truck = p.truck ∧ q.rate = p.rate ∧
        q.radioId = p.radioId) ∧
    (∀ p ∈ r.slots, (t.truck p.truck).state ≠ .vacant ∧ (t.truck p.truck).state ≠ .parked ∧
      p.radioId = (t.truck p.truck).radioId)) ∧
  (∀ s : State, s.Inv → s.transmitEnable = true → s.modemReady = true → s.quiet = false →
    (∀ i, ((s.list i).cells.map fun e => e.age).Nodup) →
    (∀ i j o, (s.queue i).head? = some o → (s.queue j).head? = some o → i = j) →
    ∃ (t : State) (r : Round), exec .roundBoundary s = .next t ∧ t.round = some r ∧
      let a := s.grantedIn [] .a s.pointerA
      let p1 := s.afterClass .a s.pointerA []
      let b := s.grantedIn p1 .b s.pointerB
      let p2 := s.afterClass .b s.pointerB p1
      let c := s.grantedIn p2 .c s.pointerC
      let p3 := s.afterClass .c s.pointerC p2
      let p4 := p3 ++ (s.dueIn p3).map fun i => s.slotFor i .up
      let again (p : List PlanSlot) : List PlanSlot :=
        s.afterClass .c t.pointerC (s.afterClass .b t.pointerB (s.afterClass .a t.pointerA p))
      t.pointerA = a.getLast?.getD s.pointerA ∧ t.pointerB = b.getLast?.getD s.pointerB ∧
      t.pointerC = c.getLast?.getD s.pointerC ∧ r.slots = again (again p4))

/-- R21, R22: what the part gives the modem when a slot begins, and the end of the header. -/
def Obligations.SlotsGoToModem : Prop :=
  (∀ (s : State) (r : Round) (k : Fin 32), s.round = some r → 1 ≤ k.val →
    exec (.slotStart k) s = .next { s with
      round := some { r with slot := k }
      modemOut :=
        if r.quiet = true ∨ 26 ≤ k.val then .receive k 1
        else match r.slots[k.val - 1]? with
          | none => .idle
          | some p => if p.dir = .down then .burst k p.rate (downBurst p) else .receive k p.rate }) ∧
  (∀ (s : State) (k : Fin 32), s.round = none → exec (.slotStart k) s = .next s) ∧
  (∀ (s : State) (r : Round), s.round = some r →
    exec .headerComplete s = .next { s with round := some { r with headerDone := true } }) ∧
  (∀ s : State, s.round = none → exec .headerComplete s = .next s)

/-- R22, R36, R37, R42: what a noise report, a ready report and a not-ready report do. A noise report taken during the header
sets the noise floor, clamped, with the site CLIPPED flag if it was outside, and republishes the site block; with no round
running it is discarded; one that comes after the header is complete changes nothing (the model's choice, log 3). A not-ready
report from READY raises MODEM FAULT with the round number, and with a round running it cuts the round: CHANNEL ON clear, and
every cell in flight back at its place with its age and attempt count, all else as it stood. -/
def Obligations.ModemReports : Prop :=
  (∀ (s : State) (n : Int),
     (∀ r, s.round = some r → r.headerDone = false → ∃ t : State, exec (.noiseReport n) s = .next t ∧
       (n < -130 → t.noise = -130 ∧ t.siteClipped = true) ∧ (-80 < n → t.noise = -80 ∧ t.siteClipped = true) ∧
       (-130 ≤ n → n ≤ -80 → t.noise = n ∧ t.siteClipped = s.siteClipped) ∧
       (s.published = true → t.edition siteBase = s.edition siteBase + 2) ∧
       t = { s with noise := t.noise, siteClipped := t.siteClipped, passages := t.passages }) ∧
     (s.round = none → exec (.noiseReport n) s = .next s) ∧
     (∀ r, s.round = some r → r.headerDone = true → exec (.noiseReport n) s = .next s)) ∧
  (∀ s : State,
     (∃ t : State, exec .modemReady s = .next t ∧ t.modemReady = true ∧
       t = { s with modemReady := true, passages := t.passages }) ∧
     (s.modemReady = false → s.round = none → exec .modemNotReady s = .next s) ∧
     (s.modemReady = true → s.round = none → exec .modemNotReady s = .next (publish s
       ({ s with modemReady := false }.raise { kind := .modemFault, value := s.roundNumber.toNat }))) ∧
     (s.round.isSome = true → ∃ v : State,
       (s.modemReady = true → exec .modemNotReady s = .next (publish s
         (v.raise { kind := .modemFault, value := s.roundNumber.toNat }))) ∧
       (s.modemReady = false → exec .modemNotReady s = .next (publish s v)) ∧
       v = { s with modemReady := false, round := none, modemOut := .idle, lists := v.lists, orders := v.orders } ∧
       v.channelOn = false ∧
       (s.Inv →
         (∀ i, v.list i = { s.list i with cells := (s.list i).cells.map fun e => { e with inFlight := false } }) ∧
         (∀ i, v.order i = { s.order i with cells := (s.order i).cells.map fun m => { m with inFlight := false } }))))

/-- R5, R25, R41, R43 to R48, R51, R53, R55: a truck of which no GOOD burst is heard in its planned UP slot, once the
transaction that the slot closes, if any, is settled as failed. ON AIR and graded STRONG, FAIR or WEAK, below lostCount: the
silent count rises (NOTHING HEARD) or is 0 (GARBLED), the sample (0, or Q less 60) goes into Q and the run, and a grade that
changes raises GRADE CHANGE where the link-notice option is set; settling: a settling step; at lostCount: LOST and SILENT,
with TRUCK LOST and Q as held; REGISTERED, SILENT or LOST: the count alone. GARBLED while settling: a settling step with Q
less 60; REGISTERED, SILENT or LOST: the clamp and the silent count 0, Q held. PARKED: no sample. In every case the counters
become 0. -/
def Obligations.UnheardTrucks : Prop :=
  ∀ (s base : State) (k : Fin 32) (p : PlanSlot) (l : Link), ReportOf s k p false base → base.link p.truck = l →
    let t := p.truck
    let x := base.truck t
    let v (m : Link) : State :=
      { base with links := tableSet {} base.links t m, counters := tableSet {} base.counters t {} }
    let silent := min (l.silent + 1) 255
    let graded := l.grade = .strong ∨ l.grade = .fair ∨ l.grade = .weak
    let change (m : Link) : Notice :=
      { kind := .gradeChange, reason := gradeChangeCode l.grade m.grade, truck := t, value := m.quality }
    (x.state = .onAir → graded → silent < base.settings.lostCount →
      let m := { l with silent := silent, quality := (3 * l.quality + 2) / 4 }.hysteresis base.settings
      (x.linkNotice = false ∨ m.grade = l.grade →
        exec (.upSlotReport k .nothingHeard) s = .next (publish s (v m) [truckBase t])) ∧
      (x.linkNotice = true → m.grade ≠ l.grade →
        exec (.upSlotReport k .nothingHeard) s = .next (publish s ((v m).raise (change m)) [truckBase t]))) ∧
    (∀ bytes rssi, x.state = .onAir → graded → attributed p.rate p.radioId (.received bytes rssi) = (.garbled rssi, none) →
      let heard := max (-130) (min (-40) rssi)
      let m := { l with silent := 0, clipped := l.clipped || decide (heard ≠ rssi)
                        quality := (3 * l.quality + (l.quality - 60) + 2) / 4 }.hysteresis base.settings
      (x.linkNotice = false ∨ m.grade = l.grade →
        exec (.upSlotReport k (.received bytes rssi)) s = .next (publish s (v m) [truckBase t])) ∧
      (x.linkNotice = true → m.grade ≠ l.grade →
        exec (.upSlotReport k (.received bytes rssi)) s = .next (publish s ((v m).raise (change m)) [truckBase t]))) ∧
    (x.state = .onAir → l.grade = .settling → silent < base.settings.lostCount →
      let q := if l.settle = 0 then 0 else (l.quality + 1) / 2
      exec (.upSlotReport k .nothingHeard) s = .next (publish s (v { l with
        silent := silent, quality := q, settle := l.settle + 1
        grade := if l.settle = 3 then settledGrade base.settings q else .settling }) [truckBase t])) ∧
    (x.state = .onAir → l.grade ≠ .lost → base.settings.lostCount ≤ silent →
      exec (.upSlotReport k .nothingHeard) s = .next (publish s
        ({ v { l with silent := silent, grade := .lost, run := 0, dir := .none } with
           trucks := tableSet {} base.trucks t { x with state := .silent } }.raise
          { kind := .truckLost, reason := 1, truck := t, value := l.quality }) [truckBase t])) ∧
    ((x.state = .registered ∨ x.state = .silent ∨ (x.state = .onAir ∧ l.grade = .lost)) →
      exec (.upSlotReport k .nothingHeard) s = .next (publish s (v { l with silent := silent }) [truckBase t])) ∧
    (∀ bytes rssi, attributed p.rate p.radioId (.received bytes rssi) = (.garbled rssi, none) →
      let m := { l with silent := 0, clipped := l.clipped || decide (max (-130) (min (-40) rssi) ≠ rssi) }
      (x.state = .onAir → l.grade = .settling →
        let q := if l.settle = 0 then l.quality - 60 else (l.quality + (l.quality - 60) + 1) / 2
        exec (.upSlotReport k (.received bytes rssi)) s = .next (publish s (v { m with
          quality := q, settle := l.settle + 1
          grade := if l.settle = 3 then settledGrade base.settings q else .settling }) [truckBase t])) ∧
      ((x.state = .registered ∨ x.state = .silent ∨ (x.state = .onAir ∧ l.grade = .lost)) →
        exec (.upSlotReport k (.received bytes rssi)) s = .next (publish s (v m) [truckBase t])) ∧
      (x.state = .parked → exec (.upSlotReport k (.received bytes rssi)) s = .next (publish s
        { base with counters := tableSet {} base.counters t {} }))) ∧
    (x.state = .parked → exec (.upSlotReport k .nothingHeard) s = .next (publish s
      { base with counters := tableSet {} base.counters t {} }))

/-- R3, R5, R25, R26, R27, R41, R43, R44, R46 to R49, R51, R53, R55: a GOOD burst of any cells, in a truck's planned UP slot
(once the transaction that the slot closes, if any, is settled) or from a known truck in an open slot: the RSSI clamped, with
CLIPPED if it was outside; the silent count and the counters 0; last heard and MORE as the burst says. Graded STRONG, FAIR or
WEAK: the sample in Q and the run, with GRADE CHANGE where the grade changes under the option; settling: a settling step.
REGISTERED: ON AIR with TRUCK BACK, FIRST HEARD; SILENT or LOST: settles afresh, ON AIR, with TRUCK BACK, LOST ENDED (both
where no step waits for the truck); PARKED: no sample. Then a stalled head order resumes (R85), and the cells are routed in
burst order to their owners, a cell of unknown kind or with a code outside its list dropped; an ACCESS cell sets the flag.
R188, R189: the fields of a received cell of each kind, by their byte places, the high byte first. -/
def Obligations.AnsweredPoll : Prop :=
  (∀ (s base : State) (k : Fin 32) (t : Nat) (l : Link) (bytes : List Byte) (rssi : Int) (u : UpBurst) (c : Instr),
    ((∃ p, ReportOf s k p u.downHeard base ∧ classify p.rate bytes = some u ∧ u.radioId = p.radioId ∧ p.truck = t ∧
        c = .upSlotReport k (.received bytes rssi)) ∨
      (s.slotOpen k = true ∧ classify 1 bytes = some u ∧ s.findTruck u.radioId = some t ∧
        (s.truck t).radioId = u.radioId ∧ c = .openSlotReport k (.received bytes rssi) ∧ base = s)) →
    base.link t = l →
    let heard := max (-130) (min (-40) rssi)
    let margin := max 0 (min 50 (heard - base.noise))
    let sample := 10 * margin.toNat
    let x := { base.truck t with lastHeard := base.clock, more := u.more }
    let h := { l with silent := 0, clipped := l.clipped || decide (heard ≠ rssi) }
    let held (y : Truck) : State :=
      { base with counters := tableSet {} base.counters t {}, trucks := tableSet {} base.trucks t y }
    let v (m : Link) (y : Truck) : State := { held y with links := tableSet {} base.links t m }
    let resumed (w : State) : State := if s.headStalled t = true then w.stallResume t else w
    let routed (w : State) : State := u.cells.foldl (fun w b =>
      match UpCell.ofBytes b with
      | some cell => w.routeCell t cell
      | none => w) w
    let answers (w : State) : Prop := exec c s = .next (publish s (routed (resumed w))
      ([truckBase t] ++ (resumed w).cellRecords t u.cells))
    let settled (m : Link) (settle : Nat) : Link :=
      let q := if settle = 0 then sample else (m.quality + sample + 1) / 2
      { m with quality := q, settle := settle + 1, grade := if settle = 3 then settledGrade base.settings q else m.grade }
    let free := ∀ g < 16, ∀ st ∈ (base.program g).steps, st.pending ≠ .truck ∨ st.truck ≠ t
    ((base.truck t).state = .onAir → (l.grade = .strong ∨ l.grade = .fair ∨ l.grade = .weak) →
      let m := { h with quality := (3 * l.quality + sample + 2) / 4 }.hysteresis base.settings
      ((base.truck t).linkNotice = false ∨ m.grade = l.grade → answers (v m x)) ∧
      ((base.truck t).linkNotice = true → m.grade ≠ l.grade → answers ((v m x).raise
        { kind := .gradeChange, reason := gradeChangeCode l.grade m.grade, truck := t, value := m.quality }))) ∧
    ((base.truck t).state = .onAir → l.grade = .settling → answers (v (settled h l.settle) x)) ∧
    ((base.truck t).state = .registered → free →
      answers ((v (settled h l.settle) { x with state := .onAir }).raise { kind := .truckBack, reason := 2, truck := t })) ∧
    (((base.truck t).state = .silent ∨ ((base.truck t).state = .onAir ∧ l.grade = .lost)) → free →
      answers ((v { h with grade := .settling, run := 0, dir := .none, quality := sample, settle := 1 }
        { x with state := .onAir }).raise { kind := .truckBack, reason := 1, truck := t, value := sample })) ∧
    ((base.truck t).state = .parked →
      exec c s = .next (publish s (routed (resumed (held x))) ((resumed (held x)).cellRecords t u.cells)))) ∧
  (∀ (s : State) (t : Nat), s.routeCell t .idle = s ∧
    s.routeCell t .access = { s with trucks := tableSet {} s.trucks t { s.truck t with access := true } }) ∧
  (∀ (x : Byte) (rest : List Byte), (x = 0x7F → UpCell.ofBytes (x :: rest) = some .access) ∧
    (x = 0x00 → UpCell.ofBytes (x :: rest) = some .idle) ∧
    (x ∉ [0x00, 0x41, 0x42, 0x43, 0x50, 0x60, 0x61, 0x62, 0x70, 0x71, 0x72, 0x73, 0x7F] →
      UpCell.ofBytes (x :: rest) = none)) ∧
  (∀ (b1 b2 b3 b4 b5 b6 b7 : Byte) (rest : List Byte),
    let two (hi lo : Byte) : Nat := 256 * hi.toNat + lo.toNat
    let reads (kind : Byte) : Option UpCell := UpCell.ofBytes (kind :: b1 :: b2 :: b3 :: b4 :: b5 :: b6 :: b7 :: rest)
    reads 0x41 = some (.checkIn (two b1 b2)) ∧ reads 0x42 = some (.panic (two b1 b2)) ∧
    reads 0x43 = some (.manDown (two b1 b2)) ∧
    (b3.toNat ≤ 4 → reads 0x50 = some (.orderStatus (two b1 b2) b3.toNat)) ∧ (4 < b3.toNat → reads 0x50 = none) ∧
    (b6 = 0 → reads 0x60 = some (.readback (two b1 b2) b3.toNat (two b4 b5) .openIt)) ∧
    (b6 = 1 → reads 0x60 = some (.readback (two b1 b2) b3.toNat (two b4 b5) .closeIt)) ∧
    (b6 = 2 → reads 0x60 = some (.readback (two b1 b2) b3.toNat (two b4 b5) .tag)) ∧
    (b6 = 3 → reads 0x60 = some (.readback (two b1 b2) b3.toNat (two b4 b5) .untag)) ∧
    (3 < b6.toNat → reads 0x60 = none) ∧ reads 0x61 = some (.executed (two b1 b2) b3.toNat) ∧
    (b3 = 0 → reads 0x62 = some (.unplanned (two b1 b2) .opened)) ∧
    (b3 = 1 → reads 0x62 = some (.unplanned (two b1 b2) .closed)) ∧ (1 < b3.toNat → reads 0x62 = none) ∧
    reads 0x70 = some (.acceptPermit (two b1 b2) (two b3 b4) b5.toNat (two b6 b7)) ∧
    reads 0x71 = some (.signOn (two b1 b2) (two b3 b4)) ∧ reads 0x72 = some (.signOff (two b1 b2) (two b3 b4)) ∧
    reads 0x73 = some (.surrender (two b1 b2) (two b3 b4)))

/-- R28, R29, R30, R82, R83, R84, R86, R87, R92, R102, R111, R138, R162: the outcome of a transaction on the cells of its
DOWN, and the report that closes it. No effect on a cell no longer in a list. A failed control cell stays at its place with
its attempt count raised; at the fourth failure DELIVERY TROUBLE is raised once, or WITHDRAW UNCONFIRMED for an ORDER WITHDRAW
cell (the truck and the subject fields of the notice: DEDUCED, log 15). A delivered one leaves the list and its owner's record
takes the delivery; an old STEP cell tells a program loaded since nothing (log 26). The order of the cells is given their
outcome as a whole. -/
def Obligations.TransactionSettlesCells : Prop :=
  (∀ (s : State) (age : DWord) (cell : DownCell),
    (∀ b, s.entryOf age = none → s.settle b [.control age cell] = s) ∧
    (∀ t e, s.entryOf age = some (t, e) →
      let v := { s with
        lists := tableSet {} s.lists t { s.list t with
          cells := (s.list t).cells.map fun x => if x.age = age then { x with
            inFlight := false, attempts := min (x.attempts + 1) 255
            reported := x.reported || decide (min (x.attempts + 1) 255 = 4) } else x } }
      (e.attempts ≠ 3 ∨ e.reported = true → s.settle false [.control age cell] = v) ∧
      (e.attempts = 3 → e.reported = false →
        s.settle false [.control age cell] = v.raise { v.troubleSubject e.cell with truck := t } ∧
        (∀ n, e.cell = .orderWithdraw n →
          v.troubleSubject e.cell = { kind := .withdrawUnconfirmed, item := n, value := 4 }) ∧
        ((∀ n, e.cell ≠ .orderWithdraw n) → (v.troubleSubject e.cell).kind = .deliveryTrouble ∧
          (v.troubleSubject e.cell).reason = e.cell.kind ∧ (v.troubleSubject e.cell).value = 4))) ∧
    (∀ t e, s.entryOf age = some (t, e) →
      let v := { s with
        lists := tableSet {} s.lists t { s.list t with
          cells := (s.list t).cells.filter fun x => decide (x.age ≠ age) } }
      let gives (u : State) : Prop := s.settle true [.control age cell] = u
      (∀ badge w, e.cell = .prompt badge → s.findWorker badge = some w →
        gives { v with watches := tableSet {} s.watches w { s.watch w with prompt := .delivered } }) ∧
      (∀ badge w, e.cell = .alarmSeenWorker badge → s.findWorker badge = some w →
        gives { v with watches := tableSet {} s.watches w { s.watch w with
          alarm := (s.watch w).alarm.map fun a => { a with seen := .delivered } } }) ∧
      (∀ i, e.cell = .alarmSeenTruck i →
        gives { v with
          truckAlarms := tableSet none s.truckAlarms i ((s.truckAlarm i).map fun a => { a with seen := .delivered }) }) ∧
      ((s.list t).waiting = [] →
        (∀ number k device action permit g st, e.cell = .step number k device action permit →
          s.findProgram number = some g → (s.program g).step k = some st → st.instruction = .queued →
          (older s.ageCounter e.age (s.program g).loadedAt = false →
            gives { v with programs := tableSet {} s.programs g { s.program g with
              steps := (s.program g).steps.modify (k - 1) fun y => { y with instruction := .delivered } } }) ∧
          (older s.ageCounter e.age (s.program g).loadedAt = true → gives v)) ∧
        (∀ number k g, e.cell = .stepCancel number k → s.findProgram number = some g →
          gives { v with programs := tableSet {} s.programs g { s.program g with
            cancels := (s.program g).cancels - 1 } }) ∧
        (∀ number p, ((∃ badge n check, e.cell = .permitIssue number badge n check) ∨ ∃ l, e.cell = .points number l) →
          s.findPermit number = some p → (s.permit p).issueCells = .queued →
          gives { v with permits := tableSet {} s.permits p { s.permit p with
            issueDelivered := (s.permit p).issueDelivered + 1
            issueCells := if 1 + ((s.permit p).points.length + 2) / 3 ≤ (s.permit p).issueDelivered + 1 then .delivered
              else .queued } }) ∧
        (∀ number i, e.cell = .orderWithdraw number → s.findOrder number = some i → (s.order i).state = .withdrawing →
          gives ({ v with orders := tableSet {} s.orders i { s.order i with
              state := .withdrawn, timeStatus := s.clock } }.raise
            { kind := .orderWithdrawn, truck := (s.order i).truck, item := number })) ∧
        (((∃ a b, e.cell = .readbackOk a b) ∨ (∃ a b d x q, e.cell = .readbackWrong a b d x q) ∨
          (∃ a b x, e.cell = .signReply a b x) ∨ ∃ a x, e.cell = .statusReply a x) → gives v)))) ∧
  (∀ (s : State) (i : Nat) (ns : List Nat), ns ≠ [] →
    let o := s.order i
    let cells := ns.map fun n => Carried.order i n (s.orderCell i n)
    let wanted := o.inUse = true ∧ (o.state = .queued ∨ o.state = .sending ∨ o.state = .stalled)
    let done := { o with cells := o.cells.mapIdx fun n m => if n ∈ ns then { delivered := true, inFlight := false } else m }
    let told := { done with
      attempts := if done.lowestUndelivered = o.lowestUndelivered then o.attempts else 0 }
    let back := { o with cells := o.cells.mapIdx fun n m => if n ∈ ns then { m with inFlight := false } else m }
    (∀ b, ¬ wanted → s.settle b cells = s) ∧
    (wanted → done.lowestUndelivered ≠ none →
      s.settle true cells = { s with orders := tableSet {} s.orders i told }) ∧
    (wanted → done.lowestUndelivered = none →
      s.settle true cells = { s with
        orders := tableSet {} s.orders i { told with state := .delivered, timeDelivered := s.clock, pages := [] }
        freePages := s.freePages ++ o.pages
        queues := tableSet [] s.queues o.truck ((s.queue o.truck).filter fun j => decide (j ≠ i)) }.raise
          { kind := .orderDelivered, truck := o.truck, item := o.number, value := (o.cells.length : Nat) }) ∧
    (wanted → (o.state ≠ .sending ∨ ∀ n, o.lowestUndelivered = some n → n ∉ ns) →
      s.settle false cells = { s with orders := tableSet {} s.orders i back }) ∧
    (∀ n, wanted → o.state = .sending → o.lowestUndelivered = some n → n ∈ ns →
      (o.attempts + 1 < 4 →
        s.settle false cells = { s with orders := tableSet {} s.orders i { back with attempts := o.attempts + 1 } }) ∧
      (4 ≤ o.attempts + 1 →
        s.settle false cells = { s with
          orders := tableSet {} s.orders i { back with attempts := o.attempts + 1, state := .stalled } }.raise
            { kind := .orderStalled, reason := 1, truck := o.truck, item := o.number
              value := (o.cells.countP (fun m : CellMark => m.delivered) : Nat) }))) ∧
  (∀ (s : State) (k : Fin 32) (r : Round) (d p : PlanSlot) (report : SlotReport), 2 ≤ k.val → s.round = some r →
    r.slots[k.val - 2]? = some d → r.slots[k.val - 1]? = some p → p.dir = .up → p.handled = false → p.closes = true →
    let v := { s with round := some (r.handle k) }
    let heard := attributed p.rate p.radioId report
    ((s.truck p.truck).radioId = p.radioId →
      exec (.upSlotReport k report) s = .next (publish s
        ((v.settle (downHeard heard.2) d.cells).takeReport p.truck heard.1 heard.2 (s.headStalled p.truck))
        (s.upRecord k p d.cells report))) ∧
    ((s.truck p.truck).radioId ≠ p.radioId → exec (.upSlotReport k report) s = .next (publish s v)) ∧
    (downHeard heard.2 = true ↔ ∃ bytes rssi u, report = .received bytes rssi ∧ classify p.rate bytes = some u ∧
      u.radioId = p.radioId ∧ u.downHeard = true))

/-- R47, R48: each report of a truck graded STRONG, FAIR or WEAK sets Q to (3Q + x + 2) div 4, within 0 to 500; no run passes
2, and the grade changes only at the third report of a run, to the target of that report. -/
def Obligations.GradeNeedsThreeReports : Prop :=
  ∀ (st : Settings) (l : Link) (x : Nat), l.Legal → x ≤ 500 →
    (l.grade = .strong ∨ l.grade = .fair ∨ l.grade = .weak) →
    let m := l.graded st x
    let target := targetGrade st l.grade (smooth l.quality x)
    m.Legal ∧ m.quality = (3 * l.quality + x + 2) / 4 ∧
    (m.grade ≠ l.grade → l.run = 2 ∧ m.grade = target ∧ runDir l.grade target = l.dir ∧ m.run = 0) ∧
    (target = l.grade → m.grade = l.grade ∧ m.run = 0 ∧ m.dir = .none) ∧
    (target ≠ l.grade → l.run = 2 → runDir l.grade target = l.dir → m.grade = target)

/-- R16, R17, R26: a GOOD burst in an open slot. From a radio that no truck entry holds, without an alarm cell: STRAY UNIT if
the radio is not the last stray, and the last stray id and time in any case; with one, and no quiet period: STRAY UNIT with
reason ALARM CELL and the badge of the first (with a quiet period it ends first, with its notice before STRAY UNIT: DEDUCED,
log 23). From a truck that an entry holds: graded and heard, then its cells, whatever they are, routed in burst order; from an
ON AIR truck graded STRONG, FAIR or WEAK, of IDLE cells: taken as its answered poll is. A report that is not GOOD has no
effect. -/
def Obligations.StrayUnitHeard : Prop :=
  ∀ (s : State) (k : Fin 32) (bytes : List Byte) (rssi : Int),
    (∀ u, classify 1 bytes = some u → s.slotOpen k = true → s.findTruck u.radioId = none → firstAlarm u.cells = none →
      (u.radioId = s.strayId → exec (.openSlotReport k (.received bytes rssi)) s =
        .next (publish s { s with strayTime := s.clock })) ∧
      (u.radioId ≠ s.strayId → exec (.openSlotReport k (.received bytes rssi)) s =
        .next (publish s { s.raise { kind := .strayUnit, item := u.radioId % 65536, device := u.radioId / 65536,
                                     value := rssi } with
          strayId := u.radioId, strayTime := s.clock }))) ∧
    (∀ u badge, classify 1 bytes = some u → s.slotOpen k = true → s.findTruck u.radioId = none →
      firstAlarm u.cells = some badge →
      let w := if s.quiet = true then
          { s with quiet := false, lastQuietCause := .alarmCell }.raise
            { kind := .quietEnded, reason := 3, item := u.radioId % 65536, device := u.radioId / 65536
              value := (s.clock - s.quietStart : Nat) }
        else s
      exec (.openSlotReport k (.received bytes rssi)) s = .next (publish s
        { w.raise { kind := .strayUnit, reason := 1, badge, item := u.radioId % 65536, device := u.radioId / 65536
                    value := rssi } with
          strayId := u.radioId, strayTime := s.clock })) ∧
    (∀ u t l, classify 1 bytes = some u → s.slotOpen k = true → s.findTruck u.radioId = some t →
      (s.truck t).radioId = u.radioId → (∀ b ∈ u.cells, UpCell.ofBytes b = some .idle) → (s.truck t).state = .onAir →
      s.link t = l → (l.grade = .strong ∨ l.grade = .fair ∨ l.grade = .weak) → (s.truck t).linkNotice = false →
      s.headStalled t = false →
      let heard := max (-130) (min (-40) rssi)
      let margin := max 0 (min 50 (heard - s.noise))
      exec (.openSlotReport k (.received bytes rssi)) s = .next (publish s
        { s with
          links := tableSet {} s.links t ({ l with
            silent := 0, clipped := l.clipped || decide (heard ≠ rssi)
            quality := (3 * l.quality + 10 * margin.toNat + 2) / 4 }.hysteresis s.settings)
          counters := tableSet {} s.counters t {}
          trucks := tableSet {} s.trucks t { s.truck t with lastHeard := s.clock, more := u.more } }
        [truckBase t])) ∧
    (∀ u t, classify 1 bytes = some u → s.slotOpen k = true → s.findTruck u.radioId = some t →
      let w := s.hearBurst t (.good rssi) u (s.headStalled t)
      exec (.openSlotReport k (.received bytes rssi)) s = .next (publish s
        (u.cells.foldl (fun w b =>
          match UpCell.ofBytes b with
          | some cell => w.routeCell t cell
          | none => w) w)
        (s.gradedRecord t u.radioId ++ w.cellRecords t u.cells))) ∧
    (classify 1 bytes = none → exec (.openSlotReport k (.received bytes rssi)) s = .next s) ∧
    exec (.openSlotReport k .nothingHeard) s = .next s

/-- R24, R188: a burst of 1 to `rate` cells of 12 bytes closed by its check word is GOOD and is read as it was built; a burst
whose check word differs is GARBLED. -/
def Obligations.BurstReadsAsBuilt : Prop :=
  ∀ (rate radio : Nat) (heard more : Bool) (cells : List (List Byte)),
    radio < 16777216 → 1 ≤ cells.length → cells.length ≤ rate → rate ≤ 4 → (∀ c ∈ cells, c.length = 12) →
    let body := [BitVec.ofNat 8 (radio / 65536), BitVec.ofNat 8 (radio / 256), BitVec.ofNat 8 radio,
      BitVec.ofNat 8 (128 * flagBit heard + 64 * flagBit more + cells.length)] ++ cells.flatten
    classify rate (sealBurst body) = some { radioId := radio, downHeard := heard, more := more, cells := cells } ∧
    ∀ a b : Byte, [a, b] ≠ [highByte (checkWord body), lowByte (checkWord body)] → classify rate (body ++ [a, b]) = none

/-- R65, R66, R67: QUIET starts or renews a quiet period unless a watch of a roster entry in use is PROMPTED; END QUIET, or
the clock at quiet end, ends a running one with its cause; END QUIET with none running is answered DONE without change. That
the event "quiet end reached" changes nothing before quiet end, or with none running, is the model's choice (log 3). -/
def Obligations.QuietPeriods : Prop :=
  (∀ (s s1 : State) (c : Fin 64),
     (AtCard s c .quiet s1 → s1.anyPrompted = false →
       exec (.quiet c) s = .next (answeredAs s
         { s1 with quiet := true, quietStart := if s1.quiet then s1.quietStart else s1.clock,
                   quietEnd := min (s1.clock + max 10 (min 600 (s1.card c 8).toNat)) 4294967295 } c
         (if 10 ≤ (s1.card c 8).toNat ∧ (s1.card c 8).toNat ≤ 600 then
           .ok (dwordWords (min (s1.clock + (s1.card c 8).toNat) 4294967295))
          else ⟨.doneClamped, 8,
           dwordWords (min (s1.clock + max 10 (min 600 (s1.card c 8).toNat)) 4294967295)⟩))) ∧
     (AtCard s c .endQuiet s1 → s1.quiet = true → exec (.endQuiet c) s = .next (answeredAs s
       ({ s1 with quiet := false, lastQuietCause := .endQuiet }.raise
         { kind := .quietEnded, reason := 2, value := (s1.clock - s1.quietStart : Nat) }) c .ok)) ∧
     (AtCard s c .endQuiet s1 → s1.quiet = false → exec (.endQuiet c) s = .next (answeredAs s s1 c .ok)) ∧
     (s.quiet = true → s.quietEnd ≤ s.clock → exec .quietEndReached s = .next (publish s
       ({ s with quiet := false, lastQuietCause := .expired }.raise
         { kind := .quietEnded, reason := 1, value := (s.clock - s.quietStart : Nat) }))) ∧
     ((s.quiet = false ∨ s.clock < s.quietEnd) → exec .quietEndReached s = .next s)) ∧
  (∀ (s s1 : State) (c : Fin 64), AtCard s c .quiet s1 →
     (∃ e ∈ s1.watches, e.2.state = .prompted ∧ (s1.worker e.1).inUse = true) →
     exec (.quiet c) s = .next (answeredAs s s1 c (.wrongState .promptOpen)))


/-! ### Watches (R99 to R116) -/

/-- R67, R101, R104, R144: at its deadline a watch in WATCHING becomes PROMPTED, with a PROMPT for the truck the worker is
aboard and a running quiet period ended with QUIET ENDED, cause PROMPT; at its grace end a watch in PROMPTED becomes ALARM,
with NO CONTACT if the truck is LOST and MISSED CHECK-IN otherwise, WORKER ALARM is raised, and the permit of a member is
suspended (one already SUSPENDED keeps its time of last state change: DEDUCED, log 29). That a timer event before its time
changes nothing is the model's choice (log 3). R103, R105, R115: a CHECK IN cell, by the state of the watch. R106 to R109: a
PANIC or MAN DOWN cell, for a worker and for a badge that no roster entry holds (a truck alarm renewed keeps its repeat count:
DESIGN CHOICE, log 28). -/
def Obligations.WatchTimers : Prop :=
  (∀ (s : State) (w : Fin 192),
     ((s.watch w).state = .watching → (s.watch w).deadline ≤ s.clock → ∃ v : State,
       (s.quiet = true → exec (.deadlineReached w) s = .next (publish s
         ({ v with quiet := false, lastQuietCause := .prompt }.raise
           { kind := .quietEnded, reason := 4, worker := w, value := (s.clock - s.quietStart : Nat) }))) ∧
       (s.quiet = false → exec (.deadlineReached w) s = .next (publish s v)) ∧
       (v.watch w) = { s.watch w with
         state := .prompted, graceEnd := min (s.clock + (s.watch w).grace) 4294967295, prompt := .queued } ∧
       (∀ i, i ≠ w.val → v.watch i = s.watch i) ∧
       (∀ i, (s.worker w).aboard = some i → (s.list i).present (.prompt (s.worker w).badge) = false →
         v.list i = { s.list i with
           cells := insertEntry s.ageCounter { cell := .prompt (s.worker w).badge, age := s.ageCounter } (s.list i).cells } ∧
         v.ageCounter = s.ageCounter + 1) ∧
       (∀ i, (s.worker w).aboard = some i → (s.list i).present (.prompt (s.worker w).badge) = true →
         v.list i = s.list i ∧ v.ageCounter = s.ageCounter) ∧
       ((s.worker w).aboard = none → v.ageCounter = s.ageCounter) ∧
       (∀ i, (s.worker w).aboard ≠ some i → v.list i = s.list i) ∧
       v = { s with watches := v.watches, lists := v.lists, ageCounter := v.ageCounter }) ∧
     (((s.watch w).state ≠ .watching ∨ s.clock < (s.watch w).deadline) → exec (.deadlineReached w) s = .next s)) ∧
  (∀ (s : State) (w : Fin 192),
     ((s.watch w).state = .prompted → (s.watch w).graceEnd ≤ s.clock →
       let reason : AlarmReason :=
         if (s.worker w).aboard.any (fun i => decide ((s.link i).grade = .lost)) then .noContact else .missedCheckIn
       ∃ v : State,
       exec (.graceEndReached w) s = .next (publish s (v.afterAlarm w
         { kind := .workerAlarm, reason := reason.noticeCode, worker := w, truck := (s.worker w).aboard.getD 0,
           badge := (s.worker w).badge })) ∧
       (v.watch w) = { s.watch w with
         state := .alarm, prompt := .none
         alarm := some { reason := reason, raised := s.clock, via := (s.worker w).aboard } } ∧
       (∀ i, i ≠ w.val → v.watch i = s.watch i) ∧
       (∀ i, (s.worker w).aboard = some i → v.list i = { s.list i with
         cells := (s.list i).cells.filter (fun e => decide (e.cell ≠ .prompt (s.worker w).badge)) }) ∧
       (∀ i, (s.worker w).aboard ≠ some i → v.list i = s.list i) ∧
       v = { s with watches := v.watches, lists := v.lists }) ∧
     (((s.watch w).state ≠ .prompted ∨ s.clock < (s.watch w).graceEnd) → exec (.graceEndReached w) s = .next s)) ∧
  (∀ (s : State) (t badge : Nat),
    (s.findWorker badge = none → s.routeCell t (.checkIn badge) = s) ∧
    (∀ w, s.findWorker badge = some w →
      let v := { s.watch w with lastHeardVia := some t, lastCheckIn := s.clock }
      let due := min (s.clock + s.effectiveInterval w) 4294967295
      let sets (m : Watch) : State := { s with watches := tableSet {} s.watches w m }
      let answered (u : State) : Prop :=
        (∀ i, (s.worker w).aboard = some i → (u.list i).waiting = (s.list i).waiting ∧
          (u.list i).cells = (s.list i).cells.filter fun e => decide (e.cell ≠ .prompt (s.worker w).badge)) ∧
        (∀ i, (s.worker w).aboard ≠ some i → u.list i = s.list i) ∧
        (∀ i, i ≠ w → u.watch i = s.watch i) ∧ u = { s with watches := u.watches, lists := u.lists }
      ((s.watch w).state = .off → s.routeCell t (.checkIn badge) = sets v) ∧
      ((s.watch w).state = .watching → s.routeCell t (.checkIn badge) = sets { v with deadline := due }) ∧
      ((s.watch w).state = .prompted → (s.watch w).mode = .continuous → ∃ u : State, s.routeCell t (.checkIn badge) = u ∧
        answered u ∧ u.watch w = { v with state := .watching, prompt := .none, deadline := due }) ∧
      ((s.watch w).state = .prompted → (s.watch w).mode = .singleFail → ∃ u : State, s.routeCell t (.checkIn badge) = u ∧
        answered u ∧ u.watch w = { v with state := .off, mode := .off, prompt := .none }) ∧
      ((s.watch w).state = .prompted → (s.watch w).mode = .singleAll → ∃ u : State,
        s.routeCell t (.checkIn badge) = u.raise { kind := .welfareCheckResult, reason := 1, worker := w, truck := t } ∧
        answered u ∧ u.watch w = { v with state := .off, mode := .off, prompt := .none }) ∧
      (∀ a, ((s.watch w).state = .alarm ∨ (s.watch w).state = .acknowledged) → (s.watch w).alarm = some a →
        (a.late = true → s.routeCell t (.checkIn badge) = sets v) ∧
        (a.late = false → s.routeCell t (.checkIn badge) = (sets { v with alarm := some { a with late := true } }).raise
          { kind := .lateCheckIn, reason := a.reason.noticeCode, worker := w, truck := t
            value := (s.clock - a.raised : Nat) })))) ∧
  (∀ (s : State) (t badge : Nat) (manDown : Bool),
    let cell : UpCell := if manDown then .manDown badge else .panic badge
    let reason : AlarmReason := if manDown then .manDown else .panic
    (s.quiet = true → s.routeCell t cell = ({ s with quiet := false, lastQuietCause := .alarmCell }.raise
      { kind := .quietEnded, reason := 3, truck := t, worker := (s.findWorker badge).getD 0
        value := (s.clock - s.quietStart : Nat) }).routeCell t cell) ∧
    (∀ w, s.quiet = false → s.findWorker badge = some w →
      let v := { s.watch w with lastHeardVia := some t }
      let fresh := { v with
        state := .alarm, alarm := some { reason := reason, raised := s.clock, via := some t } }
      let told : Notice :=
        { kind := .workerAlarm, reason := reason.noticeCode, worker := w, truck := t, badge := (s.worker w).badge }
      let alarmed (u : State) (gone : DownCell) (m : Watch) : Prop := ∃ x : State, u = x.afterAlarm w told ∧
        x.watch w = m ∧ (∀ i, i ≠ w → x.watch i = s.watch i) ∧
        (∀ i, (s.worker w).aboard = some i → (x.list i).waiting = (s.list i).waiting ∧
          (x.list i).cells = (s.list i).cells.filter fun e => decide (e.cell ≠ gone)) ∧
        (∀ i, (s.worker w).aboard ≠ some i → x.list i = s.list i) ∧
        x = { s with watches := x.watches, lists := x.lists }
      ((s.watch w).state ≠ .alarm → (s.watch w).state ≠ .acknowledged →
        alarmed (s.routeCell t cell) (.prompt (s.worker w).badge) { fresh with prompt := .none }) ∧
      (∀ a, ((s.watch w).state = .alarm ∨ (s.watch w).state = .acknowledged) → (s.watch w).alarm = some a →
        (a.reason = reason → s.cellRecord t cell = [workerBase w] ∧ s.routeCell t cell = { s with
          watches := tableSet {} s.watches w { v with alarm := some { a with repeats := min (a.repeats + 1) 255 } } }) ∧
        (a.reason ≠ reason → alarmed (s.routeCell t cell) (.alarmSeenWorker (s.worker w).badge) fresh))) ∧
    (s.quiet = false → s.findWorker badge = none →
      let sets (a : TruckAlarm) : State := { s with truckAlarms := tableSet none s.truckAlarms t (some a) }
      let told : Notice := { kind := .truckAlarm, reason := if manDown then 2 else 1, truck := t, badge }
      (s.truckAlarm t = none →
        s.routeCell t cell = (sets { manDown := manDown, badge := badge, raised := s.clock }).raise told) ∧
      (∀ a, s.truckAlarm t = some a →
        (a.badge = badge → a.manDown = manDown →
          s.routeCell t cell = sets { a with repeats := min (a.repeats + 1) 255 }) ∧
        ((a.badge ≠ badge ∨ a.manDown ≠ manDown) → a.acked = false → s.routeCell t cell =
          (sets { a with badge := badge, manDown := manDown, raised := s.clock, acknowledged := 0 }).raise told) ∧
        ((a.badge ≠ badge ∨ a.manDown ≠ manDown) → a.acked = true → s.routeCell t cell =
          { sets { a with badge := badge, manDown := manDown, raised := s.clock, acknowledged := 0, acked := false
                          seen := .none } with
            lists := tableSet {} s.lists t { s.list t with
              cells := (s.list t).cells.filter fun e => decide (e.cell ≠ DownCell.alarmSeenTruck t) } }.raise told))))

/-- R99, R100, R114: the takes of WATCH START, WATCH STOP and WATCH CHECK. That WATCH CHECK keeps the stored deadline field is
the model's choice (log 30). -/
def Obligations.WatchCards : Prop :=
  (∀ (s s1 : State) (c : Fin 64) (w : Nat),
     let r := s1.card c
     1 ≤ r.num 8 → r.num 8 ≤ 65534 → s1.findWorker (r.num 8) = some w →
     (AtCard s c .watchStart s1 → (s1.watch w).state = .off → s1.reachable w = true → ∃ (u : State) (a : Answer),
       exec (.watchStart c) s = .next (answeredAs s u c a) ∧
       (u.watch w) = { s1.watch w with
         mode := .continuous, state := .watching, prompt := .none, lastCheckIn := s1.clock
         interval := max 60 (min 3600 (r.num 9)), grace := max 30 (min 600 (r.num 10))
         deadline := (u.watch w).deadline } ∧
       ((s1.worker w).membership = none →
         (u.watch w).deadline = min (s1.clock + max 60 (min 3600 (r.num 9))) 4294967295) ∧
       (∀ p, (s1.worker w).membership = some p → ((s1.permit p).state = .issued ∨ (s1.permit p).state = .suspended) →
         (u.watch w).deadline =
           min (s1.clock + min (max 60 (min 3600 (r.num 9))) (s1.permit p).interval) 4294967295) ∧
       (∀ i, i ≠ w → u.watch i = s1.watch i) ∧ u = { s1 with watches := u.watches } ∧
       (60 ≤ r.num 9 → r.num 9 ≤ 3600 → 30 ≤ r.num 10 → r.num 10 ≤ 600 → a.code = .done) ∧
       ((r.num 9 < 60 ∨ 3600 < r.num 9) → a.code = .doneClamped ∧ a.detail = 9)) ∧
     (AtCard s c .watchStop s1 → (s1.watch w).state = .watching → (s1.worker w).membership = none →
       exec (.watchStop c) s = .next (answeredAs s
         { s1 with watches := tableSet {} s1.watches w { s1.watch w with state := .off, mode := .off } } c
         (.ok [toWord w, 0, 0, 0]))) ∧
     (AtCard s c .watchStop s1 → (s1.watch w).state = .off →
       exec (.watchStop c) s = .next (answeredAs s s1 c (.ok [toWord w, 0, 0, 0]))) ∧
     (AtCard s c .watchCheck s1 → (s1.watch w).state = .off → s1.reachable w = true → r.num 9 ≤ 1 → ∃ (u : State) (a : Answer),
       exec (.watchCheck c) s = .next (answeredAs s u c a) ∧
       (u.watch w) = { s1.watch w with
         mode := if r.num 9 = 0 then .singleAll else .singleFail, grace := max 30 (min 600 (r.num 10))
         state := .prompted, prompt := .queued
         graceEnd := min (s1.clock + max 30 (min 600 (r.num 10))) 4294967295 } ∧
       (∀ i, i ≠ w → u.watch i = s1.watch i) ∧ u.quiet = false ∧ u.trucks = s1.trucks ∧ u.workers = s1.workers ∧
       (∀ i, (s1.worker w).aboard = some i → (u.list i).present (.prompt (s1.worker w).badge) = true) ∧
       (30 ≤ r.num 10 → r.num 10 ≤ 600 → a.code = .done))) ∧
  (∀ (s s1 : State) (c : Fin 64), let r := s1.card c
     (AtCard s c .watchStop s1 → (r.num 8 = 0 ∨ 65534 < r.num 8) →
       exec (.watchStop c) s = .next (answeredAs s s1 c (.badField 8))) ∧
     (AtCard s c .watchStop s1 → 1 ≤ r.num 8 → r.num 8 ≤ 65534 → s1.findWorker (r.num 8) = none →
       exec (.watchStop c) s = .next (answeredAs s s1 c (.noSuch 8))) ∧
     (∀ w, AtCard s c .watchStop s1 → 1 ≤ r.num 8 → r.num 8 ≤ 65534 → s1.findWorker (r.num 8) = some w →
       ((s1.watch w).state = .prompted →
         exec (.watchStop c) s = .next (answeredAs s s1 c (.wrongState .promptOpen))) ∧
       (((s1.watch w).state = .alarm ∨ (s1.watch w).state = .acknowledged) →
         exec (.watchStop c) s = .next (answeredAs s s1 c (.wrongState .alarmOpen))) ∧
       ((s1.watch w).state = .watching → (s1.worker w).membership ≠ none →
         exec (.watchStop c) s = .next (answeredAs s s1 c (.wrongState .onPermit)))))

/-- R110 to R113: the takes of ALARM ACK and ALARM RESOLVE, for a worker and for a truck; ALARM RESOLVE for a truck without an
alarm. A resolve withdraws the worker's ALARM SEEN from the list of the truck it is aboard, and touches no other cell. -/
def Obligations.AlarmCards : Prop :=
  (∀ (s s1 : State) (c : Fin 64),
     let r := s1.card c
     (∀ w b, AtCard s c .alarmAck s1 → s1.alarmTarget r = .worker w → (s1.watch w).state = .alarm →
       (s1.watch w).alarm = some b → (s1.worker w).aboard = none →
       exec (.alarmAck c) s = .next (answeredAs s
         { s1 with
           watches := tableSet {} s1.watches w
             { s1.watch w with state := .acknowledged, alarm := some { b with acknowledged := s1.clock } } } c
         (.ok [toWord w, 4, 1]))) ∧
     (∀ w b i, AtCard s c .alarmAck s1 → s1.alarmTarget r = .worker w → (s1.watch w).state = .alarm →
       (s1.watch w).alarm = some b → (s1.worker w).aboard = some i → ∃ u : State,
       exec (.alarmAck c) s = .next (answeredAs s u c (.ok [toWord w, 4, 0])) ∧
       (u.watch w) = { s1.watch w with
         state := .acknowledged, alarm := some { b with acknowledged := s1.clock, seen := .queued } } ∧
       (u.list i).present (.alarmSeenWorker (s1.worker w).badge) = true ∧
       (∀ j, j ≠ i → u.list j = s1.list j) ∧ (∀ j, j ≠ w → u.watch j = s1.watch j) ∧
       u = { s1 with watches := u.watches, lists := u.lists, ageCounter := u.ageCounter }) ∧
     (∀ t b, AtCard s c .alarmAck s1 → s1.alarmTarget r = .truck t → s1.truckAlarm t = some b → b.acked = false → ∃ u : State,
       exec (.alarmAck c) s = .next (answeredAs s u c (.ok [toWord t, 1])) ∧
       u.truckAlarm t = some { b with acked := true, acknowledged := s1.clock, seen := .queued } ∧
       (u.list t).present (.alarmSeenTruck t) = true ∧
       (∀ j, j ≠ t → u.list j = s1.list j ∧ u.truckAlarm j = s1.truckAlarm j) ∧
       u = { s1 with truckAlarms := u.truckAlarms, lists := u.lists, ageCounter := u.ageCounter }) ∧
     (∀ w, AtCard s c .alarmResolve s1 → s1.alarmTarget r = .worker w →
       ((s1.watch w).state = .alarm ∨ (s1.watch w).state = .acknowledged) → ∃ (u : State) (a : Answer),
       exec (.alarmResolve c) s = .next (answeredAs s u c a) ∧
       ((s1.watch w).mode = .continuous → u.watch w = { s1.watch w with
           alarm := none, state := .watching, lastCheckIn := s1.clock
           deadline := satAdd s1.clock (s1.effectiveInterval w) } ∧
         a = .ok ([toWord w, 1] ++ dwordWords (satAdd s1.clock (s1.effectiveInterval w)))) ∧
       ((s1.watch w).mode ≠ .continuous →
         u.watch w = { s1.watch w with alarm := none, state := .off, mode := .off } ∧ a = .ok [toWord w, 0, 0, 0]) ∧
       (∀ i, (s1.worker w).aboard = some i → (u.list i).waiting = (s1.list i).waiting ∧
         (u.list i).cells = (s1.list i).cells.filter fun e => decide (e.cell ≠ .alarmSeenWorker (s1.worker w).badge)) ∧
       (∀ i, (s1.worker w).aboard ≠ some i → u.list i = s1.list i) ∧
       (∀ j, j ≠ w → u.watch j = s1.watch j) ∧ u = { s1 with watches := u.watches, lists := u.lists }) ∧
     (∀ t b, AtCard s c .alarmResolve s1 → s1.alarmTarget r = .truck t → s1.truckAlarm t = some b → ∃ u : State,
       exec (.alarmResolve c) s = .next (answeredAs s u c (.ok [toWord t, 0xFFFF])) ∧ u.truckAlarm t = none ∧
       (u.list t).cells = (s1.list t).cells.filter (fun e => decide (e.cell ≠ .alarmSeenTruck t)) ∧
       (∀ j, j ≠ t → u.list j = s1.list j ∧ u.truckAlarm j = s1.truckAlarm j) ∧
       u = { s1 with truckAlarms := u.truckAlarms, lists := u.lists })) ∧
  (∀ (s s1 : State) (c : Fin 64), let r := s1.card c
     (∀ t, AtCard s c .alarmResolve s1 → s1.alarmTarget r = .truck t → s1.truckAlarm t = none →
       exec (.alarmResolve c) s = .next (answeredAs s s1 c (.wrongState .notReady))))


/-! ### The part's internal events (R33, R75, R85, R147, R153, R156) -/

/-- R72, R74, R75, R77 to R79: an ORDER POST copy that completes: the record filled, the pages taken off the free list and
holding the text, the card answered DONE with index, pages and cells. The order enters its truck's queue (which stands in its
order, R77) after every order of equal or higher priority, behind a SENDING or STALLED head; an EMERGENCY order preempts a
SENDING or STALLED head of lower priority: it is first, and the head, QUEUED with attempt count 0, goes back to its place by
priority and queue sequence. -/
def Obligations.OrderCopyCompletes : Prop :=
  ∀ (s : State) (c : Fin 64) (k : Copy) (j : OrderJob),
    s.copies.find? (fun x => decide (x.card = c.val)) = some k → k.job = .order j →
    ∃ t u : State, exec (.orderPostCopyComplete c) s = .next t ∧
      t = publish s (u.answerCard c (.ok [toWord j.record, toWord j.pages.length, toWord (1 + (j.length + 7) / 8)])) ∧
      u.copies = s.copies.filter (fun x => decide (x.card ≠ c.val)) ∧ u.orderSeq = s.orderSeq + 1 ∧
      u.freePages = s.freePages.filter (fun p => !j.pages.contains p) ∧ u.mem = s.mem ∧
      (s.queue j.truck = [] → u.queue j.truck = [j.record] ∧
        u.order j.record = {
          inUse := true, number := j.number, truck := j.truck, priority := j.priority, link := j.link
          length := j.length, pages := j.pages, cells := List.replicate (1 + (j.length + 7) / 8) {}, state := .queued
          seq := s.orderSeq, timePosted := s.clock, timeStatus := s.clock } ∧
        ∀ i, i ≠ j.record → u.order i = s.order i) ∧
      (∀ i, i ≠ j.truck → u.queue i = s.queue i) ∧
      (u.queue j.truck).Perm (j.record :: s.queue j.truck) ∧
      (∀ head rest, s.queue j.truck = head :: rest → j.record ∉ s.queue j.truck →
        let first := s.order head
        let higher (i : Nat) : Bool := decide (j.priority.code ≤ (s.order i).priority.code)
        let earlier (i : Nat) : Bool := decide (first.priority.code < (s.order i).priority.code) ||
          (decide ((s.order i).priority = first.priority) && older (s.orderSeq + 1) (s.order i).seq first.seq)
        let inOrder (ahead : Nat → Bool) (q : List Nat) : Prop := q.Pairwise fun a b => ahead b = true → ahead a = true
        let placed (ahead : Nat → Bool) (i : Nat) (q : List Nat) : List Nat :=
          q.filter ahead ++ i :: q.filter fun n => !ahead n
        let stays := first.state = .sending ∨ first.state = .stalled
        let preempts := stays ∧ j.priority = .emergency ∧ first.priority ≠ .emergency
        u.order j.record = {
          inUse := true, number := j.number, truck := j.truck, priority := j.priority, link := j.link
          length := j.length, pages := j.pages, cells := List.replicate (1 + (j.length + 7) / 8) {}, state := .queued
          seq := s.orderSeq, timePosted := s.clock, timeStatus := s.clock } ∧
        (∀ i, i ≠ j.record → i ≠ head → u.order i = s.order i) ∧ (¬ preempts → u.order head = first) ∧
        (¬ stays → inOrder higher (head :: rest) → u.queue j.truck = placed higher j.record (head :: rest)) ∧
        (stays → ¬ preempts → inOrder higher rest → u.queue j.truck = head :: placed higher j.record rest) ∧
        (preempts → inOrder earlier rest → u.queue j.truck = j.record :: placed earlier head rest ∧
          u.order head = { first with state := .queued, attempts := 0 })) ∧
      (j.pages.Nodup → j.pages.length = (j.length + 63) / 64 → (s.copyWords k).length = (j.length + 1) / 2 →
        ∀ b < j.length, memByte u.pool (64 * j.pages.getD (b / 64) 0 + b % 64) =
          if b % 2 = 0 then lowByte ((s.copyWords k).getD (b / 2) 0) else highByte ((s.copyWords k).getD (b / 2) 0)) ∧
      u = { s with orders := u.orders, pool := u.pool, freePages := u.freePages, orderSeq := u.orderSeq,
                   queues := u.queues, copies := u.copies }

/-- R153, R162: a PROGRAM LOAD copy that completes: refused with the step number, the record left EMPTY, if a step fails its
check; filled and LOADED otherwise (`loadedAt`, the model's own, is the age counter: log 26). -/
def Obligations.ProgramCopyCompletes : Prop :=
  ∀ (s : State) (c : Fin 64) (k : Copy) (j : ProgramJob),
    s.copies.find? (fun x => decide (x.card = c.val)) = some k → k.job = .program j →
    let steps := (List.range j.count).map (rawStep (s.copyWords k))
    let u := { s with copies := s.copies.filter fun x => decide (x.card ≠ c.val) }
    (∀ i x, (∀ m, m < i → ∀ y, steps[m]? = some y → y.badField = false) → steps[i]? = some x → x.badField = true →
      exec (.programLoadCopyComplete c) s = .next (publish s (u.answerCard c (.badField (i + 1))))) ∧
    (∀ i x, (∀ y ∈ steps, y.badField = false) → (∀ m, m < i → ∀ y, steps[m]? = some y → y.badCombination = false) →
      steps[i]? = some x → x.badCombination = true →
      exec (.programLoadCopyComplete c) s = .next (publish s (u.answerCard c (.badCombination (i + 1))))) ∧
    (∀ i x, (∀ y ∈ steps, y.badField = false ∧ y.badCombination = false) →
      (∀ m, m < i → ∀ y, steps[m]? = some y → s.missing y = false) → steps[i]? = some x → s.missing x = true →
      exec (.programLoadCopyComplete c) s = .next (publish s (u.answerCard c (.noSuch (i + 1))))) ∧
    ((∀ y ∈ steps, y.badField = false ∧ y.badCombination = false ∧ s.missing y = false) →
      ∃ v : State, exec (.programLoadCopyComplete c) s = .next (publish s (v.answerCard c (.ok [toWord j.record]))) ∧
      v.program j.record = {
        number := j.number, mode := j.mode, state := .loaded, next := 1, halt := .none
        steps := steps.map u.loadStep, loadedAt := s.ageCounter } ∧
      (∀ i, i ≠ j.record → v.program i = s.program i) ∧ v = { u with programs := v.programs })

/-- R33, R138, R156: the room of a truck's list is offered to its waiting groups in first-come order: nothing happens while
none waits or the head group does not fit; a head group that fits is added and the next is offered what is left; issue cells
of an issue group become QUEUED; for the STEP group of a step the checks are run, and it is released, refused or loses its
wait, and the next group is offered the room. (That a head STEP group for which there is no room has no check run: DEDUCED,
log 12; that the command changes nothing while none waits: DESIGN CHOICE, log 3.) -/
def Obligations.WaitingGroupsTakeTurns : Prop :=
  ∀ (s : State) (t : Fin 96),
    ((s.list t).waiting = [] → exec (.waitingGroupOffer t) s = .next s) ∧
    (∀ g rest, (s.list t).waiting = g :: rest → 7 < (s.list t).countB + g.length →
      exec (.waitingGroupOffer t) s = .next s) ∧
    (∀ n b res rest, (s.list t).waiting = [.signReply n b res] :: rest → (s.list t).countB ≤ 6 →
      (rest = [] ∨ 6 ≤ (s.list t).countB) → (∀ g ∈ rest, 1 ≤ g.length) → ∃ v : State,
      exec (.waitingGroupOffer t) s = .next (publish s v) ∧ v.list t = {
        cells := insertEntry s.ageCounter { cell := .signReply n b res, age := s.ageCounter } (s.list t).cells
        waiting := rest } ∧
      (∀ i, i ≠ t.val → v.list i = s.list i) ∧ v = { s with lists := v.lists, ageCounter := s.ageCounter + 1 }) ∧
    (∀ n b res n' b' res', (s.list t).waiting = [[.signReply n b res], [.signReply n' b' res']] →
      (s.list t).countB ≤ 5 → ∃ v : State,
      exec (.waitingGroupOffer t) s = .next (publish s v) ∧ v.list t = {
        cells := insertEntry (s.ageCounter + 1) { cell := .signReply n' b' res', age := s.ageCounter + 1 }
          (insertEntry s.ageCounter { cell := .signReply n b res, age := s.ageCounter } (s.list t).cells)
        waiting := [] } ∧
      (∀ i, i ≠ t.val → v.list i = s.list i) ∧ v = { s with lists := v.lists, ageCounter := s.ageCounter + 1 + 1 }) ∧
    (∀ number badge n check rest, (s.list t).waiting = [.permitIssue number badge n check :: rest] →
      (∀ c ∈ rest, c.isA = false) → (s.list t).countB + 1 + rest.length ≤ 7 → ∃ v : State,
      exec (.waitingGroupOffer t) s = .next (publish s v) ∧ (v.list t).waiting = [] ∧
      (v.list t).countB = (s.list t).countB + 1 + rest.length ∧ (v.list t).present (.permitIssue number badge n check) = true ∧
      (∀ c ∈ rest, (v.list t).present c = true) ∧ (∀ e ∈ (s.list t).cells, e ∈ (v.list t).cells) ∧
      (∀ i, i ≠ t.val → v.list i = s.list i) ∧
      (∀ p, s.findPermit number = some p → (s.permit p).issueCells = .waiting →
        v.permit p = { s.permit p with issueCells := .queued }) ∧
      (∀ p, s.findPermit number ≠ some p → v.permit p = s.permit p) ∧
      v = { s with lists := v.lists, ageCounter := v.ageCounter, permits := v.permits }) ∧
    (∀ number k device action permit g st, s.findProgram number = some g → (s.program g).step k = some st →
      st.truck = t.val → (s.list t).countB ≤ 6 →
      let x := s.program g
      let cell : DownCell := .step number k device action permit
      let s1 := { s with lists := tableSet {} s.lists t { s.list t with waiting := [] } }
      let waits (p : Pending) : State := { s1 with programs := tableSet {} s.programs g { x with
        steps := x.steps.modify (k - 1) fun y => { y with pending := p } } }
      ((s.list t).waiting = [[cell]] →
        (s.releaseVerdict g k st = .pass →
          exec (.waitingGroupOffer t) s = .next (publish s (s1.releaseStep g k st))) ∧
        (s.releaseVerdict g k st = .notRunning → exec (.waitingGroupOffer t) s = .next (publish s (waits .none))) ∧
        (s.releaseVerdict g k st = .noTruck → exec (.waitingGroupOffer t) s = .next (publish s (waits .truck))) ∧
        (∀ why, s.releaseVerdict g k st = .fail why → ∃ u : State,
          exec (.waitingGroupOffer t) s = .next (publish s u) ∧
          (u.program g).step k = some { st with state := .refused, refusal := why, pending := .none } ∧
          (u.program g).state = .halted ∧ (u.program g).halt = why.toHalt ∧ u.devices = s.devices ∧
          u.permits = s.permits ∧ u.trucks = s.trucks ∧ (∀ i, i ≠ g → u.program i = s.program i)) ∧
        (s.releaseVerdict g k st = .outOfOrder → ∃ u : State,
          exec (.waitingGroupOffer t) s = .next (publish s u) ∧
          (u.program g).step k = some { st with refusal := .outOfOrder, pending := .none } ∧
          (u.program g).state = (if x.hasOutstanding then .halting else .halted) ∧ (u.program g).halt = .outOfOrder ∧
          u.devices = s.devices ∧ u.permits = s.permits ∧ u.trucks = s.trucks ∧
          (∀ i, i ≠ g → u.program i = s.program i))) ∧
      (∀ n b res, (s.list t).waiting = [[cell], [.signReply n b res]] → s.releaseVerdict g k st = .notRunning → ∃ v : State,
        exec (.waitingGroupOffer t) s = .next (publish s v) ∧ v.list t = {
          cells := insertEntry s.ageCounter { cell := .signReply n b res, age := s.ageCounter } (s.list t).cells
          waiting := [] } ∧
        (∀ i, i ≠ t.val → v.list i = s.list i) ∧
        v = { waits .none with lists := v.lists, ageCounter := s.ageCounter + 1 }))

/-- R156: a truck has come ON AIR or is unparked: a step that waits for it, of a RUNNING program, is attempted again; one of a
program no longer RUNNING loses its detail; nothing happens for a truck that is VACANT or PARKED (the last is the model's, log
3). R85: a STALLED head order returns to SENDING, its attempt count 0, with ORDER STALLED reason RESUMED, unless the truck is
graded LOST. (That ORDER_STALL_RESUME changes nothing with an empty queue or a head order that is not STALLED: log 3, too.) -/
def Obligations.WaitsEnd : Prop :=
  (∀ (s : State) (t : Fin 96),
     (((s.truck t).state = .vacant ∨ (s.truck t).state = .parked) → exec (.stepWaitTruckEnd t) s = .next s) ∧
     ((s.truck t).state ≠ .vacant → (s.truck t).state ≠ .parked →
       (∀ g < 16, ∀ st ∈ (s.program g).steps, st.pending ≠ .truck ∨ st.truck ≠ t.val) →
       exec (.stepWaitTruckEnd t) s = .next s) ∧
     (∀ (g : Nat) (st : Step), (s.truck t).state ≠ .vacant → (s.truck t).state ≠ .parked → g < 16 →
       (s.program g).state = .halted → (s.program g).steps = [st] → st.state = .pending → st.pending = .truck →
       st.truck = t.val →
       (∀ i < 16, i ≠ g → ∀ x ∈ (s.program i).steps, x.pending ≠ .truck ∨ x.truck ≠ t.val) →
       exec (.stepWaitTruckEnd t) s = .next (publish s { s with
         programs := tableSet {} s.programs g { s.program g with steps := [{ st with pending := .none }] } })) ∧
     (∀ (g : Nat) (st : Step), (s.truck t).state = .onAir → g < 16 → (s.program g).state = .running →
       (s.program g).next = 1 → (s.program g).steps = [st] → st.state = .pending → st.pending = .truck →
       st.truck = t.val → (s.device st.device).outstanding = none → s.interlock st = none →
       st.guard.holds (s.device st.ref) = true → s.groupWaits t [s.stepCell g 1 st] = false →
       (∀ i < 16, i ≠ g → ∀ x ∈ (s.program i).steps, x.pending ≠ .truck ∨ x.truck ≠ t.val) →
       exec (.stepWaitTruckEnd t) s = .next (publish s (s.releaseStep g 1 st)))) ∧
  (∀ (s : State) (t : Fin 96) (i : Nat) (rest : List Nat),
     (s.queue t = [] → exec (.orderStallResume t) s = .next s) ∧
     (s.queue t = i :: rest → ((s.order i).state ≠ .stalled ∨ (s.link t).grade = .lost) →
       exec (.orderStallResume t) s = .next s) ∧
     (s.queue t = i :: rest → (s.order i).state = .stalled → (s.link t).grade ≠ .lost →
       exec (.orderStallResume t) s = .next (publish s
         ({ s with orders := tableSet {} s.orders i { s.order i with state := .sending, attempts := 0 } }.raise
           { kind := .orderStalled, reason := 2, truck := (s.order i).truck, item := (s.order i).number,
             value := ((s.order i).cells.countP (fun m : CellMark => m.delivered) : Nat) }))))

/-- R147: a permit in SURRENDERED or CANCELLED with no tag held and no TAG step outstanding becomes CLOSED, with its times and
PERMIT CLOSED. A permit close that is not due, for any other permit, changes nothing (the model's choice, log 3). -/
def Obligations.PermitCloses : Prop :=
  ∀ (s : State) (p : Fin 32),
    (((s.permit p).state = .surrendered ∨ (s.permit p).state = .cancelled) → (s.permit p).tagsHeld = 0 →
      (s.permit p).tagSteps = 0 →
      exec (.permitClose p) s = .next (publish s
        ({ s with
           permits := tableSet {} s.permits p
             { s.permit p with state := .closed, timeClosed := s.clock, timeChanged := s.clock } }.raise
          { kind := .permitClosed, permit := p, permitNumber := (s.permit p).number }))) ∧
    ((((s.permit p).state ≠ .surrendered ∧ (s.permit p).state ≠ .cancelled) ∨ 0 < (s.permit p).tagsHeld ∨
        0 < (s.permit p).tagSteps) → exec (.permitClose p) s = .next s)


/-! ### Cards of the Registry and the Channel Controller (R6 to R15, R20, R40, R64) -/

/-- R6, R7, R138: TRUCK ADD fills the lowest-numbered VACANT entry, with the starting values of every block; TRUCK REMOVE of a
truck with no crew aboard, no open order, no step of a program that runs and no alarm makes the entry VACANT and discards its
cells, and every permit ISSUING to it, whatever its issue cells, is READY again. -/
def Obligations.TruckAddedAndRemoved : Prop :=
  (∀ (s s1 : State) (c : Fin 64) (t : Nat), AtCard s c .truckAdd s1 →
     let r := s1.card c
     1 ≤ r.radio 8 → r.radio 8 ≤ 16777214 → callSignFault r = none → r.num 14 ≤ 1 →
     (∀ i, (s1.truck i).state ≠ .vacant → (s1.truck i).radioId ≠ r.radio 8) →
     t < 96 → (s1.truck t).state = .vacant → (∀ i < t, (s1.truck i).state ≠ .vacant) → s1.Canonical →
     ∃ u : State, exec (.truckAdd c) s = .next (answeredAs s u c (.ok [toWord t, 1])) ∧
       u.truck t = { radioId := r.radio 8, callSign := callSign r, state := .registered,
                     linkNotice := decide (r.num 14 = 1) } ∧
       u.link t = {} ∧ u.counter t = { sinceUp := 0, probe := s1.settings.probePeriod } ∧ u.list t = {} ∧
       u.queue t = [] ∧ u.truckAlarm t = none ∧
       u.strayId = (if s1.strayId = r.radio 8 then 0 else s1.strayId) ∧
       (∀ i, i ≠ t → u.truck i = s1.truck i ∧ u.link i = s1.link i ∧ u.counter i = s1.counter i ∧ u.list i = s1.list i ∧
         u.queue i = s1.queue i ∧ u.truckAlarm i = s1.truckAlarm i) ∧
       u = { s1 with trucks := u.trucks, links := u.links, counters := u.counters, lists := u.lists,
                     queues := u.queues, truckAlarms := u.truckAlarms, strayId := u.strayId }) ∧
  (∀ (s s1 : State) (c : Fin 64) (t : Nat), AtCard s c .truckRemove s1 →
     let r := s1.card c
     1 ≤ r.radio 8 → r.radio 8 ≤ 16777214 → s1.findTruck (r.radio 8) = some t →
     (s1.truck t).crew = [] → s1.openOrders t = false → s1.truckInProgram t = false → s1.truckAlarm t = none →
     ∃ u : State, exec (.truckRemove c) s = .next (answeredAs s u c (.ok [toWord t, 0])) ∧
       u.truck t = {} ∧ u.link t = {} ∧ u.counter t = {} ∧ u.list t = {} ∧ u.queue t = [] ∧
       (∀ i, i ≠ t → u.truck i = s1.truck i ∧ u.link i = s1.link i ∧ u.counter i = s1.counter i ∧ u.list i = s1.list i ∧
         u.queue i = s1.queue i) ∧
       u.workers = s1.workers ∧ u.watches = s1.watches ∧ u.devices = s1.devices ∧ u.orders = s1.orders ∧
       u.truckAlarms = s1.truckAlarms ∧
       (∀ p < 32, (s1.permit p).state = .issuing → (s1.permit p).issueTruck = t → u.permit p = { s1.permit p with
         state := .ready, timeChanged := s1.clock, issueCells := .none, issueDelivered := 0, wrongReadbacks := 0 }) ∧
       (∀ p, ((s1.permit p).state ≠ .issuing ∨ (s1.permit p).issueTruck ≠ t) → u.permit p = s1.permit p))

/-- R8, R9: TRUCK PARK and TRUCK UNPARK: the state before park kept and restored, the silent count 0 at the unpark, a repeated
card answered DONE without change. -/
def Obligations.TruckParkedAndUnparked : Prop :=
  ∀ (s s1 : State) (c : Fin 64) (t : Nat),
    let r := s1.card c
    1 ≤ r.radio 8 → r.radio 8 ≤ 16777214 → s1.findTruck (r.radio 8) = some t →
    (AtCard s c .truckPark s1 → (s1.truck t).state ≠ .parked → (∀ w ∈ (s1.truck t).crew, (s1.watch w).state = .off) →
      exec (.truckPark c) s = .next (answeredAs s
        { s1 with
          trucks := tableSet {} s1.trucks t
            { s1.truck t with state := .parked, stateBefore := (s1.truck t).state } } c (.ok [toWord t, 4]))) ∧
    (AtCard s c .truckPark s1 → (s1.truck t).state = .parked →
      exec (.truckPark c) s = .next (answeredAs s s1 c (.ok [toWord t, 4]))) ∧
    (AtCard s c .truckPark s1 → (s1.truck t).state ≠ .parked →
      (∃ w ∈ (s1.truck t).crew, (s1.watch w).state ≠ .off) →
      exec (.truckPark c) s = .next (answeredAs s s1 c (.wrongState .watched))) ∧
    (AtCard s c .truckUnpark s1 → (s1.truck t).state ≠ .parked →
      exec (.truckUnpark c) s = .next (answeredAs s s1 c (.ok [toWord t, toWord (s1.truck t).state.code]))) ∧
    (AtCard s c .truckUnpark s1 → (s1.truck t).state = .parked →
      (∀ g < 16, ∀ st ∈ (s1.program g).steps, st.pending ≠ .truck ∨ st.truck ≠ t) →
      exec (.truckUnpark c) s = .next (answeredAs s
        { s1 with trucks := tableSet {} s1.trucks t { s1.truck t with state := (s1.truck t).stateBefore },
                  links := tableSet {} s1.links t { s1.link t with silent := 0 } } c
        (.ok [toWord t, toWord (s1.truck t).stateBefore.code])))

/-- R10 to R14: WORKER ADD, WORKER REMOVE, ALIGHT and BOARD. A worker who boards leaves its old crew list, joins the end of
the new one, and takes its PROMPT and ALARM SEEN along, each put at its place by class and age with its marks kept. -/
def Obligations.RosterCards : Prop :=
  ((∀ (s s1 : State) (c : Fin 64) (w : Nat),
      let r := s1.card c
      1 ≤ r.num 8 → r.num 8 ≤ 65534 →
      (AtCard s c .workerAdd s1 → s1.findWorker (r.num 8) = none → w < 192 → (s1.worker w).inUse = false →
        (∀ i < w, (s1.worker i).inUse = true) →
        exec (.workerAdd c) s = .next (answeredAs s
          { s1 with workers := tableSet {} s1.workers w { inUse := true, badge := r.num 8 },
                    watches := tableSet {} s1.watches w {} } c (.ok [toWord w, 0xFFFF]))) ∧
      (AtCard s c .workerRemove s1 → s1.findWorker (r.num 8) = some w → (s1.watch w).state = .off →
        (s1.worker w).membership = none →
        (∀ e ∈ s1.permits, e.2.inUse = true → e.2.holder = w → e.2.state = .closed) → ∃ u : State,
        exec (.workerRemove c) s = .next (answeredAs s u c (.ok [toWord w, 0xFFFF])) ∧
        u.worker w = {} ∧ u.watch w = {} ∧ (∀ i, i ≠ w → u.worker i = s1.worker i ∧ u.watch i = s1.watch i) ∧
        (∀ t, (s1.worker w).aboard = some t →
          u.truck t = { s1.truck t with crew := (s1.truck t).crew.filter fun m => decide (m ≠ w) }) ∧
        (∀ t, (s1.worker w).aboard ≠ some t → u.truck t = s1.truck t) ∧
        u = { s1 with workers := u.workers, watches := u.watches, trucks := u.trucks }) ∧
      (AtCard s c .alight s1 → s1.findWorker (r.num 8) = some w → (s1.worker w).aboard = none →
        exec (.alight c) s = .next (answeredAs s s1 c (.ok [toWord w, 0xFFFF]))) ∧
      (∀ t, AtCard s c .alight s1 → s1.findWorker (r.num 8) = some w → (s1.worker w).aboard = some t →
        (s1.watch w).state ≠ .off → exec (.alight c) s = .next (answeredAs s s1 c (.wrongState .watched))) ∧
      (∀ t, AtCard s c .alight s1 → s1.findWorker (r.num 8) = some w → (s1.worker w).aboard = some t →
        (s1.watch w).state = .off → exec (.alight c) s = .next (answeredAs s
          { s1 with workers := tableSet {} s1.workers w { s1.worker w with aboard := none },
                    trucks := tableSet {} s1.trucks t
                      { s1.truck t with crew := (s1.truck t).crew.filter fun m => decide (m ≠ w) } } c
          (.ok [toWord w, 0xFFFF])))) ∧
   (∀ (s s1 : State) (c : Fin 64) (w t : Nat), AtCard s c .board s1 →
      let r := s1.card c
      1 ≤ r.num 8 → r.num 8 ≤ 65534 → 1 ≤ r.radio 9 → r.radio 9 ≤ 16777214 → s1.findWorker (r.num 8) = some w →
      s1.findTruck (r.radio 9) = some t →
      ((s1.worker w).aboard = some t → exec (.board c) s = .next (answeredAs s s1 c (.ok [toWord w, toWord t]))) ∧
      ((s1.worker w).aboard ≠ some t → 4 ≤ (s1.truck t).crew.length →
        exec (.board c) s = .next (answeredAs s s1 c .noRoom)) ∧
      ((s1.worker w).aboard ≠ some t → (s1.truck t).crew.length < 4 →
        ((s1.truck t).state ≠ .parked ∨ (s1.watch w).state = .off) → ∃ u : State,
        exec (.board c) s = .next (answeredAs s u c (.ok [toWord w, toWord t])) ∧
        u.worker w = { s1.worker w with aboard := some t } ∧ (∀ i, i ≠ w → u.worker i = s1.worker i) ∧
        u.truck t = { s1.truck t with crew := (s1.truck t).crew ++ [w] } ∧
        (∀ i, (s1.worker w).aboard = some i →
          let moved := (s1.list i).cells.filter fun e => isWorkerCell (s1.worker w).badge e.cell
          u.truck i = { s1.truck i with crew := (s1.truck i).crew.filter fun m => decide (m ≠ w) } ∧
          (u.list i).cells = (s1.list i).cells.filter (fun e => !isWorkerCell (s1.worker w).badge e.cell) ∧
          (u.list i).waiting = (s1.list i).waiting ∧
          (u.list t).cells = moved.foldl (fun l e => insertEntry s1.ageCounter e l) (s1.list t).cells) ∧
        ((s1.worker w).aboard = none → u.lists = s1.lists) ∧ (u.list t).waiting = (s1.list t).waiting ∧
        (∀ i, i ≠ t → (s1.worker w).aboard ≠ some i → u.truck i = s1.truck i ∧ u.list i = s1.list i) ∧
        u.watches = s1.watches ∧ u = { s1 with workers := u.workers, trucks := u.trucks, lists := u.lists }))) ∧
  (∀ (s s1 : State) (c : Fin 64), let r := s1.card c
     (AtCard s c .alight s1 → (r.num 8 = 0 ∨ 65534 < r.num 8) →
       exec (.alight c) s = .next (answeredAs s s1 c (.badField 8))) ∧
     (AtCard s c .alight s1 → 1 ≤ r.num 8 → r.num 8 ≤ 65534 → s1.findWorker (r.num 8) = none →
       exec (.alight c) s = .next (answeredAs s s1 c (.noSuch 8))))

/-- R15, R20, R40, R53, R64, R175: FLAGS CLEAR, and SITE SET with AUTHORITY set and thresholds in order after the card: each
setting whose given bit is set takes the card's value, the last three clamped; DONE, or DONE CLAMPED with the offset of the
first value that is given and out of its range; the site block republished whether it changes or not. -/
def Obligations.SiteCards : Prop :=
  ∀ (s s1 : State) (c : Fin 64),
    let r := s1.card c
    (AtCard s c .flagsClear s1 → r.radio 8 = 0 → exec (.flagsClear c) s = .next (answeredAs s
      { s1 with siteClipped := false, strayId := 0, strayTime := 0 } c .ok)) ∧
    (AtCard s c .flagsClear s1 → r.radio 8 = 16777215 → s1.Canonical → ∃ u : State,
      exec (.flagsClear c) s = .next (answeredAs s u c .ok) ∧
      (∀ t, u.link t = { s1.link t with clipped := false }) ∧
      u = { s1 with siteClipped := false, strayId := 0, strayTime := 0, links := u.links }) ∧
    (∀ t, AtCard s c .flagsClear s1 → 1 ≤ r.radio 8 → r.radio 8 ≤ 16777214 → s1.findTruck (r.radio 8) = some t →
      exec (.flagsClear c) s = .next (answeredAs s
        { s1 with links := tableSet {} s1.links t { s1.link t with clipped := false } } c
        (.ok [toWord t, toWord (s1.truck t).state.code]))) ∧
    (AtCard s c .siteSet s1 → s1.authority = true → r.num 8 ≤ 255 →
      let given (i : Nat) : Bool := (r 8).getLsbD i
      let set (i value kept : Nat) : Nat := if given i then value else kept
      let out (i lo hi value : Nat) : Bool := given i && (decide (value < lo) || decide (hi < value))
      let old := s1.settings
      let st : Settings := {
        weakDown := set 1 (r.num 10) old.weakDown, weakUp := set 2 (r.num 11) old.weakUp
        fairDown := set 3 (r.num 12) old.fairDown, fairUp := set 4 (r.num 13) old.fairUp
        lostCount := set 5 (max 3 (min 20 (r.num 14))) old.lostCount
        pollPeriod := set 6 (max 2 (min 30 (r.num 15))) old.pollPeriod
        probePeriod := set 7 (max 4 (min 30 (r.num 16))) old.probePeriod }
      let a : Answer := if out 5 3 20 (r.num 14) then ⟨.doneClamped, 14, []⟩
        else if out 6 2 30 (r.num 15) then ⟨.doneClamped, 15, []⟩
        else if out 7 4 30 (r.num 16) then ⟨.doneClamped, 16, []⟩ else .ok
      let t := answeredAs s { s1 with settings := st, siteCode := set 0 (r.num 9) s1.siteCode } c a [siteBase]
      0 < st.weakDown → st.weakDown < st.weakUp → st.weakUp ≤ st.fairDown → st.fairDown < st.fairUp →
      st.fairUp ≤ 500 → exec (.siteSet c) s = .next t ∧
        (s1.published = true → t.edition siteBase = s1.edition siteBase + 2))


/-! ### Cards of the Order Unit (R73, R74, R91, R93) -/

/-- R73, R74, R152: ORDER POST and PROGRAM LOAD that pass their checks: the card TAKEN, a staging copy of the length the card
gives started, the lowest free record and (for an order) the first unreserved pages reserved; nothing else changes. -/
def Obligations.CopiesStart : Prop :=
  (∀ (s s1 : State) (c : Fin 64) (t i : Nat) (pr : Priority) (link : Option PermitLink), AtCard s c .orderPost s1 →
     let r := s1.card c
     1 ≤ r.num 8 → r.num 8 ≤ 65534 → 1 ≤ r.radio 9 → r.radio 9 ≤ 16777214 → Priority.ofCode (r.num 11) = some pr →
     r.num 12 ≤ 7 → 1 ≤ r.num 13 → r.num 13 ≤ 1024 → r.num 14 ≠ 65535 → s1.findTruck (r.radio 9) = some t →
     ((r.num 14 = 0 ∧ link = none) ∨ ∃ p, r.num 14 ≠ 0 ∧ s1.findPermit (r.num 14) = some p ∧ link = some ⟨p, r.num 14⟩ ∧
       (s1.permit p).state ≠ .closed ∧ (s1.permit p).state ≠ .cancelled) →
     s1.findOrder (r.num 8) = none → (∀ j ∈ s1.orderJobs, j.number ≠ r.num 8) →
     i < 256 → (s1.order i).inUse = false → (∀ j ∈ s1.orderJobs, j.record ≠ i) →
     (∀ m < i, (s1.order m).inUse = true ∨ ∃ j ∈ s1.orderJobs, j.record = m) →
     (r.num 13 + 63) / 64 ≤ s1.openPages.length →
     (s1.queue t).length + s1.orderJobs.countP (fun j => decide (j.truck = t)) < 8 →
     exec (.orderPost c) s = .next (takenAs s
       { s1 with copies := s1.copies ++ [{
           card := c, buffer := r.num 12, total := (r.num 13 + 1) / 2
           job := .order { record := i, number := r.num 8, truck := t, priority := pr, link, length := r.num 13
                           pages := s1.openPages.take ((r.num 13 + 63) / 64) } }] } c)) ∧
  (∀ (s s1 : State) (c : Fin 64) (g : Nat) (m : ProgramMode), AtCard s c .programLoad s1 →
     let r := s1.card c
     1 ≤ r.num 8 → r.num 8 ≤ 65534 → ProgramMode.ofCode (r.num 9) = some m → r.num 10 ≤ 7 → 1 ≤ r.num 11 →
     r.num 11 ≤ 24 → s1.findProgram (r.num 8) = none → (∀ j ∈ s1.programJobs, j.number ≠ r.num 8) → g < 16 →
     (s1.program g).state = .empty → (∀ j ∈ s1.programJobs, j.record ≠ g) →
     (∀ i < g, (s1.program i).state ≠ .empty ∨ ∃ j ∈ s1.programJobs, j.record = i) →
     exec (.programLoad c) s = .next (takenAs s
       { s1 with copies := s1.copies ++ [{ card := c, buffer := r.num 10, total := 8 * r.num 11
                                           job := .program { record := g, number := r.num 8, mode := m
                                                             count := r.num 11 } }] } c))

/-- R91, R93, R72: ORDER WITHDRAW and ORDER CLEAR by the order's state; ORDER CLEAR of no live order. -/
def Obligations.OrderWithdrawnAndCleared : Prop :=
  (∀ (s s1 : State) (c : Fin 64) (i : Nat),
     let r := s1.card c
     let o := s1.order i
     1 ≤ r.num 8 → r.num 8 ≤ 65534 → s1.findOrder (r.num 8) = some i →
     (AtCard s c .orderWithdraw s1 → o.state = .queued → (∀ m ∈ o.cells, m.delivered = false ∧ m.inFlight = false) →
       ∃ u : State, exec (.orderWithdraw c) s = .next (answeredAs s u c .ok) ∧
         u.order i = { o with state := .withdrawn, timeStatus := s1.clock, pages := [] } ∧
         u.freePages = s1.freePages ++ o.pages ∧
         u.queue o.truck = (s1.queue o.truck).filter (fun j => decide (j ≠ i)) ∧
         (∀ j, j ≠ i → u.order j = s1.order j) ∧ (∀ j, j ≠ o.truck → u.queue j = s1.queue j) ∧
         u = { s1 with orders := u.orders, freePages := u.freePages, queues := u.queues }) ∧
     (AtCard s c .orderWithdraw s1 →
       ((o.state = .queued ∧ ∃ m ∈ o.cells, m.delivered = true ∨ m.inFlight = true) ∨ o.state = .sending ∨
         o.state = .stalled ∨ o.state = .delivered ∨ o.state = .accepted ∨ o.state = .enRoute ∨ o.state = .onSite) →
       ∃ u : State, exec (.orderWithdraw c) s = .next (answeredAs s u c .ok) ∧
         u.order i = { o with state := .withdrawing, timeStatus := s1.clock, pages := [] } ∧
         u.freePages = s1.freePages ++ o.pages ∧
         u.queue o.truck = (s1.queue o.truck).filter (fun j => decide (j ≠ i)) ∧
         (u.list o.truck).present (.orderWithdraw o.number) = true ∧
         (∀ j, j ≠ i → u.order j = s1.order j) ∧ (∀ j, j ≠ o.truck → u.queue j = s1.queue j ∧ u.list j = s1.list j) ∧
         u = { s1 with orders := u.orders, freePages := u.freePages, queues := u.queues, lists := u.lists,
                       ageCounter := u.ageCounter }) ∧
     (AtCard s c .orderWithdraw s1 → o.state = .withdrawing →
       exec (.orderWithdraw c) s = .next (answeredAs s s1 c .ok)) ∧
     (AtCard s c .orderWithdraw s1 → (o.state = .withdrawn ∨ o.state = .complete ∨ o.state = .declined) →
       exec (.orderWithdraw c) s = .next (answeredAs s s1 c (.wrongState .finished))) ∧
     (AtCard s c .orderClear s1 → (o.state = .withdrawn ∨ o.state = .complete ∨ o.state = .declined) →
       exec (.orderClear c) s = .next (answeredAs s { s1 with orders := tableSet {} s1.orders i {} } c (.ok [toWord i]))) ∧
     (AtCard s c .orderClear s1 → o.state ≠ .withdrawn → o.state ≠ .complete → o.state ≠ .declined →
       exec (.orderClear c) s = .next (answeredAs s s1 c (.wrongState .finished)))) ∧
  (∀ (s s1 : State) (c : Fin 64), let r := s1.card c
     (AtCard s c .orderClear s1 → (r.num 8 = 0 ∨ 65534 < r.num 8) →
       exec (.orderClear c) s = .next (answeredAs s s1 c (.badField 8))) ∧
     (AtCard s c .orderClear s1 → 1 ≤ r.num 8 → r.num 8 ≤ 65534 → s1.findOrder (r.num 8) = none →
       exec (.orderClear c) s = .next (answeredAs s s1 c (.noSuch 8))))

/-- R27, R88, R89, R90: an ORDER STATUS cell from truck t: NOT YOURS for an order that is not live or not the sender's;
otherwise the table of R89, by the order's state and the report's code (0 ACCEPT, 1 DECLINE, 2 EN ROUTE, 3 ON SITE, 4
COMPLETE); a COMPLETE held at ON SITE while the linked permit stands in a state other than CLOSED. -/
def Obligations.OrderStatusTaken : Prop :=
  ∀ (s : State) (t number code : Nat),
    (s.findOrder number = none → s.routeCell t (.orderStatus number code) = s.addGroup t [.statusReply number .notYours]) ∧
    (∀ i, s.findOrder number = some i → (s.order i).truck ≠ t →
      s.routeCell t (.orderStatus number code) = s.addGroup t [.statusReply number .notYours]) ∧
    ∀ i, s.findOrder number = some i → (s.order i).truck = t →
      let o := s.order i
      let u (st : OrderState) : State :=
        { s with orders := tableSet {} s.orders i { o with state := st, timeStatus := s.clock } }
      let taken (st : OrderState) : State :=
        (u st).raise { kind := .orderStatus, reason := st.code, truck := t, item := o.number }
      let stands : Prop := ∃ l, o.link = some l ∧ (s.permit l.index).inUse = true ∧
        (s.permit l.index).number = l.number ∧ (s.permit l.index).state ≠ .closed
      (o.state ≠ .delivered → o.state ≠ .accepted → o.state ≠ .enRoute → o.state ≠ .onSite →
        s.routeCell t (.orderStatus number code) = s) ∧
      (o.state = .delivered → code = 0 → s.routeCell t (.orderStatus number code) = taken .accepted) ∧
      (o.state = .delivered → code = 1 → s.routeCell t (.orderStatus number code) = taken .declined) ∧
      (o.state ≠ .delivered → code ≤ 1 → s.routeCell t (.orderStatus number code) = s) ∧
      (o.state = .delivered ∨ o.state = .accepted → code = 2 → s.routeCell t (.orderStatus number code) = taken .enRoute) ∧
      (o.state = .enRoute ∨ o.state = .onSite → code = 2 → s.routeCell t (.orderStatus number code) = s) ∧
      (o.state = .delivered ∨ o.state = .accepted ∨ o.state = .enRoute → code = 3 →
        s.routeCell t (.orderStatus number code) = taken .onSite) ∧
      (o.state = .onSite → code = 3 → s.routeCell t (.orderStatus number code) = s) ∧
      (o.state = .delivered ∨ o.state = .accepted ∨ o.state = .enRoute ∨ o.state = .onSite → code = 4 →
        (¬ stands → s.routeCell t (.orderStatus number code) = taken .complete) ∧
        (stands → s.routeCell t (.orderStatus number code) =
          ((u .onSite).addGroup t [.statusReply o.number .permitOpen]).raise
            { kind := .orderStatus, reason := 11, truck := t, item := o.number, value := OrderState.onSite.code }))


/-! ### Cards of Switching Control: devices and permits (R120 to R125, R133 to R149) -/

/-- R120, R121: DEVICE ADD fills the lowest-numbered free entry; DEVICE REMOVE frees an entry that no tag, permit or live
program holds; the checks of both cards, in order. -/
def Obligations.DeviceAddedAndRemoved : Prop :=
  (∀ (s s1 : State) (c : Fin 64) (d : Nat),
     let r := s1.card c
     1 ≤ r.num 8 → r.num 8 ≤ 65534 →
     (∀ kind pos, AtCard s c .deviceAdd s1 → DeviceKind.ofCode (r.num 9) = some kind →
       Position.ofCode (r.num 10) = some pos → s1.findDevice (r.num 8) = none → d < 512 →
       (s1.device d).inUse = false → (∀ i < d, (s1.device i).inUse = true) →
       exec (.deviceAdd c) s = .next (answeredAs s
         { s1 with
           devices := tableSet {} s1.devices d {
             inUse := true, id := r.num 8, kind := kind, position := pos, source := .added, time := s1.clock
             tags := [], outstanding := none } } c (.ok [toWord d]))) ∧
     (AtCard s c .deviceRemove s1 → s1.findDevice (r.num 8) = some d → (s1.device d).tags ≠ [] →
       exec (.deviceRemove c) s = .next (answeredAs s s1 c (.wrongState .tagged))) ∧
     (AtCard s c .deviceRemove s1 → s1.findDevice (r.num 8) = some d → (s1.device d).tags = [] →
       (∀ e ∈ s1.permits, e.2.inUse = true → ∀ pt ∈ e.2.points, pt.device ≠ d) →
       (∀ e ∈ s1.programs, e.2.live = true → ∀ st ∈ e.2.steps, st.device ≠ d ∧ st.ref ≠ d) →
       exec (.deviceRemove c) s = .next (answeredAs s { s1 with devices := tableSet {} s1.devices d {} } c
         (.ok [toWord d])))) ∧
  (∀ (s s1 : State) (c : Fin 64), let r := s1.card c
     (AtCard s c .deviceAdd s1 → (r.num 8 = 0 ∨ 65534 < r.num 8) →
       exec (.deviceAdd c) s = .next (answeredAs s s1 c (.badField 8))) ∧
     (AtCard s c .deviceAdd s1 → 1 ≤ r.num 8 → r.num 8 ≤ 65534 → 4 < r.num 9 →
       exec (.deviceAdd c) s = .next (answeredAs s s1 c (.badField 9))) ∧
     (AtCard s c .deviceAdd s1 → 1 ≤ r.num 8 → r.num 8 ≤ 65534 → r.num 9 ≤ 4 → 2 < r.num 10 →
       exec (.deviceAdd c) s = .next (answeredAs s s1 c (.badField 10))) ∧
     (∀ d, AtCard s c .deviceAdd s1 → 1 ≤ r.num 8 → r.num 8 ≤ 65534 → r.num 9 ≤ 4 → r.num 10 ≤ 2 →
       s1.findDevice (r.num 8) = some d → exec (.deviceAdd c) s = .next (answeredAs s s1 c (.duplicate 8))) ∧
     (AtCard s c .deviceAdd s1 → 1 ≤ r.num 8 → r.num 8 ≤ 65534 → r.num 9 ≤ 4 → r.num 10 ≤ 2 →
       s1.findDevice (r.num 8) = none → (∀ d < 512, (s1.device d).inUse = true) →
       exec (.deviceAdd c) s = .next (answeredAs s s1 c .noRoom)) ∧
     (AtCard s c .deviceRemove s1 → (r.num 8 = 0 ∨ 65534 < r.num 8) →
       exec (.deviceRemove c) s = .next (answeredAs s s1 c (.badField 8))) ∧
     (AtCard s c .deviceRemove s1 → 1 ≤ r.num 8 → r.num 8 ≤ 65534 → s1.findDevice (r.num 8) = none →
       exec (.deviceRemove c) s = .next (answeredAs s s1 c (.noSuch 8))) ∧
     (∀ d, AtCard s c .deviceRemove s1 → 1 ≤ r.num 8 → r.num 8 ≤ 65534 → s1.findDevice (r.num 8) = some d →
       (s1.device d).tags = [] → (∃ e ∈ s1.permits, e.2.inUse = true ∧ ∃ pt ∈ e.2.points, pt.device = d) →
       exec (.deviceRemove c) s = .next (answeredAs s s1 c (.wrongState .permitState))) ∧
     (∀ d, AtCard s c .deviceRemove s1 → 1 ≤ r.num 8 → r.num 8 ≤ 65534 → s1.findDevice (r.num 8) = some d →
       (s1.device d).tags = [] → (∀ e ∈ s1.permits, e.2.inUse = true → ∀ pt ∈ e.2.points, pt.device ≠ d) →
       (∃ e ∈ s1.programs, e.2.live = true ∧ ∃ st ∈ e.2.steps, st.device = d ∨ st.ref = d) →
       exec (.deviceRemove c) s = .next (answeredAs s s1 c (.wrongState .inProgram))))

/-- R122, R123, R125: DEVICE REPORT: position, source and time; TAG VIOLATION when it moves a tagged device; then every permit
in use that lists the device is evaluated afresh, in ascending index; the device's record is republished whether it changes or
not. R124: the report is then offered to an outstanding step: one that agrees confirms a RELEASED or READ BACK step, before
execution, its STEP cell withdrawn, and an EXECUTED one under REPORT; it leaves one under DISPATCH, and any it does not agree
with, as it stands. R126: an UNPLANNED cell, for a device that is in the table, on a permit or on none, and for one that is
not; its position OPEN or CLOSED, since R126 makes any other void. (A withdrawn STEP cell goes by program and step number
alone: DESIGN CHOICE, log 32. The permit in both notices is the first tag's, and their permit number word is 0: DEDUCED, log
24.) -/
def Obligations.DeviceReported : Prop :=
  (∀ (s s1 : State) (c : Fin 64) (d : Nat) (pos : Position), AtCard s c .deviceReport s1 →
    let r := s1.card c
    let x := s1.device d
    1 ≤ r.num 8 → r.num 8 ≤ 65534 → Position.ofCode (r.num 9) = some pos → s1.findDevice (r.num 8) = some d →
    (∀ p < 32, (s1.permit p).inUse = true → ∀ pt ∈ (s1.permit p).points, pt.device ≠ d) → x.outstanding = none →
    let newPos := if pos = .unknown then x.position else pos
    let newSource : Source := if pos = .unknown then .stale else .report
    let y := { x with
      position := newPos, source := newSource
      time := if x.position = newPos ∧ x.source = newSource then x.time else s1.clock }
    let u := { s1 with devices := tableSet {} s1.devices d y }
    let answer := Answer.ok [toWord d, packBytes newPos.code newSource.code, 0, 0]
    ((x.tags = [] ∨ x.position = .unknown ∨ x.position = newPos) →
      exec (.deviceReport c) s = .next (answeredAs s u c answer [deviceBase d])) ∧
    (∀ p rest, x.tags = p :: rest → x.position ≠ .unknown → x.position ≠ newPos →
      exec (.deviceReport c) s = .next (answeredAs s
        (u.raise { kind := .tagViolation, reason := 1, device := d, item := x.id, permit := p, value := newPos.code })
        c answer [deviceBase d]))) ∧
  (∀ (s s1 : State) (c : Fin 64) (d : Nat) (pos : Position), AtCard s c .deviceReport s1 →
    let r := s1.card c
    let x := s1.device d
    1 ≤ r.num 8 → r.num 8 ≤ 65534 → Position.ofCode (r.num 9) = some pos → s1.findDevice (r.num 8) = some d →
    let newPos := if pos = .unknown then x.position else pos
    let newSource : Source := if pos = .unknown then .stale else .report
    let y := { x with
      position := newPos, source := newSource
      time := if x.position = newPos ∧ x.source = newSource then x.time else s1.clock }
    let u := { s1 with devices := tableSet {} s1.devices d y }
    let told := if x.tags ≠ [] ∧ x.position ≠ .unknown ∧ x.position ≠ newPos then u.raise
        { kind := .tagViolation, reason := 1, device := d, item := x.id, permit := x.tags.headD 0, value := newPos.code }
      else u
    let lists (w : State) (p : Nat) : Bool :=
      (w.permit p).inUse && (w.permit p).points.any fun pt => decide (pt.device = d)
    let seen := (List.range 32).foldl (fun w p => if lists w p then w.permitEvent p d .pointLost else w) told
    let answers (w : State) (number k : Nat) : Prop := exec (.deviceReport c) s = .next (answeredAs s w c
      (.ok [toWord d, packBytes newPos.code newSource.code, toWord number, toWord k]) [deviceBase d])
    ((seen.device d).outstanding = none → answers seen 0 0) ∧
    (∀ g k st, (seen.device d).outstanding = some ⟨g, k⟩ → (seen.program g).step k = some st →
      let q := seen.program g
      let agrees := st.action.target = some pos
      let before := st.state = .released ∨ st.state = .readBack
      let late := st.state = .executed ∧ st.rule = .report
      (¬ agrees ∨ (st.state = .executed ∧ st.rule = .dispatch) → answers seen 0 0) ∧
      (agrees → before → answers (seen.confirmStep g k true) q.number k) ∧
      (agrees → late → answers (seen.confirmStep g k false) q.number k) ∧
      (agrees → before ∨ late → st.device = d → (∀ p < 32, lists s1 p = false) → (∀ i, (s1.list i).waiting = []) →
        ¬ (q.state = .running ∧ q.mode = .chained) → ∃ w : State, answers w q.number k ∧
        let z := { st with
          state := .confirmed, before := if st.state = .executed then st.before else true
          instruction := if st.state ≠ .executed ∧ st.instruction = .queued then .none else st.instruction }
        let n := { q with steps := q.steps.modify (k - 1) fun _ => z }.firstOpen
        (w.program g).step k = some z ∧
        w.program g = { q with
          steps := q.steps.modify (k - 1) fun _ => z, next := n
          state := if q.steps.length < n then .done else if q.state = .halting then .halted else q.state
          timeEnded := if q.steps.length < n then s1.clock else q.timeEnded } ∧
        (∀ i, i ≠ g → w.program i = s1.program i) ∧
        w.device d = { y with outstanding := none } ∧ (∀ i, i ≠ d → w.device i = s1.device i) ∧
        (late → w.lists = s1.lists) ∧
        (before → w.list st.truck = { s1.list st.truck with
          cells := (s1.list st.truck).cells.filter fun e => !isStepCell q.number k e.cell } ∧
          ∀ i, i ≠ st.truck → w.list i = s1.list i) ∧
        told.BoardAfter w
          ({ kind := .stepState, reason := 4, program := q.number, step := k, device := d, item := x.id } ::
            if q.steps.length < n then [{ kind := .programState, reason := 5, program := q.number }]
            else if q.state = .halting then
              [{ kind := .programHalted, reason := q.halt.code, program := q.number, step := n }]
            else []) ∧
        w = { s1 with devices := w.devices, programs := w.programs, lists := w.lists, mem := w.mem, hold := w.hold
                      missed := w.missed }))) ∧
  (∀ (s : State) (t id : Nat) (pos : Position), pos = .opened ∨ pos = .closed →
    let cell : UpCell := .unplanned id pos
    let told : Notice := { kind := .unplannedOperation, truck := t, item := id, value := pos.code }
    (s.findDevice id = none → s.routeCell t cell = s.raise { told with reason := 3 } ∧ s.cellRecord t cell = []) ∧
    (∀ d, s.findDevice id = some d → s.cellRecord t cell = [deviceBase d] ∧
      let x := s.device d
      let u := { s with
        devices := tableSet {} s.devices d { x with
          position := pos, source := .crew, time := if x.position = pos ∧ x.source = .crew then x.time else s.clock } }
      let seen (v : State) : State := (List.range 32).foldl (fun w p =>
        if (w.permit p).inUse && (w.permit p).points.any (fun pt => decide (pt.device = d)) then w.permitEvent p d .unplanned
        else w) v
      (x.position = pos → s.routeCell t cell = seen u) ∧
      (x.position ≠ pos → s.routeCell t cell = seen (u.raise
        { told with reason := if x.tags = [] then 2 else 1, device := d, permit := x.tags.headD 0 }))) ∧
    (∀ d, s.findDevice id = some d →
      (∀ p < 32, (s.permit p).inUse = true → ∀ pt ∈ (s.permit p).points, pt.device ≠ d) →
      let x := s.device d
      let u := { s with
        devices := tableSet {} s.devices d { x with
          position := pos, source := .crew, time := if x.position = pos ∧ x.source = .crew then x.time else s.clock } }
      (x.position = pos → s.routeCell t cell = u) ∧
      (x.position ≠ pos → x.tags = [] → s.routeCell t cell = u.raise { told with reason := 2, device := d }) ∧
      (∀ p rest, x.position ≠ pos → x.tags = p :: rest →
        s.routeCell t cell = u.raise { told with reason := 1, device := d, permit := p })))

/-- R133, R135: PERMIT DRAFT of points that all name devices of the table in the position their kinds require: the
lowest-numbered free record filled, the check value the sum of the ids, and (no tag of a free index standing anywhere) the
state DRAFT. -/
def Obligations.PermitDrafted : Prop :=
  ∀ (s s1 : State) (c : Fin 64) (p w : Nat) (places : List Point), AtCard s c .permitDraft s1 →
    let r := s1.card c
    let points := draftPoints r (r.num 11)
    1 ≤ r.num 8 → r.num 8 ≤ 65534 → 1 ≤ r.num 9 → r.num 9 ≤ 65534 → 1 ≤ r.num 11 → r.num 11 ≤ 12 →
    (∀ x ∈ points, 1 ≤ x.id ∧ x.id ≤ 65534 ∧ x.code ≤ 1) → (points.map (·.id)).Nodup →
    places.length = points.length →
    (∀ (i : Nat) (x : DraftPoint) (y : Point), points[i]? = some x → places[i]? = some y → s1.findDevice x.id = some y.device ∧
      y.required = (s1.device y.device).kind.required ∧ y.required.code = x.code) →
    s1.findWorker (r.num 9) = some w → s1.findPermit (r.num 8) = none →
    p < 32 → (s1.permit p).inUse = false → (∀ i < p, (s1.permit i).inUse = true) →
    (∀ d, p ∉ (s1.device d).tags) →
    exec (.permitDraft c) s = .next (answeredAs s
      { s1 with
        permits := tableSet {} s1.permits p {
          inUse := true, number := r.num 8, holder := w, points := places
          check := (points.map (·.id)).sum % 65536, interval := max 300 (min 1800 (r.num 10)), state := .draft
          timeDrafted := s1.clock, timeChanged := s1.clock } } c
      (if 300 ≤ r.num 10 ∧ r.num 10 ≤ 1800 then .ok [toWord p, 0] else ⟨.doneClamped, 10, [toWord p, 0]⟩))

/-- R136, R138 to R145, R147: PERMIT ISSUE of a READY permit whose holder is WATCHING and on no permit: ISSUING, the issue
group in the list of the holder's truck or waiting for room there. ACCEPT PERMIT, SIGN ON, SIGN OFF and SURRENDER cells: NO
SUCH and NOT IN ROSTER; the replies of the checks, in their order; and what an act that passes them does to the permit, its
member and the member's watch (where no group waits behind the issue cells that leave the list). -/
def Obligations.PermitIssued : Prop :=
  (∀ (s s1 : State) (c : Fin 64) (p t : Nat), AtCard s c .permitIssue s1 →
    let r := s1.card c
    let x := s1.permit p
    1 ≤ r.num 8 → r.num 8 ≤ 65534 → s1.findPermit (r.num 8) = some p → x.state = .ready →
    (s1.watch x.holder).state = .watching → (s1.worker x.holder).membership = none →
    (s1.worker x.holder).aboard = some t →
    let n := 1 + (x.points.length + 2) / 3
    let waits := s1.groupWaits t (s1.issueGroup p)
    ∃ u : State, exec (.permitIssue c) s = .next (answeredAs s u c
        (.ok [toWord p, 2, toWord n, if waits then 2 else 0])) ∧
      u.permit p = { x with
        state := .issuing, timeChanged := s1.clock, wrongReadbacks := 0, issueTruck := t, issueDelivered := 0
        issueCells := if waits then .waiting else .queued } ∧
      (∀ i, i ≠ p → u.permit i = s1.permit i) ∧ (∀ i, i ≠ t → u.list i = s1.list i) ∧
      (s1.issueGroup p).length = n ∧ (∀ cell ∈ s1.issueGroup p, (u.list t).present cell = true) ∧
      u.trucks = s1.trucks ∧ u.devices = s1.devices ∧ u.programs = s1.programs ∧ u.watches = s1.watches) ∧
  (∀ (s : State) (t number badge count check : Nat) (cell : UpCell),
    cell ∈ [UpCell.acceptPermit number badge count check, .signOn number badge, .signOff number badge,
      .surrender number badge] →
    let reply (result : SignResult) : State := s.addGroup t [.signReply number badge result]
    (s.findPermit number = none → s.routeCell t cell = reply .noSuch) ∧
    (s.findPermit number ≠ none → s.findWorker badge = none → s.routeCell t cell = reply .notInRoster)) ∧
  (∀ (s : State) (t number badge count check p w : Nat), s.findPermit number = some p → s.findWorker badge = some w →
    let x := s.permit p
    let v := s.watch w
    let member := s.worker w
    let replies (cell : UpCell) (result : SignResult) : Prop :=
      s.routeCell t cell = s.addGroup t [.signReply number badge result]
    let alarm := v.state = .alarm ∨ v.state = .acknowledged
    let limit := min (v.lastCheckIn + x.interval) 4294967295
    let joins (u : State) : Prop :=
      u.worker w = { member with membership := some p } ∧ (∀ i, i ≠ w → u.worker i = s.worker i ∧ u.watch i = s.watch i) ∧
      (∀ i, i ≠ p → u.permit i = s.permit i) ∧ u.trucks = s.trucks ∧ u.devices = s.devices ∧ u.programs = s.programs ∧
      ((v.state ≠ .watching ∨ v.deadline ≤ limit) → u.watch w = v) ∧
      (v.state = .watching → limit < v.deadline → s.clock < limit → u.watch w = { v with deadline := limit }) ∧
      (v.state = .watching → limit < v.deadline → limit ≤ s.clock → u.watch w = { v with
        deadline := limit, state := .prompted, prompt := .queued, graceEnd := min (s.clock + v.grace) 4294967295 })
    let accept : UpCell := .acceptPermit number badge count check
    let agrees := count = x.points.length ∧ check = x.check
    let again := x.state = .issued ∧ x.holder = w ∧ agrees
    let watched := (v.state = .watching ∨ v.state = .prompted) ∧ v.mode = .continuous
    let outOfList := x.issueCells = .queued ∨ x.issueCells = .waiting
    let takenBack (y : Permit) : Permit := { y with
      issueCells := if x.issueCells = .queued ∨ x.issueCells = .waiting then .none else x.issueCells
      issueDelivered := if x.issueCells = .queued ∨ x.issueCells = .waiting then 0 else x.issueDelivered }
    (again → replies accept .ok) ∧
    (¬ again → x.state ≠ .issuing → replies accept .permitState) ∧
    (x.state = .issuing → x.holder ≠ w → replies accept .notHolder) ∧
    (x.state = .issuing → x.holder = w →
      (alarm → replies accept .alarmOpen) ∧
      (¬ alarm → ¬ watched → replies accept .notWatched) ∧
      (watched → member.membership ≠ none → replies accept .onPermit) ∧
      (watched → member.membership = none → agrees → (s.list x.issueTruck).waiting = [] →
        let u := s.routeCell t accept
        joins u ∧ u.permit p = takenBack { x with
          state := .issued, timeIssued := s.clock, timeChanged := s.clock, members := [w] } ∧
        (u.list t).present (.signReply x.number member.badge .ok) = true ∧
        (outOfList → ∀ e ∈ (u.list x.issueTruck).cells, isIssueCell x.number e.cell = false)) ∧
      (watched → member.membership = none → ¬ agrees → x.wrongReadbacks + 1 < 3 →
        s.routeCell t accept = { s with
          permits := tableSet {} s.permits p { x with wrongReadbacks := x.wrongReadbacks + 1 } }.addGroup t
            [.signReply x.number badge .wrong]) ∧
      (watched → member.membership = none → ¬ agrees → 3 ≤ x.wrongReadbacks + 1 → (s.list x.issueTruck).waiting = [] →
        let u := s.routeCell t accept
        u.permit p = takenBack { x with
          state := .ready, timeChanged := s.clock, wrongReadbacks := x.wrongReadbacks + 1 } ∧
        (∀ i, i ≠ p → u.permit i = s.permit i) ∧ u.workers = s.workers ∧ u.watches = s.watches ∧
        (u.list t).present (.signReply x.number badge .wrong) = true ∧
        (outOfList → ∀ e ∈ (u.list x.issueTruck).cells, isIssueCell x.number e.cell = false))) ∧
    (w ∈ x.members → replies (.signOn number badge) .ok) ∧
    (w ∉ x.members → x.state = .suspended → replies (.signOn number badge) .suspended) ∧
    (w ∉ x.members → x.state ≠ .suspended → x.state ≠ .issued → replies (.signOn number badge) .permitState) ∧
    (w ∉ x.members → x.state = .issued →
      let watching := v.state = .watching ∧ v.mode = .continuous
      (alarm → replies (.signOn number badge) .alarmOpen) ∧
      (¬ alarm → ¬ watching → replies (.signOn number badge) .notWatched) ∧
      (watching → member.membership ≠ none → replies (.signOn number badge) .onPermit) ∧
      (watching → member.membership = none → 8 ≤ x.members.length → replies (.signOn number badge) .full) ∧
      (watching → member.membership = none → x.members.length < 8 →
        let u := s.routeCell t (.signOn number badge)
        joins u ∧ u.permit p = { x with members := x.members ++ [w] } ∧
        (u.list t).present (.signReply number badge .ok) = true)) ∧
    (w ∉ x.members → replies (.signOff number badge) .notMember) ∧
    (w ∈ x.members → x.holder = w → replies (.signOff number badge) .holder) ∧
    (w ∈ x.members → x.holder ≠ w → alarm → replies (.signOff number badge) .alarmOpen) ∧
    (w ∈ x.members → x.holder ≠ w → ¬ alarm → s.routeCell t (.signOff number badge) =
      ({ s with
        permits := tableSet {} s.permits p { x with members := x.members.filter fun m => decide (m ≠ w) }
        workers := tableSet {} s.workers w { member with membership := none } }.addGroup t
          [.signReply number badge .ok]).raise
        { kind := .memberSignedOff, permit := p, permitNumber := x.number, worker := w, truck := t }) ∧
    ((x.state = .surrendered ∨ x.state = .closed) → x.holder = w → replies (.surrender number badge) .ok) ∧
    (x.state = .suspended → replies (.surrender number badge) .suspended) ∧
    (x.state ≠ .suspended → x.state ≠ .issued → ((x.state ≠ .surrendered ∧ x.state ≠ .closed) ∨ x.holder ≠ w) →
      replies (.surrender number badge) .permitState) ∧
    (x.state = .issued → x.holder ≠ w → replies (.surrender number badge) .notHolder) ∧
    (x.state = .issued → x.holder = w → (∃ m ∈ x.members, m ≠ x.holder) → replies (.surrender number badge) .membersRemain) ∧
    (x.state = .issued → x.holder = w → (∀ m ∈ x.members, m = x.holder) →
      let u := s.routeCell t (.surrender number badge)
      (0 < x.tagsHeld ∨ 0 < x.tagSteps →
        u.permit p = { x with members := [], state := .surrendered, timeChanged := s.clock }) ∧
      (x.tagsHeld = 0 → x.tagSteps = 0 → u.permit p = { x with
        members := [], state := .closed, timeChanged := s.clock, timeClosed := s.clock }) ∧
      (∀ m ∈ x.members, (u.worker m).membership = none) ∧ (∀ i, i ≠ w → u.worker i = s.worker i) ∧
      (∀ i, i ≠ p → u.permit i = s.permit i) ∧ (u.list t).present (.signReply number badge .ok) = true ∧
      (∀ i, i ≠ t → u.list i = s.list i) ∧ u.trucks = s.trucks ∧ u.devices = s.devices ∧ u.programs = s.programs ∧
      u.watches = s.watches))

/-- R144, R146: PERMIT RESUME and PERMIT CANCEL. -/
def Obligations.PermitResumedAndCancelled : Prop :=
  ∀ (s s1 : State) (c : Fin 64) (p : Nat),
    let r := s1.card c
    let x := s1.permit p
    1 ≤ r.num 8 → r.num 8 ≤ 65534 → s1.findPermit (r.num 8) = some p →
    (AtCard s c .permitResume s1 → x.state = .suspended → (∀ w ∈ x.members, (s1.watch w).inAlarm = false) →
      (∀ pt ∈ x.points, s1.pointInPlace p pt = true) → ∃ u : State,
      exec (.permitResume c) s = .next (answeredAs s u c .ok) ∧
      u.permit p = { x with
        state := .issued, timeChanged := s1.clock, alarmCauses := [], lostCauses := [], unplannedCauses := [] } ∧
      (∀ i, i ≠ p → u.permit i = s1.permit i) ∧ (∀ w, w ∉ x.members → u.watch w = s1.watch w) ∧
      (∀ w, (s1.watch w).state ≠ .watching → u.watch w = s1.watch w) ∧
      (∀ w, satAdd (s1.watch w).lastCheckIn x.interval ≥ (s1.watch w).deadline → u.watch w = s1.watch w) ∧
      u.devices = s1.devices ∧ u.programs = s1.programs ∧ u.trucks = s1.trucks ∧ u.workers = s1.workers) ∧
    (AtCard s c .permitResume s1 → x.state ≠ .suspended →
      exec (.permitResume c) s = .next (answeredAs s s1 c (.wrongState .permitState))) ∧
    (AtCard s c .permitResume s1 → x.state = .suspended → (∃ w ∈ x.members, (s1.watch w).inAlarm = true) →
      exec (.permitResume c) s = .next (answeredAs s s1 c (.wrongState .alarmOpen))) ∧
    (AtCard s c .permitCancel s1 → (x.state = .draft ∨ x.state = .ready) → (0 < x.tagsHeld ∨ 0 < x.tagSteps) →
      exec (.permitCancel c) s = .next (answeredAs s
        ({ s1 with permits := tableSet {} s1.permits p { x with state := .cancelled, timeChanged := s1.clock } }.raise
          { kind := .permitState, reason := 6, permit := p, permitNumber := x.number }) c (.ok [6]))) ∧
    (AtCard s c .permitCancel s1 → (x.state = .draft ∨ x.state = .ready) → x.tagsHeld = 0 → x.tagSteps = 0 → ∃ u : State,
      exec (.permitCancel c) s = .next (answeredAs s u c (.ok [7])) ∧
      u.permit p = { x with state := .closed, timeChanged := s1.clock, timeClosed := s1.clock } ∧
      (∀ i, i ≠ p → u.permit i = s1.permit i) ∧ u.devices = s1.devices ∧ u.programs = s1.programs ∧
      u.lists = s1.lists) ∧
    (AtCard s c .permitCancel s1 → x.state ≠ .draft → x.state ≠ .ready → x.state ≠ .issuing →
      exec (.permitCancel c) s = .next (answeredAs s s1 c (.wrongState .permitState)))

/-- R148, R165, R130, R125, R149: PERMIT FORCE CLOSE with AUTHORITY set: CLOSED, no member, no cause, its tag on no device of
the table, no other tag moved, PERMIT FORCE CLOSED raised with the state before and the number of tags removed, and that
number answered. Where no group waits in any list, in full: the issue cells withdrawn, each RELEASED or READ BACK step that
names the permit pulled back with its STEP CANCEL queued and STEP STATE raised, its program HALTED with PROGRAM HALTED raised;
then the tags removed by ascending device, each as one event for the permits that list the device (by PermitsFollowDevices).
(Several steps and programs are taken by ascending program and step: the model's choice, log 27; withdrawn issue cells count 0
delivered: DEDUCED, log 14; the cells of a step go by program and step number alone: DESIGN CHOICE, log 32.) PERMIT CLEAR
frees a CLOSED record that no live program names. -/
def Obligations.PermitForceClosedAndCleared : Prop :=
  (∀ (s s1 : State) (c : Fin 64) (p : Nat),
     let r := s1.card c
     let x := s1.permit p
     1 ≤ r.num 8 → r.num 8 ≤ 65534 → s1.findPermit (r.num 8) = some p →
     let removed := (List.range 512).countP fun d => (s1.device d).tags.contains p
     let forced : Notice :=
       { kind := .permitForceClosed, reason := x.state.code, permit := p, permitNumber := x.number, value := (removed : Nat) }
     (AtCard s c .permitForceClose s1 → s1.authority = true → x.state ≠ .closed → x.inUse = true → ∃ u : State,
       exec (.permitForceClose c) s = .next (answeredAs s (u.raise forced) c (.ok [toWord removed])) ∧
       (u.permit p).state = .closed ∧ (u.permit p).members = [] ∧ (u.permit p).alarmCauses = [] ∧
       (u.permit p).lostCauses = [] ∧ (u.permit p).unplannedCauses = [] ∧ (u.permit p).timeClosed = s1.clock ∧
       (u.permit p).number = x.number ∧
       (∀ d < 512, (u.device d).tags = (s1.device d).tags.filter (fun q => decide (q ≠ p))) ∧
       (∀ d, (u.device d).position = (s1.device d).position ∧ (u.device d).id = (s1.device d).id) ∧
       (∀ w ∈ x.members, (u.worker w).membership = none) ∧
       u.trucks = s1.trucks ∧ u.watches = s1.watches ∧ u.orders = s1.orders) ∧
     (AtCard s c .permitForceClose s1 → s1.authority = true → x.state ≠ .closed → s1.Canonical →
       (∀ i, (s1.list i).waiting = []) →
       let back (st : Step) : Bool :=
         (decide (st.state = .released) || decide (st.state = .readBack)) && decide (st.permit = some p)
       let recalled (g k : Nat) (st : Step) : Prop := g < 16 ∧ (s1.program g).step k = some st ∧ back st = true
       let own (g k : Nat) (e : Entry) : Bool := isStepCell (s1.program g).number k e.cell ||
         isReadbackOk (s1.program g).number k e.cell || isReadbackWrong (s1.program g).number k e.cell
       let withdrawn : Prop := x.issueCells = .queued ∨ x.issueCells = .waiting
       let cancelled (g : Nat) : List Notice := (List.range (s1.program g).steps.length).filterMap fun i =>
         match (s1.program g).steps[i]? with
         | some st => if back st then some { kind := .stepState, reason := 7, program := (s1.program g).number, step := i + 1
                                             device := st.device, item := (s1.device st.device).id } else none
         | none => none
       let runs (g : Nat) : Bool := decide ((s1.program g).state = .running) || decide ((s1.program g).state = .halting)
       let halts (g : Nat) : Bool := runs g && !(cancelled g).isEmpty
       let told (g : Nat) : List Notice := match cancelled g with
         | [] => []
         | n :: rest => n :: (if runs g then
             [{ kind := .programHalted, reason := 11, program := (s1.program g).number, step := (s1.program g).next }]
             else []) ++ rest
       let untagged (v : State) (d : Nat) : State :=
         if (v.device d).tags.contains p then
           let v' := { v with
             devices := tableSet {} v.devices d { v.device d with tags := (v.device d).tags.filter fun q => decide (q ≠ p) }
             permits := tableSet {} v.permits p { v.permit p with tagsHeld := (v.permit p).tagsHeld - 1 } }
           (List.range 32).foldl (fun y q =>
             if (y.permit q).inUse = true ∧ ∃ pt ∈ (y.permit q).points, pt.device = d then y.permitEvent q d .pointLost
             else y) v'
         else v
       ∃ w : State,
       exec (.permitForceClose c) s = .next (answeredAs s
         (((List.range 512).foldl untagged w).raise forced) c (.ok [toWord removed])) ∧
       s1.BoardAfter w ((List.range 16).flatMap told) ∧
       w.permit p = { x with
         state := .closed, timeClosed := s1.clock, timeChanged := s1.clock, members := [], alarmCauses := []
         lostCauses := [], unplannedCauses := [], issueCells := if withdrawn then .none else x.issueCells
         issueDelivered := if withdrawn then 0 else x.issueDelivered
         tagSteps := x.tagSteps - ((List.range 16).map fun g => (s1.program g).steps.countP fun st =>
           back st && decide (st.action = .tag)).sum } ∧
       (∀ q, q ≠ p → w.permit q = s1.permit q) ∧
       (∀ i, w.worker i = if i ∈ x.members then { s1.worker i with membership := none } else s1.worker i) ∧
       (∀ g < 16, w.program g = { s1.program g with
         state := if halts g then .halted else (s1.program g).state
         halt := if halts g then .permitClosed else (s1.program g).halt, cancels := (w.program g).cancels
         steps := (s1.program g).steps.map fun st =>
           let y := if back st then { st with state := .pending, wrong := 0, instruction := .none } else st
           { y with pending := if halts g then .none else y.pending } }) ∧
       ((∀ g h, (s1.program g).steps ≠ [] → (s1.program h).steps ≠ [] →
           (s1.program g).number = (s1.program h).number → g = h) →
         ∀ g < 16, (w.program g).cancels =
           (s1.program g).cancels + (List.range (s1.program g).steps.length).countP fun i =>
             match (s1.program g).steps[i]? with
             | some st => back st && !(s1.list st.truck).present (.stepCancel (s1.program g).number (i + 1))
             | none => false) ∧
       (∀ d, ((∃ g k st, recalled g k st ∧ st.device = d) → w.device d = { s1.device d with outstanding := none }) ∧
         ((¬ ∃ g k st, recalled g k st ∧ st.device = d) → w.device d = s1.device d)) ∧
       (∀ g k st, recalled g k st → (w.list st.truck).present (.stepCancel (s1.program g).number k) = true ∧
         ∀ e ∈ (w.list st.truck).cells, own g k e = false) ∧
       (withdrawn → ∀ e ∈ (w.list x.issueTruck).cells, isIssueCell x.number e.cell = false) ∧
       (∀ i, ∀ e ∈ (s1.list i).cells, (∀ g k st, recalled g k st → st.truck = i → own g k e = false) →
         (withdrawn → i = x.issueTruck → isIssueCell x.number e.cell = false) → e ∈ (w.list i).cells) ∧
       (∀ i, ∀ e ∈ (w.list i).cells, e ∈ (s1.list i).cells ∨
         ∃ g k st, recalled g k st ∧ st.truck = i ∧ e.cell = .stepCancel (s1.program g).number k) ∧
       (∀ i, (¬ ∃ g k st, recalled g k st ∧ st.truck = i) → (withdrawn → i ≠ x.issueTruck) → w.list i = s1.list i) ∧
       w = { s1 with
         permits := w.permits, workers := w.workers, programs := w.programs, devices := w.devices, lists := w.lists
         ageCounter := w.ageCounter, mem := w.mem, hold := w.hold, missed := w.missed }) ∧
     (AtCard s c .permitForceClose s1 → s1.authority = true → x.state = .closed →
       exec (.permitForceClose c) s = .next (answeredAs s s1 c (.wrongState .permitState))) ∧
     (AtCard s c .permitClear s1 → x.state = .closed →
       (∀ e ∈ s1.programs, e.2.live = true → ∀ st ∈ e.2.steps, st.permit ≠ some p) →
       exec (.permitClear c) s = .next (answeredAs s { s1 with permits := tableSet {} s1.permits p {} } c
         (.ok [toWord p]))) ∧
     (AtCard s c .permitClear s1 → x.state ≠ .closed →
       exec (.permitClear c) s = .next (answeredAs s s1 c (.wrongState .permitState)))) ∧
  (∀ (s s1 : State) (c : Fin 64), let r := s1.card c
     (AtCard s c .permitClear s1 → (r.num 8 = 0 ∨ 65534 < r.num 8) →
       exec (.permitClear c) s = .next (answeredAs s s1 c (.badField 8))) ∧
     (AtCard s c .permitClear s1 → 1 ≤ r.num 8 → r.num 8 ≤ 65534 → s1.findPermit (r.num 8) = none →
       exec (.permitClear c) s = .next (answeredAs s s1 c (.noSuch 8))) ∧
     (∀ p, AtCard s c .permitClear s1 → 1 ≤ r.num 8 → r.num 8 ≤ 65534 → s1.findPermit (r.num 8) = some p →
       (s1.permit p).state = .closed → (∃ e ∈ s1.programs, e.2.live = true ∧ ∃ st ∈ e.2.steps, st.permit = some p) →
       exec (.permitClear c) s = .next (answeredAs s s1 c (.wrongState .inProgram))))

/-- R125, R134, R135, R138: what an event of device d does to a permit in use, by its state and its ready condition after the
event: the state, the cause set that the point joins, and the notices; an issue that falls back withdraws its cells, with
issue cells NONE and 0 delivered where they were QUEUED or WAITING, and as they stand where DELIVERED (DEDUCED, log 14). A
cause that joins a permit already SUSPENDED leaves the time of last state change as it stands (DEDUCED, log 29). -/
def Obligations.PermitsFollowDevices : Prop :=
  ∀ (s : State) (p d : Nat) (cause : PointCause),
    let x := s.permit p
    let u := s.permitEvent p d cause
    let inPlace (pt : Point) : Prop := (s.device pt.device).position = pt.required ∧ pt.required ≠ .unknown ∧
      (s.device pt.device).source ≠ .stale ∧ p ∈ (s.device pt.device).tags
    let ready := ∀ pt ∈ x.points, inPlace pt
    let out := ∃ pt ∈ x.points, pt.device = d ∧ ¬ inPlace pt
    let k := (x.points.takeWhile fun pt => decide (pt.device ≠ d)).length + 1
    let held := match cause with
      | .pointLost => k ∈ x.lostCauses
      | .unplanned => k ∈ x.unplannedCauses
    let joined (y : Permit) : Permit := match cause with
      | .pointLost => { y with lostCauses := if x.lostCauses.contains k then x.lostCauses else x.lostCauses ++ [k] }
      | .unplanned => { y with
          unplannedCauses := if x.unplannedCauses.contains k then x.unplannedCauses else x.unplannedCauses ++ [k] }
    let code : Nat := match cause with
      | .pointLost => 1
      | .unplanned => 2
    let sets (y : Permit) : State := { s with permits := tableSet {} s.permits p y }
    let changed (reason : Nat) : Notice := { kind := .permitState, reason := reason, permit := p, permitNumber := x.number }
    let told (kind : NoticeKind) : Notice :=
      { kind, reason := code, permit := p, permitNumber := x.number, device := d, item := (s.device d).id, step := k }
    (x.state = .draft → ready → u = (sets { x with state := .ready, timeChanged := s.clock }).raise (changed 1)) ∧
    (x.state = .ready → ¬ ready → u = (sets { x with state := .draft, timeChanged := s.clock }).raise (changed 0)) ∧
    (x.state = .issuing → ¬ ready →
      let y := { x with state := .draft, timeChanged := s.clock, wrongReadbacks := 0 }
      (u.permit p).state = .draft ∧ (u.permit p).wrongReadbacks = 0 ∧
      ((x.issueCells = .none ∨ x.issueCells = .delivered) → u = (sets y).raise (told .pointLost)) ∧
      ((x.issueCells = .queued ∨ x.issueCells = .waiting) → (s.list x.issueTruck).waiting = [] →
        u = { sets { y with issueCells := .none, issueDelivered := 0 } with
          lists := tableSet {} s.lists x.issueTruck {
            cells := (s.list x.issueTruck).cells.filter fun e => !isIssueCell x.number e.cell
            waiting := [] } }.raise (told .pointLost))) ∧
    (x.state = .issued → ¬ ready →
      let y := { x with state := .suspended, timeChanged := s.clock }
      (out → u = (sets (joined y)).raise (told .permitSuspended)) ∧
      (¬ out → u = (sets y).raise (told .permitSuspended))) ∧
    (x.state = .suspended → ¬ ready →
      (out → ¬ held → u = (sets (joined x)).raise (told .permitSuspended)) ∧
      ((held ∨ ¬ out) → u = s)) ∧
    ((x.state = .draft ∧ ¬ ready) ∨ (x.state = .ready ∧ ready) ∨ (x.state = .issuing ∧ ready) ∨
        (x.state = .issued ∧ ready) ∨ (x.state = .suspended ∧ ready) ∨ x.state = .surrendered ∨ x.state = .cancelled ∨
        x.state = .closed → u = s) ∧
    (∀ i, i ≠ p → x.state ≠ .issuing → u.permit i = s.permit i)


/-! ### Cards of Switching Control: programs (R131, R152 to R166) -/

/-- R131, R155: what a release attempt's checks 1 to 6 say, in their order, the first failure deciding. -/
def Obligations.ReleaseChecksInOrder : Prop :=
  ∀ (s : State) (g k : Nat) (st : Step),
    let v := s.releaseVerdict g k st
    let x := s.device st.device
    let y := s.device st.ref
    let interlock : Prop :=
      ((st.action = .openIt ∨ st.action = .closeIt) ∧ x.tags = []) ∨
      (st.action = .tag ∧ x.tags.length < 4 ∧ ∃ p, st.permit = some p ∧
        ((s.permit p).state = .draft ∨ (s.permit p).state = .ready)) ∨
      (st.action = .untag ∧ ∃ p, st.permit = some p ∧
        ((s.permit p).state = .surrendered ∨ (s.permit p).state = .cancelled))
    let guard : Prop :=
      match st.guard with
      | .always => True
      | .refOpen => y.position = .opened
      | .refClosed => y.position = .closed
      | .refKnown => y.position ≠ .unknown ∧ y.source ≠ .stale
      | .refUntagged => y.tags = []
      | .refTagged => y.tags ≠ []
      | .refOpenTagged => y.position = .opened ∧ y.tags ≠ []
      | .refClosedUntagged => y.position = .closed ∧ y.tags = []
    (v = .notRunning ↔ (s.program g).state ≠ .running) ∧
    ((s.program g).state = .running → (v = .outOfOrder ↔ k ≠ (s.program g).next)) ∧
    ((s.program g).state = .running → k = (s.program g).next →
      (v = .fail .deviceBusy ↔ x.outstanding ≠ none) ∧
      (x.outstanding = none →
        (¬ interlock → (v = .fail .tagged ∨ v = .fail .permitState ∨ v = .fail .tagSetFull ∨ v = .fail .suspended) ∧
          (st.action = .openIt ∨ st.action = .closeIt → v = .fail .tagged) ∧
          (∀ p, st.action = .tag → st.permit = some p →
            ((s.permit p).state ≠ .draft → (s.permit p).state ≠ .ready → v = .fail .permitState) ∧
            ((s.permit p).state = .draft ∨ (s.permit p).state = .ready → v = .fail .tagSetFull)) ∧
          (∀ p, st.action = .untag → st.permit = some p →
            ((s.permit p).state = .suspended → v = .fail .suspended) ∧
            ((s.permit p).state ≠ .suspended → v = .fail .permitState))) ∧
        (interlock →
          (v = .fail .guardFalse ↔ ¬ guard) ∧
          (guard → (v = .noTruck ↔ (s.truck st.truck).state ≠ .onAir)) ∧
          (guard → (v = .pass ↔ (s.truck st.truck).state = .onAir)))))

/-- R154, R155, R157, R160, R162 to R166: PROGRAM START, PROGRAM HALT, PROGRAM RESUME with and without the skip flag, PROGRAM
ABORT with and without an outstanding step, and PROGRAM CLEAR, by the state of the program. HALT and ABORT with their notices
and all else as it stood, where the end of the program's waits lets no other group move up. (The cells of a step go by program
and step number alone: DESIGN CHOICE, log 32. Where a skip leaves no step, the program becomes DONE with its halt reason as it
stood, STEP STATE before PROGRAM STATE: DEDUCED, log 21.) -/
def Obligations.ProgramControl : Prop :=
  ((∀ (s s1 : State) (c : Fin 64) (g : Nat), AtCard s c .programStart s1 →
      let r := s1.card c
      let x := s1.program g
      let started := { s1 with
                       programs := tableSet {} s1.programs g
                         { x with state := .running, halt := .none, timeStarted := s1.clock } }.raise
          { kind := .programState, reason := 2, program := x.number }
      1 ≤ r.num 8 → r.num 8 ≤ 65534 → s1.findProgram (r.num 8) = some g →
      (∀ st, x.state = .loaded → x.mode = .stepped → x.step 1 = some st →
        exec (.programStart c) s = .next (answeredAs s started c (.ok [toWord st.state.code]))) ∧
      (∀ st, x.state = .loaded → x.mode = .chained → x.next = 1 → x.step 1 = some st →
        started.releaseVerdict g 1 st = .pass → started.groupWaits st.truck [started.stepCell g 1 st] = false →
        exec (.programStart c) s = .next (answeredAs s (started.releaseStep g 1 st) c (.ok [1]))) ∧
      (x.state = .done ∨ x.state = .aborted →
        exec (.programStart c) s = .next (answeredAs s s1 c (.wrongState .finished))) ∧
      (x.state = .running ∨ x.state = .halting ∨ x.state = .halted →
        exec (.programStart c) s = .next (answeredAs s s1 c (.wrongState .notReady)))) ∧
   (∀ (s s1 : State) (c : Fin 64) (g : Nat),
      let r := s1.card c
      let x := s1.program g
      1 ≤ r.num 8 → r.num 8 ≤ 65534 → s1.findProgram (r.num 8) = some g →
      (AtCard s c .programHalt s1 → x.state = .running → ∃ u : State,
        exec (.programHalt c) s = .next (answeredAs s u c .ok) ∧ (u.program g).halt = .operator ∧
        (x.hasOutstanding = true → (u.program g).state = .halting) ∧
        (x.hasOutstanding = false → (u.program g).state = .halted) ∧
        (∀ st ∈ (u.program g).steps, st.pending = .none) ∧
        (u.program g).steps = x.steps.map (fun st => { st with pending := .none })) ∧
      (AtCard s c .programHalt s1 → x.state = .running → s1.Canonical → s1.NoneMovesUp x.number →
        ∃ lists, s1.ListsWithout x.number lists ∧
        let halted (st : ProgramState) : State := { s1 with
          lists := lists
          programs := tableSet {} s1.programs g
            { x with state := st, halt := .operator, steps := x.steps.map fun y => { y with pending := .none } } }
        (x.hasOutstanding = true → exec (.programHalt c) s = .next (answeredAs s (halted .halting) c .ok)) ∧
        (x.hasOutstanding = false → exec (.programHalt c) s = .next (answeredAs s ((halted .halted).raise
          { kind := .programHalted, reason := 1, program := x.number, step := x.next }) c .ok))) ∧
      (AtCard s c .programHalt s1 → (x.state = .halting ∨ x.state = .halted) →
        exec (.programHalt c) s = .next (answeredAs s s1 c .ok)) ∧
      (∀ st, AtCard s c .programResume s1 → r.num 9 = 0 → x.state = .halted → x.mode = .stepped → x.next ≤ x.steps.length →
        x.step x.next = some st →
        exec (.programResume c) s = .next (answeredAs s
          ({ s1 with
             programs := tableSet {} s1.programs g
               { x with state := .running, halt := .none, steps := x.steps.modify (x.next - 1) Step.retried } }.raise
            { kind := .programState, reason := 2, program := x.number }) c (.ok [2]))) ∧
      (∀ st, AtCard s c .programResume s1 → r.num 9 = 1 → x.state = .halted → x.step x.next = some st →
        st.state = .executed → exec (.programResume c) s = .next (answeredAs s s1 c (.wrongState .stepExecuted))) ∧
      (AtCard s c .programHalt s1 → x.state = .loaded →
        exec (.programHalt c) s = .next (answeredAs s s1 c (.wrongState .notReady))) ∧
      (AtCard s c .programHalt s1 → (x.state = .done ∨ x.state = .aborted) →
        exec (.programHalt c) s = .next (answeredAs s s1 c (.wrongState .finished))) ∧
      (AtCard s c .programResume s1 → 1 < r.num 9 → exec (.programResume c) s = .next (answeredAs s s1 c (.badField 9))) ∧
      (AtCard s c .programResume s1 → r.num 9 ≤ 1 → (x.state = .loaded ∨ x.state = .running) →
        exec (.programResume c) s = .next (answeredAs s s1 c (.wrongState .notReady))) ∧
      (AtCard s c .programResume s1 → r.num 9 ≤ 1 → x.state = .halting →
        exec (.programResume c) s = .next (answeredAs s s1 c (.wrongState .stepOutstanding))) ∧
      (AtCard s c .programResume s1 → r.num 9 ≤ 1 → (x.state = .done ∨ x.state = .aborted) →
        exec (.programResume c) s = .next (answeredAs s s1 c (.wrongState .finished))) ∧
      (∀ st, AtCard s c .programResume s1 → r.num 9 = 0 → x.state = .halted → x.mode = .chained →
        x.step x.next = some st → (st.state = .pending ∨ st.state = .refused) →
        let again := if st.state = .refused then { st with state := .pending, refusal := .none, wrong := 0 } else st
        let begun := { s1 with
          programs := tableSet {} s1.programs g
            { x with state := .running, halt := .none, steps := x.steps.modify (x.next - 1) fun _ => again } }.raise
          { kind := .programState, reason := 2, program := x.number }
        begun.releaseVerdict g x.next again = .pass →
        begun.groupWaits st.truck [begun.stepCell g x.next again] = false →
        exec (.programResume c) s = .next (answeredAs s (begun.releaseStep g x.next again) c (.ok [2]))) ∧
      (∀ st, AtCard s c .programResume s1 → r.num 9 = 1 → x.state = .halted → x.step x.next = some st →
        (st.state = .pending ∨ st.state = .refused) →
        let y := { x with steps := x.steps.modify (x.next - 1) fun z => { z with state := .skipped } }
        let skipped : Notice := { kind := .stepState, reason := 6, program := x.number, step := x.next
                                  device := st.device, item := (s1.device st.device).id }
        (x.steps.length < y.firstOpen → exec (.programResume c) s = .next (answeredAs s
          (({ s1 with
              programs := tableSet {} s1.programs g { y with state := .done, next := y.firstOpen, timeEnded := s1.clock } }.raise skipped).raise
            { kind := .programState, reason := 5, program := x.number }) c (.ok [5]))) ∧
        (y.firstOpen ≤ x.steps.length → x.mode = .stepped → exec (.programResume c) s = .next (answeredAs s
          (({ s1 with
              programs := tableSet {} s1.programs g { y with state := .running, halt := .none, next := y.firstOpen } }.raise
            { kind := .programState, reason := 2, program := x.number }).raise skipped) c (.ok [2])))) ∧
      (AtCard s c .programAbort s1 → (x.state = .done ∨ x.state = .aborted) →
        exec (.programAbort c) s = .next (answeredAs s s1 c (.wrongState .finished))) ∧
      (AtCard s c .programAbort s1 → x.live = true → (∃ st ∈ x.steps, st.state = .executed) →
        exec (.programAbort c) s = .next (answeredAs s s1 c (.wrongState .stepExecuted))) ∧
      (∀ k st, AtCard s c .programAbort s1 → x.live = true → s1.Canonical → (∀ t, (s1.list t).waiting = []) →
        x.step k = some st → (st.state = .released ∨ st.state = .readBack) →
        (∀ j z, j ≠ k → x.step j = some z → z.state ≠ .released ∧ z.state ≠ .readBack ∧ z.state ≠ .executed) → ∃ u : State,
        exec (.programAbort c) s = .next (answeredAs s u c .ok) ∧ (u.program g).state = .aborted ∧
        (u.program g).timeEnded = s1.clock ∧
        (u.program g).step k = some { st with state := .pending, pending := .none, wrong := 0, instruction := .none } ∧
        (u.device st.device).outstanding = none ∧ (u.list st.truck).present (.stepCancel x.number k) = true ∧
        (∀ e ∈ (u.list st.truck).cells, isStepCell x.number k e.cell = false ∧ isReadbackOk x.number k e.cell = false ∧
          isReadbackWrong x.number k e.cell = false) ∧
        ((s1.list st.truck).present (.stepCancel x.number k) = false → (u.program g).cancels = x.cancels + 1) ∧
        (∀ p, st.action = .tag → st.permit = some p → (u.permit p).tagSteps = (s1.permit p).tagSteps - 1) ∧
        (∀ t, t ≠ st.truck → u.list t = s1.list t) ∧ (∀ d, d ≠ st.device → u.device d = s1.device d) ∧
        (∀ i, i ≠ g → u.program i = s1.program i) ∧
        u.program g = { x with
          state := .aborted, timeEnded := s1.clock, cancels := (u.program g).cancels
          steps := (x.steps.modify (k - 1) fun y => { y with state := .pending, wrong := 0, instruction := .none }).map
            fun y => { y with pending := .none } } ∧
        u.device st.device = { s1.device st.device with outstanding := none } ∧
        u = { s1 with
          programs := u.programs, devices := u.devices, permits := u.permits, lists := u.lists, ageCounter := u.ageCounter
          mem := u.mem, hold := u.hold, missed := u.missed } ∧
        let told : List Notice :=
          [{ kind := .stepState, reason := 7, program := x.number, step := k, device := st.device
             item := (s1.device st.device).id },
           { kind := .programState, reason := 6, program := x.number }]
        let ended (p : Nat) : Permit := { s1.permit p with tagSteps := (s1.permit p).tagSteps - 1 }
        let closes (p : Nat) : Prop := st.action = .tag ∧ st.permit = some p ∧
          ((s1.permit p).state = .surrendered ∨ (s1.permit p).state = .cancelled) ∧ (ended p).tagsHeld = 0 ∧
          (ended p).tagSteps = 0
        ((∀ p, ¬ closes p) → s1.BoardAfter u told) ∧
        (∀ p, closes p → s1.BoardAfter u
          ({ kind := .permitClosed, permit := p, permitNumber := (s1.permit p).number } :: told)) ∧
        (∀ p, u.permit p =
          if closes p then { ended p with state := .closed, timeClosed := s1.clock, timeChanged := s1.clock }
          else if st.action = .tag ∧ st.permit = some p then ended p else s1.permit p)) ∧
      (AtCard s c .programAbort s1 → x.live = true → x.hasOutstanding = false → ∃ u : State,
        exec (.programAbort c) s = .next (answeredAs s u c .ok) ∧ (u.program g).state = .aborted ∧
        (u.program g).timeEnded = s1.clock ∧
        (u.program g).steps = x.steps.map (fun st => { st with pending := .none })) ∧
      (AtCard s c .programAbort s1 → x.live = true → x.hasOutstanding = false → s1.Canonical → s1.NoneMovesUp x.number →
        ∃ lists, s1.ListsWithout x.number lists ∧
        exec (.programAbort c) s = .next (answeredAs s ({ s1 with
          lists := lists
          programs := tableSet {} s1.programs g { x with
            state := .aborted, timeEnded := s1.clock, steps := x.steps.map fun (y : Step) => { y with pending := .none } } }.raise
          { kind := .programState, reason := 6, program := x.number }) c .ok)) ∧
      (AtCard s c .programClear s1 → (x.state = .loaded ∨ x.state = .done ∨ x.state = .aborted) → x.cancels = 0 →
        exec (.programClear c) s = .next (answeredAs s { s1 with programs := tableSet {} s1.programs g {} } c
          (.ok [toWord g]))) ∧
      (AtCard s c .programClear s1 → (x.state = .loaded ∨ x.state = .done ∨ x.state = .aborted) → 0 < x.cancels →
        exec (.programClear c) s = .next (answeredAs s s1 c (.wrongState .stepOutstanding))))) ∧
  (∀ (s s1 : State) (c : Fin 64), let r := s1.card c
     (AtCard s c .programClear s1 → (r.num 8 = 0 ∨ 65534 < r.num 8) →
       exec (.programClear c) s = .next (answeredAs s s1 c (.badField 8))) ∧
     (AtCard s c .programClear s1 → 1 ≤ r.num 8 → r.num 8 ≤ 65534 → s1.findProgram (r.num 8) = none →
       exec (.programClear c) s = .next (answeredAs s s1 c (.noSuch 8))) ∧
     (∀ g, AtCard s c .programClear s1 → 1 ≤ r.num 8 → r.num 8 ≤ 65534 → s1.findProgram (r.num 8) = some g →
       ((s1.program g).state = .running ∨ (s1.program g).state = .halting ∨ (s1.program g).state = .halted) →
       exec (.programClear c) s = .next (answeredAs s s1 c (.wrongState .notReady))))

/-- R154 to R157: STEP RELEASE by the state of the program and of the step; of a step of a RUNNING program that is PENDING
without a wait or REFUSED: OUT OF ORDER where it is not the program's next, with STEP REFUSED, and the program HALTED, or
HALTING while a step of it is outstanding; REFUSED with the program HALTED when check 3, 4 or 5 fails (both in full where the
end of the program's waits lets no other group move up); left waiting with pending detail TRUCK when its truck is not ON AIR,
and with CHANNEL, its STEP cell a group at the end of the truck's queue, when the list has no room; released otherwise. (A
step that already waits is answered with its state, pending detail and refusal reason: DEDUCED, log 16.) -/
def Obligations.StepReleaseTaken : Prop :=
  ∀ (s s1 : State) (c : Fin 64) (g k : Nat) (st : Step), AtCard s c .stepRelease s1 →
    let r := s1.card c
    let x := s1.program g
    let cell := s1.stepCell g k st
    let l := s1.list st.truck
    let sets (y : Step) : Program := { x with steps := x.steps.modify (k - 1) fun _ => y }
    let waits (pending : Pending) : Table Program := tableSet {} s1.programs g (sets { st with pending := pending })
    let told (kind : NoticeKind) (reason : Nat) : Notice :=
      { kind, reason, program := x.number, step := k, device := st.device, item := (s1.device st.device).id }
    1 ≤ r.num 8 → r.num 8 ≤ 65534 → r.num 9 = k → 1 ≤ k → k ≤ 24 → s1.findProgram (r.num 8) = some g →
    x.step k = some st →
    (x.state ≠ .running → exec (.stepRelease c) s = .next (answeredAs s s1 c (.wrongState .notReady))) ∧
    (x.state = .running → (st.state = .released ∨ st.state = .readBack ∨ st.state = .executed) →
      exec (.stepRelease c) s = .next (answeredAs s s1 c (.wrongState .stepOutstanding))) ∧
    (x.state = .running → (st.state = .confirmed ∨ st.state = .skipped) →
      exec (.stepRelease c) s = .next (answeredAs s s1 c (.wrongState .finished))) ∧
    (x.state = .running → st.state = .pending → st.pending ≠ .none →
      exec (.stepRelease c) s = .next (answeredAs s s1 c (.ok [0, toWord st.pending.code, toWord st.refusal.code]))) ∧
    (x.state = .running → (st.state = .pending ∨ st.state = .refused) → (st.state = .pending → st.pending = .none) →
    (s1.releaseVerdict g k st = .pass → s1.groupWaits st.truck [cell] = false → ∃ v : State,
      exec (.stepRelease c) s = .next (answeredAs s (v.raise (told .stepState 1)) c (.ok [1, 0, 0])) ∧
      (v.program g).step k = some { st with
        state := .released, pending := .none, refusal := .none, wrong := 0, instruction := .queued } ∧
      v.device st.device = { s1.device st.device with outstanding := some ⟨g, k⟩ } ∧
      (v.list st.truck).present cell = true ∧
      (∀ p, st.action = .tag → st.permit = some p →
        v.permit p = { s1.permit p with tagSteps := (s1.permit p).tagSteps + 1 }) ∧
      (∀ p, ¬ (st.action = .tag ∧ st.permit = some p) → v.permit p = s1.permit p) ∧
      (∀ i, i ≠ g → v.program i = s1.program i) ∧ (∀ d, d ≠ st.device → v.device d = s1.device d) ∧
      (∀ t, t ≠ st.truck → v.list t = s1.list t) ∧
      (l.present cell = true → v.lists = s1.lists ∧ v.ageCounter = s1.ageCounter) ∧
      (l.present cell = false → v.list st.truck = { l with
        cells := insertEntry s1.ageCounter { cell := cell, age := s1.ageCounter } l.cells } ∧
        v.ageCounter = s1.ageCounter + 1) ∧
      v = { s1 with programs := v.programs, devices := v.devices, permits := v.permits, lists := v.lists
                    ageCounter := v.ageCounter }) ∧
    (s1.releaseVerdict g k st = .pass → l.present cell = false → (l.waiting ≠ [] ∨ 7 ≤ l.countB) →
      exec (.stepRelease c) s = .next (answeredAs s { s1 with
        lists := tableSet {} s1.lists st.truck { l with waiting := l.waiting ++ [[cell]] }, programs := waits .channel } c
        (.ok [toWord st.state.code, 2, toWord st.refusal.code]))) ∧
    (k ≠ x.next → s1.Canonical → s1.NoneMovesUp x.number → ∃ lists, s1.ListsWithout x.number lists ∧
      let y := sets { st with refusal := .outOfOrder }
      let v (state : ProgramState) : State := { s1 with
        lists := lists
        programs := tableSet {} s1.programs g
          { y with state := state, halt := .outOfOrder, steps := y.steps.map fun (z : Step) => { z with pending := .none } } }.raise
        (told .stepRefused 1)
      (x.hasOutstanding = true → exec (.stepRelease c) s = .next (answeredAs s (v .halting) c
        (.ok [toWord st.state.code, 0, 1]))) ∧
      (x.hasOutstanding = false → exec (.stepRelease c) s = .next (answeredAs s ((v .halted).raise
        { kind := .programHalted, reason := 2, program := x.number, step := x.next }) c
        (.ok [toWord st.state.code, 0, 1])))) ∧
    (∀ why, s1.releaseVerdict g k st = .fail why →
      (∀ t, ∀ grp ∈ (s1.list t).waiting, grp.any (isStepOf x.number) = false) → ∃ u : State,
      exec (.stepRelease c) s = .next (answeredAs s u c (.ok [5, 0, toWord why.code])) ∧
      (u.program g).step k = some { st with state := .refused, refusal := why, pending := .none } ∧
      (u.program g).state = .halted ∧ (u.program g).halt = why.toHalt ∧ u.devices = s1.devices ∧
      u.permits = s1.permits ∧ u.trucks = s1.trucks ∧ (∀ i, i ≠ g → u.program i = s1.program i)) ∧
    (∀ why, s1.releaseVerdict g k st = .fail why → s1.Canonical → s1.NoneMovesUp x.number →
      ∃ lists, s1.ListsWithout x.number lists ∧
      let y := sets { st with state := .refused, refusal := why }
      exec (.stepRelease c) s = .next (answeredAs s (({ s1 with
        lists := lists
        programs := tableSet {} s1.programs g { y with
          state := .halted, halt := why.toHalt, steps := y.steps.map fun (z : Step) => { z with pending := .none } } }.raise
        (told .stepRefused why.code)).raise
        { kind := .programHalted, reason := why.toHalt.code, program := x.number, step := x.next }) c
        (.ok [5, 0, toWord why.code]))) ∧
    (s1.releaseVerdict g k st = .noTruck →
      exec (.stepRelease c) s = .next (answeredAs s { s1 with programs := waits .truck } c
        (.ok [toWord st.state.code, 1, toWord st.refusal.code]))))

/-- R160, R161: STEP CONFIRM of an EXECUTED step of an OPEN or CLOSE action on a device that no permit in use lists: the
position with source DISPATCH, the device free again, the step CONFIRMED, the program DONE if no step remains and else on to
its next step; and the refusals by the step's state. R158: a READBACK cell, that matches, that is wrong once or twice, and
wrong the third time (where no group waits for room in any list). R129, R130, R159: an EXECUTED cell: of an OPEN or CLOSE step
under each confirm rule, of a TAG and of an UNTAG step (where no group waits for room in any list, and the program does not go
on to release its next step). STEP CONFIRM, and EXECUTED of an OPEN or CLOSE step, republish the device's entry in any case
(R127). (The cells of a refused step go by program and step number alone: DESIGN CHOICE, log 32.) -/
def Obligations.StepConfirmTaken : Prop :=
  (∀ (s s1 : State) (c : Fin 64) (g k : Nat) (st : Step), AtCard s c .stepConfirm s1 →
    let r := s1.card c
    let x := s1.program g
    1 ≤ r.num 8 → r.num 8 ≤ 65534 → r.num 9 = k → 1 ≤ k → k ≤ 24 → s1.findProgram (r.num 8) = some g →
    x.step k = some st →
    (∀ pos, st.state = .executed → st.action.target = some pos →
      (∀ p < 32, (s1.permit p).inUse = true → ∀ pt ∈ (s1.permit p).points, pt.device ≠ st.device) →
      (x.state = .running → x.mode = .stepped) → ∃ (u : State) (a : Answer),
      exec (.stepConfirm c) s = .next (answeredAs s u c a [deviceBase st.device]) ∧ a.code = .done ∧
      (u.program g).step k = some { st with state := .confirmed } ∧
      (u.program g).next = { x with steps := x.steps.modify (k - 1) fun y => { y with state := .confirmed } }.firstOpen ∧
      (x.steps.length < (u.program g).next → (u.program g).state = .done ∧ (u.program g).timeEnded = s1.clock) ∧
      ((u.program g).next ≤ x.steps.length → x.state = .running → (u.program g).state = .running) ∧
      ((u.program g).next ≤ x.steps.length → x.state = .halting →
        (u.program g).state = .halted ∧ (u.program g).halt = x.halt) ∧
      ((u.program g).next ≤ x.steps.length → x.state = .halted → (u.program g).state = .halted) ∧
      (u.device st.device).position = pos ∧ (u.device st.device).source = .dispatch ∧
      (u.device st.device).outstanding = none ∧ (∀ d, d ≠ st.device → u.device d = s1.device d) ∧
      u.permits = s1.permits ∧ u.lists = s1.lists ∧ u.trucks = s1.trucks) ∧
    ((st.state = .released ∨ st.state = .readBack) →
      exec (.stepConfirm c) s = .next (answeredAs s s1 c (.wrongState .stepOutstanding))) ∧
    ((st.state = .pending ∨ st.state = .refused) →
      exec (.stepConfirm c) s = .next (answeredAs s s1 c (.wrongState .notReady))) ∧
    ((st.state = .confirmed ∨ st.state = .skipped) →
      exec (.stepConfirm c) s = .next (answeredAs s s1 c (.wrongState .finished)))) ∧
  (∀ (s : State) (t number k device : Nat) (action : Action),
    let cells : List UpCell := [.readback number k device action, .executed number k]
    (s.findProgram number = none → ∀ c ∈ cells, s.routeCell t c = s) ∧
    (∀ g, s.findProgram number = some g → (s.program g).step k = none → ∀ c ∈ cells, s.routeCell t c = s) ∧
    (∀ g st, s.findProgram number = some g → (s.program g).step k = some st → st.truck ≠ t →
      ∀ c ∈ cells, s.routeCell t c = s)) ∧
  (∀ (s : State) (t number k device : Nat) (action : Action) (g : Nat) (st : Step),
    s.findProgram number = some g → (s.program g).step k = some st → st.truck = t →
    let x := s.program g
    let cell : UpCell := .readback number k device action
    let same := device = (s.device st.device).id ∧ action = st.action
    let becomes (y : Step) : State := { s with
      programs := tableSet {} s.programs g { x with steps := x.steps.modify (k - 1) fun _ => y } }
    (st.state ≠ .released → st.state ≠ .readBack → s.routeCell t cell = s) ∧
    ((st.state = .released ∨ st.state = .readBack) →
      (same → s.routeCell t cell = (becomes { st with state := .readBack }).addGroup t [.readbackOk number k]) ∧
      (¬ same → st.wrong + 1 < 3 →
        s.routeCell t cell = (becomes { st with state := .released, wrong := st.wrong + 1 }).addGroup t
          [.readbackWrong x.number k (s.device st.device).id st.action (s.stepPermitNumber st)]) ∧
      (¬ same → 3 ≤ st.wrong + 1 → s.Canonical → (∀ i, (s.list i).waiting = []) →
        let u := s.routeCell t cell
        (u.program g).step k = some { st with
          state := .refused, refusal := .readback, wrong := st.wrong + 1, pending := .none
          instruction := if st.instruction = .queued then .none else st.instruction } ∧
        (u.program g).state = .halted ∧ (u.program g).halt = (if x.state = .halted then x.halt else .readback) ∧
        (u.device st.device).outstanding = none ∧ (u.list t).present (.stepCancel x.number k) = true ∧
        (∀ e ∈ (u.list t).cells, isStepCell x.number k e.cell = false ∧ isReadbackWrong x.number k e.cell = false) ∧
        (∀ i, i ≠ t → u.list i = s.list i) ∧ (∀ d, d ≠ st.device → u.device d = s.device d) ∧
        (∀ i, i ≠ g → u.program i = s.program i) ∧ u.trucks = s.trucks))) ∧
  (∀ (s : State) (t number k g : Nat) (st : Step),
    s.findProgram number = some g → (s.program g).step k = some st → st.truck = t →
    let x := s.program g
    let d := s.device st.device
    let cell : UpCell := .executed number k
    let u := s.routeCell t cell
    let places (pos : Position) : Device := { d with
      position := pos, source := .crew, time := if d.position = pos ∧ d.source = .crew then d.time else s.clock }
    let confirms (y : Step) : Prop :=
      let n := { x with steps := x.steps.modify (k - 1) fun _ => y }.firstOpen
      (u.program g).step k = some y ∧ (u.program g).next = n ∧
      (x.steps.length < n → (u.program g).state = .done ∧ (u.program g).timeEnded = s.clock) ∧
      (n ≤ x.steps.length → x.state = .halting → (u.program g).state = .halted ∧ (u.program g).halt = x.halt) ∧
      (n ≤ x.steps.length → x.state ≠ .halting → (u.program g).state = x.state) ∧
      (∀ i, i ≠ g → u.program i = s.program i) ∧ (∀ i, i ≠ st.device → u.device i = s.device i)
    let goesOn := x.state = .running ∧ x.mode = .chained
    (st.state ≠ .readBack → u = s) ∧
    (st.state = .readBack → s.cellRecord t cell = if st.action.target.isSome = true then [deviceBase st.device] else []) ∧
    (∀ pos, st.state = .readBack → st.action.target = some pos →
      (∀ p < 32, (s.permit p).inUse = true → ∀ pt ∈ (s.permit p).points, pt.device ≠ st.device) →
      (st.rule ≠ .crew → u = { s with
          programs := tableSet {} s.programs g { x with steps := x.steps.modify (k - 1) fun _ => { st with state := .executed } }
          devices := tableSet {} s.devices st.device (places pos) }.raise
        { kind := .stepState, reason := 3, program := x.number, step := k, device := st.device, item := d.id }) ∧
      (st.rule = .crew → ¬ goesOn → confirms { st with state := .confirmed } ∧
        u.device st.device = { places pos with outstanding := none } ∧ u.lists = s.lists ∧ u.permits = s.permits ∧
        u.trucks = s.trucks)) ∧
    (∀ p, st.state = .readBack → st.action = .tag → st.permit = some p → ¬ goesOn → (∀ i, (s.list i).waiting = []) →
      (u.permit p).tagSteps = (s.permit p).tagSteps - 1 ∧ u.trucks = s.trucks ∧
      (p ∈ d.tags → confirms { st with state := .confirmed, tagResult := .present } ∧
        u.device st.device = { d with outstanding := none } ∧ (u.permit p).tagsHeld = (s.permit p).tagsHeld) ∧
      (p ∉ d.tags → d.tags.length < 4 → confirms { st with state := .confirmed, tagResult := .added } ∧
        u.device st.device = { d with outstanding := none, tags := d.tags ++ [p] } ∧
        (u.permit p).tagsHeld = (s.permit p).tagsHeld + 1) ∧
      (p ∉ d.tags → 4 ≤ d.tags.length → confirms { st with state := .confirmed, tagResult := .full } ∧
        u.device st.device = { d with outstanding := none } ∧ (u.permit p).tagsHeld = (s.permit p).tagsHeld)) ∧
    (∀ p, st.state = .readBack → st.action = .untag → st.permit = some p → ¬ goesOn → (∀ i, (s.list i).waiting = []) →
      (u.permit p).tagSteps = (s.permit p).tagSteps ∧ u.trucks = s.trucks ∧
      (p ∈ d.tags → confirms { st with state := .confirmed, tagResult := .removed } ∧
        u.device st.device = { d with outstanding := none, tags := d.tags.filter fun q => decide (q ≠ p) } ∧
        (u.permit p).tagsHeld = (s.permit p).tagsHeld - 1) ∧
      (p ∉ d.tags → confirms { st with state := .confirmed, tagResult := .absent } ∧
        u.device st.device = { d with outstanding := none } ∧ (u.permit p).tagsHeld = (s.permit p).tagsHeld)))

end Statements
end

