-- ==== Sys2Proof/Laws/Tables.lean ====
section
/-! SUPPORT. Laws of sparse tables and of addressed bytes: read after write, other places unchanged, the canonical form kept. -/

namespace Sys2Proof.Machine

variable {α : Type}

theorem tableGet_erase_same (d : α) (t : Table α) (i : Nat) : tableGet d (tableErase i t) i = d := by
  induction t with
  | nil => rfl
  | cons e rest ih =>
    obtain ⟨j, a⟩ := e
    by_cases h : j = i
    · simpa [tableErase, h] using ih
    · simpa [tableErase, tableGet, h] using ih

theorem tableGet_erase_other (d : α) (t : Table α) {i j : Nat} (h : j ≠ i) :
    tableGet d (tableErase i t) j = tableGet d t j := by
  induction t with
  | nil => rfl
  | cons e rest ih =>
    obtain ⟨k, a⟩ := e
    by_cases hk : k = i
    · have : k ≠ j := fun e => h (e.symm.trans hk)
      simpa [tableErase, tableGet, hk, this, hk ▸ this] using ih
    · by_cases hj : k = j
      · simp [tableErase, tableGet, hj]
        simp [hj ▸ hk, tableGet]
      · simpa [tableErase, tableGet, hk, hj] using ih

theorem tableGet_insert_same (d : α) (t : Table α) (i : Nat) (a : α) (h : ∀ e ∈ t, e.1 ≠ i) :
    tableGet d (tableInsert i a t) i = a := by
  induction t with
  | nil => simp [tableInsert, tableGet]
  | cons e rest ih =>
    obtain ⟨j, b⟩ := e
    have hj : j ≠ i := h (j, b) (by simp)
    by_cases hlt : i < j
    · simp [tableInsert, tableGet, hlt]
    · simpa [tableInsert, tableGet, hlt, hj] using ih fun e he => h e (by simp [he])

theorem tableGet_insert_other (d : α) (t : Table α) {i j : Nat} (a : α) (h : j ≠ i) :
    tableGet d (tableInsert i a t) j = tableGet d t j := by
  induction t with
  | nil => simp [tableInsert, tableGet, Ne.symm h]
  | cons e rest ih =>
    obtain ⟨k, b⟩ := e
    by_cases hlt : i < k
    · simp [tableInsert, tableGet, hlt, Ne.symm h]
    · simp only [tableInsert, hlt, if_false, tableGet]
      rw [ih]

theorem tableErase_keys (t : Table α) (i : Nat) : ∀ e ∈ tableErase i t, e.1 ≠ i := by
  induction t with
  | nil => simp [tableErase]
  | cons e rest ih =>
    obtain ⟨j, a⟩ := e
    by_cases h : j = i
    · simpa [tableErase, h] using ih
    · intro e he
      simp only [tableErase, h, if_false, List.mem_cons] at he
      rcases he with rfl | he
      · exact h
      · exact ih e he

variable [DecidableEq α]

/-- A record read after it was written. -/
@[simp] theorem tableGet_set_same (d : α) (t : Table α) (i : Nat) (a : α) : tableGet d (tableSet d t i a) i = a := by
  unfold tableSet
  split
  · next h => rw [h]; exact tableGet_erase_same d t i
  · exact tableGet_insert_same d _ i a (tableErase_keys t i)

/-- A record other than the one written. -/
@[simp] theorem tableGet_set_other (d : α) (t : Table α) {i j : Nat} (a : α) (h : j ≠ i) :
    tableGet d (tableSet d t i a) j = tableGet d t j := by
  unfold tableSet
  split
  · exact tableGet_erase_other d t h
  · rw [tableGet_insert_other d _ a h, tableGet_erase_other d t h]

theorem tableGet_set (d : α) (t : Table α) (i j : Nat) (a : α) :
    tableGet d (tableSet d t i a) j = if j = i then a else tableGet d t j := by
  by_cases h : j = i
  · simp [h]
  · simp [h]

/-! ### A record written twice -/

omit [DecidableEq α] in
theorem tableErase_insert (i : Nat) (a : α) (t : Table α) : tableErase i (tableInsert i a t) = tableErase i t := by
  induction t with
  | nil => simp [tableInsert, tableErase]
  | cons e rest ih =>
    obtain ⟨j, b⟩ := e
    unfold tableInsert
    split
    · simp [tableErase]
    · simp only [tableErase]
      split <;> simp [ih]

omit [DecidableEq α] in
theorem tableErase_erase (i : Nat) (t : Table α) : tableErase i (tableErase i t) = tableErase i t := by
  induction t with
  | nil => rfl
  | cons e rest ih =>
    obtain ⟨j, b⟩ := e
    simp only [tableErase]
    split
    · exact ih
    · next h => simp [tableErase, ih, h]

/-- A record written twice holds the second value, and nothing of the first remains. -/
@[simp] theorem tableSet_set (d : α) (t : Table α) (i : Nat) (a b : α) :
    tableSet d (tableSet d t i a) i b = tableSet d t i b := by
  have h : tableErase i (tableSet d t i a) = tableErase i t := by
    unfold tableSet
    split
    · exact tableErase_erase i t
    · rw [tableErase_insert, tableErase_erase]
  have e (u : Table α) : tableSet d u i b = if b = d then tableErase i u else tableInsert i b (tableErase i u) := rfl
  rw [e, h, ← e]

/-! ### The canonical form -/

omit [DecidableEq α] in
theorem tableErase_all {p : Nat × α → Bool} (t : Table α) (i : Nat) (h : t.all p = true) :
    (tableErase i t).all p = true := by
  induction t with
  | nil => exact h
  | cons e rest ih =>
    obtain ⟨j, a⟩ := e
    simp only [List.all_cons, Bool.and_eq_true] at h
    by_cases hj : j = i
    · simpa [tableErase, hj] using ih h.2
    · simp only [tableErase, hj, if_false, List.all_cons, Bool.and_eq_true]
      exact ⟨h.1, ih h.2⟩

omit [DecidableEq α] in
theorem tableInsert_all {p : Nat × α → Bool} (t : Table α) (i : Nat) (a : α) (h : t.all p = true) (hp : p (i, a) = true) :
    (tableInsert i a t).all p = true := by
  induction t with
  | nil => simp [tableInsert, hp]
  | cons e rest ih =>
    obtain ⟨j, b⟩ := e
    by_cases hlt : i < j
    · simp only [tableInsert, hlt, if_true, List.all_cons, Bool.and_eq_true]
      exact ⟨hp, by simpa using h⟩
    · simp only [List.all_cons, Bool.and_eq_true] at h
      simp only [tableInsert, hlt, if_false, List.all_cons, Bool.and_eq_true]
      exact ⟨h.1, ih h.2⟩

theorem tableWf_erase (d : α) (t : Table α) (i : Nat) (h : tableWf d t = true) : tableWf d (tableErase i t) = true := by
  induction t with
  | nil => exact h
  | cons e rest ih =>
    obtain ⟨j, a⟩ := e
    simp only [tableWf, Bool.and_eq_true] at h
    by_cases hj : j = i
    · simpa [tableErase, hj] using ih h.2
    · simp only [tableErase, hj, if_false, tableWf, Bool.and_eq_true]
      exact ⟨⟨h.1.1, tableErase_all rest i h.1.2⟩, ih h.2⟩

omit [DecidableEq α] in
theorem all_gt_of_lt {i j : Nat} (t : Table α) (h : t.all (fun p => decide (j < p.1)) = true) (hij : i < j) :
    t.all (fun p => decide (i < p.1)) = true := by
  simp only [List.all_eq_true, decide_eq_true_eq] at h ⊢
  exact fun e he => Nat.lt_trans hij (h e he)

theorem tableWf_insert (d : α) (t : Table α) (i : Nat) (a : α) (h : tableWf d t = true) (ha : a ≠ d)
    (hk : ∀ e ∈ t, e.1 ≠ i) : tableWf d (tableInsert i a t) = true := by
  induction t with
  | nil => simp [tableInsert, tableWf, ha]
  | cons e rest ih =>
    obtain ⟨j, b⟩ := e
    have hj : j ≠ i := hk (j, b) (by simp)
    by_cases hlt : i < j
    · have h2 := h
      simp only [tableWf, Bool.and_eq_true] at h2
      simp only [tableInsert, hlt, if_true]
      unfold tableWf
      simp only [Bool.and_eq_true, List.all_cons]
      exact ⟨⟨by simp [ha], by simp [hlt], all_gt_of_lt rest h2.1.2 hlt⟩, h⟩
    · simp only [tableWf, Bool.and_eq_true] at h
      simp only [tableInsert, hlt, if_false, tableWf, Bool.and_eq_true]
      refine ⟨⟨h.1.1, tableInsert_all rest i a h.1.2 ?_⟩, ih h.2 fun e he => hk e (by simp [he])⟩
      simp only [decide_eq_true_eq]
      omega

/-- Every write keeps the canonical form. -/
theorem tableWf_set (d : α) (t : Table α) (i : Nat) (a : α) (h : tableWf d t = true) : tableWf d (tableSet d t i a) = true := by
  unfold tableSet
  split
  · exact tableWf_erase d t i h
  · next ha => exact tableWf_insert d _ i a (tableWf_erase d t i h) ha (tableErase_keys t i)

/-! ### Memory -/

@[simp] theorem memByte_set_same (m : Memory) (a : Nat) (b : Byte) : memByte (memSetByte m a b) a = b :=
  tableGet_set_same 0 m a b

@[simp] theorem memByte_set_other (m : Memory) {a a' : Nat} (b : Byte) (h : a' ≠ a) :
    memByte (memSetByte m a b) a' = memByte m a' := tableGet_set_other 0 m b h

theorem memoryWf_setByte (m : Memory) (a : Nat) (b : Byte) (h : Memory.wf m = true) : Memory.wf (memSetByte m a b) = true :=
  tableWf_set 0 m a b h

theorem memoryWf_setWord (m : Memory) (w : Nat) (v : Word) (h : Memory.wf m = true) : Memory.wf (memSetWord m w v) = true :=
  memoryWf_setByte _ _ _ (memoryWf_setByte _ _ _ h)

theorem memoryWf_setWords (m : Memory) (w : Nat) (l : List Word) (h : Memory.wf m = true) :
    Memory.wf (memSetWords m w l) = true := by
  induction l generalizing m w with
  | nil => exact h
  | cons v rest ih => exact ih _ _ (memoryWf_setWord m w v h)

theorem memoryWf_setBytes (m : Memory) (a : Nat) (l : List Byte) (h : Memory.wf m = true) :
    Memory.wf (memSetBytes m a l) = true := by
  induction l generalizing m a with
  | nil => exact h
  | cons b rest ih => exact ih _ _ (memoryWf_setByte m a b h)

theorem high_low (v : Word) : (highByte v ++ lowByte v : Word) = v := by
  apply BitVec.eq_of_getLsbD_eq
  intro i hi
  simp only [highByte, lowByte, BitVec.getLsbD_append, BitVec.getLsbD_setWidth, BitVec.getLsbD_ushiftRight]
  by_cases h : i < 8
  · simp [h]
  · have h1 : i - 8 < 8 := by omega
    have h2 : 8 + (i - 8) = i := by omega
    simp [h, h1, h2]

/-- A word read after it was written. -/
@[simp] theorem memWord_set_same (m : Memory) (w : Nat) (v : Word) : memWord (memSetWord m w v) w = v := by
  unfold memWord memSetWord
  rw [memByte_set_same, memByte_set_other _ _ (by omega), memByte_set_same]
  exact high_low v

/-- A word other than the one written. -/
@[simp] theorem memWord_set_other (m : Memory) {w w' : Nat} (v : Word) (h : w' ≠ w) :
    memWord (memSetWord m w v) w' = memWord m w' := by
  unfold memWord memSetWord
  rw [memByte_set_other _ _ (by omega), memByte_set_other _ _ (by omega), memByte_set_other _ _ (by omega),
    memByte_set_other _ _ (by omega)]

/-- Words outside the ones written. -/
theorem memWord_setWords_outside (m : Memory) (w : Nat) (l : List Word) {w' : Nat} (h : w' < w ∨ w + l.length ≤ w') :
    memWord (memSetWords m w l) w' = memWord m w' := by
  induction l generalizing m w with
  | nil => rfl
  | cons v rest ih =>
    simp only [List.length_cons] at h
    simp only [memSetWords]
    rw [ih (memSetWord m w v) (w + 1) (by omega), memWord_set_other _ _ (by omega)]

/-- Word number i of the ones written. -/
theorem memWord_setWords_inside (m : Memory) (w : Nat) (l : List Word) {i : Nat} (h : i < l.length) :
    memWord (memSetWords m w l) (w + i) = l.getD i 0 := by
  induction l generalizing m w i with
  | nil => simp at h
  | cons v rest ih =>
    simp only [memSetWords]
    cases i with
    | zero => rw [memWord_setWords_outside _ _ _ (by omega)]; simp
    | succ j =>
      have := ih (memSetWord m w v) (w + 1) (i := j) (by simpa using h)
      rw [show w + (j + 1) = w + 1 + j by omega, this]
      simp

end Sys2Proof.Machine
end

