-- ==== Sys2Proof/Laws/State.lean ====
section
/-! SUPPORT. Projections of State after each update: one lemma for each field and each update, and the records read after a record
is written. -/

namespace Sys2Proof.Machine

variable (s : State) (i j : Nat)

/-! ### setTruck -/

@[simp] theorem State.setTruck_clock (a : Truck) : (s.setTruck i a).clock = s.clock := rfl
@[simp] theorem State.setTruck_roundNumber (a : Truck) : (s.setTruck i a).roundNumber = s.roundNumber := rfl
@[simp] theorem State.setTruck_siteCode (a : Truck) : (s.setTruck i a).siteCode = s.siteCode := rfl
@[simp] theorem State.setTruck_modemReady (a : Truck) : (s.setTruck i a).modemReady = s.modemReady := rfl
@[simp] theorem State.setTruck_round (a : Truck) : (s.setTruck i a).round = s.round := rfl
@[simp] theorem State.setTruck_modemOut (a : Truck) : (s.setTruck i a).modemOut = s.modemOut := rfl
@[simp] theorem State.setTruck_ageCounter (a : Truck) : (s.setTruck i a).ageCounter = s.ageCounter := rfl
@[simp] theorem State.setTruck_lists (a : Truck) : (s.setTruck i a).lists = s.lists := rfl
@[simp] theorem State.setTruck_links (a : Truck) : (s.setTruck i a).links = s.links := rfl
@[simp] theorem State.setTruck_noise (a : Truck) : (s.setTruck i a).noise = s.noise := rfl
@[simp] theorem State.setTruck_siteClipped (a : Truck) : (s.setTruck i a).siteClipped = s.siteClipped := rfl
@[simp] theorem State.setTruck_settings (a : Truck) : (s.setTruck i a).settings = s.settings := rfl
@[simp] theorem State.setTruck_pointerA (a : Truck) : (s.setTruck i a).pointerA = s.pointerA := rfl
@[simp] theorem State.setTruck_pointerB (a : Truck) : (s.setTruck i a).pointerB = s.pointerB := rfl
@[simp] theorem State.setTruck_pointerC (a : Truck) : (s.setTruck i a).pointerC = s.pointerC := rfl
@[simp] theorem State.setTruck_quiet (a : Truck) : (s.setTruck i a).quiet = s.quiet := rfl
@[simp] theorem State.setTruck_quietStart (a : Truck) : (s.setTruck i a).quietStart = s.quietStart := rfl
@[simp] theorem State.setTruck_quietEnd (a : Truck) : (s.setTruck i a).quietEnd = s.quietEnd := rfl
@[simp] theorem State.setTruck_lastQuietCause (a : Truck) : (s.setTruck i a).lastQuietCause = s.lastQuietCause := rfl
@[simp] theorem State.setTruck_slotsPlanned (a : Truck) : (s.setTruck i a).slotsPlanned = s.slotsPlanned := rfl
@[simp] theorem State.setTruck_counters (a : Truck) : (s.setTruck i a).counters = s.counters := rfl
@[simp] theorem State.setTruck_workers (a : Truck) : (s.setTruck i a).workers = s.workers := rfl
@[simp] theorem State.setTruck_strayId (a : Truck) : (s.setTruck i a).strayId = s.strayId := rfl
@[simp] theorem State.setTruck_strayTime (a : Truck) : (s.setTruck i a).strayTime = s.strayTime := rfl
@[simp] theorem State.setTruck_orders (a : Truck) : (s.setTruck i a).orders = s.orders := rfl
@[simp] theorem State.setTruck_pool (a : Truck) : (s.setTruck i a).pool = s.pool := rfl
@[simp] theorem State.setTruck_freePages (a : Truck) : (s.setTruck i a).freePages = s.freePages := rfl
@[simp] theorem State.setTruck_orderSeq (a : Truck) : (s.setTruck i a).orderSeq = s.orderSeq := rfl
@[simp] theorem State.setTruck_queues (a : Truck) : (s.setTruck i a).queues = s.queues := rfl
@[simp] theorem State.setTruck_watches (a : Truck) : (s.setTruck i a).watches = s.watches := rfl
@[simp] theorem State.setTruck_truckAlarms (a : Truck) : (s.setTruck i a).truckAlarms = s.truckAlarms := rfl
@[simp] theorem State.setTruck_devices (a : Truck) : (s.setTruck i a).devices = s.devices := rfl
@[simp] theorem State.setTruck_permits (a : Truck) : (s.setTruck i a).permits = s.permits := rfl
@[simp] theorem State.setTruck_programs (a : Truck) : (s.setTruck i a).programs = s.programs := rfl
@[simp] theorem State.setTruck_mem (a : Truck) : (s.setTruck i a).mem = s.mem := rfl
@[simp] theorem State.setTruck_published (a : Truck) : (s.setTruck i a).published = s.published := rfl
@[simp] theorem State.setTruck_passages (a : Truck) : (s.setTruck i a).passages = s.passages := rfl
@[simp] theorem State.setTruck_hold (a : Truck) : (s.setTruck i a).hold = s.hold := rfl
@[simp] theorem State.setTruck_scan (a : Truck) : (s.setTruck i a).scan = s.scan := rfl
@[simp] theorem State.setTruck_callPending (a : Truck) : (s.setTruck i a).callPending = s.callPending := rfl
@[simp] theorem State.setTruck_copies (a : Truck) : (s.setTruck i a).copies = s.copies := rfl
@[simp] theorem State.setTruck_refusedWrite (a : Truck) : (s.setTruck i a).refusedWrite = s.refusedWrite := rfl
@[simp] theorem State.setTruck_missed (a : Truck) : (s.setTruck i a).missed = s.missed := rfl
@[simp] theorem State.setTruck_writeRefused (a : Truck) : (s.setTruck i a).writeRefused = s.writeRefused := rfl
@[simp] theorem State.setTruck_cardFault (a : Truck) : (s.setTruck i a).cardFault = s.cardFault := rfl
@[simp] theorem State.setTruck_portResetDone (a : Truck) : (s.setTruck i a).portResetDone = s.portResetDone := rfl
@[simp] theorem State.setTruck_noticeEnable (a : Truck) : (s.setTruck i a).noticeEnable = s.noticeEnable := rfl
@[simp] theorem State.setTruck_transmitEnable (a : Truck) : (s.setTruck i a).transmitEnable = s.transmitEnable := rfl
@[simp] theorem State.setTruck_authority (a : Truck) : (s.setTruck i a).authority = s.authority := rfl
@[simp] theorem State.setTruck_pending (a : Truck) : (s.setTruck i a).pending = s.pending := rfl

@[simp] theorem State.setTruck_link (a : Truck) : (s.setTruck i a).link j = s.link j := rfl
@[simp] theorem State.setTruck_counter (a : Truck) : (s.setTruck i a).counter j = s.counter j := rfl
@[simp] theorem State.setTruck_list (a : Truck) : (s.setTruck i a).list j = s.list j := rfl
@[simp] theorem State.setTruck_queue (a : Truck) : (s.setTruck i a).queue j = s.queue j := rfl
@[simp] theorem State.setTruck_truckAlarm (a : Truck) : (s.setTruck i a).truckAlarm j = s.truckAlarm j := rfl
@[simp] theorem State.setTruck_worker (a : Truck) : (s.setTruck i a).worker j = s.worker j := rfl
@[simp] theorem State.setTruck_watch (a : Truck) : (s.setTruck i a).watch j = s.watch j := rfl
@[simp] theorem State.setTruck_order (a : Truck) : (s.setTruck i a).order j = s.order j := rfl
@[simp] theorem State.setTruck_device (a : Truck) : (s.setTruck i a).device j = s.device j := rfl
@[simp] theorem State.setTruck_permit (a : Truck) : (s.setTruck i a).permit j = s.permit j := rfl
@[simp] theorem State.setTruck_program (a : Truck) : (s.setTruck i a).program j = s.program j := rfl
@[simp] theorem State.setTruck_truck_same (a : Truck) : (s.setTruck i a).truck i = a := tableGet_set_same _ _ _ _
@[simp] theorem State.setTruck_truck_other (a : Truck) (h : j ≠ i) : (s.setTruck i a).truck j = s.truck j := tableGet_set_other _ _ _ h
theorem State.setTruck_truck (a : Truck) : (s.setTruck i a).truck j = if j = i then a else s.truck j := tableGet_set _ _ _ _ _
@[simp] theorem State.setTruck_rawWord (a : Truck) : (s.setTruck i a).rawWord j = s.rawWord j := rfl
@[simp] theorem State.setTruck_card (a : Truck) : (s.setTruck i a).card j = s.card j := rfl

/-! ### setLink -/

@[simp] theorem State.setLink_clock (a : Link) : (s.setLink i a).clock = s.clock := rfl
@[simp] theorem State.setLink_roundNumber (a : Link) : (s.setLink i a).roundNumber = s.roundNumber := rfl
@[simp] theorem State.setLink_siteCode (a : Link) : (s.setLink i a).siteCode = s.siteCode := rfl
@[simp] theorem State.setLink_modemReady (a : Link) : (s.setLink i a).modemReady = s.modemReady := rfl
@[simp] theorem State.setLink_round (a : Link) : (s.setLink i a).round = s.round := rfl
@[simp] theorem State.setLink_modemOut (a : Link) : (s.setLink i a).modemOut = s.modemOut := rfl
@[simp] theorem State.setLink_ageCounter (a : Link) : (s.setLink i a).ageCounter = s.ageCounter := rfl
@[simp] theorem State.setLink_lists (a : Link) : (s.setLink i a).lists = s.lists := rfl
@[simp] theorem State.setLink_noise (a : Link) : (s.setLink i a).noise = s.noise := rfl
@[simp] theorem State.setLink_siteClipped (a : Link) : (s.setLink i a).siteClipped = s.siteClipped := rfl
@[simp] theorem State.setLink_settings (a : Link) : (s.setLink i a).settings = s.settings := rfl
@[simp] theorem State.setLink_pointerA (a : Link) : (s.setLink i a).pointerA = s.pointerA := rfl
@[simp] theorem State.setLink_pointerB (a : Link) : (s.setLink i a).pointerB = s.pointerB := rfl
@[simp] theorem State.setLink_pointerC (a : Link) : (s.setLink i a).pointerC = s.pointerC := rfl
@[simp] theorem State.setLink_quiet (a : Link) : (s.setLink i a).quiet = s.quiet := rfl
@[simp] theorem State.setLink_quietStart (a : Link) : (s.setLink i a).quietStart = s.quietStart := rfl
@[simp] theorem State.setLink_quietEnd (a : Link) : (s.setLink i a).quietEnd = s.quietEnd := rfl
@[simp] theorem State.setLink_lastQuietCause (a : Link) : (s.setLink i a).lastQuietCause = s.lastQuietCause := rfl
@[simp] theorem State.setLink_slotsPlanned (a : Link) : (s.setLink i a).slotsPlanned = s.slotsPlanned := rfl
@[simp] theorem State.setLink_counters (a : Link) : (s.setLink i a).counters = s.counters := rfl
@[simp] theorem State.setLink_trucks (a : Link) : (s.setLink i a).trucks = s.trucks := rfl
@[simp] theorem State.setLink_workers (a : Link) : (s.setLink i a).workers = s.workers := rfl
@[simp] theorem State.setLink_strayId (a : Link) : (s.setLink i a).strayId = s.strayId := rfl
@[simp] theorem State.setLink_strayTime (a : Link) : (s.setLink i a).strayTime = s.strayTime := rfl
@[simp] theorem State.setLink_orders (a : Link) : (s.setLink i a).orders = s.orders := rfl
@[simp] theorem State.setLink_pool (a : Link) : (s.setLink i a).pool = s.pool := rfl
@[simp] theorem State.setLink_freePages (a : Link) : (s.setLink i a).freePages = s.freePages := rfl
@[simp] theorem State.setLink_orderSeq (a : Link) : (s.setLink i a).orderSeq = s.orderSeq := rfl
@[simp] theorem State.setLink_queues (a : Link) : (s.setLink i a).queues = s.queues := rfl
@[simp] theorem State.setLink_watches (a : Link) : (s.setLink i a).watches = s.watches := rfl
@[simp] theorem State.setLink_truckAlarms (a : Link) : (s.setLink i a).truckAlarms = s.truckAlarms := rfl
@[simp] theorem State.setLink_devices (a : Link) : (s.setLink i a).devices = s.devices := rfl
@[simp] theorem State.setLink_permits (a : Link) : (s.setLink i a).permits = s.permits := rfl
@[simp] theorem State.setLink_programs (a : Link) : (s.setLink i a).programs = s.programs := rfl
@[simp] theorem State.setLink_mem (a : Link) : (s.setLink i a).mem = s.mem := rfl
@[simp] theorem State.setLink_published (a : Link) : (s.setLink i a).published = s.published := rfl
@[simp] theorem State.setLink_passages (a : Link) : (s.setLink i a).passages = s.passages := rfl
@[simp] theorem State.setLink_hold (a : Link) : (s.setLink i a).hold = s.hold := rfl
@[simp] theorem State.setLink_scan (a : Link) : (s.setLink i a).scan = s.scan := rfl
@[simp] theorem State.setLink_callPending (a : Link) : (s.setLink i a).callPending = s.callPending := rfl
@[simp] theorem State.setLink_copies (a : Link) : (s.setLink i a).copies = s.copies := rfl
@[simp] theorem State.setLink_refusedWrite (a : Link) : (s.setLink i a).refusedWrite = s.refusedWrite := rfl
@[simp] theorem State.setLink_missed (a : Link) : (s.setLink i a).missed = s.missed := rfl
@[simp] theorem State.setLink_writeRefused (a : Link) : (s.setLink i a).writeRefused = s.writeRefused := rfl
@[simp] theorem State.setLink_cardFault (a : Link) : (s.setLink i a).cardFault = s.cardFault := rfl
@[simp] theorem State.setLink_portResetDone (a : Link) : (s.setLink i a).portResetDone = s.portResetDone := rfl
@[simp] theorem State.setLink_noticeEnable (a : Link) : (s.setLink i a).noticeEnable = s.noticeEnable := rfl
@[simp] theorem State.setLink_transmitEnable (a : Link) : (s.setLink i a).transmitEnable = s.transmitEnable := rfl
@[simp] theorem State.setLink_authority (a : Link) : (s.setLink i a).authority = s.authority := rfl
@[simp] theorem State.setLink_pending (a : Link) : (s.setLink i a).pending = s.pending := rfl

@[simp] theorem State.setLink_truck (a : Link) : (s.setLink i a).truck j = s.truck j := rfl
@[simp] theorem State.setLink_counter (a : Link) : (s.setLink i a).counter j = s.counter j := rfl
@[simp] theorem State.setLink_list (a : Link) : (s.setLink i a).list j = s.list j := rfl
@[simp] theorem State.setLink_queue (a : Link) : (s.setLink i a).queue j = s.queue j := rfl
@[simp] theorem State.setLink_truckAlarm (a : Link) : (s.setLink i a).truckAlarm j = s.truckAlarm j := rfl
@[simp] theorem State.setLink_worker (a : Link) : (s.setLink i a).worker j = s.worker j := rfl
@[simp] theorem State.setLink_watch (a : Link) : (s.setLink i a).watch j = s.watch j := rfl
@[simp] theorem State.setLink_order (a : Link) : (s.setLink i a).order j = s.order j := rfl
@[simp] theorem State.setLink_device (a : Link) : (s.setLink i a).device j = s.device j := rfl
@[simp] theorem State.setLink_permit (a : Link) : (s.setLink i a).permit j = s.permit j := rfl
@[simp] theorem State.setLink_program (a : Link) : (s.setLink i a).program j = s.program j := rfl
@[simp] theorem State.setLink_link_same (a : Link) : (s.setLink i a).link i = a := tableGet_set_same _ _ _ _
@[simp] theorem State.setLink_link_other (a : Link) (h : j ≠ i) : (s.setLink i a).link j = s.link j := tableGet_set_other _ _ _ h
theorem State.setLink_link (a : Link) : (s.setLink i a).link j = if j = i then a else s.link j := tableGet_set _ _ _ _ _
@[simp] theorem State.setLink_rawWord (a : Link) : (s.setLink i a).rawWord j = s.rawWord j := rfl
@[simp] theorem State.setLink_card (a : Link) : (s.setLink i a).card j = s.card j := rfl

/-! ### setCounter -/

@[simp] theorem State.setCounter_clock (a : Counters) : (s.setCounter i a).clock = s.clock := rfl
@[simp] theorem State.setCounter_roundNumber (a : Counters) : (s.setCounter i a).roundNumber = s.roundNumber := rfl
@[simp] theorem State.setCounter_siteCode (a : Counters) : (s.setCounter i a).siteCode = s.siteCode := rfl
@[simp] theorem State.setCounter_modemReady (a : Counters) : (s.setCounter i a).modemReady = s.modemReady := rfl
@[simp] theorem State.setCounter_round (a : Counters) : (s.setCounter i a).round = s.round := rfl
@[simp] theorem State.setCounter_modemOut (a : Counters) : (s.setCounter i a).modemOut = s.modemOut := rfl
@[simp] theorem State.setCounter_ageCounter (a : Counters) : (s.setCounter i a).ageCounter = s.ageCounter := rfl
@[simp] theorem State.setCounter_lists (a : Counters) : (s.setCounter i a).lists = s.lists := rfl
@[simp] theorem State.setCounter_links (a : Counters) : (s.setCounter i a).links = s.links := rfl
@[simp] theorem State.setCounter_noise (a : Counters) : (s.setCounter i a).noise = s.noise := rfl
@[simp] theorem State.setCounter_siteClipped (a : Counters) : (s.setCounter i a).siteClipped = s.siteClipped := rfl
@[simp] theorem State.setCounter_settings (a : Counters) : (s.setCounter i a).settings = s.settings := rfl
@[simp] theorem State.setCounter_pointerA (a : Counters) : (s.setCounter i a).pointerA = s.pointerA := rfl
@[simp] theorem State.setCounter_pointerB (a : Counters) : (s.setCounter i a).pointerB = s.pointerB := rfl
@[simp] theorem State.setCounter_pointerC (a : Counters) : (s.setCounter i a).pointerC = s.pointerC := rfl
@[simp] theorem State.setCounter_quiet (a : Counters) : (s.setCounter i a).quiet = s.quiet := rfl
@[simp] theorem State.setCounter_quietStart (a : Counters) : (s.setCounter i a).quietStart = s.quietStart := rfl
@[simp] theorem State.setCounter_quietEnd (a : Counters) : (s.setCounter i a).quietEnd = s.quietEnd := rfl
@[simp] theorem State.setCounter_lastQuietCause (a : Counters) : (s.setCounter i a).lastQuietCause = s.lastQuietCause := rfl
@[simp] theorem State.setCounter_slotsPlanned (a : Counters) : (s.setCounter i a).slotsPlanned = s.slotsPlanned := rfl
@[simp] theorem State.setCounter_trucks (a : Counters) : (s.setCounter i a).trucks = s.trucks := rfl
@[simp] theorem State.setCounter_workers (a : Counters) : (s.setCounter i a).workers = s.workers := rfl
@[simp] theorem State.setCounter_strayId (a : Counters) : (s.setCounter i a).strayId = s.strayId := rfl
@[simp] theorem State.setCounter_strayTime (a : Counters) : (s.setCounter i a).strayTime = s.strayTime := rfl
@[simp] theorem State.setCounter_orders (a : Counters) : (s.setCounter i a).orders = s.orders := rfl
@[simp] theorem State.setCounter_pool (a : Counters) : (s.setCounter i a).pool = s.pool := rfl
@[simp] theorem State.setCounter_freePages (a : Counters) : (s.setCounter i a).freePages = s.freePages := rfl
@[simp] theorem State.setCounter_orderSeq (a : Counters) : (s.setCounter i a).orderSeq = s.orderSeq := rfl
@[simp] theorem State.setCounter_queues (a : Counters) : (s.setCounter i a).queues = s.queues := rfl
@[simp] theorem State.setCounter_watches (a : Counters) : (s.setCounter i a).watches = s.watches := rfl
@[simp] theorem State.setCounter_truckAlarms (a : Counters) : (s.setCounter i a).truckAlarms = s.truckAlarms := rfl
@[simp] theorem State.setCounter_devices (a : Counters) : (s.setCounter i a).devices = s.devices := rfl
@[simp] theorem State.setCounter_permits (a : Counters) : (s.setCounter i a).permits = s.permits := rfl
@[simp] theorem State.setCounter_programs (a : Counters) : (s.setCounter i a).programs = s.programs := rfl
@[simp] theorem State.setCounter_mem (a : Counters) : (s.setCounter i a).mem = s.mem := rfl
@[simp] theorem State.setCounter_published (a : Counters) : (s.setCounter i a).published = s.published := rfl
@[simp] theorem State.setCounter_passages (a : Counters) : (s.setCounter i a).passages = s.passages := rfl
@[simp] theorem State.setCounter_hold (a : Counters) : (s.setCounter i a).hold = s.hold := rfl
@[simp] theorem State.setCounter_scan (a : Counters) : (s.setCounter i a).scan = s.scan := rfl
@[simp] theorem State.setCounter_callPending (a : Counters) : (s.setCounter i a).callPending = s.callPending := rfl
@[simp] theorem State.setCounter_copies (a : Counters) : (s.setCounter i a).copies = s.copies := rfl
@[simp] theorem State.setCounter_refusedWrite (a : Counters) : (s.setCounter i a).refusedWrite = s.refusedWrite := rfl
@[simp] theorem State.setCounter_missed (a : Counters) : (s.setCounter i a).missed = s.missed := rfl
@[simp] theorem State.setCounter_writeRefused (a : Counters) : (s.setCounter i a).writeRefused = s.writeRefused := rfl
@[simp] theorem State.setCounter_cardFault (a : Counters) : (s.setCounter i a).cardFault = s.cardFault := rfl
@[simp] theorem State.setCounter_portResetDone (a : Counters) : (s.setCounter i a).portResetDone = s.portResetDone := rfl
@[simp] theorem State.setCounter_noticeEnable (a : Counters) : (s.setCounter i a).noticeEnable = s.noticeEnable := rfl
@[simp] theorem State.setCounter_transmitEnable (a : Counters) : (s.setCounter i a).transmitEnable = s.transmitEnable := rfl
@[simp] theorem State.setCounter_authority (a : Counters) : (s.setCounter i a).authority = s.authority := rfl
@[simp] theorem State.setCounter_pending (a : Counters) : (s.setCounter i a).pending = s.pending := rfl

@[simp] theorem State.setCounter_truck (a : Counters) : (s.setCounter i a).truck j = s.truck j := rfl
@[simp] theorem State.setCounter_link (a : Counters) : (s.setCounter i a).link j = s.link j := rfl
@[simp] theorem State.setCounter_list (a : Counters) : (s.setCounter i a).list j = s.list j := rfl
@[simp] theorem State.setCounter_queue (a : Counters) : (s.setCounter i a).queue j = s.queue j := rfl
@[simp] theorem State.setCounter_truckAlarm (a : Counters) : (s.setCounter i a).truckAlarm j = s.truckAlarm j := rfl
@[simp] theorem State.setCounter_worker (a : Counters) : (s.setCounter i a).worker j = s.worker j := rfl
@[simp] theorem State.setCounter_watch (a : Counters) : (s.setCounter i a).watch j = s.watch j := rfl
@[simp] theorem State.setCounter_order (a : Counters) : (s.setCounter i a).order j = s.order j := rfl
@[simp] theorem State.setCounter_device (a : Counters) : (s.setCounter i a).device j = s.device j := rfl
@[simp] theorem State.setCounter_permit (a : Counters) : (s.setCounter i a).permit j = s.permit j := rfl
@[simp] theorem State.setCounter_program (a : Counters) : (s.setCounter i a).program j = s.program j := rfl
@[simp] theorem State.setCounter_counter_same (a : Counters) : (s.setCounter i a).counter i = a := tableGet_set_same _ _ _ _
@[simp] theorem State.setCounter_counter_other (a : Counters) (h : j ≠ i) : (s.setCounter i a).counter j = s.counter j := tableGet_set_other _ _ _ h
theorem State.setCounter_counter (a : Counters) : (s.setCounter i a).counter j = if j = i then a else s.counter j := tableGet_set _ _ _ _ _
@[simp] theorem State.setCounter_rawWord (a : Counters) : (s.setCounter i a).rawWord j = s.rawWord j := rfl
@[simp] theorem State.setCounter_card (a : Counters) : (s.setCounter i a).card j = s.card j := rfl

/-! ### setList -/

@[simp] theorem State.setList_clock (a : CellList) : (s.setList i a).clock = s.clock := rfl
@[simp] theorem State.setList_roundNumber (a : CellList) : (s.setList i a).roundNumber = s.roundNumber := rfl
@[simp] theorem State.setList_siteCode (a : CellList) : (s.setList i a).siteCode = s.siteCode := rfl
@[simp] theorem State.setList_modemReady (a : CellList) : (s.setList i a).modemReady = s.modemReady := rfl
@[simp] theorem State.setList_round (a : CellList) : (s.setList i a).round = s.round := rfl
@[simp] theorem State.setList_modemOut (a : CellList) : (s.setList i a).modemOut = s.modemOut := rfl
@[simp] theorem State.setList_ageCounter (a : CellList) : (s.setList i a).ageCounter = s.ageCounter := rfl
@[simp] theorem State.setList_links (a : CellList) : (s.setList i a).links = s.links := rfl
@[simp] theorem State.setList_noise (a : CellList) : (s.setList i a).noise = s.noise := rfl
@[simp] theorem State.setList_siteClipped (a : CellList) : (s.setList i a).siteClipped = s.siteClipped := rfl
@[simp] theorem State.setList_settings (a : CellList) : (s.setList i a).settings = s.settings := rfl
@[simp] theorem State.setList_pointerA (a : CellList) : (s.setList i a).pointerA = s.pointerA := rfl
@[simp] theorem State.setList_pointerB (a : CellList) : (s.setList i a).pointerB = s.pointerB := rfl
@[simp] theorem State.setList_pointerC (a : CellList) : (s.setList i a).pointerC = s.pointerC := rfl
@[simp] theorem State.setList_quiet (a : CellList) : (s.setList i a).quiet = s.quiet := rfl
@[simp] theorem State.setList_quietStart (a : CellList) : (s.setList i a).quietStart = s.quietStart := rfl
@[simp] theorem State.setList_quietEnd (a : CellList) : (s.setList i a).quietEnd = s.quietEnd := rfl
@[simp] theorem State.setList_lastQuietCause (a : CellList) : (s.setList i a).lastQuietCause = s.lastQuietCause := rfl
@[simp] theorem State.setList_slotsPlanned (a : CellList) : (s.setList i a).slotsPlanned = s.slotsPlanned := rfl
@[simp] theorem State.setList_counters (a : CellList) : (s.setList i a).counters = s.counters := rfl
@[simp] theorem State.setList_trucks (a : CellList) : (s.setList i a).trucks = s.trucks := rfl
@[simp] theorem State.setList_workers (a : CellList) : (s.setList i a).workers = s.workers := rfl
@[simp] theorem State.setList_strayId (a : CellList) : (s.setList i a).strayId = s.strayId := rfl
@[simp] theorem State.setList_strayTime (a : CellList) : (s.setList i a).strayTime = s.strayTime := rfl
@[simp] theorem State.setList_orders (a : CellList) : (s.setList i a).orders = s.orders := rfl
@[simp] theorem State.setList_pool (a : CellList) : (s.setList i a).pool = s.pool := rfl
@[simp] theorem State.setList_freePages (a : CellList) : (s.setList i a).freePages = s.freePages := rfl
@[simp] theorem State.setList_orderSeq (a : CellList) : (s.setList i a).orderSeq = s.orderSeq := rfl
@[simp] theorem State.setList_queues (a : CellList) : (s.setList i a).queues = s.queues := rfl
@[simp] theorem State.setList_watches (a : CellList) : (s.setList i a).watches = s.watches := rfl
@[simp] theorem State.setList_truckAlarms (a : CellList) : (s.setList i a).truckAlarms = s.truckAlarms := rfl
@[simp] theorem State.setList_devices (a : CellList) : (s.setList i a).devices = s.devices := rfl
@[simp] theorem State.setList_permits (a : CellList) : (s.setList i a).permits = s.permits := rfl
@[simp] theorem State.setList_programs (a : CellList) : (s.setList i a).programs = s.programs := rfl
@[simp] theorem State.setList_mem (a : CellList) : (s.setList i a).mem = s.mem := rfl
@[simp] theorem State.setList_published (a : CellList) : (s.setList i a).published = s.published := rfl
@[simp] theorem State.setList_passages (a : CellList) : (s.setList i a).passages = s.passages := rfl
@[simp] theorem State.setList_hold (a : CellList) : (s.setList i a).hold = s.hold := rfl
@[simp] theorem State.setList_scan (a : CellList) : (s.setList i a).scan = s.scan := rfl
@[simp] theorem State.setList_callPending (a : CellList) : (s.setList i a).callPending = s.callPending := rfl
@[simp] theorem State.setList_copies (a : CellList) : (s.setList i a).copies = s.copies := rfl
@[simp] theorem State.setList_refusedWrite (a : CellList) : (s.setList i a).refusedWrite = s.refusedWrite := rfl
@[simp] theorem State.setList_missed (a : CellList) : (s.setList i a).missed = s.missed := rfl
@[simp] theorem State.setList_writeRefused (a : CellList) : (s.setList i a).writeRefused = s.writeRefused := rfl
@[simp] theorem State.setList_cardFault (a : CellList) : (s.setList i a).cardFault = s.cardFault := rfl
@[simp] theorem State.setList_portResetDone (a : CellList) : (s.setList i a).portResetDone = s.portResetDone := rfl
@[simp] theorem State.setList_noticeEnable (a : CellList) : (s.setList i a).noticeEnable = s.noticeEnable := rfl
@[simp] theorem State.setList_transmitEnable (a : CellList) : (s.setList i a).transmitEnable = s.transmitEnable := rfl
@[simp] theorem State.setList_authority (a : CellList) : (s.setList i a).authority = s.authority := rfl
@[simp] theorem State.setList_pending (a : CellList) : (s.setList i a).pending = s.pending := rfl

@[simp] theorem State.setList_truck (a : CellList) : (s.setList i a).truck j = s.truck j := rfl
@[simp] theorem State.setList_link (a : CellList) : (s.setList i a).link j = s.link j := rfl
@[simp] theorem State.setList_counter (a : CellList) : (s.setList i a).counter j = s.counter j := rfl
@[simp] theorem State.setList_queue (a : CellList) : (s.setList i a).queue j = s.queue j := rfl
@[simp] theorem State.setList_truckAlarm (a : CellList) : (s.setList i a).truckAlarm j = s.truckAlarm j := rfl
@[simp] theorem State.setList_worker (a : CellList) : (s.setList i a).worker j = s.worker j := rfl
@[simp] theorem State.setList_watch (a : CellList) : (s.setList i a).watch j = s.watch j := rfl
@[simp] theorem State.setList_order (a : CellList) : (s.setList i a).order j = s.order j := rfl
@[simp] theorem State.setList_device (a : CellList) : (s.setList i a).device j = s.device j := rfl
@[simp] theorem State.setList_permit (a : CellList) : (s.setList i a).permit j = s.permit j := rfl
@[simp] theorem State.setList_program (a : CellList) : (s.setList i a).program j = s.program j := rfl
@[simp] theorem State.setList_list_same (a : CellList) : (s.setList i a).list i = a := tableGet_set_same _ _ _ _
@[simp] theorem State.setList_list_other (a : CellList) (h : j ≠ i) : (s.setList i a).list j = s.list j := tableGet_set_other _ _ _ h
theorem State.setList_list (a : CellList) : (s.setList i a).list j = if j = i then a else s.list j := tableGet_set _ _ _ _ _
@[simp] theorem State.setList_rawWord (a : CellList) : (s.setList i a).rawWord j = s.rawWord j := rfl
@[simp] theorem State.setList_card (a : CellList) : (s.setList i a).card j = s.card j := rfl

/-! ### setQueue -/

@[simp] theorem State.setQueue_clock (a : List Nat) : (s.setQueue i a).clock = s.clock := rfl
@[simp] theorem State.setQueue_roundNumber (a : List Nat) : (s.setQueue i a).roundNumber = s.roundNumber := rfl
@[simp] theorem State.setQueue_siteCode (a : List Nat) : (s.setQueue i a).siteCode = s.siteCode := rfl
@[simp] theorem State.setQueue_modemReady (a : List Nat) : (s.setQueue i a).modemReady = s.modemReady := rfl
@[simp] theorem State.setQueue_round (a : List Nat) : (s.setQueue i a).round = s.round := rfl
@[simp] theorem State.setQueue_modemOut (a : List Nat) : (s.setQueue i a).modemOut = s.modemOut := rfl
@[simp] theorem State.setQueue_ageCounter (a : List Nat) : (s.setQueue i a).ageCounter = s.ageCounter := rfl
@[simp] theorem State.setQueue_lists (a : List Nat) : (s.setQueue i a).lists = s.lists := rfl
@[simp] theorem State.setQueue_links (a : List Nat) : (s.setQueue i a).links = s.links := rfl
@[simp] theorem State.setQueue_noise (a : List Nat) : (s.setQueue i a).noise = s.noise := rfl
@[simp] theorem State.setQueue_siteClipped (a : List Nat) : (s.setQueue i a).siteClipped = s.siteClipped := rfl
@[simp] theorem State.setQueue_settings (a : List Nat) : (s.setQueue i a).settings = s.settings := rfl
@[simp] theorem State.setQueue_pointerA (a : List Nat) : (s.setQueue i a).pointerA = s.pointerA := rfl
@[simp] theorem State.setQueue_pointerB (a : List Nat) : (s.setQueue i a).pointerB = s.pointerB := rfl
@[simp] theorem State.setQueue_pointerC (a : List Nat) : (s.setQueue i a).pointerC = s.pointerC := rfl
@[simp] theorem State.setQueue_quiet (a : List Nat) : (s.setQueue i a).quiet = s.quiet := rfl
@[simp] theorem State.setQueue_quietStart (a : List Nat) : (s.setQueue i a).quietStart = s.quietStart := rfl
@[simp] theorem State.setQueue_quietEnd (a : List Nat) : (s.setQueue i a).quietEnd = s.quietEnd := rfl
@[simp] theorem State.setQueue_lastQuietCause (a : List Nat) : (s.setQueue i a).lastQuietCause = s.lastQuietCause := rfl
@[simp] theorem State.setQueue_slotsPlanned (a : List Nat) : (s.setQueue i a).slotsPlanned = s.slotsPlanned := rfl
@[simp] theorem State.setQueue_counters (a : List Nat) : (s.setQueue i a).counters = s.counters := rfl
@[simp] theorem State.setQueue_trucks (a : List Nat) : (s.setQueue i a).trucks = s.trucks := rfl
@[simp] theorem State.setQueue_workers (a : List Nat) : (s.setQueue i a).workers = s.workers := rfl
@[simp] theorem State.setQueue_strayId (a : List Nat) : (s.setQueue i a).strayId = s.strayId := rfl
@[simp] theorem State.setQueue_strayTime (a : List Nat) : (s.setQueue i a).strayTime = s.strayTime := rfl
@[simp] theorem State.setQueue_orders (a : List Nat) : (s.setQueue i a).orders = s.orders := rfl
@[simp] theorem State.setQueue_pool (a : List Nat) : (s.setQueue i a).pool = s.pool := rfl
@[simp] theorem State.setQueue_freePages (a : List Nat) : (s.setQueue i a).freePages = s.freePages := rfl
@[simp] theorem State.setQueue_orderSeq (a : List Nat) : (s.setQueue i a).orderSeq = s.orderSeq := rfl
@[simp] theorem State.setQueue_watches (a : List Nat) : (s.setQueue i a).watches = s.watches := rfl
@[simp] theorem State.setQueue_truckAlarms (a : List Nat) : (s.setQueue i a).truckAlarms = s.truckAlarms := rfl
@[simp] theorem State.setQueue_devices (a : List Nat) : (s.setQueue i a).devices = s.devices := rfl
@[simp] theorem State.setQueue_permits (a : List Nat) : (s.setQueue i a).permits = s.permits := rfl
@[simp] theorem State.setQueue_programs (a : List Nat) : (s.setQueue i a).programs = s.programs := rfl
@[simp] theorem State.setQueue_mem (a : List Nat) : (s.setQueue i a).mem = s.mem := rfl
@[simp] theorem State.setQueue_published (a : List Nat) : (s.setQueue i a).published = s.published := rfl
@[simp] theorem State.setQueue_passages (a : List Nat) : (s.setQueue i a).passages = s.passages := rfl
@[simp] theorem State.setQueue_hold (a : List Nat) : (s.setQueue i a).hold = s.hold := rfl
@[simp] theorem State.setQueue_scan (a : List Nat) : (s.setQueue i a).scan = s.scan := rfl
@[simp] theorem State.setQueue_callPending (a : List Nat) : (s.setQueue i a).callPending = s.callPending := rfl
@[simp] theorem State.setQueue_copies (a : List Nat) : (s.setQueue i a).copies = s.copies := rfl
@[simp] theorem State.setQueue_refusedWrite (a : List Nat) : (s.setQueue i a).refusedWrite = s.refusedWrite := rfl
@[simp] theorem State.setQueue_missed (a : List Nat) : (s.setQueue i a).missed = s.missed := rfl
@[simp] theorem State.setQueue_writeRefused (a : List Nat) : (s.setQueue i a).writeRefused = s.writeRefused := rfl
@[simp] theorem State.setQueue_cardFault (a : List Nat) : (s.setQueue i a).cardFault = s.cardFault := rfl
@[simp] theorem State.setQueue_portResetDone (a : List Nat) : (s.setQueue i a).portResetDone = s.portResetDone := rfl
@[simp] theorem State.setQueue_noticeEnable (a : List Nat) : (s.setQueue i a).noticeEnable = s.noticeEnable := rfl
@[simp] theorem State.setQueue_transmitEnable (a : List Nat) : (s.setQueue i a).transmitEnable = s.transmitEnable := rfl
@[simp] theorem State.setQueue_authority (a : List Nat) : (s.setQueue i a).authority = s.authority := rfl
@[simp] theorem State.setQueue_pending (a : List Nat) : (s.setQueue i a).pending = s.pending := rfl

@[simp] theorem State.setQueue_truck (a : List Nat) : (s.setQueue i a).truck j = s.truck j := rfl
@[simp] theorem State.setQueue_link (a : List Nat) : (s.setQueue i a).link j = s.link j := rfl
@[simp] theorem State.setQueue_counter (a : List Nat) : (s.setQueue i a).counter j = s.counter j := rfl
@[simp] theorem State.setQueue_list (a : List Nat) : (s.setQueue i a).list j = s.list j := rfl
@[simp] theorem State.setQueue_truckAlarm (a : List Nat) : (s.setQueue i a).truckAlarm j = s.truckAlarm j := rfl
@[simp] theorem State.setQueue_worker (a : List Nat) : (s.setQueue i a).worker j = s.worker j := rfl
@[simp] theorem State.setQueue_watch (a : List Nat) : (s.setQueue i a).watch j = s.watch j := rfl
@[simp] theorem State.setQueue_order (a : List Nat) : (s.setQueue i a).order j = s.order j := rfl
@[simp] theorem State.setQueue_device (a : List Nat) : (s.setQueue i a).device j = s.device j := rfl
@[simp] theorem State.setQueue_permit (a : List Nat) : (s.setQueue i a).permit j = s.permit j := rfl
@[simp] theorem State.setQueue_program (a : List Nat) : (s.setQueue i a).program j = s.program j := rfl
@[simp] theorem State.setQueue_queue_same (a : List Nat) : (s.setQueue i a).queue i = a := tableGet_set_same _ _ _ _
@[simp] theorem State.setQueue_queue_other (a : List Nat) (h : j ≠ i) : (s.setQueue i a).queue j = s.queue j := tableGet_set_other _ _ _ h
theorem State.setQueue_queue (a : List Nat) : (s.setQueue i a).queue j = if j = i then a else s.queue j := tableGet_set _ _ _ _ _
@[simp] theorem State.setQueue_rawWord (a : List Nat) : (s.setQueue i a).rawWord j = s.rawWord j := rfl
@[simp] theorem State.setQueue_card (a : List Nat) : (s.setQueue i a).card j = s.card j := rfl

/-! ### setTruckAlarm -/

@[simp] theorem State.setTruckAlarm_clock (a : Option TruckAlarm) : (s.setTruckAlarm i a).clock = s.clock := rfl
@[simp] theorem State.setTruckAlarm_roundNumber (a : Option TruckAlarm) : (s.setTruckAlarm i a).roundNumber = s.roundNumber := rfl
@[simp] theorem State.setTruckAlarm_siteCode (a : Option TruckAlarm) : (s.setTruckAlarm i a).siteCode = s.siteCode := rfl
@[simp] theorem State.setTruckAlarm_modemReady (a : Option TruckAlarm) : (s.setTruckAlarm i a).modemReady = s.modemReady := rfl
@[simp] theorem State.setTruckAlarm_round (a : Option TruckAlarm) : (s.setTruckAlarm i a).round = s.round := rfl
@[simp] theorem State.setTruckAlarm_modemOut (a : Option TruckAlarm) : (s.setTruckAlarm i a).modemOut = s.modemOut := rfl
@[simp] theorem State.setTruckAlarm_ageCounter (a : Option TruckAlarm) : (s.setTruckAlarm i a).ageCounter = s.ageCounter := rfl
@[simp] theorem State.setTruckAlarm_lists (a : Option TruckAlarm) : (s.setTruckAlarm i a).lists = s.lists := rfl
@[simp] theorem State.setTruckAlarm_links (a : Option TruckAlarm) : (s.setTruckAlarm i a).links = s.links := rfl
@[simp] theorem State.setTruckAlarm_noise (a : Option TruckAlarm) : (s.setTruckAlarm i a).noise = s.noise := rfl
@[simp] theorem State.setTruckAlarm_siteClipped (a : Option TruckAlarm) : (s.setTruckAlarm i a).siteClipped = s.siteClipped := rfl
@[simp] theorem State.setTruckAlarm_settings (a : Option TruckAlarm) : (s.setTruckAlarm i a).settings = s.settings := rfl
@[simp] theorem State.setTruckAlarm_pointerA (a : Option TruckAlarm) : (s.setTruckAlarm i a).pointerA = s.pointerA := rfl
@[simp] theorem State.setTruckAlarm_pointerB (a : Option TruckAlarm) : (s.setTruckAlarm i a).pointerB = s.pointerB := rfl
@[simp] theorem State.setTruckAlarm_pointerC (a : Option TruckAlarm) : (s.setTruckAlarm i a).pointerC = s.pointerC := rfl
@[simp] theorem State.setTruckAlarm_quiet (a : Option TruckAlarm) : (s.setTruckAlarm i a).quiet = s.quiet := rfl
@[simp] theorem State.setTruckAlarm_quietStart (a : Option TruckAlarm) : (s.setTruckAlarm i a).quietStart = s.quietStart := rfl
@[simp] theorem State.setTruckAlarm_quietEnd (a : Option TruckAlarm) : (s.setTruckAlarm i a).quietEnd = s.quietEnd := rfl
@[simp] theorem State.setTruckAlarm_lastQuietCause (a : Option TruckAlarm) : (s.setTruckAlarm i a).lastQuietCause = s.lastQuietCause := rfl
@[simp] theorem State.setTruckAlarm_slotsPlanned (a : Option TruckAlarm) : (s.setTruckAlarm i a).slotsPlanned = s.slotsPlanned := rfl
@[simp] theorem State.setTruckAlarm_counters (a : Option TruckAlarm) : (s.setTruckAlarm i a).counters = s.counters := rfl
@[simp] theorem State.setTruckAlarm_trucks (a : Option TruckAlarm) : (s.setTruckAlarm i a).trucks = s.trucks := rfl
@[simp] theorem State.setTruckAlarm_workers (a : Option TruckAlarm) : (s.setTruckAlarm i a).workers = s.workers := rfl
@[simp] theorem State.setTruckAlarm_strayId (a : Option TruckAlarm) : (s.setTruckAlarm i a).strayId = s.strayId := rfl
@[simp] theorem State.setTruckAlarm_strayTime (a : Option TruckAlarm) : (s.setTruckAlarm i a).strayTime = s.strayTime := rfl
@[simp] theorem State.setTruckAlarm_orders (a : Option TruckAlarm) : (s.setTruckAlarm i a).orders = s.orders := rfl
@[simp] theorem State.setTruckAlarm_pool (a : Option TruckAlarm) : (s.setTruckAlarm i a).pool = s.pool := rfl
@[simp] theorem State.setTruckAlarm_freePages (a : Option TruckAlarm) : (s.setTruckAlarm i a).freePages = s.freePages := rfl
@[simp] theorem State.setTruckAlarm_orderSeq (a : Option TruckAlarm) : (s.setTruckAlarm i a).orderSeq = s.orderSeq := rfl
@[simp] theorem State.setTruckAlarm_queues (a : Option TruckAlarm) : (s.setTruckAlarm i a).queues = s.queues := rfl
@[simp] theorem State.setTruckAlarm_watches (a : Option TruckAlarm) : (s.setTruckAlarm i a).watches = s.watches := rfl
@[simp] theorem State.setTruckAlarm_devices (a : Option TruckAlarm) : (s.setTruckAlarm i a).devices = s.devices := rfl
@[simp] theorem State.setTruckAlarm_permits (a : Option TruckAlarm) : (s.setTruckAlarm i a).permits = s.permits := rfl
@[simp] theorem State.setTruckAlarm_programs (a : Option TruckAlarm) : (s.setTruckAlarm i a).programs = s.programs := rfl
@[simp] theorem State.setTruckAlarm_mem (a : Option TruckAlarm) : (s.setTruckAlarm i a).mem = s.mem := rfl
@[simp] theorem State.setTruckAlarm_published (a : Option TruckAlarm) : (s.setTruckAlarm i a).published = s.published := rfl
@[simp] theorem State.setTruckAlarm_passages (a : Option TruckAlarm) : (s.setTruckAlarm i a).passages = s.passages := rfl
@[simp] theorem State.setTruckAlarm_hold (a : Option TruckAlarm) : (s.setTruckAlarm i a).hold = s.hold := rfl
@[simp] theorem State.setTruckAlarm_scan (a : Option TruckAlarm) : (s.setTruckAlarm i a).scan = s.scan := rfl
@[simp] theorem State.setTruckAlarm_callPending (a : Option TruckAlarm) : (s.setTruckAlarm i a).callPending = s.callPending := rfl
@[simp] theorem State.setTruckAlarm_copies (a : Option TruckAlarm) : (s.setTruckAlarm i a).copies = s.copies := rfl
@[simp] theorem State.setTruckAlarm_refusedWrite (a : Option TruckAlarm) : (s.setTruckAlarm i a).refusedWrite = s.refusedWrite := rfl
@[simp] theorem State.setTruckAlarm_missed (a : Option TruckAlarm) : (s.setTruckAlarm i a).missed = s.missed := rfl
@[simp] theorem State.setTruckAlarm_writeRefused (a : Option TruckAlarm) : (s.setTruckAlarm i a).writeRefused = s.writeRefused := rfl
@[simp] theorem State.setTruckAlarm_cardFault (a : Option TruckAlarm) : (s.setTruckAlarm i a).cardFault = s.cardFault := rfl
@[simp] theorem State.setTruckAlarm_portResetDone (a : Option TruckAlarm) : (s.setTruckAlarm i a).portResetDone = s.portResetDone := rfl
@[simp] theorem State.setTruckAlarm_noticeEnable (a : Option TruckAlarm) : (s.setTruckAlarm i a).noticeEnable = s.noticeEnable := rfl
@[simp] theorem State.setTruckAlarm_transmitEnable (a : Option TruckAlarm) : (s.setTruckAlarm i a).transmitEnable = s.transmitEnable := rfl
@[simp] theorem State.setTruckAlarm_authority (a : Option TruckAlarm) : (s.setTruckAlarm i a).authority = s.authority := rfl
@[simp] theorem State.setTruckAlarm_pending (a : Option TruckAlarm) : (s.setTruckAlarm i a).pending = s.pending := rfl

@[simp] theorem State.setTruckAlarm_truck (a : Option TruckAlarm) : (s.setTruckAlarm i a).truck j = s.truck j := rfl
@[simp] theorem State.setTruckAlarm_link (a : Option TruckAlarm) : (s.setTruckAlarm i a).link j = s.link j := rfl
@[simp] theorem State.setTruckAlarm_counter (a : Option TruckAlarm) : (s.setTruckAlarm i a).counter j = s.counter j := rfl
@[simp] theorem State.setTruckAlarm_list (a : Option TruckAlarm) : (s.setTruckAlarm i a).list j = s.list j := rfl
@[simp] theorem State.setTruckAlarm_queue (a : Option TruckAlarm) : (s.setTruckAlarm i a).queue j = s.queue j := rfl
@[simp] theorem State.setTruckAlarm_worker (a : Option TruckAlarm) : (s.setTruckAlarm i a).worker j = s.worker j := rfl
@[simp] theorem State.setTruckAlarm_watch (a : Option TruckAlarm) : (s.setTruckAlarm i a).watch j = s.watch j := rfl
@[simp] theorem State.setTruckAlarm_order (a : Option TruckAlarm) : (s.setTruckAlarm i a).order j = s.order j := rfl
@[simp] theorem State.setTruckAlarm_device (a : Option TruckAlarm) : (s.setTruckAlarm i a).device j = s.device j := rfl
@[simp] theorem State.setTruckAlarm_permit (a : Option TruckAlarm) : (s.setTruckAlarm i a).permit j = s.permit j := rfl
@[simp] theorem State.setTruckAlarm_program (a : Option TruckAlarm) : (s.setTruckAlarm i a).program j = s.program j := rfl
@[simp] theorem State.setTruckAlarm_truckAlarm_same (a : Option TruckAlarm) : (s.setTruckAlarm i a).truckAlarm i = a := tableGet_set_same _ _ _ _
@[simp] theorem State.setTruckAlarm_truckAlarm_other (a : Option TruckAlarm) (h : j ≠ i) : (s.setTruckAlarm i a).truckAlarm j = s.truckAlarm j := tableGet_set_other _ _ _ h
theorem State.setTruckAlarm_truckAlarm (a : Option TruckAlarm) : (s.setTruckAlarm i a).truckAlarm j = if j = i then a else s.truckAlarm j := tableGet_set _ _ _ _ _
@[simp] theorem State.setTruckAlarm_rawWord (a : Option TruckAlarm) : (s.setTruckAlarm i a).rawWord j = s.rawWord j := rfl
@[simp] theorem State.setTruckAlarm_card (a : Option TruckAlarm) : (s.setTruckAlarm i a).card j = s.card j := rfl

/-! ### setWorker -/

@[simp] theorem State.setWorker_clock (a : Worker) : (s.setWorker i a).clock = s.clock := rfl
@[simp] theorem State.setWorker_roundNumber (a : Worker) : (s.setWorker i a).roundNumber = s.roundNumber := rfl
@[simp] theorem State.setWorker_siteCode (a : Worker) : (s.setWorker i a).siteCode = s.siteCode := rfl
@[simp] theorem State.setWorker_modemReady (a : Worker) : (s.setWorker i a).modemReady = s.modemReady := rfl
@[simp] theorem State.setWorker_round (a : Worker) : (s.setWorker i a).round = s.round := rfl
@[simp] theorem State.setWorker_modemOut (a : Worker) : (s.setWorker i a).modemOut = s.modemOut := rfl
@[simp] theorem State.setWorker_ageCounter (a : Worker) : (s.setWorker i a).ageCounter = s.ageCounter := rfl
@[simp] theorem State.setWorker_lists (a : Worker) : (s.setWorker i a).lists = s.lists := rfl
@[simp] theorem State.setWorker_links (a : Worker) : (s.setWorker i a).links = s.links := rfl
@[simp] theorem State.setWorker_noise (a : Worker) : (s.setWorker i a).noise = s.noise := rfl
@[simp] theorem State.setWorker_siteClipped (a : Worker) : (s.setWorker i a).siteClipped = s.siteClipped := rfl
@[simp] theorem State.setWorker_settings (a : Worker) : (s.setWorker i a).settings = s.settings := rfl
@[simp] theorem State.setWorker_pointerA (a : Worker) : (s.setWorker i a).pointerA = s.pointerA := rfl
@[simp] theorem State.setWorker_pointerB (a : Worker) : (s.setWorker i a).pointerB = s.pointerB := rfl
@[simp] theorem State.setWorker_pointerC (a : Worker) : (s.setWorker i a).pointerC = s.pointerC := rfl
@[simp] theorem State.setWorker_quiet (a : Worker) : (s.setWorker i a).quiet = s.quiet := rfl
@[simp] theorem State.setWorker_quietStart (a : Worker) : (s.setWorker i a).quietStart = s.quietStart := rfl
@[simp] theorem State.setWorker_quietEnd (a : Worker) : (s.setWorker i a).quietEnd = s.quietEnd := rfl
@[simp] theorem State.setWorker_lastQuietCause (a : Worker) : (s.setWorker i a).lastQuietCause = s.lastQuietCause := rfl
@[simp] theorem State.setWorker_slotsPlanned (a : Worker) : (s.setWorker i a).slotsPlanned = s.slotsPlanned := rfl
@[simp] theorem State.setWorker_counters (a : Worker) : (s.setWorker i a).counters = s.counters := rfl
@[simp] theorem State.setWorker_trucks (a : Worker) : (s.setWorker i a).trucks = s.trucks := rfl
@[simp] theorem State.setWorker_strayId (a : Worker) : (s.setWorker i a).strayId = s.strayId := rfl
@[simp] theorem State.setWorker_strayTime (a : Worker) : (s.setWorker i a).strayTime = s.strayTime := rfl
@[simp] theorem State.setWorker_orders (a : Worker) : (s.setWorker i a).orders = s.orders := rfl
@[simp] theorem State.setWorker_pool (a : Worker) : (s.setWorker i a).pool = s.pool := rfl
@[simp] theorem State.setWorker_freePages (a : Worker) : (s.setWorker i a).freePages = s.freePages := rfl
@[simp] theorem State.setWorker_orderSeq (a : Worker) : (s.setWorker i a).orderSeq = s.orderSeq := rfl
@[simp] theorem State.setWorker_queues (a : Worker) : (s.setWorker i a).queues = s.queues := rfl
@[simp] theorem State.setWorker_watches (a : Worker) : (s.setWorker i a).watches = s.watches := rfl
@[simp] theorem State.setWorker_truckAlarms (a : Worker) : (s.setWorker i a).truckAlarms = s.truckAlarms := rfl
@[simp] theorem State.setWorker_devices (a : Worker) : (s.setWorker i a).devices = s.devices := rfl
@[simp] theorem State.setWorker_permits (a : Worker) : (s.setWorker i a).permits = s.permits := rfl
@[simp] theorem State.setWorker_programs (a : Worker) : (s.setWorker i a).programs = s.programs := rfl
@[simp] theorem State.setWorker_mem (a : Worker) : (s.setWorker i a).mem = s.mem := rfl
@[simp] theorem State.setWorker_published (a : Worker) : (s.setWorker i a).published = s.published := rfl
@[simp] theorem State.setWorker_passages (a : Worker) : (s.setWorker i a).passages = s.passages := rfl
@[simp] theorem State.setWorker_hold (a : Worker) : (s.setWorker i a).hold = s.hold := rfl
@[simp] theorem State.setWorker_scan (a : Worker) : (s.setWorker i a).scan = s.scan := rfl
@[simp] theorem State.setWorker_callPending (a : Worker) : (s.setWorker i a).callPending = s.callPending := rfl
@[simp] theorem State.setWorker_copies (a : Worker) : (s.setWorker i a).copies = s.copies := rfl
@[simp] theorem State.setWorker_refusedWrite (a : Worker) : (s.setWorker i a).refusedWrite = s.refusedWrite := rfl
@[simp] theorem State.setWorker_missed (a : Worker) : (s.setWorker i a).missed = s.missed := rfl
@[simp] theorem State.setWorker_writeRefused (a : Worker) : (s.setWorker i a).writeRefused = s.writeRefused := rfl
@[simp] theorem State.setWorker_cardFault (a : Worker) : (s.setWorker i a).cardFault = s.cardFault := rfl
@[simp] theorem State.setWorker_portResetDone (a : Worker) : (s.setWorker i a).portResetDone = s.portResetDone := rfl
@[simp] theorem State.setWorker_noticeEnable (a : Worker) : (s.setWorker i a).noticeEnable = s.noticeEnable := rfl
@[simp] theorem State.setWorker_transmitEnable (a : Worker) : (s.setWorker i a).transmitEnable = s.transmitEnable := rfl
@[simp] theorem State.setWorker_authority (a : Worker) : (s.setWorker i a).authority = s.authority := rfl
@[simp] theorem State.setWorker_pending (a : Worker) : (s.setWorker i a).pending = s.pending := rfl

@[simp] theorem State.setWorker_truck (a : Worker) : (s.setWorker i a).truck j = s.truck j := rfl
@[simp] theorem State.setWorker_link (a : Worker) : (s.setWorker i a).link j = s.link j := rfl
@[simp] theorem State.setWorker_counter (a : Worker) : (s.setWorker i a).counter j = s.counter j := rfl
@[simp] theorem State.setWorker_list (a : Worker) : (s.setWorker i a).list j = s.list j := rfl
@[simp] theorem State.setWorker_queue (a : Worker) : (s.setWorker i a).queue j = s.queue j := rfl
@[simp] theorem State.setWorker_truckAlarm (a : Worker) : (s.setWorker i a).truckAlarm j = s.truckAlarm j := rfl
@[simp] theorem State.setWorker_watch (a : Worker) : (s.setWorker i a).watch j = s.watch j := rfl
@[simp] theorem State.setWorker_order (a : Worker) : (s.setWorker i a).order j = s.order j := rfl
@[simp] theorem State.setWorker_device (a : Worker) : (s.setWorker i a).device j = s.device j := rfl
@[simp] theorem State.setWorker_permit (a : Worker) : (s.setWorker i a).permit j = s.permit j := rfl
@[simp] theorem State.setWorker_program (a : Worker) : (s.setWorker i a).program j = s.program j := rfl
@[simp] theorem State.setWorker_worker_same (a : Worker) : (s.setWorker i a).worker i = a := tableGet_set_same _ _ _ _
@[simp] theorem State.setWorker_worker_other (a : Worker) (h : j ≠ i) : (s.setWorker i a).worker j = s.worker j := tableGet_set_other _ _ _ h
theorem State.setWorker_worker (a : Worker) : (s.setWorker i a).worker j = if j = i then a else s.worker j := tableGet_set _ _ _ _ _
@[simp] theorem State.setWorker_rawWord (a : Worker) : (s.setWorker i a).rawWord j = s.rawWord j := rfl
@[simp] theorem State.setWorker_card (a : Worker) : (s.setWorker i a).card j = s.card j := rfl

/-! ### setWatch -/

@[simp] theorem State.setWatch_clock (a : Watch) : (s.setWatch i a).clock = s.clock := rfl
@[simp] theorem State.setWatch_roundNumber (a : Watch) : (s.setWatch i a).roundNumber = s.roundNumber := rfl
@[simp] theorem State.setWatch_siteCode (a : Watch) : (s.setWatch i a).siteCode = s.siteCode := rfl
@[simp] theorem State.setWatch_modemReady (a : Watch) : (s.setWatch i a).modemReady = s.modemReady := rfl
@[simp] theorem State.setWatch_round (a : Watch) : (s.setWatch i a).round = s.round := rfl
@[simp] theorem State.setWatch_modemOut (a : Watch) : (s.setWatch i a).modemOut = s.modemOut := rfl
@[simp] theorem State.setWatch_ageCounter (a : Watch) : (s.setWatch i a).ageCounter = s.ageCounter := rfl
@[simp] theorem State.setWatch_lists (a : Watch) : (s.setWatch i a).lists = s.lists := rfl
@[simp] theorem State.setWatch_links (a : Watch) : (s.setWatch i a).links = s.links := rfl
@[simp] theorem State.setWatch_noise (a : Watch) : (s.setWatch i a).noise = s.noise := rfl
@[simp] theorem State.setWatch_siteClipped (a : Watch) : (s.setWatch i a).siteClipped = s.siteClipped := rfl
@[simp] theorem State.setWatch_settings (a : Watch) : (s.setWatch i a).settings = s.settings := rfl
@[simp] theorem State.setWatch_pointerA (a : Watch) : (s.setWatch i a).pointerA = s.pointerA := rfl
@[simp] theorem State.setWatch_pointerB (a : Watch) : (s.setWatch i a).pointerB = s.pointerB := rfl
@[simp] theorem State.setWatch_pointerC (a : Watch) : (s.setWatch i a).pointerC = s.pointerC := rfl
@[simp] theorem State.setWatch_quiet (a : Watch) : (s.setWatch i a).quiet = s.quiet := rfl
@[simp] theorem State.setWatch_quietStart (a : Watch) : (s.setWatch i a).quietStart = s.quietStart := rfl
@[simp] theorem State.setWatch_quietEnd (a : Watch) : (s.setWatch i a).quietEnd = s.quietEnd := rfl
@[simp] theorem State.setWatch_lastQuietCause (a : Watch) : (s.setWatch i a).lastQuietCause = s.lastQuietCause := rfl
@[simp] theorem State.setWatch_slotsPlanned (a : Watch) : (s.setWatch i a).slotsPlanned = s.slotsPlanned := rfl
@[simp] theorem State.setWatch_counters (a : Watch) : (s.setWatch i a).counters = s.counters := rfl
@[simp] theorem State.setWatch_trucks (a : Watch) : (s.setWatch i a).trucks = s.trucks := rfl
@[simp] theorem State.setWatch_workers (a : Watch) : (s.setWatch i a).workers = s.workers := rfl
@[simp] theorem State.setWatch_strayId (a : Watch) : (s.setWatch i a).strayId = s.strayId := rfl
@[simp] theorem State.setWatch_strayTime (a : Watch) : (s.setWatch i a).strayTime = s.strayTime := rfl
@[simp] theorem State.setWatch_orders (a : Watch) : (s.setWatch i a).orders = s.orders := rfl
@[simp] theorem State.setWatch_pool (a : Watch) : (s.setWatch i a).pool = s.pool := rfl
@[simp] theorem State.setWatch_freePages (a : Watch) : (s.setWatch i a).freePages = s.freePages := rfl
@[simp] theorem State.setWatch_orderSeq (a : Watch) : (s.setWatch i a).orderSeq = s.orderSeq := rfl
@[simp] theorem State.setWatch_queues (a : Watch) : (s.setWatch i a).queues = s.queues := rfl
@[simp] theorem State.setWatch_truckAlarms (a : Watch) : (s.setWatch i a).truckAlarms = s.truckAlarms := rfl
@[simp] theorem State.setWatch_devices (a : Watch) : (s.setWatch i a).devices = s.devices := rfl
@[simp] theorem State.setWatch_permits (a : Watch) : (s.setWatch i a).permits = s.permits := rfl
@[simp] theorem State.setWatch_programs (a : Watch) : (s.setWatch i a).programs = s.programs := rfl
@[simp] theorem State.setWatch_mem (a : Watch) : (s.setWatch i a).mem = s.mem := rfl
@[simp] theorem State.setWatch_published (a : Watch) : (s.setWatch i a).published = s.published := rfl
@[simp] theorem State.setWatch_passages (a : Watch) : (s.setWatch i a).passages = s.passages := rfl
@[simp] theorem State.setWatch_hold (a : Watch) : (s.setWatch i a).hold = s.hold := rfl
@[simp] theorem State.setWatch_scan (a : Watch) : (s.setWatch i a).scan = s.scan := rfl
@[simp] theorem State.setWatch_callPending (a : Watch) : (s.setWatch i a).callPending = s.callPending := rfl
@[simp] theorem State.setWatch_copies (a : Watch) : (s.setWatch i a).copies = s.copies := rfl
@[simp] theorem State.setWatch_refusedWrite (a : Watch) : (s.setWatch i a).refusedWrite = s.refusedWrite := rfl
@[simp] theorem State.setWatch_missed (a : Watch) : (s.setWatch i a).missed = s.missed := rfl
@[simp] theorem State.setWatch_writeRefused (a : Watch) : (s.setWatch i a).writeRefused = s.writeRefused := rfl
@[simp] theorem State.setWatch_cardFault (a : Watch) : (s.setWatch i a).cardFault = s.cardFault := rfl
@[simp] theorem State.setWatch_portResetDone (a : Watch) : (s.setWatch i a).portResetDone = s.portResetDone := rfl
@[simp] theorem State.setWatch_noticeEnable (a : Watch) : (s.setWatch i a).noticeEnable = s.noticeEnable := rfl
@[simp] theorem State.setWatch_transmitEnable (a : Watch) : (s.setWatch i a).transmitEnable = s.transmitEnable := rfl
@[simp] theorem State.setWatch_authority (a : Watch) : (s.setWatch i a).authority = s.authority := rfl
@[simp] theorem State.setWatch_pending (a : Watch) : (s.setWatch i a).pending = s.pending := rfl

@[simp] theorem State.setWatch_truck (a : Watch) : (s.setWatch i a).truck j = s.truck j := rfl
@[simp] theorem State.setWatch_link (a : Watch) : (s.setWatch i a).link j = s.link j := rfl
@[simp] theorem State.setWatch_counter (a : Watch) : (s.setWatch i a).counter j = s.counter j := rfl
@[simp] theorem State.setWatch_list (a : Watch) : (s.setWatch i a).list j = s.list j := rfl
@[simp] theorem State.setWatch_queue (a : Watch) : (s.setWatch i a).queue j = s.queue j := rfl
@[simp] theorem State.setWatch_truckAlarm (a : Watch) : (s.setWatch i a).truckAlarm j = s.truckAlarm j := rfl
@[simp] theorem State.setWatch_worker (a : Watch) : (s.setWatch i a).worker j = s.worker j := rfl
@[simp] theorem State.setWatch_order (a : Watch) : (s.setWatch i a).order j = s.order j := rfl
@[simp] theorem State.setWatch_device (a : Watch) : (s.setWatch i a).device j = s.device j := rfl
@[simp] theorem State.setWatch_permit (a : Watch) : (s.setWatch i a).permit j = s.permit j := rfl
@[simp] theorem State.setWatch_program (a : Watch) : (s.setWatch i a).program j = s.program j := rfl
@[simp] theorem State.setWatch_watch_same (a : Watch) : (s.setWatch i a).watch i = a := tableGet_set_same _ _ _ _
@[simp] theorem State.setWatch_watch_other (a : Watch) (h : j ≠ i) : (s.setWatch i a).watch j = s.watch j := tableGet_set_other _ _ _ h
theorem State.setWatch_watch (a : Watch) : (s.setWatch i a).watch j = if j = i then a else s.watch j := tableGet_set _ _ _ _ _
@[simp] theorem State.setWatch_rawWord (a : Watch) : (s.setWatch i a).rawWord j = s.rawWord j := rfl
@[simp] theorem State.setWatch_card (a : Watch) : (s.setWatch i a).card j = s.card j := rfl

/-! ### setOrder -/

@[simp] theorem State.setOrder_clock (a : Order) : (s.setOrder i a).clock = s.clock := rfl
@[simp] theorem State.setOrder_roundNumber (a : Order) : (s.setOrder i a).roundNumber = s.roundNumber := rfl
@[simp] theorem State.setOrder_siteCode (a : Order) : (s.setOrder i a).siteCode = s.siteCode := rfl
@[simp] theorem State.setOrder_modemReady (a : Order) : (s.setOrder i a).modemReady = s.modemReady := rfl
@[simp] theorem State.setOrder_round (a : Order) : (s.setOrder i a).round = s.round := rfl
@[simp] theorem State.setOrder_modemOut (a : Order) : (s.setOrder i a).modemOut = s.modemOut := rfl
@[simp] theorem State.setOrder_ageCounter (a : Order) : (s.setOrder i a).ageCounter = s.ageCounter := rfl
@[simp] theorem State.setOrder_lists (a : Order) : (s.setOrder i a).lists = s.lists := rfl
@[simp] theorem State.setOrder_links (a : Order) : (s.setOrder i a).links = s.links := rfl
@[simp] theorem State.setOrder_noise (a : Order) : (s.setOrder i a).noise = s.noise := rfl
@[simp] theorem State.setOrder_siteClipped (a : Order) : (s.setOrder i a).siteClipped = s.siteClipped := rfl
@[simp] theorem State.setOrder_settings (a : Order) : (s.setOrder i a).settings = s.settings := rfl
@[simp] theorem State.setOrder_pointerA (a : Order) : (s.setOrder i a).pointerA = s.pointerA := rfl
@[simp] theorem State.setOrder_pointerB (a : Order) : (s.setOrder i a).pointerB = s.pointerB := rfl
@[simp] theorem State.setOrder_pointerC (a : Order) : (s.setOrder i a).pointerC = s.pointerC := rfl
@[simp] theorem State.setOrder_quiet (a : Order) : (s.setOrder i a).quiet = s.quiet := rfl
@[simp] theorem State.setOrder_quietStart (a : Order) : (s.setOrder i a).quietStart = s.quietStart := rfl
@[simp] theorem State.setOrder_quietEnd (a : Order) : (s.setOrder i a).quietEnd = s.quietEnd := rfl
@[simp] theorem State.setOrder_lastQuietCause (a : Order) : (s.setOrder i a).lastQuietCause = s.lastQuietCause := rfl
@[simp] theorem State.setOrder_slotsPlanned (a : Order) : (s.setOrder i a).slotsPlanned = s.slotsPlanned := rfl
@[simp] theorem State.setOrder_counters (a : Order) : (s.setOrder i a).counters = s.counters := rfl
@[simp] theorem State.setOrder_trucks (a : Order) : (s.setOrder i a).trucks = s.trucks := rfl
@[simp] theorem State.setOrder_workers (a : Order) : (s.setOrder i a).workers = s.workers := rfl
@[simp] theorem State.setOrder_strayId (a : Order) : (s.setOrder i a).strayId = s.strayId := rfl
@[simp] theorem State.setOrder_strayTime (a : Order) : (s.setOrder i a).strayTime = s.strayTime := rfl
@[simp] theorem State.setOrder_pool (a : Order) : (s.setOrder i a).pool = s.pool := rfl
@[simp] theorem State.setOrder_freePages (a : Order) : (s.setOrder i a).freePages = s.freePages := rfl
@[simp] theorem State.setOrder_orderSeq (a : Order) : (s.setOrder i a).orderSeq = s.orderSeq := rfl
@[simp] theorem State.setOrder_queues (a : Order) : (s.setOrder i a).queues = s.queues := rfl
@[simp] theorem State.setOrder_watches (a : Order) : (s.setOrder i a).watches = s.watches := rfl
@[simp] theorem State.setOrder_truckAlarms (a : Order) : (s.setOrder i a).truckAlarms = s.truckAlarms := rfl
@[simp] theorem State.setOrder_devices (a : Order) : (s.setOrder i a).devices = s.devices := rfl
@[simp] theorem State.setOrder_permits (a : Order) : (s.setOrder i a).permits = s.permits := rfl
@[simp] theorem State.setOrder_programs (a : Order) : (s.setOrder i a).programs = s.programs := rfl
@[simp] theorem State.setOrder_mem (a : Order) : (s.setOrder i a).mem = s.mem := rfl
@[simp] theorem State.setOrder_published (a : Order) : (s.setOrder i a).published = s.published := rfl
@[simp] theorem State.setOrder_passages (a : Order) : (s.setOrder i a).passages = s.passages := rfl
@[simp] theorem State.setOrder_hold (a : Order) : (s.setOrder i a).hold = s.hold := rfl
@[simp] theorem State.setOrder_scan (a : Order) : (s.setOrder i a).scan = s.scan := rfl
@[simp] theorem State.setOrder_callPending (a : Order) : (s.setOrder i a).callPending = s.callPending := rfl
@[simp] theorem State.setOrder_copies (a : Order) : (s.setOrder i a).copies = s.copies := rfl
@[simp] theorem State.setOrder_refusedWrite (a : Order) : (s.setOrder i a).refusedWrite = s.refusedWrite := rfl
@[simp] theorem State.setOrder_missed (a : Order) : (s.setOrder i a).missed = s.missed := rfl
@[simp] theorem State.setOrder_writeRefused (a : Order) : (s.setOrder i a).writeRefused = s.writeRefused := rfl
@[simp] theorem State.setOrder_cardFault (a : Order) : (s.setOrder i a).cardFault = s.cardFault := rfl
@[simp] theorem State.setOrder_portResetDone (a : Order) : (s.setOrder i a).portResetDone = s.portResetDone := rfl
@[simp] theorem State.setOrder_noticeEnable (a : Order) : (s.setOrder i a).noticeEnable = s.noticeEnable := rfl
@[simp] theorem State.setOrder_transmitEnable (a : Order) : (s.setOrder i a).transmitEnable = s.transmitEnable := rfl
@[simp] theorem State.setOrder_authority (a : Order) : (s.setOrder i a).authority = s.authority := rfl
@[simp] theorem State.setOrder_pending (a : Order) : (s.setOrder i a).pending = s.pending := rfl

@[simp] theorem State.setOrder_truck (a : Order) : (s.setOrder i a).truck j = s.truck j := rfl
@[simp] theorem State.setOrder_link (a : Order) : (s.setOrder i a).link j = s.link j := rfl
@[simp] theorem State.setOrder_counter (a : Order) : (s.setOrder i a).counter j = s.counter j := rfl
@[simp] theorem State.setOrder_list (a : Order) : (s.setOrder i a).list j = s.list j := rfl
@[simp] theorem State.setOrder_queue (a : Order) : (s.setOrder i a).queue j = s.queue j := rfl
@[simp] theorem State.setOrder_truckAlarm (a : Order) : (s.setOrder i a).truckAlarm j = s.truckAlarm j := rfl
@[simp] theorem State.setOrder_worker (a : Order) : (s.setOrder i a).worker j = s.worker j := rfl
@[simp] theorem State.setOrder_watch (a : Order) : (s.setOrder i a).watch j = s.watch j := rfl
@[simp] theorem State.setOrder_device (a : Order) : (s.setOrder i a).device j = s.device j := rfl
@[simp] theorem State.setOrder_permit (a : Order) : (s.setOrder i a).permit j = s.permit j := rfl
@[simp] theorem State.setOrder_program (a : Order) : (s.setOrder i a).program j = s.program j := rfl
@[simp] theorem State.setOrder_order_same (a : Order) : (s.setOrder i a).order i = a := tableGet_set_same _ _ _ _
@[simp] theorem State.setOrder_order_other (a : Order) (h : j ≠ i) : (s.setOrder i a).order j = s.order j := tableGet_set_other _ _ _ h
theorem State.setOrder_order (a : Order) : (s.setOrder i a).order j = if j = i then a else s.order j := tableGet_set _ _ _ _ _
@[simp] theorem State.setOrder_rawWord (a : Order) : (s.setOrder i a).rawWord j = s.rawWord j := rfl
@[simp] theorem State.setOrder_card (a : Order) : (s.setOrder i a).card j = s.card j := rfl

/-! ### setDevice -/

@[simp] theorem State.setDevice_clock (a : Device) : (s.setDevice i a).clock = s.clock := rfl
@[simp] theorem State.setDevice_roundNumber (a : Device) : (s.setDevice i a).roundNumber = s.roundNumber := rfl
@[simp] theorem State.setDevice_siteCode (a : Device) : (s.setDevice i a).siteCode = s.siteCode := rfl
@[simp] theorem State.setDevice_modemReady (a : Device) : (s.setDevice i a).modemReady = s.modemReady := rfl
@[simp] theorem State.setDevice_round (a : Device) : (s.setDevice i a).round = s.round := rfl
@[simp] theorem State.setDevice_modemOut (a : Device) : (s.setDevice i a).modemOut = s.modemOut := rfl
@[simp] theorem State.setDevice_ageCounter (a : Device) : (s.setDevice i a).ageCounter = s.ageCounter := rfl
@[simp] theorem State.setDevice_lists (a : Device) : (s.setDevice i a).lists = s.lists := rfl
@[simp] theorem State.setDevice_links (a : Device) : (s.setDevice i a).links = s.links := rfl
@[simp] theorem State.setDevice_noise (a : Device) : (s.setDevice i a).noise = s.noise := rfl
@[simp] theorem State.setDevice_siteClipped (a : Device) : (s.setDevice i a).siteClipped = s.siteClipped := rfl
@[simp] theorem State.setDevice_settings (a : Device) : (s.setDevice i a).settings = s.settings := rfl
@[simp] theorem State.setDevice_pointerA (a : Device) : (s.setDevice i a).pointerA = s.pointerA := rfl
@[simp] theorem State.setDevice_pointerB (a : Device) : (s.setDevice i a).pointerB = s.pointerB := rfl
@[simp] theorem State.setDevice_pointerC (a : Device) : (s.setDevice i a).pointerC = s.pointerC := rfl
@[simp] theorem State.setDevice_quiet (a : Device) : (s.setDevice i a).quiet = s.quiet := rfl
@[simp] theorem State.setDevice_quietStart (a : Device) : (s.setDevice i a).quietStart = s.quietStart := rfl
@[simp] theorem State.setDevice_quietEnd (a : Device) : (s.setDevice i a).quietEnd = s.quietEnd := rfl
@[simp] theorem State.setDevice_lastQuietCause (a : Device) : (s.setDevice i a).lastQuietCause = s.lastQuietCause := rfl
@[simp] theorem State.setDevice_slotsPlanned (a : Device) : (s.setDevice i a).slotsPlanned = s.slotsPlanned := rfl
@[simp] theorem State.setDevice_counters (a : Device) : (s.setDevice i a).counters = s.counters := rfl
@[simp] theorem State.setDevice_trucks (a : Device) : (s.setDevice i a).trucks = s.trucks := rfl
@[simp] theorem State.setDevice_workers (a : Device) : (s.setDevice i a).workers = s.workers := rfl
@[simp] theorem State.setDevice_strayId (a : Device) : (s.setDevice i a).strayId = s.strayId := rfl
@[simp] theorem State.setDevice_strayTime (a : Device) : (s.setDevice i a).strayTime = s.strayTime := rfl
@[simp] theorem State.setDevice_orders (a : Device) : (s.setDevice i a).orders = s.orders := rfl
@[simp] theorem State.setDevice_pool (a : Device) : (s.setDevice i a).pool = s.pool := rfl
@[simp] theorem State.setDevice_freePages (a : Device) : (s.setDevice i a).freePages = s.freePages := rfl
@[simp] theorem State.setDevice_orderSeq (a : Device) : (s.setDevice i a).orderSeq = s.orderSeq := rfl
@[simp] theorem State.setDevice_queues (a : Device) : (s.setDevice i a).queues = s.queues := rfl
@[simp] theorem State.setDevice_watches (a : Device) : (s.setDevice i a).watches = s.watches := rfl
@[simp] theorem State.setDevice_truckAlarms (a : Device) : (s.setDevice i a).truckAlarms = s.truckAlarms := rfl
@[simp] theorem State.setDevice_permits (a : Device) : (s.setDevice i a).permits = s.permits := rfl
@[simp] theorem State.setDevice_programs (a : Device) : (s.setDevice i a).programs = s.programs := rfl
@[simp] theorem State.setDevice_mem (a : Device) : (s.setDevice i a).mem = s.mem := rfl
@[simp] theorem State.setDevice_published (a : Device) : (s.setDevice i a).published = s.published := rfl
@[simp] theorem State.setDevice_passages (a : Device) : (s.setDevice i a).passages = s.passages := rfl
@[simp] theorem State.setDevice_hold (a : Device) : (s.setDevice i a).hold = s.hold := rfl
@[simp] theorem State.setDevice_scan (a : Device) : (s.setDevice i a).scan = s.scan := rfl
@[simp] theorem State.setDevice_callPending (a : Device) : (s.setDevice i a).callPending = s.callPending := rfl
@[simp] theorem State.setDevice_copies (a : Device) : (s.setDevice i a).copies = s.copies := rfl
@[simp] theorem State.setDevice_refusedWrite (a : Device) : (s.setDevice i a).refusedWrite = s.refusedWrite := rfl
@[simp] theorem State.setDevice_missed (a : Device) : (s.setDevice i a).missed = s.missed := rfl
@[simp] theorem State.setDevice_writeRefused (a : Device) : (s.setDevice i a).writeRefused = s.writeRefused := rfl
@[simp] theorem State.setDevice_cardFault (a : Device) : (s.setDevice i a).cardFault = s.cardFault := rfl
@[simp] theorem State.setDevice_portResetDone (a : Device) : (s.setDevice i a).portResetDone = s.portResetDone := rfl
@[simp] theorem State.setDevice_noticeEnable (a : Device) : (s.setDevice i a).noticeEnable = s.noticeEnable := rfl
@[simp] theorem State.setDevice_transmitEnable (a : Device) : (s.setDevice i a).transmitEnable = s.transmitEnable := rfl
@[simp] theorem State.setDevice_authority (a : Device) : (s.setDevice i a).authority = s.authority := rfl
@[simp] theorem State.setDevice_pending (a : Device) : (s.setDevice i a).pending = s.pending := rfl

@[simp] theorem State.setDevice_truck (a : Device) : (s.setDevice i a).truck j = s.truck j := rfl
@[simp] theorem State.setDevice_link (a : Device) : (s.setDevice i a).link j = s.link j := rfl
@[simp] theorem State.setDevice_counter (a : Device) : (s.setDevice i a).counter j = s.counter j := rfl
@[simp] theorem State.setDevice_list (a : Device) : (s.setDevice i a).list j = s.list j := rfl
@[simp] theorem State.setDevice_queue (a : Device) : (s.setDevice i a).queue j = s.queue j := rfl
@[simp] theorem State.setDevice_truckAlarm (a : Device) : (s.setDevice i a).truckAlarm j = s.truckAlarm j := rfl
@[simp] theorem State.setDevice_worker (a : Device) : (s.setDevice i a).worker j = s.worker j := rfl
@[simp] theorem State.setDevice_watch (a : Device) : (s.setDevice i a).watch j = s.watch j := rfl
@[simp] theorem State.setDevice_order (a : Device) : (s.setDevice i a).order j = s.order j := rfl
@[simp] theorem State.setDevice_permit (a : Device) : (s.setDevice i a).permit j = s.permit j := rfl
@[simp] theorem State.setDevice_program (a : Device) : (s.setDevice i a).program j = s.program j := rfl
@[simp] theorem State.setDevice_device_same (a : Device) : (s.setDevice i a).device i = a := tableGet_set_same _ _ _ _
@[simp] theorem State.setDevice_device_other (a : Device) (h : j ≠ i) : (s.setDevice i a).device j = s.device j := tableGet_set_other _ _ _ h
theorem State.setDevice_device (a : Device) : (s.setDevice i a).device j = if j = i then a else s.device j := tableGet_set _ _ _ _ _
@[simp] theorem State.setDevice_rawWord (a : Device) : (s.setDevice i a).rawWord j = s.rawWord j := rfl
@[simp] theorem State.setDevice_card (a : Device) : (s.setDevice i a).card j = s.card j := rfl

/-! ### setPermit -/

@[simp] theorem State.setPermit_clock (a : Permit) : (s.setPermit i a).clock = s.clock := rfl
@[simp] theorem State.setPermit_roundNumber (a : Permit) : (s.setPermit i a).roundNumber = s.roundNumber := rfl
@[simp] theorem State.setPermit_siteCode (a : Permit) : (s.setPermit i a).siteCode = s.siteCode := rfl
@[simp] theorem State.setPermit_modemReady (a : Permit) : (s.setPermit i a).modemReady = s.modemReady := rfl
@[simp] theorem State.setPermit_round (a : Permit) : (s.setPermit i a).round = s.round := rfl
@[simp] theorem State.setPermit_modemOut (a : Permit) : (s.setPermit i a).modemOut = s.modemOut := rfl
@[simp] theorem State.setPermit_ageCounter (a : Permit) : (s.setPermit i a).ageCounter = s.ageCounter := rfl
@[simp] theorem State.setPermit_lists (a : Permit) : (s.setPermit i a).lists = s.lists := rfl
@[simp] theorem State.setPermit_links (a : Permit) : (s.setPermit i a).links = s.links := rfl
@[simp] theorem State.setPermit_noise (a : Permit) : (s.setPermit i a).noise = s.noise := rfl
@[simp] theorem State.setPermit_siteClipped (a : Permit) : (s.setPermit i a).siteClipped = s.siteClipped := rfl
@[simp] theorem State.setPermit_settings (a : Permit) : (s.setPermit i a).settings = s.settings := rfl
@[simp] theorem State.setPermit_pointerA (a : Permit) : (s.setPermit i a).pointerA = s.pointerA := rfl
@[simp] theorem State.setPermit_pointerB (a : Permit) : (s.setPermit i a).pointerB = s.pointerB := rfl
@[simp] theorem State.setPermit_pointerC (a : Permit) : (s.setPermit i a).pointerC = s.pointerC := rfl
@[simp] theorem State.setPermit_quiet (a : Permit) : (s.setPermit i a).quiet = s.quiet := rfl
@[simp] theorem State.setPermit_quietStart (a : Permit) : (s.setPermit i a).quietStart = s.quietStart := rfl
@[simp] theorem State.setPermit_quietEnd (a : Permit) : (s.setPermit i a).quietEnd = s.quietEnd := rfl
@[simp] theorem State.setPermit_lastQuietCause (a : Permit) : (s.setPermit i a).lastQuietCause = s.lastQuietCause := rfl
@[simp] theorem State.setPermit_slotsPlanned (a : Permit) : (s.setPermit i a).slotsPlanned = s.slotsPlanned := rfl
@[simp] theorem State.setPermit_counters (a : Permit) : (s.setPermit i a).counters = s.counters := rfl
@[simp] theorem State.setPermit_trucks (a : Permit) : (s.setPermit i a).trucks = s.trucks := rfl
@[simp] theorem State.setPermit_workers (a : Permit) : (s.setPermit i a).workers = s.workers := rfl
@[simp] theorem State.setPermit_strayId (a : Permit) : (s.setPermit i a).strayId = s.strayId := rfl
@[simp] theorem State.setPermit_strayTime (a : Permit) : (s.setPermit i a).strayTime = s.strayTime := rfl
@[simp] theorem State.setPermit_orders (a : Permit) : (s.setPermit i a).orders = s.orders := rfl
@[simp] theorem State.setPermit_pool (a : Permit) : (s.setPermit i a).pool = s.pool := rfl
@[simp] theorem State.setPermit_freePages (a : Permit) : (s.setPermit i a).freePages = s.freePages := rfl
@[simp] theorem State.setPermit_orderSeq (a : Permit) : (s.setPermit i a).orderSeq = s.orderSeq := rfl
@[simp] theorem State.setPermit_queues (a : Permit) : (s.setPermit i a).queues = s.queues := rfl
@[simp] theorem State.setPermit_watches (a : Permit) : (s.setPermit i a).watches = s.watches := rfl
@[simp] theorem State.setPermit_truckAlarms (a : Permit) : (s.setPermit i a).truckAlarms = s.truckAlarms := rfl
@[simp] theorem State.setPermit_devices (a : Permit) : (s.setPermit i a).devices = s.devices := rfl
@[simp] theorem State.setPermit_programs (a : Permit) : (s.setPermit i a).programs = s.programs := rfl
@[simp] theorem State.setPermit_mem (a : Permit) : (s.setPermit i a).mem = s.mem := rfl
@[simp] theorem State.setPermit_published (a : Permit) : (s.setPermit i a).published = s.published := rfl
@[simp] theorem State.setPermit_passages (a : Permit) : (s.setPermit i a).passages = s.passages := rfl
@[simp] theorem State.setPermit_hold (a : Permit) : (s.setPermit i a).hold = s.hold := rfl
@[simp] theorem State.setPermit_scan (a : Permit) : (s.setPermit i a).scan = s.scan := rfl
@[simp] theorem State.setPermit_callPending (a : Permit) : (s.setPermit i a).callPending = s.callPending := rfl
@[simp] theorem State.setPermit_copies (a : Permit) : (s.setPermit i a).copies = s.copies := rfl
@[simp] theorem State.setPermit_refusedWrite (a : Permit) : (s.setPermit i a).refusedWrite = s.refusedWrite := rfl
@[simp] theorem State.setPermit_missed (a : Permit) : (s.setPermit i a).missed = s.missed := rfl
@[simp] theorem State.setPermit_writeRefused (a : Permit) : (s.setPermit i a).writeRefused = s.writeRefused := rfl
@[simp] theorem State.setPermit_cardFault (a : Permit) : (s.setPermit i a).cardFault = s.cardFault := rfl
@[simp] theorem State.setPermit_portResetDone (a : Permit) : (s.setPermit i a).portResetDone = s.portResetDone := rfl
@[simp] theorem State.setPermit_noticeEnable (a : Permit) : (s.setPermit i a).noticeEnable = s.noticeEnable := rfl
@[simp] theorem State.setPermit_transmitEnable (a : Permit) : (s.setPermit i a).transmitEnable = s.transmitEnable := rfl
@[simp] theorem State.setPermit_authority (a : Permit) : (s.setPermit i a).authority = s.authority := rfl
@[simp] theorem State.setPermit_pending (a : Permit) : (s.setPermit i a).pending = s.pending := rfl

@[simp] theorem State.setPermit_truck (a : Permit) : (s.setPermit i a).truck j = s.truck j := rfl
@[simp] theorem State.setPermit_link (a : Permit) : (s.setPermit i a).link j = s.link j := rfl
@[simp] theorem State.setPermit_counter (a : Permit) : (s.setPermit i a).counter j = s.counter j := rfl
@[simp] theorem State.setPermit_list (a : Permit) : (s.setPermit i a).list j = s.list j := rfl
@[simp] theorem State.setPermit_queue (a : Permit) : (s.setPermit i a).queue j = s.queue j := rfl
@[simp] theorem State.setPermit_truckAlarm (a : Permit) : (s.setPermit i a).truckAlarm j = s.truckAlarm j := rfl
@[simp] theorem State.setPermit_worker (a : Permit) : (s.setPermit i a).worker j = s.worker j := rfl
@[simp] theorem State.setPermit_watch (a : Permit) : (s.setPermit i a).watch j = s.watch j := rfl
@[simp] theorem State.setPermit_order (a : Permit) : (s.setPermit i a).order j = s.order j := rfl
@[simp] theorem State.setPermit_device (a : Permit) : (s.setPermit i a).device j = s.device j := rfl
@[simp] theorem State.setPermit_program (a : Permit) : (s.setPermit i a).program j = s.program j := rfl
@[simp] theorem State.setPermit_permit_same (a : Permit) : (s.setPermit i a).permit i = a := tableGet_set_same _ _ _ _
@[simp] theorem State.setPermit_permit_other (a : Permit) (h : j ≠ i) : (s.setPermit i a).permit j = s.permit j := tableGet_set_other _ _ _ h
theorem State.setPermit_permit (a : Permit) : (s.setPermit i a).permit j = if j = i then a else s.permit j := tableGet_set _ _ _ _ _
@[simp] theorem State.setPermit_rawWord (a : Permit) : (s.setPermit i a).rawWord j = s.rawWord j := rfl
@[simp] theorem State.setPermit_card (a : Permit) : (s.setPermit i a).card j = s.card j := rfl

/-! ### setProgram -/

@[simp] theorem State.setProgram_clock (a : Program) : (s.setProgram i a).clock = s.clock := rfl
@[simp] theorem State.setProgram_roundNumber (a : Program) : (s.setProgram i a).roundNumber = s.roundNumber := rfl
@[simp] theorem State.setProgram_siteCode (a : Program) : (s.setProgram i a).siteCode = s.siteCode := rfl
@[simp] theorem State.setProgram_modemReady (a : Program) : (s.setProgram i a).modemReady = s.modemReady := rfl
@[simp] theorem State.setProgram_round (a : Program) : (s.setProgram i a).round = s.round := rfl
@[simp] theorem State.setProgram_modemOut (a : Program) : (s.setProgram i a).modemOut = s.modemOut := rfl
@[simp] theorem State.setProgram_ageCounter (a : Program) : (s.setProgram i a).ageCounter = s.ageCounter := rfl
@[simp] theorem State.setProgram_lists (a : Program) : (s.setProgram i a).lists = s.lists := rfl
@[simp] theorem State.setProgram_links (a : Program) : (s.setProgram i a).links = s.links := rfl
@[simp] theorem State.setProgram_noise (a : Program) : (s.setProgram i a).noise = s.noise := rfl
@[simp] theorem State.setProgram_siteClipped (a : Program) : (s.setProgram i a).siteClipped = s.siteClipped := rfl
@[simp] theorem State.setProgram_settings (a : Program) : (s.setProgram i a).settings = s.settings := rfl
@[simp] theorem State.setProgram_pointerA (a : Program) : (s.setProgram i a).pointerA = s.pointerA := rfl
@[simp] theorem State.setProgram_pointerB (a : Program) : (s.setProgram i a).pointerB = s.pointerB := rfl
@[simp] theorem State.setProgram_pointerC (a : Program) : (s.setProgram i a).pointerC = s.pointerC := rfl
@[simp] theorem State.setProgram_quiet (a : Program) : (s.setProgram i a).quiet = s.quiet := rfl
@[simp] theorem State.setProgram_quietStart (a : Program) : (s.setProgram i a).quietStart = s.quietStart := rfl
@[simp] theorem State.setProgram_quietEnd (a : Program) : (s.setProgram i a).quietEnd = s.quietEnd := rfl
@[simp] theorem State.setProgram_lastQuietCause (a : Program) : (s.setProgram i a).lastQuietCause = s.lastQuietCause := rfl
@[simp] theorem State.setProgram_slotsPlanned (a : Program) : (s.setProgram i a).slotsPlanned = s.slotsPlanned := rfl
@[simp] theorem State.setProgram_counters (a : Program) : (s.setProgram i a).counters = s.counters := rfl
@[simp] theorem State.setProgram_trucks (a : Program) : (s.setProgram i a).trucks = s.trucks := rfl
@[simp] theorem State.setProgram_workers (a : Program) : (s.setProgram i a).workers = s.workers := rfl
@[simp] theorem State.setProgram_strayId (a : Program) : (s.setProgram i a).strayId = s.strayId := rfl
@[simp] theorem State.setProgram_strayTime (a : Program) : (s.setProgram i a).strayTime = s.strayTime := rfl
@[simp] theorem State.setProgram_orders (a : Program) : (s.setProgram i a).orders = s.orders := rfl
@[simp] theorem State.setProgram_pool (a : Program) : (s.setProgram i a).pool = s.pool := rfl
@[simp] theorem State.setProgram_freePages (a : Program) : (s.setProgram i a).freePages = s.freePages := rfl
@[simp] theorem State.setProgram_orderSeq (a : Program) : (s.setProgram i a).orderSeq = s.orderSeq := rfl
@[simp] theorem State.setProgram_queues (a : Program) : (s.setProgram i a).queues = s.queues := rfl
@[simp] theorem State.setProgram_watches (a : Program) : (s.setProgram i a).watches = s.watches := rfl
@[simp] theorem State.setProgram_truckAlarms (a : Program) : (s.setProgram i a).truckAlarms = s.truckAlarms := rfl
@[simp] theorem State.setProgram_devices (a : Program) : (s.setProgram i a).devices = s.devices := rfl
@[simp] theorem State.setProgram_permits (a : Program) : (s.setProgram i a).permits = s.permits := rfl
@[simp] theorem State.setProgram_mem (a : Program) : (s.setProgram i a).mem = s.mem := rfl
@[simp] theorem State.setProgram_published (a : Program) : (s.setProgram i a).published = s.published := rfl
@[simp] theorem State.setProgram_passages (a : Program) : (s.setProgram i a).passages = s.passages := rfl
@[simp] theorem State.setProgram_hold (a : Program) : (s.setProgram i a).hold = s.hold := rfl
@[simp] theorem State.setProgram_scan (a : Program) : (s.setProgram i a).scan = s.scan := rfl
@[simp] theorem State.setProgram_callPending (a : Program) : (s.setProgram i a).callPending = s.callPending := rfl
@[simp] theorem State.setProgram_copies (a : Program) : (s.setProgram i a).copies = s.copies := rfl
@[simp] theorem State.setProgram_refusedWrite (a : Program) : (s.setProgram i a).refusedWrite = s.refusedWrite := rfl
@[simp] theorem State.setProgram_missed (a : Program) : (s.setProgram i a).missed = s.missed := rfl
@[simp] theorem State.setProgram_writeRefused (a : Program) : (s.setProgram i a).writeRefused = s.writeRefused := rfl
@[simp] theorem State.setProgram_cardFault (a : Program) : (s.setProgram i a).cardFault = s.cardFault := rfl
@[simp] theorem State.setProgram_portResetDone (a : Program) : (s.setProgram i a).portResetDone = s.portResetDone := rfl
@[simp] theorem State.setProgram_noticeEnable (a : Program) : (s.setProgram i a).noticeEnable = s.noticeEnable := rfl
@[simp] theorem State.setProgram_transmitEnable (a : Program) : (s.setProgram i a).transmitEnable = s.transmitEnable := rfl
@[simp] theorem State.setProgram_authority (a : Program) : (s.setProgram i a).authority = s.authority := rfl
@[simp] theorem State.setProgram_pending (a : Program) : (s.setProgram i a).pending = s.pending := rfl

@[simp] theorem State.setProgram_truck (a : Program) : (s.setProgram i a).truck j = s.truck j := rfl
@[simp] theorem State.setProgram_link (a : Program) : (s.setProgram i a).link j = s.link j := rfl
@[simp] theorem State.setProgram_counter (a : Program) : (s.setProgram i a).counter j = s.counter j := rfl
@[simp] theorem State.setProgram_list (a : Program) : (s.setProgram i a).list j = s.list j := rfl
@[simp] theorem State.setProgram_queue (a : Program) : (s.setProgram i a).queue j = s.queue j := rfl
@[simp] theorem State.setProgram_truckAlarm (a : Program) : (s.setProgram i a).truckAlarm j = s.truckAlarm j := rfl
@[simp] theorem State.setProgram_worker (a : Program) : (s.setProgram i a).worker j = s.worker j := rfl
@[simp] theorem State.setProgram_watch (a : Program) : (s.setProgram i a).watch j = s.watch j := rfl
@[simp] theorem State.setProgram_order (a : Program) : (s.setProgram i a).order j = s.order j := rfl
@[simp] theorem State.setProgram_device (a : Program) : (s.setProgram i a).device j = s.device j := rfl
@[simp] theorem State.setProgram_permit (a : Program) : (s.setProgram i a).permit j = s.permit j := rfl
@[simp] theorem State.setProgram_program_same (a : Program) : (s.setProgram i a).program i = a := tableGet_set_same _ _ _ _
@[simp] theorem State.setProgram_program_other (a : Program) (h : j ≠ i) : (s.setProgram i a).program j = s.program j := tableGet_set_other _ _ _ h
theorem State.setProgram_program (a : Program) : (s.setProgram i a).program j = if j = i then a else s.program j := tableGet_set _ _ _ _ _
@[simp] theorem State.setProgram_rawWord (a : Program) : (s.setProgram i a).rawWord j = s.rawWord j := rfl
@[simp] theorem State.setProgram_card (a : Program) : (s.setProgram i a).card j = s.card j := rfl

/-! ### setRaw -/

@[simp] theorem State.setRaw_clock (w : Nat) (v : Word) : (s.setRaw w v).clock = s.clock := rfl
@[simp] theorem State.setRaw_roundNumber (w : Nat) (v : Word) : (s.setRaw w v).roundNumber = s.roundNumber := rfl
@[simp] theorem State.setRaw_siteCode (w : Nat) (v : Word) : (s.setRaw w v).siteCode = s.siteCode := rfl
@[simp] theorem State.setRaw_modemReady (w : Nat) (v : Word) : (s.setRaw w v).modemReady = s.modemReady := rfl
@[simp] theorem State.setRaw_round (w : Nat) (v : Word) : (s.setRaw w v).round = s.round := rfl
@[simp] theorem State.setRaw_modemOut (w : Nat) (v : Word) : (s.setRaw w v).modemOut = s.modemOut := rfl
@[simp] theorem State.setRaw_ageCounter (w : Nat) (v : Word) : (s.setRaw w v).ageCounter = s.ageCounter := rfl
@[simp] theorem State.setRaw_lists (w : Nat) (v : Word) : (s.setRaw w v).lists = s.lists := rfl
@[simp] theorem State.setRaw_links (w : Nat) (v : Word) : (s.setRaw w v).links = s.links := rfl
@[simp] theorem State.setRaw_noise (w : Nat) (v : Word) : (s.setRaw w v).noise = s.noise := rfl
@[simp] theorem State.setRaw_siteClipped (w : Nat) (v : Word) : (s.setRaw w v).siteClipped = s.siteClipped := rfl
@[simp] theorem State.setRaw_settings (w : Nat) (v : Word) : (s.setRaw w v).settings = s.settings := rfl
@[simp] theorem State.setRaw_pointerA (w : Nat) (v : Word) : (s.setRaw w v).pointerA = s.pointerA := rfl
@[simp] theorem State.setRaw_pointerB (w : Nat) (v : Word) : (s.setRaw w v).pointerB = s.pointerB := rfl
@[simp] theorem State.setRaw_pointerC (w : Nat) (v : Word) : (s.setRaw w v).pointerC = s.pointerC := rfl
@[simp] theorem State.setRaw_quiet (w : Nat) (v : Word) : (s.setRaw w v).quiet = s.quiet := rfl
@[simp] theorem State.setRaw_quietStart (w : Nat) (v : Word) : (s.setRaw w v).quietStart = s.quietStart := rfl
@[simp] theorem State.setRaw_quietEnd (w : Nat) (v : Word) : (s.setRaw w v).quietEnd = s.quietEnd := rfl
@[simp] theorem State.setRaw_lastQuietCause (w : Nat) (v : Word) : (s.setRaw w v).lastQuietCause = s.lastQuietCause := rfl
@[simp] theorem State.setRaw_slotsPlanned (w : Nat) (v : Word) : (s.setRaw w v).slotsPlanned = s.slotsPlanned := rfl
@[simp] theorem State.setRaw_counters (w : Nat) (v : Word) : (s.setRaw w v).counters = s.counters := rfl
@[simp] theorem State.setRaw_trucks (w : Nat) (v : Word) : (s.setRaw w v).trucks = s.trucks := rfl
@[simp] theorem State.setRaw_workers (w : Nat) (v : Word) : (s.setRaw w v).workers = s.workers := rfl
@[simp] theorem State.setRaw_strayId (w : Nat) (v : Word) : (s.setRaw w v).strayId = s.strayId := rfl
@[simp] theorem State.setRaw_strayTime (w : Nat) (v : Word) : (s.setRaw w v).strayTime = s.strayTime := rfl
@[simp] theorem State.setRaw_orders (w : Nat) (v : Word) : (s.setRaw w v).orders = s.orders := rfl
@[simp] theorem State.setRaw_pool (w : Nat) (v : Word) : (s.setRaw w v).pool = s.pool := rfl
@[simp] theorem State.setRaw_freePages (w : Nat) (v : Word) : (s.setRaw w v).freePages = s.freePages := rfl
@[simp] theorem State.setRaw_orderSeq (w : Nat) (v : Word) : (s.setRaw w v).orderSeq = s.orderSeq := rfl
@[simp] theorem State.setRaw_queues (w : Nat) (v : Word) : (s.setRaw w v).queues = s.queues := rfl
@[simp] theorem State.setRaw_watches (w : Nat) (v : Word) : (s.setRaw w v).watches = s.watches := rfl
@[simp] theorem State.setRaw_truckAlarms (w : Nat) (v : Word) : (s.setRaw w v).truckAlarms = s.truckAlarms := rfl
@[simp] theorem State.setRaw_devices (w : Nat) (v : Word) : (s.setRaw w v).devices = s.devices := rfl
@[simp] theorem State.setRaw_permits (w : Nat) (v : Word) : (s.setRaw w v).permits = s.permits := rfl
@[simp] theorem State.setRaw_programs (w : Nat) (v : Word) : (s.setRaw w v).programs = s.programs := rfl
@[simp] theorem State.setRaw_published (w : Nat) (v : Word) : (s.setRaw w v).published = s.published := rfl
@[simp] theorem State.setRaw_passages (w : Nat) (v : Word) : (s.setRaw w v).passages = s.passages := rfl
@[simp] theorem State.setRaw_hold (w : Nat) (v : Word) : (s.setRaw w v).hold = s.hold := rfl
@[simp] theorem State.setRaw_scan (w : Nat) (v : Word) : (s.setRaw w v).scan = s.scan := rfl
@[simp] theorem State.setRaw_callPending (w : Nat) (v : Word) : (s.setRaw w v).callPending = s.callPending := rfl
@[simp] theorem State.setRaw_copies (w : Nat) (v : Word) : (s.setRaw w v).copies = s.copies := rfl
@[simp] theorem State.setRaw_refusedWrite (w : Nat) (v : Word) : (s.setRaw w v).refusedWrite = s.refusedWrite := rfl
@[simp] theorem State.setRaw_missed (w : Nat) (v : Word) : (s.setRaw w v).missed = s.missed := rfl
@[simp] theorem State.setRaw_writeRefused (w : Nat) (v : Word) : (s.setRaw w v).writeRefused = s.writeRefused := rfl
@[simp] theorem State.setRaw_cardFault (w : Nat) (v : Word) : (s.setRaw w v).cardFault = s.cardFault := rfl
@[simp] theorem State.setRaw_portResetDone (w : Nat) (v : Word) : (s.setRaw w v).portResetDone = s.portResetDone := rfl
@[simp] theorem State.setRaw_noticeEnable (w : Nat) (v : Word) : (s.setRaw w v).noticeEnable = s.noticeEnable := rfl
@[simp] theorem State.setRaw_transmitEnable (w : Nat) (v : Word) : (s.setRaw w v).transmitEnable = s.transmitEnable := rfl
@[simp] theorem State.setRaw_authority (w : Nat) (v : Word) : (s.setRaw w v).authority = s.authority := rfl
@[simp] theorem State.setRaw_pending (w : Nat) (v : Word) : (s.setRaw w v).pending = s.pending := rfl
@[simp] theorem State.setRaw_truck (w : Nat) (v : Word) : (s.setRaw w v).truck j = s.truck j := rfl
@[simp] theorem State.setRaw_link (w : Nat) (v : Word) : (s.setRaw w v).link j = s.link j := rfl
@[simp] theorem State.setRaw_counter (w : Nat) (v : Word) : (s.setRaw w v).counter j = s.counter j := rfl
@[simp] theorem State.setRaw_list (w : Nat) (v : Word) : (s.setRaw w v).list j = s.list j := rfl
@[simp] theorem State.setRaw_queue (w : Nat) (v : Word) : (s.setRaw w v).queue j = s.queue j := rfl
@[simp] theorem State.setRaw_truckAlarm (w : Nat) (v : Word) : (s.setRaw w v).truckAlarm j = s.truckAlarm j := rfl
@[simp] theorem State.setRaw_worker (w : Nat) (v : Word) : (s.setRaw w v).worker j = s.worker j := rfl
@[simp] theorem State.setRaw_watch (w : Nat) (v : Word) : (s.setRaw w v).watch j = s.watch j := rfl
@[simp] theorem State.setRaw_order (w : Nat) (v : Word) : (s.setRaw w v).order j = s.order j := rfl
@[simp] theorem State.setRaw_device (w : Nat) (v : Word) : (s.setRaw w v).device j = s.device j := rfl
@[simp] theorem State.setRaw_permit (w : Nat) (v : Word) : (s.setRaw w v).permit j = s.permit j := rfl
@[simp] theorem State.setRaw_program (w : Nat) (v : Word) : (s.setRaw w v).program j = s.program j := rfl

/-! ### fillSlot -/

@[simp] theorem State.fillSlot_clock (k : Nat) (n : Notice) : (s.fillSlot k n).clock = s.clock := rfl
@[simp] theorem State.fillSlot_roundNumber (k : Nat) (n : Notice) : (s.fillSlot k n).roundNumber = s.roundNumber := rfl
@[simp] theorem State.fillSlot_siteCode (k : Nat) (n : Notice) : (s.fillSlot k n).siteCode = s.siteCode := rfl
@[simp] theorem State.fillSlot_modemReady (k : Nat) (n : Notice) : (s.fillSlot k n).modemReady = s.modemReady := rfl
@[simp] theorem State.fillSlot_round (k : Nat) (n : Notice) : (s.fillSlot k n).round = s.round := rfl
@[simp] theorem State.fillSlot_modemOut (k : Nat) (n : Notice) : (s.fillSlot k n).modemOut = s.modemOut := rfl
@[simp] theorem State.fillSlot_ageCounter (k : Nat) (n : Notice) : (s.fillSlot k n).ageCounter = s.ageCounter := rfl
@[simp] theorem State.fillSlot_lists (k : Nat) (n : Notice) : (s.fillSlot k n).lists = s.lists := rfl
@[simp] theorem State.fillSlot_links (k : Nat) (n : Notice) : (s.fillSlot k n).links = s.links := rfl
@[simp] theorem State.fillSlot_noise (k : Nat) (n : Notice) : (s.fillSlot k n).noise = s.noise := rfl
@[simp] theorem State.fillSlot_siteClipped (k : Nat) (n : Notice) : (s.fillSlot k n).siteClipped = s.siteClipped := rfl
@[simp] theorem State.fillSlot_settings (k : Nat) (n : Notice) : (s.fillSlot k n).settings = s.settings := rfl
@[simp] theorem State.fillSlot_pointerA (k : Nat) (n : Notice) : (s.fillSlot k n).pointerA = s.pointerA := rfl
@[simp] theorem State.fillSlot_pointerB (k : Nat) (n : Notice) : (s.fillSlot k n).pointerB = s.pointerB := rfl
@[simp] theorem State.fillSlot_pointerC (k : Nat) (n : Notice) : (s.fillSlot k n).pointerC = s.pointerC := rfl
@[simp] theorem State.fillSlot_quiet (k : Nat) (n : Notice) : (s.fillSlot k n).quiet = s.quiet := rfl
@[simp] theorem State.fillSlot_quietStart (k : Nat) (n : Notice) : (s.fillSlot k n).quietStart = s.quietStart := rfl
@[simp] theorem State.fillSlot_quietEnd (k : Nat) (n : Notice) : (s.fillSlot k n).quietEnd = s.quietEnd := rfl
@[simp] theorem State.fillSlot_lastQuietCause (k : Nat) (n : Notice) : (s.fillSlot k n).lastQuietCause = s.lastQuietCause := rfl
@[simp] theorem State.fillSlot_slotsPlanned (k : Nat) (n : Notice) : (s.fillSlot k n).slotsPlanned = s.slotsPlanned := rfl
@[simp] theorem State.fillSlot_counters (k : Nat) (n : Notice) : (s.fillSlot k n).counters = s.counters := rfl
@[simp] theorem State.fillSlot_trucks (k : Nat) (n : Notice) : (s.fillSlot k n).trucks = s.trucks := rfl
@[simp] theorem State.fillSlot_workers (k : Nat) (n : Notice) : (s.fillSlot k n).workers = s.workers := rfl
@[simp] theorem State.fillSlot_strayId (k : Nat) (n : Notice) : (s.fillSlot k n).strayId = s.strayId := rfl
@[simp] theorem State.fillSlot_strayTime (k : Nat) (n : Notice) : (s.fillSlot k n).strayTime = s.strayTime := rfl
@[simp] theorem State.fillSlot_orders (k : Nat) (n : Notice) : (s.fillSlot k n).orders = s.orders := rfl
@[simp] theorem State.fillSlot_pool (k : Nat) (n : Notice) : (s.fillSlot k n).pool = s.pool := rfl
@[simp] theorem State.fillSlot_freePages (k : Nat) (n : Notice) : (s.fillSlot k n).freePages = s.freePages := rfl
@[simp] theorem State.fillSlot_orderSeq (k : Nat) (n : Notice) : (s.fillSlot k n).orderSeq = s.orderSeq := rfl
@[simp] theorem State.fillSlot_queues (k : Nat) (n : Notice) : (s.fillSlot k n).queues = s.queues := rfl
@[simp] theorem State.fillSlot_watches (k : Nat) (n : Notice) : (s.fillSlot k n).watches = s.watches := rfl
@[simp] theorem State.fillSlot_truckAlarms (k : Nat) (n : Notice) : (s.fillSlot k n).truckAlarms = s.truckAlarms := rfl
@[simp] theorem State.fillSlot_devices (k : Nat) (n : Notice) : (s.fillSlot k n).devices = s.devices := rfl
@[simp] theorem State.fillSlot_permits (k : Nat) (n : Notice) : (s.fillSlot k n).permits = s.permits := rfl
@[simp] theorem State.fillSlot_programs (k : Nat) (n : Notice) : (s.fillSlot k n).programs = s.programs := rfl
@[simp] theorem State.fillSlot_published (k : Nat) (n : Notice) : (s.fillSlot k n).published = s.published := rfl
@[simp] theorem State.fillSlot_passages (k : Nat) (n : Notice) : (s.fillSlot k n).passages = s.passages := rfl
@[simp] theorem State.fillSlot_hold (k : Nat) (n : Notice) : (s.fillSlot k n).hold = s.hold := rfl
@[simp] theorem State.fillSlot_scan (k : Nat) (n : Notice) : (s.fillSlot k n).scan = s.scan := rfl
@[simp] theorem State.fillSlot_callPending (k : Nat) (n : Notice) : (s.fillSlot k n).callPending = s.callPending := rfl
@[simp] theorem State.fillSlot_copies (k : Nat) (n : Notice) : (s.fillSlot k n).copies = s.copies := rfl
@[simp] theorem State.fillSlot_refusedWrite (k : Nat) (n : Notice) : (s.fillSlot k n).refusedWrite = s.refusedWrite := rfl
@[simp] theorem State.fillSlot_missed (k : Nat) (n : Notice) : (s.fillSlot k n).missed = s.missed := rfl
@[simp] theorem State.fillSlot_writeRefused (k : Nat) (n : Notice) : (s.fillSlot k n).writeRefused = s.writeRefused := rfl
@[simp] theorem State.fillSlot_cardFault (k : Nat) (n : Notice) : (s.fillSlot k n).cardFault = s.cardFault := rfl
@[simp] theorem State.fillSlot_portResetDone (k : Nat) (n : Notice) : (s.fillSlot k n).portResetDone = s.portResetDone := rfl
@[simp] theorem State.fillSlot_noticeEnable (k : Nat) (n : Notice) : (s.fillSlot k n).noticeEnable = s.noticeEnable := rfl
@[simp] theorem State.fillSlot_transmitEnable (k : Nat) (n : Notice) : (s.fillSlot k n).transmitEnable = s.transmitEnable := rfl
@[simp] theorem State.fillSlot_authority (k : Nat) (n : Notice) : (s.fillSlot k n).authority = s.authority := rfl
@[simp] theorem State.fillSlot_pending (k : Nat) (n : Notice) : (s.fillSlot k n).pending = s.pending := rfl
@[simp] theorem State.fillSlot_truck (k : Nat) (n : Notice) : (s.fillSlot k n).truck j = s.truck j := rfl
@[simp] theorem State.fillSlot_link (k : Nat) (n : Notice) : (s.fillSlot k n).link j = s.link j := rfl
@[simp] theorem State.fillSlot_counter (k : Nat) (n : Notice) : (s.fillSlot k n).counter j = s.counter j := rfl
@[simp] theorem State.fillSlot_list (k : Nat) (n : Notice) : (s.fillSlot k n).list j = s.list j := rfl
@[simp] theorem State.fillSlot_queue (k : Nat) (n : Notice) : (s.fillSlot k n).queue j = s.queue j := rfl
@[simp] theorem State.fillSlot_truckAlarm (k : Nat) (n : Notice) : (s.fillSlot k n).truckAlarm j = s.truckAlarm j := rfl
@[simp] theorem State.fillSlot_worker (k : Nat) (n : Notice) : (s.fillSlot k n).worker j = s.worker j := rfl
@[simp] theorem State.fillSlot_watch (k : Nat) (n : Notice) : (s.fillSlot k n).watch j = s.watch j := rfl
@[simp] theorem State.fillSlot_order (k : Nat) (n : Notice) : (s.fillSlot k n).order j = s.order j := rfl
@[simp] theorem State.fillSlot_device (k : Nat) (n : Notice) : (s.fillSlot k n).device j = s.device j := rfl
@[simp] theorem State.fillSlot_permit (k : Nat) (n : Notice) : (s.fillSlot k n).permit j = s.permit j := rfl
@[simp] theorem State.fillSlot_program (k : Nat) (n : Notice) : (s.fillSlot k n).program j = s.program j := rfl

/-! ### answerCard -/

@[simp] theorem State.answerCard_clock (c : Nat) (x : Answer) : (s.answerCard c x).clock = s.clock := rfl
@[simp] theorem State.answerCard_roundNumber (c : Nat) (x : Answer) : (s.answerCard c x).roundNumber = s.roundNumber := rfl
@[simp] theorem State.answerCard_siteCode (c : Nat) (x : Answer) : (s.answerCard c x).siteCode = s.siteCode := rfl
@[simp] theorem State.answerCard_modemReady (c : Nat) (x : Answer) : (s.answerCard c x).modemReady = s.modemReady := rfl
@[simp] theorem State.answerCard_round (c : Nat) (x : Answer) : (s.answerCard c x).round = s.round := rfl
@[simp] theorem State.answerCard_modemOut (c : Nat) (x : Answer) : (s.answerCard c x).modemOut = s.modemOut := rfl
@[simp] theorem State.answerCard_ageCounter (c : Nat) (x : Answer) : (s.answerCard c x).ageCounter = s.ageCounter := rfl
@[simp] theorem State.answerCard_lists (c : Nat) (x : Answer) : (s.answerCard c x).lists = s.lists := rfl
@[simp] theorem State.answerCard_links (c : Nat) (x : Answer) : (s.answerCard c x).links = s.links := rfl
@[simp] theorem State.answerCard_noise (c : Nat) (x : Answer) : (s.answerCard c x).noise = s.noise := rfl
@[simp] theorem State.answerCard_siteClipped (c : Nat) (x : Answer) : (s.answerCard c x).siteClipped = s.siteClipped := rfl
@[simp] theorem State.answerCard_settings (c : Nat) (x : Answer) : (s.answerCard c x).settings = s.settings := rfl
@[simp] theorem State.answerCard_pointerA (c : Nat) (x : Answer) : (s.answerCard c x).pointerA = s.pointerA := rfl
@[simp] theorem State.answerCard_pointerB (c : Nat) (x : Answer) : (s.answerCard c x).pointerB = s.pointerB := rfl
@[simp] theorem State.answerCard_pointerC (c : Nat) (x : Answer) : (s.answerCard c x).pointerC = s.pointerC := rfl
@[simp] theorem State.answerCard_quiet (c : Nat) (x : Answer) : (s.answerCard c x).quiet = s.quiet := rfl
@[simp] theorem State.answerCard_quietStart (c : Nat) (x : Answer) : (s.answerCard c x).quietStart = s.quietStart := rfl
@[simp] theorem State.answerCard_quietEnd (c : Nat) (x : Answer) : (s.answerCard c x).quietEnd = s.quietEnd := rfl
@[simp] theorem State.answerCard_lastQuietCause (c : Nat) (x : Answer) : (s.answerCard c x).lastQuietCause = s.lastQuietCause := rfl
@[simp] theorem State.answerCard_slotsPlanned (c : Nat) (x : Answer) : (s.answerCard c x).slotsPlanned = s.slotsPlanned := rfl
@[simp] theorem State.answerCard_counters (c : Nat) (x : Answer) : (s.answerCard c x).counters = s.counters := rfl
@[simp] theorem State.answerCard_trucks (c : Nat) (x : Answer) : (s.answerCard c x).trucks = s.trucks := rfl
@[simp] theorem State.answerCard_workers (c : Nat) (x : Answer) : (s.answerCard c x).workers = s.workers := rfl
@[simp] theorem State.answerCard_strayId (c : Nat) (x : Answer) : (s.answerCard c x).strayId = s.strayId := rfl
@[simp] theorem State.answerCard_strayTime (c : Nat) (x : Answer) : (s.answerCard c x).strayTime = s.strayTime := rfl
@[simp] theorem State.answerCard_orders (c : Nat) (x : Answer) : (s.answerCard c x).orders = s.orders := rfl
@[simp] theorem State.answerCard_pool (c : Nat) (x : Answer) : (s.answerCard c x).pool = s.pool := rfl
@[simp] theorem State.answerCard_freePages (c : Nat) (x : Answer) : (s.answerCard c x).freePages = s.freePages := rfl
@[simp] theorem State.answerCard_orderSeq (c : Nat) (x : Answer) : (s.answerCard c x).orderSeq = s.orderSeq := rfl
@[simp] theorem State.answerCard_queues (c : Nat) (x : Answer) : (s.answerCard c x).queues = s.queues := rfl
@[simp] theorem State.answerCard_watches (c : Nat) (x : Answer) : (s.answerCard c x).watches = s.watches := rfl
@[simp] theorem State.answerCard_truckAlarms (c : Nat) (x : Answer) : (s.answerCard c x).truckAlarms = s.truckAlarms := rfl
@[simp] theorem State.answerCard_devices (c : Nat) (x : Answer) : (s.answerCard c x).devices = s.devices := rfl
@[simp] theorem State.answerCard_permits (c : Nat) (x : Answer) : (s.answerCard c x).permits = s.permits := rfl
@[simp] theorem State.answerCard_programs (c : Nat) (x : Answer) : (s.answerCard c x).programs = s.programs := rfl
@[simp] theorem State.answerCard_published (c : Nat) (x : Answer) : (s.answerCard c x).published = s.published := rfl
@[simp] theorem State.answerCard_passages (c : Nat) (x : Answer) : (s.answerCard c x).passages = s.passages := rfl
@[simp] theorem State.answerCard_hold (c : Nat) (x : Answer) : (s.answerCard c x).hold = s.hold := rfl
@[simp] theorem State.answerCard_scan (c : Nat) (x : Answer) : (s.answerCard c x).scan = s.scan := rfl
@[simp] theorem State.answerCard_callPending (c : Nat) (x : Answer) : (s.answerCard c x).callPending = s.callPending := rfl
@[simp] theorem State.answerCard_copies (c : Nat) (x : Answer) : (s.answerCard c x).copies = s.copies := rfl
@[simp] theorem State.answerCard_refusedWrite (c : Nat) (x : Answer) : (s.answerCard c x).refusedWrite = s.refusedWrite := rfl
@[simp] theorem State.answerCard_missed (c : Nat) (x : Answer) : (s.answerCard c x).missed = s.missed := rfl
@[simp] theorem State.answerCard_writeRefused (c : Nat) (x : Answer) : (s.answerCard c x).writeRefused = s.writeRefused := rfl
@[simp] theorem State.answerCard_cardFault (c : Nat) (x : Answer) : (s.answerCard c x).cardFault = s.cardFault := rfl
@[simp] theorem State.answerCard_portResetDone (c : Nat) (x : Answer) : (s.answerCard c x).portResetDone = s.portResetDone := rfl
@[simp] theorem State.answerCard_noticeEnable (c : Nat) (x : Answer) : (s.answerCard c x).noticeEnable = s.noticeEnable := rfl
@[simp] theorem State.answerCard_transmitEnable (c : Nat) (x : Answer) : (s.answerCard c x).transmitEnable = s.transmitEnable := rfl
@[simp] theorem State.answerCard_authority (c : Nat) (x : Answer) : (s.answerCard c x).authority = s.authority := rfl
@[simp] theorem State.answerCard_pending (c : Nat) (x : Answer) : (s.answerCard c x).pending = s.pending := rfl
@[simp] theorem State.answerCard_truck (c : Nat) (x : Answer) : (s.answerCard c x).truck j = s.truck j := rfl
@[simp] theorem State.answerCard_link (c : Nat) (x : Answer) : (s.answerCard c x).link j = s.link j := rfl
@[simp] theorem State.answerCard_counter (c : Nat) (x : Answer) : (s.answerCard c x).counter j = s.counter j := rfl
@[simp] theorem State.answerCard_list (c : Nat) (x : Answer) : (s.answerCard c x).list j = s.list j := rfl
@[simp] theorem State.answerCard_queue (c : Nat) (x : Answer) : (s.answerCard c x).queue j = s.queue j := rfl
@[simp] theorem State.answerCard_truckAlarm (c : Nat) (x : Answer) : (s.answerCard c x).truckAlarm j = s.truckAlarm j := rfl
@[simp] theorem State.answerCard_worker (c : Nat) (x : Answer) : (s.answerCard c x).worker j = s.worker j := rfl
@[simp] theorem State.answerCard_watch (c : Nat) (x : Answer) : (s.answerCard c x).watch j = s.watch j := rfl
@[simp] theorem State.answerCard_order (c : Nat) (x : Answer) : (s.answerCard c x).order j = s.order j := rfl
@[simp] theorem State.answerCard_device (c : Nat) (x : Answer) : (s.answerCard c x).device j = s.device j := rfl
@[simp] theorem State.answerCard_permit (c : Nat) (x : Answer) : (s.answerCard c x).permit j = s.permit j := rfl
@[simp] theorem State.answerCard_program (c : Nat) (x : Answer) : (s.answerCard c x).program j = s.program j := rfl

/-! ### setCardState -/

@[simp] theorem State.setCardState_clock (c : Nat) (st : CardState) : (s.setCardState c st).clock = s.clock := rfl
@[simp] theorem State.setCardState_roundNumber (c : Nat) (st : CardState) : (s.setCardState c st).roundNumber = s.roundNumber := rfl
@[simp] theorem State.setCardState_siteCode (c : Nat) (st : CardState) : (s.setCardState c st).siteCode = s.siteCode := rfl
@[simp] theorem State.setCardState_modemReady (c : Nat) (st : CardState) : (s.setCardState c st).modemReady = s.modemReady := rfl
@[simp] theorem State.setCardState_round (c : Nat) (st : CardState) : (s.setCardState c st).round = s.round := rfl
@[simp] theorem State.setCardState_modemOut (c : Nat) (st : CardState) : (s.setCardState c st).modemOut = s.modemOut := rfl
@[simp] theorem State.setCardState_ageCounter (c : Nat) (st : CardState) : (s.setCardState c st).ageCounter = s.ageCounter := rfl
@[simp] theorem State.setCardState_lists (c : Nat) (st : CardState) : (s.setCardState c st).lists = s.lists := rfl
@[simp] theorem State.setCardState_links (c : Nat) (st : CardState) : (s.setCardState c st).links = s.links := rfl
@[simp] theorem State.setCardState_noise (c : Nat) (st : CardState) : (s.setCardState c st).noise = s.noise := rfl
@[simp] theorem State.setCardState_siteClipped (c : Nat) (st : CardState) : (s.setCardState c st).siteClipped = s.siteClipped := rfl
@[simp] theorem State.setCardState_settings (c : Nat) (st : CardState) : (s.setCardState c st).settings = s.settings := rfl
@[simp] theorem State.setCardState_pointerA (c : Nat) (st : CardState) : (s.setCardState c st).pointerA = s.pointerA := rfl
@[simp] theorem State.setCardState_pointerB (c : Nat) (st : CardState) : (s.setCardState c st).pointerB = s.pointerB := rfl
@[simp] theorem State.setCardState_pointerC (c : Nat) (st : CardState) : (s.setCardState c st).pointerC = s.pointerC := rfl
@[simp] theorem State.setCardState_quiet (c : Nat) (st : CardState) : (s.setCardState c st).quiet = s.quiet := rfl
@[simp] theorem State.setCardState_quietStart (c : Nat) (st : CardState) : (s.setCardState c st).quietStart = s.quietStart := rfl
@[simp] theorem State.setCardState_quietEnd (c : Nat) (st : CardState) : (s.setCardState c st).quietEnd = s.quietEnd := rfl
@[simp] theorem State.setCardState_lastQuietCause (c : Nat) (st : CardState) : (s.setCardState c st).lastQuietCause = s.lastQuietCause := rfl
@[simp] theorem State.setCardState_slotsPlanned (c : Nat) (st : CardState) : (s.setCardState c st).slotsPlanned = s.slotsPlanned := rfl
@[simp] theorem State.setCardState_counters (c : Nat) (st : CardState) : (s.setCardState c st).counters = s.counters := rfl
@[simp] theorem State.setCardState_trucks (c : Nat) (st : CardState) : (s.setCardState c st).trucks = s.trucks := rfl
@[simp] theorem State.setCardState_workers (c : Nat) (st : CardState) : (s.setCardState c st).workers = s.workers := rfl
@[simp] theorem State.setCardState_strayId (c : Nat) (st : CardState) : (s.setCardState c st).strayId = s.strayId := rfl
@[simp] theorem State.setCardState_strayTime (c : Nat) (st : CardState) : (s.setCardState c st).strayTime = s.strayTime := rfl
@[simp] theorem State.setCardState_orders (c : Nat) (st : CardState) : (s.setCardState c st).orders = s.orders := rfl
@[simp] theorem State.setCardState_pool (c : Nat) (st : CardState) : (s.setCardState c st).pool = s.pool := rfl
@[simp] theorem State.setCardState_freePages (c : Nat) (st : CardState) : (s.setCardState c st).freePages = s.freePages := rfl
@[simp] theorem State.setCardState_orderSeq (c : Nat) (st : CardState) : (s.setCardState c st).orderSeq = s.orderSeq := rfl
@[simp] theorem State.setCardState_queues (c : Nat) (st : CardState) : (s.setCardState c st).queues = s.queues := rfl
@[simp] theorem State.setCardState_watches (c : Nat) (st : CardState) : (s.setCardState c st).watches = s.watches := rfl
@[simp] theorem State.setCardState_truckAlarms (c : Nat) (st : CardState) : (s.setCardState c st).truckAlarms = s.truckAlarms := rfl
@[simp] theorem State.setCardState_devices (c : Nat) (st : CardState) : (s.setCardState c st).devices = s.devices := rfl
@[simp] theorem State.setCardState_permits (c : Nat) (st : CardState) : (s.setCardState c st).permits = s.permits := rfl
@[simp] theorem State.setCardState_programs (c : Nat) (st : CardState) : (s.setCardState c st).programs = s.programs := rfl
@[simp] theorem State.setCardState_published (c : Nat) (st : CardState) : (s.setCardState c st).published = s.published := rfl
@[simp] theorem State.setCardState_passages (c : Nat) (st : CardState) : (s.setCardState c st).passages = s.passages := rfl
@[simp] theorem State.setCardState_hold (c : Nat) (st : CardState) : (s.setCardState c st).hold = s.hold := rfl
@[simp] theorem State.setCardState_scan (c : Nat) (st : CardState) : (s.setCardState c st).scan = s.scan := rfl
@[simp] theorem State.setCardState_callPending (c : Nat) (st : CardState) : (s.setCardState c st).callPending = s.callPending := rfl
@[simp] theorem State.setCardState_copies (c : Nat) (st : CardState) : (s.setCardState c st).copies = s.copies := rfl
@[simp] theorem State.setCardState_refusedWrite (c : Nat) (st : CardState) : (s.setCardState c st).refusedWrite = s.refusedWrite := rfl
@[simp] theorem State.setCardState_missed (c : Nat) (st : CardState) : (s.setCardState c st).missed = s.missed := rfl
@[simp] theorem State.setCardState_writeRefused (c : Nat) (st : CardState) : (s.setCardState c st).writeRefused = s.writeRefused := rfl
@[simp] theorem State.setCardState_cardFault (c : Nat) (st : CardState) : (s.setCardState c st).cardFault = s.cardFault := rfl
@[simp] theorem State.setCardState_portResetDone (c : Nat) (st : CardState) : (s.setCardState c st).portResetDone = s.portResetDone := rfl
@[simp] theorem State.setCardState_noticeEnable (c : Nat) (st : CardState) : (s.setCardState c st).noticeEnable = s.noticeEnable := rfl
@[simp] theorem State.setCardState_transmitEnable (c : Nat) (st : CardState) : (s.setCardState c st).transmitEnable = s.transmitEnable := rfl
@[simp] theorem State.setCardState_authority (c : Nat) (st : CardState) : (s.setCardState c st).authority = s.authority := rfl
@[simp] theorem State.setCardState_pending (c : Nat) (st : CardState) : (s.setCardState c st).pending = s.pending := rfl
@[simp] theorem State.setCardState_truck (c : Nat) (st : CardState) : (s.setCardState c st).truck j = s.truck j := rfl
@[simp] theorem State.setCardState_link (c : Nat) (st : CardState) : (s.setCardState c st).link j = s.link j := rfl
@[simp] theorem State.setCardState_counter (c : Nat) (st : CardState) : (s.setCardState c st).counter j = s.counter j := rfl
@[simp] theorem State.setCardState_list (c : Nat) (st : CardState) : (s.setCardState c st).list j = s.list j := rfl
@[simp] theorem State.setCardState_queue (c : Nat) (st : CardState) : (s.setCardState c st).queue j = s.queue j := rfl
@[simp] theorem State.setCardState_truckAlarm (c : Nat) (st : CardState) : (s.setCardState c st).truckAlarm j = s.truckAlarm j := rfl
@[simp] theorem State.setCardState_worker (c : Nat) (st : CardState) : (s.setCardState c st).worker j = s.worker j := rfl
@[simp] theorem State.setCardState_watch (c : Nat) (st : CardState) : (s.setCardState c st).watch j = s.watch j := rfl
@[simp] theorem State.setCardState_order (c : Nat) (st : CardState) : (s.setCardState c st).order j = s.order j := rfl
@[simp] theorem State.setCardState_device (c : Nat) (st : CardState) : (s.setCardState c st).device j = s.device j := rfl
@[simp] theorem State.setCardState_permit (c : Nat) (st : CardState) : (s.setCardState c st).permit j = s.permit j := rfl
@[simp] theorem State.setCardState_program (c : Nat) (st : CardState) : (s.setCardState c st).program j = s.program j := rfl

/-! ### passage -/

@[simp] theorem State.passage_clock (base : Nat) : (s.passage base).clock = s.clock := rfl
@[simp] theorem State.passage_roundNumber (base : Nat) : (s.passage base).roundNumber = s.roundNumber := rfl
@[simp] theorem State.passage_siteCode (base : Nat) : (s.passage base).siteCode = s.siteCode := rfl
@[simp] theorem State.passage_modemReady (base : Nat) : (s.passage base).modemReady = s.modemReady := rfl
@[simp] theorem State.passage_round (base : Nat) : (s.passage base).round = s.round := rfl
@[simp] theorem State.passage_modemOut (base : Nat) : (s.passage base).modemOut = s.modemOut := rfl
@[simp] theorem State.passage_ageCounter (base : Nat) : (s.passage base).ageCounter = s.ageCounter := rfl
@[simp] theorem State.passage_lists (base : Nat) : (s.passage base).lists = s.lists := rfl
@[simp] theorem State.passage_links (base : Nat) : (s.passage base).links = s.links := rfl
@[simp] theorem State.passage_noise (base : Nat) : (s.passage base).noise = s.noise := rfl
@[simp] theorem State.passage_siteClipped (base : Nat) : (s.passage base).siteClipped = s.siteClipped := rfl
@[simp] theorem State.passage_settings (base : Nat) : (s.passage base).settings = s.settings := rfl
@[simp] theorem State.passage_pointerA (base : Nat) : (s.passage base).pointerA = s.pointerA := rfl
@[simp] theorem State.passage_pointerB (base : Nat) : (s.passage base).pointerB = s.pointerB := rfl
@[simp] theorem State.passage_pointerC (base : Nat) : (s.passage base).pointerC = s.pointerC := rfl
@[simp] theorem State.passage_quiet (base : Nat) : (s.passage base).quiet = s.quiet := rfl
@[simp] theorem State.passage_quietStart (base : Nat) : (s.passage base).quietStart = s.quietStart := rfl
@[simp] theorem State.passage_quietEnd (base : Nat) : (s.passage base).quietEnd = s.quietEnd := rfl
@[simp] theorem State.passage_lastQuietCause (base : Nat) : (s.passage base).lastQuietCause = s.lastQuietCause := rfl
@[simp] theorem State.passage_slotsPlanned (base : Nat) : (s.passage base).slotsPlanned = s.slotsPlanned := rfl
@[simp] theorem State.passage_counters (base : Nat) : (s.passage base).counters = s.counters := rfl
@[simp] theorem State.passage_trucks (base : Nat) : (s.passage base).trucks = s.trucks := rfl
@[simp] theorem State.passage_workers (base : Nat) : (s.passage base).workers = s.workers := rfl
@[simp] theorem State.passage_strayId (base : Nat) : (s.passage base).strayId = s.strayId := rfl
@[simp] theorem State.passage_strayTime (base : Nat) : (s.passage base).strayTime = s.strayTime := rfl
@[simp] theorem State.passage_orders (base : Nat) : (s.passage base).orders = s.orders := rfl
@[simp] theorem State.passage_pool (base : Nat) : (s.passage base).pool = s.pool := rfl
@[simp] theorem State.passage_freePages (base : Nat) : (s.passage base).freePages = s.freePages := rfl
@[simp] theorem State.passage_orderSeq (base : Nat) : (s.passage base).orderSeq = s.orderSeq := rfl
@[simp] theorem State.passage_queues (base : Nat) : (s.passage base).queues = s.queues := rfl
@[simp] theorem State.passage_watches (base : Nat) : (s.passage base).watches = s.watches := rfl
@[simp] theorem State.passage_truckAlarms (base : Nat) : (s.passage base).truckAlarms = s.truckAlarms := rfl
@[simp] theorem State.passage_devices (base : Nat) : (s.passage base).devices = s.devices := rfl
@[simp] theorem State.passage_permits (base : Nat) : (s.passage base).permits = s.permits := rfl
@[simp] theorem State.passage_programs (base : Nat) : (s.passage base).programs = s.programs := rfl
@[simp] theorem State.passage_mem (base : Nat) : (s.passage base).mem = s.mem := rfl
@[simp] theorem State.passage_published (base : Nat) : (s.passage base).published = s.published := rfl
@[simp] theorem State.passage_hold (base : Nat) : (s.passage base).hold = s.hold := rfl
@[simp] theorem State.passage_scan (base : Nat) : (s.passage base).scan = s.scan := rfl
@[simp] theorem State.passage_callPending (base : Nat) : (s.passage base).callPending = s.callPending := rfl
@[simp] theorem State.passage_copies (base : Nat) : (s.passage base).copies = s.copies := rfl
@[simp] theorem State.passage_refusedWrite (base : Nat) : (s.passage base).refusedWrite = s.refusedWrite := rfl
@[simp] theorem State.passage_missed (base : Nat) : (s.passage base).missed = s.missed := rfl
@[simp] theorem State.passage_writeRefused (base : Nat) : (s.passage base).writeRefused = s.writeRefused := rfl
@[simp] theorem State.passage_cardFault (base : Nat) : (s.passage base).cardFault = s.cardFault := rfl
@[simp] theorem State.passage_portResetDone (base : Nat) : (s.passage base).portResetDone = s.portResetDone := rfl
@[simp] theorem State.passage_noticeEnable (base : Nat) : (s.passage base).noticeEnable = s.noticeEnable := rfl
@[simp] theorem State.passage_transmitEnable (base : Nat) : (s.passage base).transmitEnable = s.transmitEnable := rfl
@[simp] theorem State.passage_authority (base : Nat) : (s.passage base).authority = s.authority := rfl
@[simp] theorem State.passage_pending (base : Nat) : (s.passage base).pending = s.pending := rfl
@[simp] theorem State.passage_truck (base : Nat) : (s.passage base).truck j = s.truck j := rfl
@[simp] theorem State.passage_link (base : Nat) : (s.passage base).link j = s.link j := rfl
@[simp] theorem State.passage_counter (base : Nat) : (s.passage base).counter j = s.counter j := rfl
@[simp] theorem State.passage_list (base : Nat) : (s.passage base).list j = s.list j := rfl
@[simp] theorem State.passage_queue (base : Nat) : (s.passage base).queue j = s.queue j := rfl
@[simp] theorem State.passage_truckAlarm (base : Nat) : (s.passage base).truckAlarm j = s.truckAlarm j := rfl
@[simp] theorem State.passage_worker (base : Nat) : (s.passage base).worker j = s.worker j := rfl
@[simp] theorem State.passage_watch (base : Nat) : (s.passage base).watch j = s.watch j := rfl
@[simp] theorem State.passage_order (base : Nat) : (s.passage base).order j = s.order j := rfl
@[simp] theorem State.passage_device (base : Nat) : (s.passage base).device j = s.device j := rfl
@[simp] theorem State.passage_permit (base : Nat) : (s.passage base).permit j = s.permit j := rfl
@[simp] theorem State.passage_program (base : Nat) : (s.passage base).program j = s.program j := rfl

end Sys2Proof.Machine
end

