-- ==== Sys2Proof/Laws/Kept.lean ====
section
/-! SUPPORT. What every operation of the eight blocks keeps: one relation, `Kept a s`, and one lemma for each operation. -/

namespace Sys2Proof.Machine

/-! ### The relation -/

/-- The fields that the acts of the blocks leave alone: the clock, the round, the modem, the settings, the scan, the registers
and the queue of commands. -/
def State.control (s : State) : State :=
  { clock := s.clock, roundNumber := s.roundNumber, siteCode := s.siteCode, modemReady := s.modemReady, round := s.round,
    modemOut := s.modemOut, noise := s.noise, settings := s.settings, published := s.published, passages := s.passages,
    scan := s.scan, callPending := s.callPending, refusedWrite := s.refusedWrite, writeRefused := s.writeRefused,
    cardFault := s.cardFault, portResetDone := s.portResetDone, noticeEnable := s.noticeEnable,
    transmitEnable := s.transmitEnable, authority := s.authority, pending := s.pending }

/-- From `a` to `s`: the control fields and every word outside the notice board stand; canonical form, the bound and the place
of the hold list, the ranges of the grading fields, and the order and class B room of the control-cell lists are kept; nothing is
newly in flight. -/
structure Kept (a s : State) : Prop where
  control : s.control = a.control
  word : ∀ w, w < slotBase 0 ∨ stagingBase 0 ≤ w → s.rawWord w = a.rawWord w
  canonical : a.Canonical → s.Canonical
  holdRoom : a.hold.length ≤ Config.holdRoom → s.hold.length ≤ Config.holdRoom
  held : a.HeldOnlyFull → s.HeldOnlyFull
  links : a.Canonical → (∀ t, (a.link t).Legal) → ∀ t, (s.link t).Legal
  lists : a.Canonical → a.ListsLegal → s.ListsLegal
  flight : a.Canonical → a.Grounded → s.Grounded

variable {a s : State}

theorem Kept.refl (s : State) : Kept s s := ⟨rfl, fun _ _ => rfl, id, id, id, fun _ => id, fun _ => id, fun _ => id⟩

theorem Kept.trans {b : State} (h : Kept a s) (k : Kept s b) : Kept a b :=
  ⟨k.control.trans h.control, fun w hw => (k.word w hw).trans (h.word w hw), k.canonical ∘ h.canonical,
   k.holdRoom ∘ h.holdRoom, k.held ∘ h.held, fun c hl => k.links (h.canonical c) (h.links c hl),
   fun c hl => k.lists (h.canonical c) (h.lists c hl), fun c hl => k.flight (h.canonical c) (h.flight c hl)⟩

theorem Kept.foldl {α : Type} {f : State → α → State} (hf : ∀ s x, Kept s (f s x)) (l : List α) (h : Kept a s) :
    Kept a (l.foldl f s) := by
  induction l generalizing s with
  | nil => exact h
  | cons x rest ih => exact ih (h.trans (hf s x))

/-- What `Kept` says without the words: the control fields stand, and the invariant's clauses on the tables are kept. -/
structure Sound (a s : State) : Prop where
  control : s.control = a.control
  canonical : a.Canonical → s.Canonical
  holdRoom : a.hold.length ≤ Config.holdRoom → s.hold.length ≤ Config.holdRoom
  held : a.HeldOnlyFull → s.HeldOnlyFull
  links : a.Canonical → (∀ t, (a.link t).Legal) → ∀ t, (s.link t).Legal
  lists : a.Canonical → a.ListsLegal → s.ListsLegal
  flight : a.Canonical → a.Grounded → s.Grounded

theorem Kept.sound (h : Kept a s) : Sound a s := 
  ⟨h.control, h.canonical, h.holdRoom, h.held, h.links, h.lists, h.flight⟩

theorem Sound.trans {b : State} (h : Sound a s) (k : Sound s b) : Sound a b :=
  ⟨k.control.trans h.control, k.canonical ∘ h.canonical, k.holdRoom ∘ h.holdRoom, k.held ∘ h.held,
   fun c hl => k.links (h.canonical c) (h.links c hl), fun c hl => k.lists (h.canonical c) (h.lists c hl),
   fun c hl => k.flight (h.canonical c) (h.flight c hl)⟩

/-- What a plan keeps: `Sound` without the clause on flight, since the cells that a plan takes are in flight (R31, R81). -/
structure Planned (a s : State) : Prop where
  control : s.control = a.control
  canonical : a.Canonical → s.Canonical
  holdRoom : a.hold.length ≤ Config.holdRoom → s.hold.length ≤ Config.holdRoom
  held : a.HeldOnlyFull → s.HeldOnlyFull
  links : a.Canonical → (∀ t, (a.link t).Legal) → ∀ t, (s.link t).Legal
  lists : a.Canonical → a.ListsLegal → s.ListsLegal

theorem Planned.refl (s : State) : Planned s s := ⟨rfl, id, id, id, fun _ => id, fun _ => id⟩

theorem Planned.trans {b : State} (h : Planned a s) (k : Planned s b) : Planned a b :=
  ⟨k.control.trans h.control, k.canonical ∘ h.canonical, k.holdRoom ∘ h.holdRoom, k.held ∘ h.held,
   fun c hl => k.links (h.canonical c) (h.links c hl), fun c hl => k.lists (h.canonical c) (h.lists c hl)⟩

theorem Kept.planned (h : Kept a s) : Planned a s := ⟨h.control, h.canonical, h.holdRoom, h.held, h.links, h.lists⟩

/-- An act of the blocks during planning. -/
theorem Planned.kept {b : State} (h : Planned a s) (k : Kept s b) : Planned a b := h.trans k.planned

theorem Planned.foldl {α : Type} {f : State → α → State} (hf : ∀ s x, Planned s (f s x)) (l : List α) (h : Planned a s) :
    Planned a (l.foldl f s) := by
  induction l generalizing s with
  | nil => exact h
  | cons x rest ih => exact ih (h.trans (hf s x))

/-- A control field stands. -/
theorem Planned.field {α : Type} {f : State → α} (hf : ∀ s : State, f s.control = f s) (h : Planned a s) : f s = f a :=
  (hf s).symm.trans ((congrArg f h.control).trans (hf a))

/-! The control fields, one by one. -/

theorem Sound.clock (h : Sound a s) : s.clock = a.clock :=
  (congrArg State.clock h.control : s.control.clock = a.control.clock)
theorem Sound.roundNumber (h : Sound a s) : s.roundNumber = a.roundNumber :=
  (congrArg State.roundNumber h.control : s.control.roundNumber = a.control.roundNumber)
theorem Sound.siteCode (h : Sound a s) : s.siteCode = a.siteCode :=
  (congrArg State.siteCode h.control : s.control.siteCode = a.control.siteCode)
theorem Sound.modemReady (h : Sound a s) : s.modemReady = a.modemReady :=
  (congrArg State.modemReady h.control : s.control.modemReady = a.control.modemReady)
theorem Sound.round (h : Sound a s) : s.round = a.round :=
  (congrArg State.round h.control : s.control.round = a.control.round)
theorem Sound.modemOut (h : Sound a s) : s.modemOut = a.modemOut :=
  (congrArg State.modemOut h.control : s.control.modemOut = a.control.modemOut)
theorem Sound.noise (h : Sound a s) : s.noise = a.noise :=
  (congrArg State.noise h.control : s.control.noise = a.control.noise)
theorem Sound.settings (h : Sound a s) : s.settings = a.settings :=
  (congrArg State.settings h.control : s.control.settings = a.control.settings)
theorem Sound.published (h : Sound a s) : s.published = a.published :=
  (congrArg State.published h.control : s.control.published = a.control.published)
theorem Sound.passages (h : Sound a s) : s.passages = a.passages :=
  (congrArg State.passages h.control : s.control.passages = a.control.passages)
theorem Sound.scan (h : Sound a s) : s.scan = a.scan :=
  (congrArg State.scan h.control : s.control.scan = a.control.scan)
theorem Sound.callPending (h : Sound a s) : s.callPending = a.callPending :=
  (congrArg State.callPending h.control : s.control.callPending = a.control.callPending)
theorem Sound.refusedWrite (h : Sound a s) : s.refusedWrite = a.refusedWrite :=
  (congrArg State.refusedWrite h.control : s.control.refusedWrite = a.control.refusedWrite)
theorem Sound.writeRefused (h : Sound a s) : s.writeRefused = a.writeRefused :=
  (congrArg State.writeRefused h.control : s.control.writeRefused = a.control.writeRefused)
theorem Sound.cardFault (h : Sound a s) : s.cardFault = a.cardFault :=
  (congrArg State.cardFault h.control : s.control.cardFault = a.control.cardFault)
theorem Sound.portResetDone (h : Sound a s) : s.portResetDone = a.portResetDone :=
  (congrArg State.portResetDone h.control : s.control.portResetDone = a.control.portResetDone)
theorem Sound.noticeEnable (h : Sound a s) : s.noticeEnable = a.noticeEnable :=
  (congrArg State.noticeEnable h.control : s.control.noticeEnable = a.control.noticeEnable)
theorem Sound.transmitEnable (h : Sound a s) : s.transmitEnable = a.transmitEnable :=
  (congrArg State.transmitEnable h.control : s.control.transmitEnable = a.control.transmitEnable)
theorem Sound.authority (h : Sound a s) : s.authority = a.authority :=
  (congrArg State.authority h.control : s.control.authority = a.control.authority)
theorem Sound.pending (h : Sound a s) : s.pending = a.pending :=
  (congrArg State.pending h.control : s.control.pending = a.control.pending)

theorem Kept.clock (h : Kept a s) : s.clock = a.clock := h.sound.clock
theorem Kept.roundNumber (h : Kept a s) : s.roundNumber = a.roundNumber := h.sound.roundNumber
theorem Kept.siteCode (h : Kept a s) : s.siteCode = a.siteCode := h.sound.siteCode
theorem Kept.modemReady (h : Kept a s) : s.modemReady = a.modemReady := h.sound.modemReady
theorem Kept.round (h : Kept a s) : s.round = a.round := h.sound.round
theorem Kept.modemOut (h : Kept a s) : s.modemOut = a.modemOut := h.sound.modemOut
theorem Kept.noise (h : Kept a s) : s.noise = a.noise := h.sound.noise
theorem Kept.settings (h : Kept a s) : s.settings = a.settings := h.sound.settings
theorem Kept.published (h : Kept a s) : s.published = a.published := h.sound.published
theorem Kept.passages (h : Kept a s) : s.passages = a.passages := h.sound.passages
theorem Kept.scan (h : Kept a s) : s.scan = a.scan := h.sound.scan
theorem Kept.callPending (h : Kept a s) : s.callPending = a.callPending := h.sound.callPending
theorem Kept.refusedWrite (h : Kept a s) : s.refusedWrite = a.refusedWrite := h.sound.refusedWrite
theorem Kept.writeRefused (h : Kept a s) : s.writeRefused = a.writeRefused := h.sound.writeRefused
theorem Kept.cardFault (h : Kept a s) : s.cardFault = a.cardFault := h.sound.cardFault
theorem Kept.portResetDone (h : Kept a s) : s.portResetDone = a.portResetDone := h.sound.portResetDone
theorem Kept.noticeEnable (h : Kept a s) : s.noticeEnable = a.noticeEnable := h.sound.noticeEnable
theorem Kept.transmitEnable (h : Kept a s) : s.transmitEnable = a.transmitEnable := h.sound.transmitEnable
theorem Kept.authority (h : Kept a s) : s.authority = a.authority := h.sound.authority
theorem Kept.pending (h : Kept a s) : s.pending = a.pending := h.sound.pending

/-! ### Tables -/

theorem tableWf_map {α : Type} [DecidableEq α] (d : α) (f : α → α) (t : Table α) (h : tableWf d t = true) :
    tableWf d (tableMap d f t) = true := by
  induction t with
  | nil => exact h
  | cons e rest ih =>
    obtain ⟨i, x⟩ := e
    simp only [tableWf, Bool.and_eq_true] at h
    have hr : tableWf d (tableMap d f rest) = true := ih h.2
    have ha : (tableMap d f rest).all (fun p => decide (i < p.1)) = true := by
      have h2 := h.1.2
      simp only [tableMap, List.all_eq_true, List.mem_filter, List.mem_map] at h2 ⊢
      rintro _ ⟨⟨e, he, rfl⟩, -⟩
      exact h2 e he
    by_cases hx : f x = d
    · simpa [tableMap, hx] using hr
    · simp only [tableMap, List.map_cons, List.filter_cons, hx, decide_false, Bool.not_false, if_true]
      simp only [tableWf, hx, decide_false, Bool.not_false, Bool.and_eq_true, true_and]
      exact ⟨ha, hr⟩

theorem tableGet_map {α : Type} [DecidableEq α] (d : α) (f : α → α) (t : Table α) (i : Nat) (hd : f d = d)
    (h : tableWf d t = true) : tableGet d (tableMap d f t) i = f (tableGet d t i) := by
  induction t with
  | nil => exact hd.symm
  | cons e rest ih =>
    obtain ⟨j, x⟩ := e
    simp only [tableWf, Bool.and_eq_true] at h
    have hrest : ∀ t : Table α, t.all (fun p => decide (j < p.1)) = true → tableGet d (tableMap d f t) j = d := by
      intro t ht
      induction t with
      | nil => rfl
      | cons e t iht =>
        obtain ⟨k, y⟩ := e
        simp only [List.all_cons, Bool.and_eq_true, decide_eq_true_eq] at ht
        have hkj : k ≠ j := by have := ht.1; omega
        by_cases hy : f y = d
        · simpa [tableMap, hy] using iht ht.2
        · simpa [tableMap, hy, tableGet, hkj] using iht ht.2
    by_cases hx : f x = d
    · by_cases hj : j = i
      · subst hj
        simpa [tableMap, hx, tableGet] using hrest rest h.1.2
      · simpa [tableMap, hx, tableGet, hj] using ih h.2
    · by_cases hj : j = i
      · simp [tableMap, hx, tableGet, hj]
      · simpa [tableMap, hx, tableGet, hj] using ih h.2

/-- A property of every record is kept by a map that keeps it. -/
theorem tableGet_map_keeps {α : Type} [DecidableEq α] (d : α) (f : α → α) (t : Table α) (P : α → Prop)
    (hf : ∀ x, P x → P (f x)) (hd : P d) (h : ∀ e ∈ t, P e.2) (i : Nat) : P (tableGet d (tableMap d f t) i) := by
  induction t with
  | nil => exact hd
  | cons e rest ih =>
    obtain ⟨j, x⟩ := e
    have hr := ih fun e he => h e (by simp [he])
    by_cases hx : f x = d
    · simpa [tableMap, hx] using hr
    · by_cases hj : j = i
      · simpa [tableMap, hx, tableGet, hj] using hf x (h (j, x) (by simp))
      · simpa [tableMap, hx, tableGet, hj] using hr

/-- A property that a map gives every record, and the default has, holds of every record after the map. -/
theorem tableGet_map_all {α : Type} [DecidableEq α] (d : α) (f : α → α) (t : Table α) {P : α → Prop}
    (hf : ∀ x, P (f x)) (hd : P d) (i : Nat) : P (tableGet d (tableMap d f t) i) := by
  induction t with
  | nil => exact hd
  | cons e rest ih =>
    obtain ⟨j, x⟩ := e
    by_cases hx : f x = d
    · simpa [tableMap, hx] using ih
    · by_cases hj : j = i
      · simpa [tableMap, hx, tableGet, hj] using hf x
      · simpa [tableMap, hx, tableGet, hj] using ih

theorem tableGet_mem {α : Type} [DecidableEq α] (d : α) (t : Table α) (h : tableWf d t = true) {e : Nat × α} (he : e ∈ t) :
    tableGet d t e.1 = e.2 := by
  induction t with
  | nil => simp at he
  | cons f rest ih =>
    obtain ⟨j, x⟩ := f
    simp only [tableWf, Bool.and_eq_true, List.all_eq_true, decide_eq_true_eq] at h
    rcases List.mem_cons.mp he with rfl | he
    · simp [tableGet]
    · have : j ≠ e.1 := by have := h.1.2 e he; omega
      simpa [tableGet, this] using ih h.2 he

theorem Kept.setTruck (h : Kept a s) {i : Nat} {x : Truck} : Kept a (s.setTruck i x) :=
  ⟨h.control, h.word, fun c => { h.canonical c with trucks := tableWf_set _ _ _ _ (h.canonical c).trucks },
   h.holdRoom, h.held, h.links, h.lists, h.flight⟩

theorem Kept.setCounter (h : Kept a s) {i : Nat} {x : Counters} : Kept a (s.setCounter i x) :=
  ⟨h.control, h.word, fun c => { h.canonical c with counters := tableWf_set _ _ _ _ (h.canonical c).counters },
   h.holdRoom, h.held, h.links, h.lists, h.flight⟩

/-- A list is written with its order, its class B room and, if nothing was in flight, nothing in flight. -/
theorem Kept.setList (h : Kept a s) {i : Nat} {x : CellList} (hl : (s.list i).Legal → x.Legal)
    (hf : a.Grounded → (s.list i).Still → x.Still) : Kept a (s.setList i x) :=
  ⟨h.control, h.word, fun c => { h.canonical c with lists := tableWf_set _ _ _ _ (h.canonical c).lists },
   h.holdRoom, h.held, h.links, fun c k t => by
    by_cases ht : t = i
    · subst ht; rw [State.setList_list_same]; exact hl (h.lists c k t)
    · rw [State.setList_list_other _ _ _ _ ht]; exact h.lists c k t,
   fun c k => ⟨fun t => by
    by_cases ht : t = i
    · subst ht; rw [State.setList_list_same]; exact hf k ((h.flight c k).1 t)
    · rw [State.setList_list_other _ _ _ _ ht]; exact (h.flight c k).1 t, (h.flight c k).2⟩⟩

theorem Kept.setQueue (h : Kept a s) {i : Nat} {x : List Nat} : Kept a (s.setQueue i x) :=
  ⟨h.control, h.word, fun c => { h.canonical c with queues := tableWf_set _ _ _ _ (h.canonical c).queues },
   h.holdRoom, h.held, h.links, h.lists, h.flight⟩

theorem Kept.setTruckAlarm (h : Kept a s) {i : Nat} {x : Option TruckAlarm} : Kept a (s.setTruckAlarm i x) :=
  ⟨h.control, h.word, fun c => { h.canonical c with truckAlarms := tableWf_set _ _ _ _ (h.canonical c).truckAlarms },
   h.holdRoom, h.held, h.links, h.lists, h.flight⟩

theorem Kept.setWorker (h : Kept a s) {i : Nat} {x : Worker} : Kept a (s.setWorker i x) :=
  ⟨h.control, h.word, fun c => { h.canonical c with workers := tableWf_set _ _ _ _ (h.canonical c).workers },
   h.holdRoom, h.held, h.links, h.lists, h.flight⟩

theorem Kept.setWatch (h : Kept a s) {i : Nat} {x : Watch} : Kept a (s.setWatch i x) :=
  ⟨h.control, h.word, fun c => { h.canonical c with watches := tableWf_set _ _ _ _ (h.canonical c).watches },
   h.holdRoom, h.held, h.links, h.lists, h.flight⟩

/-- An order is written with nothing newly in flight. -/
theorem Kept.setOrder (h : Kept a s) {i : Nat} {x : Order} (hf : (s.order i).Still → x.Still := by exact id) :
    Kept a (s.setOrder i x) :=
  ⟨h.control, h.word, fun c => { h.canonical c with orders := tableWf_set _ _ _ _ (h.canonical c).orders },
   h.holdRoom, h.held, h.links, h.lists, fun c k => ⟨(h.flight c k).1, fun j => by
    by_cases hj : j = i
    · subst hj; rw [State.setOrder_order_same]; exact hf ((h.flight c k).2 j)
    · rw [State.setOrder_order_other _ _ _ _ hj]; exact (h.flight c k).2 j⟩⟩

theorem Planned.setList (h : Planned a s) {i : Nat} {x : CellList} (hl : (s.list i).Legal → x.Legal) :
    Planned a (s.setList i x) :=
  ⟨h.control, fun c => { h.canonical c with lists := tableWf_set _ _ _ _ (h.canonical c).lists }, h.holdRoom, h.held, h.links,
   fun c k t => by
    by_cases ht : t = i
    · subst ht; rw [State.setList_list_same]; exact hl (h.lists c k t)
    · rw [State.setList_list_other _ _ _ _ ht]; exact h.lists c k t⟩

theorem Planned.setOrder (h : Planned a s) {i : Nat} {x : Order} : Planned a (s.setOrder i x) :=
  ⟨h.control, fun c => { h.canonical c with orders := tableWf_set _ _ _ _ (h.canonical c).orders }, h.holdRoom, h.held, h.links,
   h.lists⟩

theorem Kept.setDevice (h : Kept a s) {i : Nat} {x : Device} : Kept a (s.setDevice i x) :=
  ⟨h.control, h.word, fun c => { h.canonical c with devices := tableWf_set _ _ _ _ (h.canonical c).devices },
   h.holdRoom, h.held, h.links, h.lists, h.flight⟩

theorem Kept.setPermit (h : Kept a s) {i : Nat} {x : Permit} : Kept a (s.setPermit i x) :=
  ⟨h.control, h.word, fun c => { h.canonical c with permits := tableWf_set _ _ _ _ (h.canonical c).permits },
   h.holdRoom, h.held, h.links, h.lists, h.flight⟩

theorem Kept.setProgram (h : Kept a s) {i : Nat} {x : Program} : Kept a (s.setProgram i x) :=
  ⟨h.control, h.word, fun c => { h.canonical c with programs := tableWf_set _ _ _ _ (h.canonical c).programs },
   h.holdRoom, h.held, h.links, h.lists, h.flight⟩

/-- Grading fields are written within their ranges. -/
theorem Kept.setLink (h : Kept a s) {i : Nat} {x : Link} (hx : (s.link i).Legal → x.Legal) : Kept a (s.setLink i x) :=
  ⟨h.control, h.word, fun c => { h.canonical c with links := tableWf_set _ _ _ _ (h.canonical c).links },
   h.holdRoom, h.held, fun c hl t => by
    by_cases ht : t = i
    · subst ht; rw [State.setLink_link_same]; exact hx (h.links c hl t)
    · rw [State.setLink_link_other _ _ _ _ ht]; exact h.links c hl t, h.lists, h.flight⟩

theorem Link.Legal.start : ({} : Link).Legal := ⟨by decide, by decide, by decide, by decide⟩

theorem Kept.freeLink (h : Kept a s) {i : Nat} : Kept a (s.setLink i {}) := h.setLink fun _ => .start

/-! ### The board and the hold list -/

theorem emptySlot_congr {s t : State} (h : ∀ k < Config.noticeSlots, t.rawWord (slotBase k) = s.rawWord (slotBase k)) :
    t.emptySlot = s.emptySlot := by
  unfold State.emptySlot
  have : ∀ l : List Nat, (∀ k ∈ l, k < Config.noticeSlots) →
      l.find? (fun k => !t.slotFilled k) = l.find? (fun k => !s.slotFilled k) := by
    intro l hl
    induction l with
    | nil => rfl
    | cons k rest ih =>
      have hk : t.slotFilled k = s.slotFilled k := by
        unfold State.slotFilled
        rw [h k (hl k (by simp))]
      rw [List.find?_cons, List.find?_cons, hk, ih fun k hk => hl k (by simp [hk])]
  exact this _ fun k hk => List.mem_range.mp hk

/-- A notice takes sixteen words. -/
theorem noticeWords_length (n : Notice) : (noticeWords n).length = 16 := rfl

/-- Filling slot k writes the sixteen words of slot k and no other. -/
theorem State.fillSlot_rawWord_other (s : State) (k : Nat) (n : Notice) {w : Nat} (h : w < slotBase k ∨ slotBase k + 16 ≤ w) :
    (s.fillSlot k n).rawWord w = s.rawWord w :=
  memWord_setWords_outside _ _ _ (by rw [noticeWords_length]; exact h)

/-- Word i of slot k after the slot is filled. -/
theorem State.fillSlot_rawWord_inside (s : State) (k : Nat) (n : Notice) {i : Nat} (h : i < 16) :
    (s.fillSlot k n).rawWord (slotBase k + i) = (noticeWords n).getD i 0 :=
  memWord_setWords_inside _ _ _ h

/-- The lowest EMPTY slot is EMPTY, is on the board, and no slot below it is EMPTY. -/
theorem State.emptySlot_spec {s : State} {k : Nat} (h : s.emptySlot = some k) :
    k < Config.noticeSlots ∧ s.slotFilled k = false ∧ ∀ j < k, s.slotFilled j = true := by
  unfold State.emptySlot at h
  obtain ⟨h1, i, hi, rfl, h2⟩ := List.find?_eq_some_iff_getElem.mp h
  simp only [List.length_range] at hi
  refine ⟨by simpa using hi, by simpa using h1, ?_⟩
  intro j hj
  simp only [List.getElem_range] at hj
  have := h2 j hj
  simpa using this

theorem holdInsert_length (n : Notice) (l : List Notice) : (holdInsert n l).length = l.length + 1 := by
  have : ∀ p : Notice → Bool, (l.takeWhile p).length + (l.dropWhile p).length = l.length := by
    intro p
    rw [← List.length_append, List.takeWhile_append_dropWhile]
  simp only [holdInsert, List.length_append, List.length_cons]
  have := this fun m => decide (m.kind.cls ≤ n.kind.cls)
  omega

theorem lowestClass_mem (l : List Notice) : lowestClass l = 0 ∨ ∃ m ∈ l, m.kind.cls = lowestClass l := by
  unfold lowestClass
  have : ∀ (l : List Notice) (c : Nat), l.foldl (fun c m => max c m.kind.cls) c = c ∨
      ∃ m ∈ l, m.kind.cls = l.foldl (fun c m => max c m.kind.cls) c := by
    intro l
    induction l with
    | nil => intro c; exact .inl rfl
    | cons m rest ih =>
      intro c
      simp only [List.foldl_cons]
      rcases ih (max c m.kind.cls) with h | ⟨x, hx, h⟩
      · rcases Nat.le_total m.kind.cls c with hc | hc
        · left; rw [h]; exact Nat.max_eq_left hc
        · right
          exact ⟨m, by simp, by rw [h]; exact (Nat.max_eq_right hc).symm⟩
      · exact .inr ⟨x, by simp [hx], h⟩
  exact this l 0

theorem dropYoungest_length (l : List Notice) (h : 0 < lowestClass l) :
    (dropYoungest (lowestClass l) l).length + 1 = l.length := by
  rcases lowestClass_mem l with h0 | ⟨m, hm, hc⟩
  · omega
  · unfold dropYoungest
    have := List.length_eraseP_of_mem (l := l.reverse) (p := fun m => decide (m.kind.cls = lowestClass l))
      (List.mem_reverse.mpr hm) (by simpa using hc)
    have hl : 0 < l.length := List.length_pos_of_mem hm
    simp only [List.length_reverse] at this ⊢
    omega

theorem Kept.fillSlot (h : Kept a s) {k : Nat} {n : Notice} (hk : k < Config.noticeSlots) : Kept a (s.fillSlot k n) := by
  refine ⟨h.control, ?_, fun c => { h.canonical c with mem := memoryWf_setWords _ _ _ (h.canonical c).mem },
    h.holdRoom, ?_, h.links, h.lists, h.flight⟩
  · intro w hw
    rw [← h.word w hw]
    have hk' : k < 128 := hk
    refine State.fillSlot_rawWord_other s k n ?_
    unfold slotBase stagingBase at *
    omega
  · intro hf
    rcases h.held hf with he | he
    · exact .inl he
    · right
      unfold State.emptySlot at he ⊢
      rw [List.find?_eq_none] at he ⊢
      intro j hj
      have hj' := he j hj
      by_cases hjk : j = k
      · subst hjk
        have : (s.fillSlot j n).rawWord (slotBase j) = 1 := State.fillSlot_rawWord_inside s j n (i := 0) (by decide)
        simp [State.slotFilled, this]
      · have : (s.fillSlot k n).rawWord (slotBase j) = s.rawWord (slotBase j) := by
          refine State.fillSlot_rawWord_other s k n ?_
          unfold slotBase
          omega
        simpa [State.slotFilled, this] using hj'

theorem Kept.holdNotice (h : Kept a s) {n : Notice} (he : s.emptySlot = none) : Kept a (s.holdNotice n) := by
  unfold State.holdNotice
  split
  · next hr =>
    refine ⟨h.control, h.word, fun c => { h.canonical c with }, fun _ => ?_, fun _ => .inr he, h.links, h.lists, h.flight⟩
    rw [holdInsert_length]; exact hr
  · split
    · exact ⟨h.control, h.word, fun c => { h.canonical c with }, h.holdRoom, h.held, h.links, h.lists, h.flight⟩
    · next hc =>
      refine ⟨h.control, h.word, fun c => { h.canonical c with }, fun hl => ?_, fun _ => .inr he, h.links, h.lists, h.flight⟩
      rw [holdInsert_length, dropYoungest_length _ (by omega)]
      exact h.holdRoom hl

theorem Kept.raise (h : Kept a s) {n : Notice} : Kept a (s.raise n) := by
  unfold State.raise
  dsimp only
  split
  · next k hk => exact h.fillSlot (State.emptySlot_spec hk).1
  · next hk => exact h.holdNotice hk

/-- A refill from an empty hold list changes nothing. -/
theorem State.refillSlot_nil {k : Nat} (h : s.hold = []) : s.refillSlot k = s := by
  unfold State.refillSlot
  rw [h]

/-- A refill takes the head of the hold list. -/
theorem State.refillSlot_cons {k : Nat} {n : Notice} {rest : List Notice} (h : s.hold = n :: rest) :
    s.refillSlot k = ({ s with hold := rest } : State).fillSlot k n := by
  unfold State.refillSlot
  rw [h]

theorem Kept.refillSlot (h : Kept a s) {k : Nat} (hk : k < Config.noticeSlots) : Kept a (s.refillSlot k) := by
  unfold State.refillSlot
  split
  · exact h
  · next n rest he =>
    have : Kept a { s with hold := rest } := by
      refine ⟨h.control, h.word, fun c => { h.canonical c with }, fun hl => ?_, fun hf => ?_, h.links, h.lists, h.flight⟩
      · have := h.holdRoom hl
        rw [he] at this
        exact Nat.le_of_succ_le this
      · right
        rcases h.held hf with h0 | h0
        · rw [he] at h0; cases h0
        · exact h0
    exact this.fillSlot hk

/-! ### Words outside the board -/

theorem State.setRaw_rawWord_same (s : State) (w : Nat) (v : Word) : (s.setRaw w v).rawWord w = v := by
  unfold State.setRaw State.rawWord
  exact memWord_set_same _ _ _

theorem State.setRaw_rawWord_other (s : State) {w w' : Nat} (v : Word) (h : w' ≠ w) :
    (s.setRaw w v).rawWord w' = s.rawWord w' := by
  unfold State.setRaw State.rawWord
  exact memWord_set_other _ _ h

/-- A word outside the notice board written: the board's slots stand. -/
theorem State.setRaw_emptySlot (s : State) (w : Nat) (v : Word) (hw : w < slotBase 0 ∨ stagingBase 0 ≤ w) :
    (s.setRaw w v).emptySlot = s.emptySlot :=
  emptySlot_congr fun k hk => memWord_set_other _ _ (by
    have : k < 128 := hk
    unfold slotBase stagingBase at *
    omega)

theorem Sound.setRaw (h : Sound a s) {w : Nat} {v : Word} (hw : w < slotBase 0 ∨ stagingBase 0 ≤ w) :
    Sound a (s.setRaw w v) :=
  ⟨h.control, fun c => { h.canonical c with mem := memoryWf_setWord _ _ _ (h.canonical c).mem }, h.holdRoom,
   fun hf => by
    have := h.held hf
    unfold State.HeldOnlyFull at *
    rwa [State.setRaw_emptySlot s w v hw],
   h.links, h.lists, h.flight⟩

/-- The words a card's answer writes: 2 to 7, and the state word. -/
theorem State.answerCard_rawWord_other (s : State) (c : Nat) (x : Answer) {w : Nat}
    (h0 : w ≠ cardBase c) (h : w < cardBase c + 2 ∨ cardBase c + 8 ≤ w) :
    (s.answerCard c x).rawWord w = s.rawWord w := by
  have hl : ([toWord x.code.code, toWord x.detail] ++ (x.values ++ [0, 0, 0, 0]).take 4).length = 6 := by
    simp [List.length_append, List.length_take]
  unfold State.answerCard State.rawWord
  dsimp only
  rw [memWord_set_other _ _ h0, memWord_setWords_outside _ _ _ (by rw [hl]; omega)]

theorem Sound.answerCard (h : Sound a s) {c : Nat} {x : Answer} (hc : c < Config.cards) : Sound a (s.answerCard c x) := by
  have hc' : c < 64 := hc
  have hm : Memory.wf s.mem = true → Memory.wf (s.answerCard c x).mem = true := fun hm => by
    unfold State.answerCard
    dsimp only
    exact memoryWf_setWord _ _ _ (memoryWf_setWords _ _ _ hm)
  refine ⟨h.control, fun k => { h.canonical k with mem := hm (h.canonical k).mem }, h.holdRoom, fun hf => ?_, h.links, h.lists, h.flight⟩
  have := h.held hf
  unfold State.HeldOnlyFull at *
  have he : (s.answerCard c x).emptySlot = s.emptySlot := emptySlot_congr fun k hk => by
    have : k < 128 := hk
    refine State.answerCard_rawWord_other s c x ?_ ?_ <;> unfold slotBase cardBase <;> omega
  rwa [he]

theorem Sound.setCardState (h : Sound a s) {c : Nat} {st : CardState} (hc : c < Config.cards) :
    Sound a (s.setCardState c st) := by
  have hc' : c < 64 := hc
  exact h.setRaw (.inl (by unfold slotBase cardBase; omega))

end Sys2Proof.Machine
end

