-- ==== Sys2Proof/Laws/KeptShared.lean ====
section
/-! SUPPORT. `Kept` for the shared operations: cell lists, quiet end, steps, offers, permits and programs. -/

namespace Sys2Proof.Machine

variable {a s : State}

/-! ### Control-cell lists and quiet periods -/

/-- R31: an entry put at its place joins the entries that stood. -/
theorem insertEntry_mem {n : DWord} {e x : Entry} {l : List Entry} : x ∈ insertEntry n e l ↔ x = e ∨ x ∈ l := by
  unfold insertEntry
  conv => rhs; rw [← List.takeWhile_append_dropWhile (p := fun x => x.before n e) (l := l)]
  simp only [List.mem_append, List.mem_cons]
  constructor <;> rintro (h | h | h) <;> simp [h]

theorem insertEntry_countP {n : DWord} {e : Entry} {l : List Entry} (p : Entry → Bool) :
    (insertEntry n e l).countP p = l.countP p + if p e then 1 else 0 := by
  unfold insertEntry
  conv => rhs; rw [← List.takeWhile_append_dropWhile (p := fun x => x.before n e) (l := l)]
  simp only [List.countP_append, List.countP_cons]
  omega

/-- R31: an entry put at its place leaves class A before class B. -/
theorem insertEntry_order {n : DWord} {e : Entry} {l : List Entry}
    (h : l.Pairwise fun x e => e.cell.isA = true → x.cell.isA = true) :
    (insertEntry n e l).Pairwise fun x e => e.cell.isA = true → x.cell.isA = true := by
  unfold insertEntry
  have h2 := h
  rw [← List.takeWhile_append_dropWhile (p := fun x => x.before n e) (l := l), List.pairwise_append] at h2
  obtain ⟨ht, hd, hm⟩ := h2
  rw [List.pairwise_append, List.pairwise_cons]
  refine ⟨ht, ⟨fun y hy hya => ?_, hd⟩, fun x hx y hy hya => ?_⟩
  · cases he : e.cell.isA with
    | true => rfl
    | false =>
      cases hl : l.dropWhile fun x => x.before n e with
      | nil => rw [hl] at hy; simp at hy
      | cons z rest =>
        have hz : z.before n e = false := by
          have := List.head_dropWhile_not (p := fun x => x.before n e) (l := l) (by rw [hl]; simp)
          simpa [hl] using this
        have hza : z.cell.isA = true := by
          rw [hl] at hy hd
          rcases List.mem_cons.mp hy with rfl | hy
          · exact hya
          · exact (List.pairwise_cons.mp hd).1 y hy hya
        simp [Entry.before, he, hza] at hz
  · rcases List.mem_cons.mp hy with rfl | hy
    · have hb : x.before n y = true :=
      List.all_eq_true.mp (List.all_takeWhile (p := fun x => x.before n y) (l := l)) x hx
      unfold Entry.before at hb
      rw [hya] at hb
      simpa using (by revert hb; cases x.cell.isA <;> simp)
    · exact hm x hx y hy hya

theorem CellList.Legal.empty : ({} : CellList).Legal := ⟨.nil, Nat.zero_le _⟩

theorem CellList.Legal.filter {l : CellList} (h : l.Legal) {p : Entry → Bool} {w : List (List DownCell)} :
    ({ cells := l.cells.filter p, waiting := w } : CellList).Legal :=
  ⟨h.order.filter _, Nat.le_trans (List.Sublist.countP_le List.filter_sublist) h.room⟩

theorem CellList.Still.filter {l : CellList} (h : l.Still) {p : Entry → Bool} {w : List (List DownCell)} :
    ({ cells := l.cells.filter p, waiting := w } : CellList).Still := fun e he => h e ((List.mem_filter.mp he).1)

/-- Entries changed in place, each with its cell: the order and the class B room stand. -/
theorem CellList.Legal.map {l : CellList} (h : l.Legal) {f : Entry → Entry} (hf : ∀ e, (f e).cell = e.cell) :
    ({ l with cells := l.cells.map f } : CellList).Legal := by
  refine ⟨?_, ?_⟩
  · show (l.cells.map f).Pairwise _
    rw [List.pairwise_map]
    exact h.order.imp fun {x y} k => by rw [hf, hf]; exact k
  · have := h.room
    unfold CellList.countB at this ⊢
    rw [List.countP_map]
    simpa [Function.comp_def, hf] using this

/-- An entry put at its place, of class A or within the class B room. -/
theorem CellList.Legal.insert {l : CellList} (h : l.Legal) {n : DWord} {e : Entry}
    (hr : e.cell.isA = true ∨ l.countB < Config.classBRoom) :
    ({ l with cells := insertEntry n e l.cells } : CellList).Legal := by
  refine ⟨insertEntry_order h.order, ?_⟩
  have := h.room
  unfold CellList.countB at this hr ⊢
  rw [insertEntry_countP]
  rcases hr with hr | hr
  · simpa [hr] using this
  · split <;> omega

theorem CellList.Still.insert {l : CellList} (h : l.Still) {n : DWord} {e : Entry} (he : e.inFlight = false) :
    ({ l with cells := insertEntry n e l.cells } : CellList).Still := fun x hx => by
  rcases insertEntry_mem.mp hx with rfl | hx
  · exact he
  · exact h x hx

theorem Kept.addEntry (h : Kept a s) {t : Nat} {c : DownCell}
    (hr : c.isA = true ∨ (s.list t).countB < Config.classBRoom) : Kept a (s.addEntry t c) :=
  have h2 := h.setList (i := t)
    (x := { s.list t with cells := insertEntry s.ageCounter { cell := c, age := s.ageCounter } (s.list t).cells })
    (fun k => k.insert hr) (fun _ k => k.insert rfl)
  ⟨h2.control, h2.word, fun c => { h2.canonical c with }, h2.holdRoom, h2.held, h2.links, h2.lists, h2.flight⟩

theorem State.addEntry_countB {t : Nat} {c : DownCell} : ((s.addEntry t c).list t).countB ≤ (s.list t).countB + 1 := by
  unfold State.addEntry
  dsimp only
  show ((s.setList t _).list t).countB ≤ _
  rw [State.setList_list_same]
  unfold CellList.countB
  rw [insertEntry_countP]
  split <;> omega

theorem Kept.addEntries (h : Kept a s) {t : Nat} {cs : List DownCell}
    (hr : (s.list t).countB + cs.length ≤ Config.classBRoom) : Kept a (s.addEntries t cs) := by
  unfold State.addEntries
  induction cs generalizing s with
  | nil => exact h
  | cons c rest ih =>
    rw [List.length_cons] at hr
    have := s.addEntry_countB (t := t) (c := c)
    exact ih (h.addEntry (.inr (by omega))) (Nat.le_trans (Nat.add_le_add_right this _) (by omega))

theorem Kept.addClassA (h : Kept a s) {t : Nat} {c : DownCell} (hc : c.isA = true := by rfl) : Kept a (s.addClassA t c) := by
  unfold State.addClassA
  split
  · exact h
  · exact h.addEntry (.inl hc)

theorem Kept.addGroup (h : Kept a s) {t : Nat} {cs : List DownCell} : Kept a (s.addGroup t cs) := by
  unfold State.addGroup
  dsimp only
  split
  · exact h
  · split
    · next hr =>
      simp only [CellList.roomFor, Bool.and_eq_true, decide_eq_true_eq] at hr
      exact h.addEntries hr.2
    · exact h.setList (fun k => ⟨k.order, k.room⟩) (fun _ k => k)

theorem Kept.withdrawA (h : Kept a s) {t : Nat} {p : DownCell → Bool} : Kept a (s.withdrawA t p) :=
  h.setList (fun k => k.filter) (fun _ k => k.filter)

theorem Kept.endQuietPeriod (h : Kept a s) {c : QuietCause} {n : Notice} : Kept a (s.endQuietPeriod c n) := by
  unfold State.endQuietPeriod
  split
  · have : Kept a { s with quiet := false, lastQuietCause := c } :=
      ⟨h.control, h.word, fun c => { h.canonical c with }, h.holdRoom, h.held, h.links, h.lists, h.flight⟩
    exact this.raise
  · exact h

/-! ### Steps and release -/

theorem Kept.updStep (h : Kept a s) {g k : Nat} {f : Step → Step} : Kept a (s.updStep g k f) := h.setProgram
theorem Kept.updProgram (h : Kept a s) {g : Nat} {f : Program → Program} : Kept a (s.updProgram g f) := h.setProgram
theorem Kept.updPermit (h : Kept a s) {p : Nat} {f : Permit → Permit} : Kept a (s.updPermit p f) := h.setPermit
theorem Kept.updDevice (h : Kept a s) {d : Nat} {f : Device → Device} : Kept a (s.updDevice d f) := h.setDevice
theorem Kept.raiseHalted (h : Kept a s) {g : Nat} : Kept a (s.raiseHalted g) := h.raise
theorem Kept.raiseProgramState (h : Kept a s) {g : Nat} : Kept a (s.raiseProgramState g) := h.raise

/-- The STEP cell of a step reads the program's number, the device's id and the permit's number. -/
theorem State.stepCell_congr {b : State} {g k : Nat} {st : Step} (hg : (b.program g).number = (s.program g).number)
    (hd : (b.device st.device).id = (s.device st.device).id)
    (hp : ∀ p, (b.permit p).number = (s.permit p).number) : b.stepCell g k st = s.stepCell g k st := by
  unfold State.stepCell State.stepPermitNumber
  rw [hg, hd]
  cases st.permit with
  | none => rfl
  | some p => dsimp only; rw [hp p]

theorem Program.updStep_number {x : Program} {k : Nat} {f : Step → Step} : (x.updStep k f).number = x.number := by
  unfold Program.updStep
  split <;> rfl

theorem Kept.releaseStep (h : Kept a s) {g k : Nat} {st : Step}
    (hr : (s.list st.truck).present (s.stepCell g k st) = true ∨ (s.list st.truck).countB < Config.classBRoom) :
    Kept a (s.releaseStep g k st) := by
  unfold State.releaseStep
  dsimp only
  generalize e1 : s.updStep g k _ = s1
  have h1 : Kept a s1 := e1 ▸ h.setProgram
  have n1 : (s1.program g).number = (s.program g).number := by
    subst e1; unfold State.updStep; rw [State.setProgram_program_same, Program.updStep_number]
  have l1 : s1.lists = s.lists ∧ s1.devices = s.devices ∧ s1.permits = s.permits := by subst e1; exact ⟨rfl, rfl, rfl⟩
  generalize e2 : s1.updDevice st.device _ = s2
  have h2 : Kept a s2 := e2 ▸ h1.setDevice
  have d2 : (s2.device st.device).id = (s.device st.device).id := by
    subst e2; unfold State.updDevice; rw [State.setDevice_device_same]; simp only [State.device, l1.2.1]
  have l2 : s2.lists = s.lists ∧ s2.programs = s1.programs ∧ s2.permits = s.permits := by
    subst e2; exact ⟨l1.1, rfl, l1.2.2⟩
  have hn : (s2.program g).number = (s.program g).number := by simpa only [State.program, l2.2.1] using n1
  have hp : ∀ p, s2.permit p = s.permit p := fun p => by simp only [State.permit, l2.2.2]
  have key : ∀ s3 : State, Kept a s3 → s3.lists = s.lists → s3.stepCell g k st = s.stepCell g k st →
      Kept a (if (s3.list st.truck).present (s3.stepCell g k st) = true then s3
        else s3.addEntry st.truck (s3.stepCell g k st)) := fun s3 h3 l3 c3 => by
    have l3' : s3.list st.truck = s.list st.truck := by simp only [State.list, l3]
    split
    · exact h3
    · next hn =>
      refine h3.addEntry (.inr ?_)
      rw [l3', c3] at hn
      rw [l3']
      exact hr.resolve_left hn
  refine Kept.raise ?_
  split
  · refine key _ h2.setPermit l2.1 (State.stepCell_congr hn d2 fun q => ?_)
    unfold State.updPermit
    rw [State.setPermit_permit]
    split
    · next hq => subst hq; rw [hp]
    · rw [hp]
  · exact key _ h2 l2.1 (State.stepCell_congr hn d2 fun q => by rw [hp])

theorem Kept.refuseStep (h : Kept a s) {g k : Nat} {st : Step} {r : StepReason} : Kept a (s.refuseStep g k st r) :=
  h.updStep.updProgram.raise.raiseHalted

theorem Kept.refuseOrder (h : Kept a s) {g k : Nat} {st : Step} : Kept a (s.refuseOrder g k st) := by
  unfold State.refuseOrder
  dsimp only
  split
  · exact h.updStep.updProgram.raise
  · exact h.updStep.updProgram.raise.raiseHalted

/-- A property of every list is kept by a map that keeps it. -/
theorem lists_map {f : CellList → CellList} {P : CellList → Prop} (hf : ∀ l, P l → P (f l)) (h0 : P {})
    (hc : tableWf {} s.lists = true) (h : ∀ t, P (s.list t)) (t : Nat) : P (tableGet {} (tableMap {} f s.lists) t) :=
  tableGet_map_keeps {} f s.lists P hf h0
    (fun e he => by have := h e.1; unfold State.list at this; rwa [tableGet_mem {} _ hc he] at this) t

theorem Kept.mapLists (h : Kept a s) {f : CellList → CellList} (hl : ∀ l : CellList, l.Legal → (f l).Legal)
    (hf : ∀ l : CellList, l.Still → (f l).Still) : Kept a { s with lists := tableMap {} f s.lists } :=
  ⟨h.control, h.word, fun c => { h.canonical c with lists := tableWf_map _ _ _ (h.canonical c).lists },
   h.holdRoom, h.held, h.links, fun c k => lists_map hl .empty (h.canonical c).lists (h.lists c k),
   fun c k => ⟨lists_map hf (fun _ he => by simp at he) (h.canonical c).lists (h.flight c k).1, (h.flight c k).2⟩⟩

theorem Kept.dropWaits (h : Kept a s) {g : Nat} : Kept a (s.dropWaits g) := by
  unfold State.dropWaits
  refine Kept.updProgram (Kept.mapLists h ?_ ?_)
  · exact fun _ k => ⟨k.order, k.room⟩
  · exact fun _ k => k

/-! ### Offers -/

theorem Kept.groupAdded (h : Kept a s) {cs : List DownCell} : Kept a (s.groupAdded cs) := by
  unfold State.groupAdded
  split
  · split
    · exact h.updPermit
    · exact h
  · exact h

theorem Kept.offerStep (h : Kept a s) {g k : Nat} {st : Step} (hr : (s.list st.truck).countB < Config.classBRoom) :
    Kept a (s.offerStep g k st) := by
  unfold State.offerStep
  split
  · exact h.releaseStep (.inr hr)
  · exact h.updStep
  · exact h.updStep
  · exact h.refuseOrder.dropWaits
  · exact h.refuseStep.dropWaits

/-- R156: a waiting group that is the STEP cell of a step of truck t is a group of one. -/
theorem State.stepOfGroup_spec {t g k : Nat} {grp : List DownCell} {st : Step} (h : s.stepOfGroup t grp = some (g, k, st)) :
    grp.length = 1 ∧ st.truck = t := by
  unfold State.stepOfGroup at h
  split at h
  · split at h
    · obtain ⟨st', h1, h2⟩ := Option.map_eq_some_iff.mp h
      cases h2
      exact ⟨rfl, by simpa using (Option.filter_eq_some_iff.mp h1).2⟩
    · cases h
  · cases h

theorem Kept.offerLoop {n t : Nat} (h : Kept a s) : Kept a (State.offerLoop n s t) := by
  induction n generalizing s with
  | zero => exact h
  | succ n ih =>
    unfold State.offerLoop
    dsimp only
    split
    · exact h
    · next grp rest hw =>
      split
      · next hr =>
        have h1 : Kept a (s.setList t { s.list t with waiting := rest }) :=
          h.setList (fun k => ⟨k.order, k.room⟩) (fun _ k => k)
        have hc : ((s.setList t { s.list t with waiting := rest }).list t).countB = (s.list t).countB := by
          rw [State.setList_list_same]; rfl
        split
        · next g k st hs =>
          obtain ⟨h2, rfl⟩ := State.stepOfGroup_spec hs
          exact ih (h1.offerStep (by rw [hc]; omega))
        · exact ih (h1.addEntries (by rw [hc]; exact hr)).groupAdded
      · exact h

theorem Kept.offer (h : Kept a s) {t : Nat} : Kept a (s.offer t) := h.offerLoop

theorem Kept.removeCells (h : Kept a s) {t : Nat} {p : DownCell → Bool} : Kept a (s.removeCells t p) :=
  h.setList (fun k => k.filter) (fun _ k => k.filter)

theorem Kept.withdrawB (h : Kept a s) {t : Nat} {p : DownCell → Bool} : Kept a (s.withdrawB t p) := by
  unfold State.withdrawB
  dsimp only
  split
  · exact h.removeCells.offer
  · exact h.removeCells

theorem Kept.endWaits (h : Kept a s) {g : Nat} : Kept a (s.endWaits g) :=
  .foldl (fun s _ => (Kept.refl s).offer) _ h.dropWaits

theorem Kept.attempt (h : Kept a s) {g k : Nat} : Kept a (s.attempt g k) := by
  unfold State.attempt
  split
  · exact h
  · split
    · exact h
    · exact h.refuseOrder.endWaits
    · exact h.refuseStep.endWaits
    · exact h.updStep
    · dsimp only
      split
      · exact h.addGroup.updStep
      · next hw =>
        refine h.releaseStep ?_
        simp only [State.groupWaits, CellList.roomFor, Bool.and_eq_true, Bool.not_eq_true', not_and, Bool.not_eq_false] at hw
        cases hp : (s.list _).present (s.stepCell g k _) with
        | true => exact .inl rfl
        | false =>
          have := hw (by simp [hp])
          simp [hp] at this
          exact .inr (by omega)

theorem Kept.truckAvailable (h : Kept a s) {t : Nat} : Kept a (s.truckAvailable t) := by
  refine .foldl (fun s g => .foldl (fun s i => ?_) _ (.refl s)) _ h
  split
  · exact .refl s
  · split
    · split
      · exact (Kept.refl s).attempt
      · exact (Kept.refl s).updStep
    · exact .refl s

/-! ### Permits -/

theorem Kept.raisePermitState (h : Kept a s) {p : Nat} : Kept a (s.raisePermitState p) := h.raise
theorem Kept.setPermitState (h : Kept a s) {p : Nat} {st : PermitState} : Kept a (s.setPermitState p st) := h.updPermit

theorem Kept.withdrawIssue (h : Kept a s) {p : Nat} : Kept a (s.withdrawIssue p) := by
  unfold State.withdrawIssue
  dsimp only
  split
  · exact h.updPermit.withdrawB
  · exact h

theorem Kept.permitEvent (h : Kept a s) {p d : Nat} {c : PointCause} : Kept a (s.permitEvent p d c) := by
  unfold State.permitEvent
  dsimp only
  split
  · exact h.setPermitState.raisePermitState
  · exact h.setPermitState.raisePermitState
  · exact h.setPermitState.updPermit.withdrawIssue.raise
  · split
    · exact h.setPermitState.updPermit.raise
    · exact h.setPermitState.raise
  · split
    · exact h.updPermit.raise
    · exact h
  · exact h

theorem Kept.reevaluate (h : Kept a s) {d : Nat} {c : PointCause} : Kept a (s.reevaluate d c) := by
  refine .foldl (fun s p => ?_) _ h
  split
  · exact (Kept.refl s).permitEvent
  · exact .refl s

theorem Kept.memberAlarm (h : Kept a s) {w : Nat} : Kept a (s.memberAlarm w) := by
  unfold State.memberAlarm
  split
  · exact h
  · dsimp only
    split
    · exact h.setPermitState.updPermit.raise
    · split
      · exact h.updPermit.raise
      · exact h

theorem Kept.closeTest (h : Kept a s) {p : Nat} : Kept a (s.closeTest p) := by
  unfold State.closeTest
  dsimp only
  split
  · exact h.updPermit.raise
  · exact h

theorem Kept.tagStepEnded (h : Kept a s) {st : Step} : Kept a (s.tagStepEnded st) := by
  unfold State.tagStepEnded
  split
  · exact h.updPermit.closeTest
  · exact h

theorem Kept.setPosition (h : Kept a s) {d : Nat} {pos : Position} {src : Source} : Kept a (s.setPosition d pos src) :=
  h.updDevice

theorem Kept.tagAdd (h : Kept a s) {d p : Nat} : Kept a (s.tagAdd d p).2 := by
  unfold State.tagAdd
  dsimp only
  split
  · exact h
  · split
    · dsimp only
      exact h.updDevice.updPermit.reevaluate
    · exact h

theorem Kept.tagRemove (h : Kept a s) {d p : Nat} : Kept a (s.tagRemove d p).2 := by
  unfold State.tagRemove
  dsimp only
  split
  · dsimp only
    exact h.updDevice.updPermit.reevaluate.closeTest
  · exact h

/-! ### Programs -/

theorem Kept.freeDevice (h : Kept a s) {d : Nat} : Kept a (s.freeDevice d) := h.updDevice

theorem Kept.queueCancel (h : Kept a s) {t g k : Nat} : Kept a (s.queueCancel t g k) := by
  unfold State.queueCancel
  dsimp only
  split
  · exact h
  · exact h.addGroup.updProgram

theorem Kept.programMovesOn (h : Kept a s) {g : Nat} : Kept a (s.programMovesOn g) := by
  unfold State.programMovesOn
  dsimp only
  split
  · exact h.updProgram.raiseProgramState
  · split
    · split
      · exact h.attempt
      · exact h
    · exact h.updProgram.raiseHalted
    · exact h

theorem Kept.confirmStep (h : Kept a s) {g k : Nat} {b : Bool} : Kept a (s.confirmStep g k b) := by
  unfold State.confirmStep
  split
  · exact h
  · dsimp only
    split
    · exact h.updStep.updStep.withdrawB.freeDevice.tagStepEnded.raise.updProgram.programMovesOn
    · exact h.updStep.freeDevice.tagStepEnded.raise.updProgram.programMovesOn

theorem Kept.pullBack (h : Kept a s) {g k : Nat} : Kept a (s.pullBack g k) := by
  unfold State.pullBack
  split
  · exact h
  · exact h.updStep.withdrawB.queueCancel.freeDevice.tagStepEnded.raise

end Sys2Proof.Machine
end

