-- ==== Sys2Proof/Laws/KeptOwners.lean ====
section
/-! SUPPORT. `Kept` for the acts of the card owners and for the cells that trucks send. -/

namespace Sys2Proof.Machine

variable {a s : State}

theorem Kept.answered (h : Kept a s) {x : Answer} : Kept a (Take.answered s x).state := h

/-! ### Welfare watch -/

theorem Kept.updWatch (h : Kept a s) {w : Nat} {f : Watch → Watch} : Kept a (s.updWatch w f) := h.setWatch
theorem Kept.setDeadline (h : Kept a s) {w : Nat} : Kept a (s.setDeadline w) := h.setWatch

theorem Kept.toTruckOf (h : Kept a s) {w : Nat} {c : DownCell} (hc : c.isA = true := by rfl) :
    Kept a (s.toTruckOf w c) := by
  unfold State.toTruckOf
  split
  · exact h.addClassA hc
  · exact h

theorem Kept.fromTruckOf (h : Kept a s) {w : Nat} {c : DownCell} : Kept a (s.fromTruckOf w c) := by
  unfold State.fromTruckOf
  split
  · exact h.withdrawA
  · exact h

theorem Kept.promptWorker (h : Kept a s) {w d : Nat} : Kept a (s.promptWorker w d) :=
  h.updWatch.toTruckOf.endQuietPeriod

theorem Kept.withdrawPrompt (h : Kept a s) {w : Nat} : Kept a (s.withdrawPrompt w) := h.fromTruckOf.updWatch

theorem Kept.permitTold (h : Kept a s) {p w : Nat} : Kept a (s.permitTold p w) := by
  unfold State.permitTold
  dsimp only
  split
  · split
    · exact h.updWatch.promptWorker
    · exact h.updWatch
  · exact h

theorem Kept.enterAlarm (h : Kept a s) {w : Nat} {r : AlarmReason} {v : Option Nat} : Kept a (s.enterAlarm w r v) :=
  h.updWatch.withdrawPrompt.raise.memberAlarm

theorem Kept.alarmAgain (h : Kept a s) {w t : Nat} {r : AlarmReason} : Kept a (s.alarmAgain w t r) := by
  unfold State.alarmAgain
  split
  · exact h.enterAlarm
  · split
    · exact h.updWatch
    · exact h.fromTruckOf.updWatch.raise.memberAlarm

theorem Kept.truckAlarmCell (h : Kept a s) {t b : Nat} {m : Bool} : Kept a (s.truckAlarmCell t b m) := by
  unfold State.truckAlarmCell
  dsimp only
  split
  · exact h.setTruckAlarm.raise
  · split
    · exact h.setTruckAlarm
    · split
      · exact h.withdrawA.setTruckAlarm.raise
      · exact h.setTruckAlarm.raise

theorem Kept.alarmCell (h : Kept a s) {t b : Nat} {m : Bool} : Kept a (s.alarmCell t b m) := by
  unfold State.alarmCell
  dsimp only
  split
  · exact h.endQuietPeriod.truckAlarmCell
  · split
    · exact h.endQuietPeriod.updWatch.alarmAgain
    · exact h.endQuietPeriod.updWatch.enterAlarm

theorem Kept.lateCheckIn (h : Kept a s) {w t : Nat} : Kept a (s.lateCheckIn w t) := by
  unfold State.lateCheckIn
  dsimp only
  split
  · exact h.updWatch
  · split
    · exact h.updWatch
    · exact h.updWatch.updWatch.raise

theorem Kept.singleAnswered (h : Kept a s) {w t : Nat} : Kept a (s.singleAnswered w t) := by
  unfold State.singleAnswered
  dsimp only
  split
  · exact h.withdrawPrompt.updWatch.raise
  · exact h.withdrawPrompt.updWatch

theorem Kept.checkIn (h : Kept a s) {t b : Nat} : Kept a (s.checkIn t b) := by
  unfold State.checkIn
  split
  · exact h
  · dsimp only
    split
    · exact h.updWatch.updWatch
    · exact h.updWatch.setDeadline
    · split
      · exact h.updWatch.setDeadline.updWatch.withdrawPrompt
      · exact h.updWatch.singleAnswered
      · exact h.updWatch.singleAnswered
      · exact h.updWatch.singleAnswered
    · exact h.updWatch.lateCheckIn
    · exact h.updWatch.lateCheckIn

theorem Kept.deadlineReached (h : Kept a s) {w : Nat} : Kept a (s.deadlineReached w) := by
  unfold State.deadlineReached
  dsimp only
  split
  · exact h.promptWorker
  · exact h

theorem Kept.graceEndReached (h : Kept a s) {w : Nat} : Kept a (s.graceEndReached w) := by
  unfold State.graceEndReached
  dsimp only
  split
  · exact h.enterAlarm
  · exact h

theorem watchStart_kept {r : Req} : Kept s (watchStart r s).state := by
  unfold watchStart
  dsimp only
  repeat' split
  all_goals first
    | exact Kept.refl s
    | exact (Kept.refl s).updWatch.setDeadline.updWatch.answered

theorem watchStop_kept {r : Req} : Kept s (watchStop r s).state := by
  unfold watchStop
  dsimp only
  repeat' split
  all_goals first
    | exact Kept.refl s
    | exact (Kept.refl s).updWatch.answered

theorem watchCheck_kept {r : Req} : Kept s (watchCheck r s).state := by
  unfold watchCheck
  dsimp only
  repeat' split
  all_goals first
    | exact Kept.refl s
    | exact (Kept.refl s).updWatch.promptWorker.answered

theorem ackWorker_kept {w : Nat} : Kept s (ackWorker w s).state := by
  unfold ackWorker
  split
  · exact (Kept.refl s).updWatch.toTruckOf.answered
  · exact Kept.refl s

theorem ackTruck_kept {t : Nat} : Kept s (ackTruck t s).state := by
  unfold ackTruck
  split
  · split
    · exact Kept.refl s
    · exact (Kept.refl s).setTruckAlarm.addClassA.answered
  · exact Kept.refl s

theorem alarmAck_kept {r : Req} : Kept s (alarmAck r s).state := by
  unfold alarmAck
  split
  · exact Kept.refl s
  · exact ackWorker_kept
  · exact ackTruck_kept

theorem resolveWorker_kept {w : Nat} : Kept s (resolveWorker w s).state := by
  unfold resolveWorker
  split
  · exact Kept.refl s
  · dsimp only
    split
    · exact (Kept.refl s).fromTruckOf.updWatch.setDeadline.updWatch.answered
    · exact (Kept.refl s).fromTruckOf.updWatch.updWatch.answered

theorem resolveTruck_kept {t : Nat} : Kept s (resolveTruck t s).state := by
  unfold resolveTruck
  split
  · exact Kept.refl s
  · exact (Kept.refl s).withdrawA.setTruckAlarm.answered

theorem alarmResolve_kept {r : Req} : Kept s (alarmResolve r s).state := by
  unfold alarmResolve
  split
  · exact Kept.refl s
  · exact resolveWorker_kept
  · exact resolveTruck_kept

/-! ### Devices -/

theorem deviceAdd_kept {r : Req} : Kept s (deviceAdd r s).state := by
  unfold deviceAdd
  repeat' split
  all_goals first
    | exact Kept.refl s
    | exact (Kept.refl s).setDevice.answered

theorem deviceRemove_kept {r : Req} : Kept s (deviceRemove r s).state := by
  unfold deviceRemove
  repeat' split
  all_goals first
    | exact Kept.refl s
    | exact (Kept.refl s).setDevice.answered

theorem Kept.reportFields (h : Kept a s) {d : Nat} {p : Position} : Kept a (s.reportFields d p) := by
  unfold State.reportFields
  split
  · exact h.setPosition
  · exact h.setPosition

theorem Kept.raiseViolation (h : Kept a s) {b : Device} {d : Nat} : Kept a (s.raiseViolation b d) := by
  unfold State.raiseViolation
  dsimp only
  split
  · exact h.raise
  · exact h

theorem Kept.deviceReported (h : Kept a s) {d : Nat} {p : Position} : Kept a (s.deviceReported d p).1 := by
  unfold State.deviceReported
  dsimp only
  split
  · dsimp only
    exact h.reportFields.raiseViolation.reevaluate
  · dsimp only
    exact h.reportFields.raiseViolation.reevaluate.confirmStep

theorem deviceReport_kept {r : Req} : Kept s (deviceReport r s).state := by
  unfold deviceReport
  split
  · exact Kept.refl s
  · split
    · exact Kept.refl s
    · split
      · exact Kept.refl s
      · dsimp only
        refine Kept.answered ?_
        exact (Kept.refl s).deviceReported

theorem Kept.unplanned (h : Kept a s) {t id : Nat} {p : Position} : Kept a (s.unplanned t id p) := by
  unfold State.unplanned
  split
  · exact h.raise
  · dsimp only
    split
    · exact h.setPosition.reevaluate
    · exact h.setPosition.raise.reevaluate

/-! ### Programs -/

theorem Kept.endCopy (h : Kept a s) {c : Nat} : Kept a (s.endCopy c) :=
  ⟨h.control, h.word, fun c => { h.canonical c with }, h.holdRoom, h.held, h.links, h.lists, h.flight⟩

theorem Kept.startCopy (h : Kept a s) {c : Copy} : Kept a (s.startCopy c) :=
  ⟨h.control, h.word, fun c => { h.canonical c with }, h.holdRoom, h.held, h.links, h.lists, h.flight⟩

theorem programLoad_kept {c : Nat} {r : Req} : Kept s (programLoad c r s).state := by
  unfold programLoad
  repeat' split
  all_goals first
    | exact Kept.refl s
    | exact (Kept.refl s).startCopy

theorem onProgram_kept {act : Nat → State → Take} (h : ∀ g s, Kept s (act g s).state) {r : Req} :
    Kept s (onProgram act r s).state := by
  unfold onProgram
  repeat' split
  all_goals first
    | exact h _ _
    | exact Kept.refl s

theorem onStep_kept {act : Nat → Nat → Step → State → Take} (h : ∀ g k st s, Kept s (act g k st s).state) {r : Req} :
    Kept s (onStep act r s).state := by
  unfold onStep
  repeat' split
  all_goals first
    | exact h _ _ _ _
    | exact Kept.refl s

theorem Kept.runProgram (h : Kept a s) {g : Nat} : Kept a (s.runProgram g) := h.updProgram.raiseProgramState

theorem Kept.chainedAttempt (h : Kept a s) {g : Nat} : Kept a (s.chainedAttempt g) := by
  unfold State.chainedAttempt
  dsimp only
  split
  · exact h.attempt
  · exact h

theorem programStart_kept {r : Req} : Kept s (programStart r s).state :=
  onProgram_kept fun g s => by
    split
    · exact (Kept.refl s).updProgram.runProgram.chainedAttempt.answered
    all_goals exact Kept.refl s

theorem stepRelease_kept {r : Req} : Kept s (stepRelease r s).state :=
  onStep_kept fun g k st s => by
    repeat' split
    all_goals first
      | exact Kept.refl s
      | exact (Kept.refl s).attempt.answered

theorem Kept.dispatchConfirm (h : Kept a s) {g k : Nat} {st : Step} : Kept a (s.dispatchConfirm g k st) := by
  unfold State.dispatchConfirm
  dsimp only
  split
  · exact h.setPosition.reevaluate.confirmStep
  · exact h.confirmStep

theorem stepConfirm_kept {r : Req} : Kept s (stepConfirm r s).state :=
  onStep_kept fun g k st s => by
    split
    · exact (Kept.refl s).dispatchConfirm.answered
    all_goals exact Kept.refl s

theorem Kept.haltProgram (h : Kept a s) {g : Nat} : Kept a (s.haltProgram g) := by
  unfold State.haltProgram
  split
  · exact h.updProgram.endWaits
  · exact h.updProgram.endWaits.raiseHalted

theorem programHalt_kept {r : Req} : Kept s (programHalt r s).state :=
  onProgram_kept fun g s => by
    split
    · exact (Kept.refl s).haltProgram.answered
    all_goals exact Kept.refl s

theorem Kept.resumeProgram (h : Kept a s) {g : Nat} : Kept a (s.resumeProgram g) := h.updStep.runProgram

theorem Kept.afterResume (h : Kept a s) {g : Nat} : Kept a (s.afterResume g) := by
  unfold State.afterResume
  dsimp only
  split
  · split
    · exact h.chainedAttempt
    · exact h
  · exact h

theorem Kept.resumeSkipping (h : Kept a s) {g : Nat} {st : Step} : Kept a (s.resumeSkipping g st) := by
  unfold State.resumeSkipping
  dsimp only
  generalize decide (((s.updStep g (s.program g).next fun x => { x with state := .skipped }).program g).steps.length <
    ((s.updStep g (s.program g).next fun x => { x with state := .skipped }).program g).firstOpen) = last
  cases last
  · exact h.updStep.runProgram.raise.updProgram.afterResume
  · exact h.updStep.raise.updProgram.programMovesOn

theorem resumeHalted_kept {b : Bool} {g : Nat} : Kept s (resumeHalted b g s).state := by
  unfold resumeHalted
  dsimp only
  split
  · exact (Kept.refl s).resumeProgram.afterResume.answered
  · split
    · split
      · exact Kept.refl s
      · exact (Kept.refl s).resumeSkipping.answered
    · exact (Kept.refl s).resumeProgram.afterResume.answered

theorem programResume_kept {r : Req} : Kept s (programResume r s).state := by
  unfold programResume
  repeat' split
  all_goals first
    | exact Kept.refl s
    | exact resumeHalted_kept

theorem Kept.abortProgram (h : Kept a s) {g : Nat} : Kept a (s.abortProgram g) := by
  unfold State.abortProgram
  refine Kept.raiseProgramState (Kept.endWaits (Kept.updProgram ?_))
  exact .foldl (fun s _ => (Kept.refl s).pullBack) _ h

theorem programAbort_kept {r : Req} : Kept s (programAbort r s).state :=
  onProgram_kept fun g s => by
    dsimp only
    repeat' split
    all_goals first
      | exact Kept.refl s
      | exact (Kept.refl s).abortProgram.answered

theorem programClear_kept {r : Req} : Kept s (programClear r s).state :=
  onProgram_kept fun g s => by
    dsimp only
    repeat' split
    all_goals first
      | exact Kept.refl s
      | exact (Kept.refl s).setProgram.answered

theorem Kept.readbackRefused (h : Kept a s) {g k : Nat} {st : Step} : Kept a (s.readbackRefused g k st) :=
  h.updStep.freeDevice.tagStepEnded.withdrawB.queueCancel.updProgram.endWaits.raise.raiseHalted

theorem Kept.readbackWrong (h : Kept a s) {t g k : Nat} {st : Step} : Kept a (s.readbackWrong t g k st) := by
  unfold State.readbackWrong
  dsimp only
  split
  · exact h.updStep.addGroup
  · exact h.updStep.readbackRefused

theorem Kept.readback (h : Kept a s) {t n k d : Nat} {x : Action} : Kept a (s.readback t n k d x) := by
  unfold State.readback
  split
  · exact h
  · split
    · split
      · exact h.updStep.addGroup
      · exact h.readbackWrong
    · exact h

theorem Kept.stepEffect (h : Kept a s) {g k : Nat} {st : Step} : Kept a (s.stepEffect g k st) := by
  unfold State.stepEffect
  split
  · exact h.setPosition.reevaluate
  · exact h.setPosition.reevaluate
  · exact h.tagAdd.updStep
  · exact h.tagRemove.updStep
  · exact h
  · exact h

theorem Kept.executed (h : Kept a s) {t n k : Nat} : Kept a (s.executed t n k) := by
  unfold State.executed
  split
  · exact h
  · split
    · dsimp only
      split
      · exact h.updStep.raise.stepEffect.confirmStep
      · exact h.updStep.raise.stepEffect
    · exact h

theorem Kept.resetStep (h : Kept a s) {g k : Nat} : Kept a (s.resetStep g k) := by
  unfold State.resetStep
  split
  · exact h
  · exact h.updStep.removeCells.freeDevice.tagStepEnded.raise

theorem Kept.resetProgram (h : Kept a s) {g : Nat} : Kept a (s.resetProgram g) := by
  unfold State.resetProgram
  dsimp only
  split
  · exact h.updProgram.raiseHalted
  · exact h

theorem Kept.switchingReset (h : Kept a s) : Kept a s.switchingReset := by
  unfold State.switchingReset
  dsimp only
  refine .foldl (fun s _ => (Kept.refl s).queueCancel) _ ?_
  refine .foldl (fun s _ => (Kept.refl s).offer) _ ?_
  refine .foldl (fun s _ => (Kept.refl s).resetProgram) _ ?_
  refine .foldl (fun s _ => (Kept.refl s).dropWaits) _ ?_
  exact .foldl (fun s _ => (Kept.refl s).resetStep) _ h

/-! ### Permits -/

theorem Kept.draft (h : Kept a s) {p : Nat} {x : Permit} : Kept a (s.draft p x) := by
  unfold State.draft
  dsimp only
  split
  · exact h.setPermit.setPermitState.raisePermitState
  · exact h.setPermit

theorem permitDraft_kept {r : Req} : Kept s (permitDraft r s).state := by
  unfold permitDraft
  dsimp only
  repeat' split
  all_goals first
    | exact Kept.refl s
    | exact (Kept.refl s).draft.answered

theorem onPermit_kept {act : Nat → State → Take} (h : ∀ p s, Kept s (act p s).state) {r : Req} :
    Kept s (onPermit act r s).state := by
  unfold onPermit
  repeat' split
  all_goals first
    | exact h _ _
    | exact Kept.refl s

theorem Kept.issue (h : Kept a s) {p : Nat} : Kept a (s.issue p) := h.setPermitState.updPermit.addGroup.raisePermitState

theorem permitIssue_kept {r : Req} : Kept s (permitIssue r s).state :=
  onPermit_kept fun p s => by
    split
    · exact Kept.refl s
    · exact (Kept.refl s).issue.answered

theorem Kept.resumePermit (h : Kept a s) {p : Nat} : Kept a (s.resumePermit p) :=
  (Kept.foldl (fun s _ => (Kept.refl s).permitTold) _ h.setPermitState.updPermit).raisePermitState

theorem permitResume_kept {r : Req} : Kept s (permitResume r s).state :=
  onPermit_kept fun p s => by
    repeat' split
    all_goals first
      | exact Kept.refl s
      | exact (Kept.refl s).resumePermit.answered

theorem Kept.cancelPermit (h : Kept a s) {p : Nat} : Kept a (s.cancelPermit p) := by
  unfold State.cancelPermit
  dsimp only
  split
  · exact h.withdrawIssue.setPermitState.raisePermitState.closeTest
  · exact h.setPermitState.raisePermitState.closeTest

theorem permitCancel_kept {r : Req} : Kept s (permitCancel r s).state :=
  onPermit_kept fun p s => by
    dsimp only
    split
    · exact (Kept.refl s).cancelPermit.answered
    · exact Kept.refl s

theorem Kept.leavePermit (h : Kept a s) {w : Nat} : Kept a (s.leavePermit w) := h.setWorker

theorem Kept.emptyMembers (h : Kept a s) {p : Nat} : Kept a (s.emptyMembers p) :=
  (Kept.foldl (fun s _ => (Kept.refl s).leavePermit) _ h).updPermit

theorem Kept.recallForPermit (h : Kept a s) {p g : Nat} : Kept a (s.recallForPermit p g) := by
  refine .foldl (fun s k => ?_) _ h
  dsimp only
  split
  · exact (Kept.refl s).pullBack.updProgram.endWaits.raiseHalted
  · exact (Kept.refl s).pullBack

theorem Kept.untagFold {p : Nat} (l : List Nat) {x : State × Nat} (h : Kept a x.1) :
    Kept a (l.foldl (untagOne p) x).1 := by
  induction l generalizing x with
  | nil => exact h
  | cons d rest ih => exact ih (x := untagOne p x d) h.tagRemove

theorem Kept.forceClose (h : Kept a s) {p : Nat} : Kept a (s.forceClose p).1 :=
  (Kept.untagFold _ (Kept.foldl (fun s _ => (Kept.refl s).recallForPermit) _
    h.withdrawIssue.emptyMembers.updPermit.setPermitState.updPermit)).raise

theorem permitForceClose_kept {r : Req} : Kept s (permitForceClose r s).state := by
  unfold permitForceClose needAuthority
  split
  · refine onPermit_kept fun p s => ?_
    split
    · exact Kept.refl s
    · exact (Kept.refl s).forceClose.answered
  · exact Kept.refl s

theorem permitClear_kept {r : Req} : Kept s (permitClear r s).state :=
  onPermit_kept fun p s => by
    repeat' split
    all_goals first
      | exact Kept.refl s
      | exact (Kept.refl s).setPermit.answered

theorem Kept.signReply (h : Kept a s) {t n b : Nat} {r : SignResult} : Kept a (s.signReply t n b r) := h.addGroup

theorem Kept.permitCell (h : Kept a s) {t n b : Nat} {act : Nat → Nat → State → State}
    (hact : ∀ p w s, Kept s (act p w s)) : Kept a (s.permitCell t n b act) := by
  unfold State.permitCell
  split
  · exact h.signReply
  · split
    · exact h.signReply
    · exact h.trans (hact _ _ _)

theorem Kept.accepted (h : Kept a s) {t p w : Nat} : Kept a (s.accepted t p w) :=
  h.setPermitState.updPermit.setWorker.permitTold.withdrawIssue.signReply.raisePermitState

theorem Kept.wrongAccept (h : Kept a s) {t p b : Nat} : Kept a (s.wrongAccept t p b) := by
  unfold State.wrongAccept
  dsimp only
  split
  · exact h.updPermit.signReply
  · exact h.updPermit.setPermitState.withdrawIssue.raise.signReply

theorem Kept.acceptPermit (h : Kept a s) {t n b c k : Nat} : Kept a (s.acceptPermit t n b c k) := by
  refine h.permitCell fun p w s => ?_
  dsimp only
  split
  · exact (Kept.refl s).signReply
  · split
    · exact (Kept.refl s).accepted
    · exact (Kept.refl s).wrongAccept

theorem Kept.signOn (h : Kept a s) {t n b : Nat} : Kept a (s.signOn t n b) := by
  refine h.permitCell fun p w s => ?_
  split
  · exact (Kept.refl s).signReply
  · exact (Kept.refl s).updPermit.setWorker.permitTold.signReply.raise

theorem Kept.signOff (h : Kept a s) {t n b : Nat} : Kept a (s.signOff t n b) := by
  refine h.permitCell fun p w s => ?_
  split
  · exact (Kept.refl s).signReply
  · exact (Kept.refl s).updPermit.leavePermit.signReply.raise

theorem Kept.surrender (h : Kept a s) {t n b : Nat} : Kept a (s.surrender t n b) := by
  refine h.permitCell fun p w s => ?_
  split
  · exact (Kept.refl s).signReply
  · exact (Kept.refl s).emptyMembers.setPermitState.signReply.raisePermitState.closeTest

/-! ### Registry -/

theorem Kept.updTruck (h : Kept a s) {t : Nat} {f : Truck → Truck} : Kept a (s.updTruck t f) := h.setTruck
theorem Kept.updWorker (h : Kept a s) {w : Nat} {f : Worker → Worker} : Kept a (s.updWorker w f) := h.setWorker

theorem Kept.setStray (h : Kept a s) {i t : Nat} : Kept a { s with strayId := i, strayTime := t } :=
  ⟨h.control, h.word, fun c => { h.canonical c with }, h.holdRoom, h.held, h.links, h.lists, h.flight⟩

theorem Kept.emptyList (h : Kept a s) {t : Nat} : Kept a (s.setList t {}) :=
  h.setList (fun _ => .empty) fun _ _ _ he => by simp at he

theorem Kept.addTruck (h : Kept a s) {t n : Nat} {r : Req} : Kept a (s.addTruck t n r) := by
  unfold State.addTruck
  dsimp only
  split
  · exact h.setTruck.freeLink.setCounter.emptyList.setQueue.setTruckAlarm.setStray
  · exact h.setTruck.freeLink.setCounter.emptyList.setQueue.setTruckAlarm

theorem truckAdd_kept {r : Req} : Kept s (truckAdd r s).state := by
  unfold truckAdd
  repeat' split
  all_goals first
    | exact Kept.refl s
    | exact (Kept.refl s).addTruck.answered

theorem onTruck_kept {act : Nat → State → Take} (h : ∀ t s, Kept s (act t s).state) {r : Req} :
    Kept s (onTruck act r s).state := by
  unfold onTruck
  repeat' split
  all_goals first
    | exact h _ _
    | exact Kept.refl s

theorem Kept.cellDiscarded (h : Kept a s) {c : DownCell} : Kept a (s.cellDiscarded c) := by
  unfold State.cellDiscarded
  split
  · split
    · exact h.updStep
    · exact h
  · split
    · exact h.updProgram
    · exact h
  · exact h

theorem Kept.entryDiscarded (h : Kept a s) {e : Entry} : Kept a (s.entryDiscarded e) := by
  unfold State.entryDiscarded
  split
  · exact h
  · exact h.cellDiscarded

theorem Kept.issueLost (h : Kept a s) {t p : Nat} : Kept a (s.issueLost t p) := by
  unfold State.issueLost
  dsimp only
  split
  · exact h.setPermitState.updPermit.raise
  · exact h

theorem Kept.removeTruck (h : Kept a s) {t : Nat} : Kept a (s.removeTruck t) :=
  .foldl (fun s _ => (Kept.refl s).issueLost) _
    (.foldl (fun s _ => (Kept.refl s).cellDiscarded) _ <| .foldl (fun s _ => (Kept.refl s).entryDiscarded) _ h.setTruck.freeLink.setCounter.emptyList.setQueue)

theorem truckRemove_kept {r : Req} : Kept s (truckRemove r s).state :=
  onTruck_kept fun t s => by
    split
    · exact Kept.refl s
    · exact (Kept.refl s).removeTruck.answered

theorem truckPark_kept {r : Req} : Kept s (truckPark r s).state :=
  onTruck_kept fun t s => by
    repeat' split
    all_goals first
      | exact Kept.refl s
      | exact (Kept.refl s).updTruck.answered

theorem Kept.unpark (h : Kept a s) {t : Nat} : Kept a (s.unpark t) := by
  unfold State.unpark
  refine Kept.truckAvailable (Kept.setLink h.updTruck fun l => ?_)
  exact { l with silent := Nat.zero_le _ }

theorem truckUnpark_kept {r : Req} : Kept s (truckUnpark r s).state :=
  onTruck_kept fun t s => by
    split
    · exact Kept.refl s
    · exact (Kept.refl s).unpark.answered

theorem workerAdd_kept {r : Req} : Kept s (workerAdd r s).state := by
  unfold workerAdd
  repeat' split
  all_goals first
    | exact Kept.refl s
    | exact (Kept.refl s).setWorker.setWatch.answered

theorem onWorker_kept {act : Nat → State → Take} (h : ∀ w s, Kept s (act w s).state) {r : Req} :
    Kept s (onWorker act r s).state := by
  unfold onWorker
  repeat' split
  all_goals first
    | exact h _ _
    | exact Kept.refl s

theorem Kept.leaveCrew (h : Kept a s) {w : Nat} : Kept a (s.leaveCrew w) := by
  unfold State.leaveCrew
  split
  · exact h
  · exact h.updTruck

theorem workerRemove_kept {r : Req} : Kept s (workerRemove r s).state :=
  onWorker_kept fun w s => by
    repeat' split
    all_goals first
      | exact Kept.refl s
      | exact (Kept.refl s).leaveCrew.setWorker.setWatch.answered

theorem isWorkerCell_isA {b : Nat} {c : DownCell} (h : isWorkerCell b c = true) : c.isA = true := by
  cases c <;> first | rfl | cases h

/-- Class A entries put into a list one after another, out of flight if nothing was in flight. -/
theorem Kept.insertEntries {dst : Nat} (l : List Entry) (hA : ∀ e ∈ l, e.cell.isA = true)
    (hf : a.Grounded → ∀ e ∈ l, e.inFlight = false) (h : Kept a s) :
    Kept a (l.foldl (fun s e => s.setList dst { s.list dst with cells := insertEntry s.ageCounter e (s.list dst).cells }) s) := by
  induction l generalizing s with
  | nil => exact h
  | cons e rest ih =>
    refine ih (fun x hx => hA x (by simp [hx])) (fun g x hx => hf g x (by simp [hx])) ?_
    exact h.setList (fun k => k.insert (.inl (hA e (by simp)))) (fun g k => k.insert (hf g e (by simp)))

theorem Kept.moveCells (h : Kept a s) {o t b : Nat} : Kept a (s.moveCells o t b) :=
  h.trans (Kept.insertEntries _ (fun _ he => isWorkerCell_isA (List.mem_filter.mp he).2)
    (fun g _ he => g.1 o _ (List.mem_filter.mp he).1) (Kept.refl s).withdrawA)

theorem Kept.boardTruck (h : Kept a s) {w t : Nat} : Kept a (s.boardTruck w t) := by
  unfold State.boardTruck
  dsimp only
  split
  · exact h.leaveCrew.updTruck.updWorker.moveCells
  · exact h.leaveCrew.updTruck.updWorker

theorem boardCard_kept {r : Req} : Kept s (boardCard r s).state := by
  unfold boardCard
  repeat' split
  all_goals first
    | exact Kept.refl s
    | exact (Kept.refl s).boardTruck.answered

theorem alightCard_kept {r : Req} : Kept s (alightCard r s).state :=
  onWorker_kept fun w s => by
    repeat' split
    all_goals first
      | exact Kept.refl s
      | exact (Kept.refl s).leaveCrew.updWorker.answered

theorem Kept.clearSiteFlags (h : Kept a s) : Kept a s.clearSiteFlags :=
  ⟨h.control, h.word, fun c => { h.canonical c with }, h.holdRoom, h.held, h.links, h.lists, h.flight⟩

/-- A map over the links keeps their ranges, in a table in canonical form. -/
theorem links_map {f : Link → Link} (hf : ∀ l, l.Legal → (f l).Legal) (hc : tableWf {} s.links = true)
    (h : ∀ t, (s.link t).Legal) (t : Nat) : (tableGet {} (tableMap {} f s.links) t).Legal :=
  tableGet_map_keeps {} f s.links Link.Legal hf .start
    (fun e he => by have := h e.1; unfold State.link at this; rwa [tableGet_mem {} _ hc he] at this) t

theorem Kept.mapLinks (h : Kept a s) {f : Link → Link} (hf : ∀ l, l.Legal → (f l).Legal) :
    Kept a { s with links := tableMap {} f s.links } :=
  ⟨h.control, h.word, fun c => { h.canonical c with links := tableWf_map _ _ _ (h.canonical c).links },
   h.holdRoom, h.held, fun c hl => links_map hf (h.canonical c).links (h.links c hl), h.lists, h.flight⟩

theorem Kept.clearTruckFlags (h : Kept a s) : Kept a s.clearTruckFlags := h.mapLinks fun _ l => { l with }

theorem flagsClear_kept {r : Req} : Kept s (flagsClear r s).state := by
  unfold flagsClear
  dsimp only
  split
  · exact (Kept.refl s).clearSiteFlags
  · split
    · exact (Kept.refl s).clearSiteFlags.clearTruckFlags
    · split
      · exact Kept.refl s
      · split
        · exact Kept.refl s
        · exact (Kept.refl s).setLink fun l => { l with }

/-! ### Orders -/

theorem Kept.updOrder (h : Kept a s) {i : Nat} {f : Order → Order}
    (hf : ∀ o : Order, o.Still → (f o).Still := by exact fun _ => id) : Kept a (s.updOrder i f) := h.setOrder (hf _)

/-- A mark changed at one place, to a mark out of flight if it was. -/
theorem modify_still {l : List CellMark} {n : Nat} {f : CellMark → CellMark}
    (hf : ∀ m : CellMark, m.inFlight = false → (f m).inFlight = false) (h : ∀ m ∈ l, m.inFlight = false) :
    ∀ m ∈ l.modify n f, m.inFlight = false := by
  induction l generalizing n with
  | nil => simp
  | cons x rest ih =>
    cases n with
    | zero =>
      intro m hm
      simp only [List.modify_zero_cons, List.mem_cons] at hm
      rcases hm with rfl | hm
      · exact hf _ (h _ (by simp))
      · exact h _ (by simp [hm])
    | succ n =>
      intro m hm
      simp only [List.modify_succ_cons, List.mem_cons] at hm
      rcases hm with rfl | hm
      · exact h _ (by simp)
      · exact ih (fun m hm => h m (by simp [hm])) m hm

/-- Marks changed at several places, each to a mark out of flight if it was. -/
theorem foldl_modify_still {ns : List Nat} {f : CellMark → CellMark}
    (hf : ∀ m : CellMark, m.inFlight = false → (f m).inFlight = false) {l : List CellMark}
    (h : ∀ m ∈ l, m.inFlight = false) : ∀ m ∈ ns.foldl (fun cells n => cells.modify n f) l, m.inFlight = false := by
  induction ns generalizing l with
  | nil => exact h
  | cons n rest ih => exact ih (modify_still hf h)

theorem OrderJob.filled_still {j : OrderJob} {n : Nat} {q : DWord} : (j.filled n q).Still :=
  fun m hm => by rw [(List.mem_replicate.mp hm).2]

theorem orderPost_kept {c : Nat} {r : Req} : Kept s (orderPost c r s).state := by
  unfold orderPost postOwner
  repeat' split
  all_goals first
    | exact Kept.refl s
    | exact (Kept.refl s).startCopy

theorem Kept.enqueue (h : Kept a s) {t i : Nat} : Kept a (s.enqueue t i) := by
  unfold State.enqueue
  split
  · exact h.setQueue
  · dsimp only
    split
    · split
      · exact h.updOrder.setQueue
      · exact h.setQueue
    · exact h.setQueue

theorem Kept.dequeue (h : Kept a s) {t i : Nat} : Kept a (s.dequeue t i) := h.setQueue

theorem Kept.giveBackPages (h : Kept a s) {i : Nat} : Kept a (s.giveBackPages i) :=
  have k := h.updOrder (i := i) (f := fun x => { x with pages := [] })
  ⟨k.control, k.word, fun c => { k.canonical c with }, k.holdRoom, k.held, k.links, k.lists, k.flight⟩

theorem Planned.orderSending (h : Planned a s) {i n : Nat} : Planned a (s.orderSending i n) := h.setOrder

theorem Kept.orderDelivered (h : Kept a s) {i : Nat} : Kept a (s.orderDelivered i) :=
  h.updOrder.giveBackPages.dequeue.raise

theorem Kept.cellsDelivered (h : Kept a s) {i : Nat} {ns : List Nat} : Kept a (s.cellsDelivered i ns) := by
  unfold State.cellsDelivered
  dsimp only
  split
  all_goals
    have h1 := (h.updOrder (i := i) (f := fun x => { x with
        cells := ns.foldl (fun cells n => cells.modify n fun _ => { delivered := true, inFlight := false }) x.cells })
      (fun _ k => foldl_modify_still (fun _ _ => rfl) k)).updOrder (i := i) (f := fun x => if x.lowestUndelivered = (s.order i).lowestUndelivered then x
        else { x with attempts := 0 }) (fun o k => by split <;> exact k)
  · exact h1.orderDelivered
  · exact h1

theorem Kept.orderStalled (h : Kept a s) {i : Nat} : Kept a (s.orderStalled i) := h.updOrder.raise

theorem Kept.cellsFailed (h : Kept a s) {i : Nat} {ns : List Nat} : Kept a (s.cellsFailed i ns) := by
  unfold State.cellsFailed
  dsimp only
  split
  all_goals
    have h1 := h.updOrder (i := i) (f := fun x => { x with
        cells := ns.foldl (fun cells n => cells.modify n fun m => { m with inFlight := false }) x.cells })
      (fun _ k => foldl_modify_still (fun _ _ => rfl) k)
  · split
    · exact h1.updOrder.orderStalled
    · exact h1.updOrder
  · exact h1

theorem Kept.stallResume (h : Kept a s) {t : Nat} : Kept a (s.stallResume t) := by
  unfold State.stallResume
  split
  · exact h
  · split
    · exact h.updOrder.raise
    · exact h

theorem Kept.statusReply (h : Kept a s) {t n : Nat} {r : StatusResult} : Kept a (s.statusReply t n r) := h.addGroup

theorem Kept.orderStatus (h : Kept a s) {t n c : Nat} : Kept a (s.orderStatus t n c) := by
  unfold State.orderStatus
  split
  · exact h.statusReply
  · split
    · exact h.statusReply
    · split
      · exact h
      · split
        · exact h.updOrder.statusReply.raise
        · exact h.updOrder.raise

theorem onOrder_kept {act : Nat → State → Take} (h : ∀ i s, Kept s (act i s).state) {r : Req} :
    Kept s (onOrder act r s).state := by
  unfold onOrder
  repeat' split
  all_goals first
    | exact h _ _
    | exact Kept.refl s

theorem Kept.leaveQueue (h : Kept a s) {i : Nat} {st : OrderState} : Kept a (s.leaveQueue i st) :=
  h.updOrder.giveBackPages.dequeue

theorem Kept.withdrawOrder (h : Kept a s) {i : Nat} : Kept a (s.withdrawOrder i) := h.leaveQueue.addGroup

theorem orderWithdrawCard_kept {r : Req} : Kept s (orderWithdrawCard r s).state :=
  onOrder_kept fun i s => by
    have hw : Kept s (Take.answered (s.withdrawOrder i) .ok).state := (Kept.refl s).withdrawOrder
    have hq : Kept s (Take.answered (s.leaveQueue i .withdrawn) .ok).state := (Kept.refl s).leaveQueue
    split
    · split
      · exact hq
      · exact hw
    all_goals first
      | exact hw
      | exact Kept.refl s

theorem orderClear_kept {r : Req} : Kept s (orderClear r s).state :=
  onOrder_kept fun i s => by
    split
    · exact (Kept.refl s).setOrder fun _ _ hm => by simp at hm
    · exact Kept.refl s

theorem memoryWf_writePages (l : List Nat) (m : Memory) (b : List Byte) (h : Memory.wf m = true) :
    Memory.wf (writePages m l b) = true := by
  induction l generalizing m b with
  | nil => exact h
  | cons p rest ih => exact ih _ _ (memoryWf_setBytes _ _ _ h)

theorem Sound.setPool (h : Sound a s) {m : Memory} {fp : List Nat} {q : DWord}
    (hm : Memory.wf s.pool = true → Memory.wf m = true) :
    Sound a { s with pool := m, freePages := fp, orderSeq := q } :=
  ⟨h.control, fun c => { h.canonical c with pool := hm (h.canonical c).pool }, h.holdRoom, h.held, h.links, h.lists, h.flight⟩

/-- A completed copy leaves every clause of the invariant on the tables standing. -/
theorem Sound.postComplete (h : Sound a s) {c : Nat} {j : OrderJob} {ws : List Word} (hc : c < Config.cards) :
    Sound a (s.postComplete c j ws) := by
  have h1 := h.trans (((Kept.refl s).endCopy (c := c)).setOrder (i := j.record) (x := j.filled s.clock s.orderSeq) fun _ => OrderJob.filled_still).sound
  have h2 := h1.setPool (m := writePages s.pool j.pages (textBytes j.length ws))
    (fp := s.freePages.filter fun p => !j.pages.contains p) (q := s.orderSeq + 1) (memoryWf_writePages _ _ _)
  exact (h2.trans ((Kept.refl _).enqueue (t := j.truck) (i := j.record)).sound).answerCard hc

theorem Sound.orderCopyComplete (h : Sound a s) {c : Nat} (hc : c < Config.cards) : Sound a (s.orderCopyComplete c) := by
  unfold State.orderCopyComplete
  split
  · exact h
  · split
    · exact h.postComplete hc
    · exact h

theorem Sound.programCopyComplete (h : Sound a s) {c : Nat} (hc : c < Config.cards) :
    Sound a (s.programCopyComplete c) := by
  unfold State.programCopyComplete
  split
  · exact h
  · split
    · unfold State.loadComplete
      dsimp only
      split
      · exact h.trans ((Kept.refl s).endCopy.sound.answerCard hc)
      · exact h.trans ((Kept.refl s).endCopy.setProgram.sound.answerCard hc)
    · exact h

end Sys2Proof.Machine
end

