-- ==== Sys2Proof/Laws/KeptChannel.lean ====
section
/-! SUPPORT. `Kept` for the grader, the planner and the settling and routing of reports. -/

namespace Sys2Proof.Machine

variable {a s : State}

/-! ### Grading -/

/-- The ranges of the grading fields hold after one report's clip and count. -/
theorem Link.Legal.clip {l : Link} (h : l.Legal) (x : Heard) : (l.clip x).Legal := by
  cases x <;> exact { h with }

theorem Link.Legal.count {l : Link} (h : l.Legal) (x : Heard) : (l.count x).Legal := by
  have := h.silent
  cases x
  · exact { h with silent := Nat.zero_le _ }
  · exact { h with silent := Nat.zero_le _ }
  · exact { h with silent := by simp only [Link.count]; omega }

/-- R44: a sample is at most 500. -/
theorem sample_le {h : Heard} {q : Nat} {n : Int} (hq : q ≤ 500) : sample h q n ≤ 500 := by
  cases h with
  | good r => simp only [sample, goodSample]; omega
  | garbled r => simp only [sample]; omega
  | nothing => simp [sample]

theorem Link.Legal.settleStep {l : Link} (h : l.Legal) (st : Settings) {x : Nat} (hx : x ≤ 500) :
    (l.settleStep st x).Legal := by
  have hq := h.quality
  have key : (if l.settle = 0 then x else (l.quality + x + 1) / 2) ≤ 500 := by split <;> omega
  unfold Link.settleStep
  dsimp only
  split <;> exact { h with quality := key }

theorem runDir_ne {g t : Grade} (h : t ≠ g) : runDir g t ≠ .none := by
  unfold runDir
  rw [if_neg h]
  split <;> simp

theorem Link.Legal.hysteresis {l : Link} (h : l.Legal) (st : Settings) : (l.hysteresis st).Legal := by
  unfold Link.hysteresis
  dsimp only
  split
  · exact { h with run := Nat.zero_le _, dir := by simp }
  · next ht =>
    have hd := runDir_ne ht
    generalize hr : (if 1 ≤ l.run ∧ runDir l.grade (targetGrade st l.grade l.quality) = l.dir then l.run + 1 else 1) = r
    have hr0 : r ≠ 0 := by rw [← hr]; split <;> omega
    split
    · exact { h with run := Nat.zero_le _, dir := by simp }
    · exact { h with run := by show r ≤ 2; omega, dir := by simp [hr0, hd] }

theorem Link.Legal.graded {l : Link} (h : l.Legal) (st : Settings) {x : Nat} (hx : x ≤ 500) : (l.graded st x).Legal := by
  have hq := h.quality
  have : ({ l with quality := smooth l.quality x } : Link).Legal :=
    { h with quality := by simp only [smooth]; omega }
  exact this.hysteresis st

theorem Kept.updLink (h : Kept a s) {t : Nat} {f : Link → Link} (hf : ∀ l : Link, l.Legal → (f l).Legal) :
    Kept a (s.updLink t f) := h.setLink (hf _)

theorem Kept.raiseGradeChange (h : Kept a s) {t : Nat} {g : Grade} : Kept a (s.raiseGradeChange t g) := by
  unfold State.raiseGradeChange
  dsimp only
  split
  · exact h.raise
  · exact h

theorem Kept.gradeLost (h : Kept a s) {t : Nat} : Kept a (s.gradeLost t) := by
  unfold State.gradeLost
  dsimp only
  refine Kept.raise (Kept.updTruck (h.updLink fun l hl => ?_))
  exact { hl with run := Nat.zero_le _, dir := by simp }

theorem Kept.leaveLost (h : Kept a s) {t x : Nat} (hx : x ≤ 500) : Kept a (s.leaveLost t x) := by
  unfold State.leaveLost
  dsimp only
  refine Kept.truckAvailable (Kept.raise (Kept.updTruck (h.updLink fun l hl => ?_)))
  refine Link.Legal.settleStep ?_ _ hx
  exact { hl with run := Nat.zero_le _, dir := by simp }

theorem Kept.onAirStep (h : Kept a s) {t x : Nat} (hx : x ≤ 500) : Kept a (s.onAirStep t x) := by
  unfold State.onAirStep
  dsimp only
  split
  · exact h.updLink fun l hl => hl.settleStep _ hx
  · exact (h.updLink fun l hl => hl.graded _ hx).raiseGradeChange

theorem Kept.onAirReport (h : Kept a s) {t x : Nat} {r : Heard} (hx : x ≤ 500) : Kept a (s.onAirReport t x r) := by
  unfold State.onAirReport
  split
  · exact h.gradeLost
  · exact h.onAirStep hx

/-- A report is graded within the ranges, where the quality before it is within its range. -/
theorem Kept.gradeReport (h : Kept a s) {t : Nat} {r : Heard} (hq : (s.link t).quality ≤ 500) :
    Kept a (s.gradeReport t r) := by
  have hx := sample_le (h := r) (n := s.noise) hq
  have hc : Kept a (s.updLink t fun l => (l.clip r).count r) := h.updLink fun l hl => (hl.clip r).count r
  unfold State.gradeReport
  dsimp only
  split
  · exact h
  · exact h
  · split
    · exact hc.updLink fun l hl => hl.settleStep _ hx
    · exact hc
  · split
    · split
      · exact hc.leaveLost hx
      · exact hc
    · exact hc.onAirReport hx
  · split
    · exact hc.leaveLost hx
    · exact hc

/-! ### Planning -/

theorem Kept.advanceCounters (h : Kept a s) : Kept a s.advanceCounters := by
  refine .foldl (fun s t => ?_) _ h
  unfold State.advanceCounter
  dsimp only
  split
  · exact (Kept.refl s).setCounter
  · exact (Kept.refl s).setCounter
  · exact (Kept.refl s).setCounter
  · exact .refl s
  · exact .refl s

theorem Kept.upRun (h : Kept a s) {t : Nat} : Kept a (s.upRun t) := h.setCounter

theorem Planned.markFlight (h : Planned a s) {t : Nat} {c : Carried} : Planned a (s.markFlight t c) := by
  unfold State.markFlight
  split
  · exact h.setList fun k => k.map fun e => by split <;> rfl
  · exact h.orderSending

theorem Planned.setPointers (h : Planned a s) {x y z : Nat} :
    Planned a { s with pointerA := x, pointerB := y, pointerC := z } :=
  ⟨h.control, fun c => { h.canonical c with }, h.holdRoom, h.held, h.links, h.lists⟩

theorem Planned.grant {p : Plan} (h : Planned a p.state) {t : Nat} : Planned a (p.grant t).state :=
  .foldl (fun s _ => (Planned.refl s).markFlight) _ h

theorem Planned.sweepFold {cls : CellClass} (l : List Nat) {x : Plan × Option Nat} (h : Planned a x.1.state) :
    Planned a (l.foldl (fun acc t => if acc.1.grants cls t then (acc.1.grant t, some t) else acc) x).1.state := by
  induction l generalizing x with
  | nil => exact h
  | cons t rest ih =>
    rw [List.foldl_cons]
    refine ih ?_
    split
    · exact h.grant
    · exact h

theorem Planned.sweepClass {p : Plan} (h : Planned a p.state) {cls : CellClass} {n : Nat} :
    Planned a (p.sweepClass cls n).1.state := Planned.sweepFold _ h

theorem Planned.sweep1 {p : Plan} (h : Planned a p.state) : Planned a p.sweep1.state := by
  unfold Plan.sweep1
  dsimp only
  refine Planned.setPointers (Planned.sweepClass ?_)
  refine Planned.setPointers (Planned.sweepClass ?_)
  exact (h.sweepClass (cls := .a) (n := p.state.pointerA)).setPointers

theorem Planned.sweepOne {p : Plan} (h : Planned a p.state) {cls : CellClass} : Planned a (p.sweepOne cls).state :=
  h.sweepClass

theorem Planned.sweepMore {p : Plan} (h : Planned a p.state) : Planned a p.sweepMore.state := h.sweepOne.sweepOne.sweepOne

theorem Kept.visitD {p : Plan} (h : Kept a p.state) {t : Nat} : Kept a (p.visitD t).state := by
  unfold Plan.visitD
  dsimp only
  split
  · exact h
  · split
    · split
      · exact h
      · exact h
    · split
      · exact h.setCounter
      · exact h
    · split
      · exact h.setCounter
      · exact h
    · exact h
    · exact h

theorem Planned.classD {p : Plan} (h : Planned a p.state) : Planned a p.classD.state := by
  unfold Plan.classD
  generalize List.range Config.trucks = l
  induction l generalizing p with
  | nil => exact h
  | cons t rest ih => exact ih (p := p.visitD t) (h.kept (Kept.refl p.state).visitD)

theorem Planned.clearAccess {p : Plan} (h : Planned a p.state) : Planned a p.clearAccess.state := by
  refine h.kept (.foldl (fun s x => ?_) _ (.refl p.state))
  split
  · exact (Kept.refl s).updTruck
  · exact .refl s

theorem Planned.buildPlan (h : Planned a s) : Planned a s.buildPlan.state := by
  unfold State.buildPlan
  have h0 : Planned a ({ state := s, slots := [] } : Plan).state := h
  generalize ({ state := s, slots := [] } : Plan) = p at h0
  exact h0.sweep1.classD.sweepMore.sweepMore.clearAccess

theorem Planned.slotsPlanned (h : Planned a s) {n : Nat} : Planned a { s with slotsPlanned := n } :=
  ⟨h.control, fun c => { h.canonical c with }, h.holdRoom, h.held, h.links, h.lists⟩

theorem Planned.planRound (h : Planned a s) : Planned a s.planRound.state := by
  have h1 := h.kept (Kept.refl s).advanceCounters
  unfold State.planRound
  generalize s.advanceCounters = s at h1
  dsimp only
  split
  · exact h1
  · exact h1.buildPlan.slotsPlanned

theorem quietCard_kept {r : Req} : Kept s (quietCard r s).state := by
  unfold quietCard
  dsimp only
  split
  · exact Kept.refl s
  · exact ⟨rfl, fun _ _ => rfl, fun c => { c with }, id, id, fun _ => id, fun _ => id, fun _ => id⟩

theorem endQuietCard_kept {r : Req} : Kept s (endQuietCard r s).state := (Kept.refl s).endQuietPeriod

theorem Kept.quietExpired (h : Kept a s) : Kept a s.quietExpired := by
  unfold State.quietExpired
  split
  · exact h.endQuietPeriod
  · exact h

/-- Every owner but that of SITE SET keeps what `Kept` says. -/
theorem cardOwner_kept {k : CardKind} (hk : k ≠ .siteSet) {c : Nat} {r : Req} : Kept s (cardOwner k c r s).state := by
  cases k with
  | truckAdd => exact truckAdd_kept
  | truckRemove => exact truckRemove_kept
  | truckPark => exact truckPark_kept
  | truckUnpark => exact truckUnpark_kept
  | workerAdd => exact workerAdd_kept
  | workerRemove => exact workerRemove_kept
  | board => exact boardCard_kept
  | alight => exact alightCard_kept
  | flagsClear => exact flagsClear_kept
  | siteSet => exact absurd rfl hk
  | quiet => exact quietCard_kept
  | endQuiet => exact endQuietCard_kept (r := r)
  | orderPost => exact orderPost_kept
  | orderWithdraw => exact orderWithdrawCard_kept
  | orderClear => exact orderClear_kept
  | watchStart => exact watchStart_kept
  | watchStop => exact watchStop_kept
  | watchCheck => exact watchCheck_kept
  | alarmAck => exact alarmAck_kept
  | alarmResolve => exact alarmResolve_kept
  | deviceAdd => exact deviceAdd_kept
  | deviceRemove => exact deviceRemove_kept
  | deviceReport => exact deviceReport_kept
  | permitDraft => exact permitDraft_kept
  | permitIssue => exact permitIssue_kept
  | permitResume => exact permitResume_kept
  | permitCancel => exact permitCancel_kept
  | permitForceClose => exact permitForceClose_kept
  | permitClear => exact permitClear_kept
  | programLoad => exact programLoad_kept
  | programStart => exact programStart_kept
  | stepRelease => exact stepRelease_kept
  | stepConfirm => exact stepConfirm_kept
  | programHalt => exact programHalt_kept
  | programResume => exact programResume_kept
  | programAbort => exact programAbort_kept
  | programClear => exact programClear_kept

/-! ### Rounds, reports and cells -/

/-- R36: after a cut nothing is in flight. -/
theorem State.clearFlight_grounded (s : State) : s.clearFlight.Grounded := by
  refine ⟨tableGet_map_all {} CellList.landed s.lists (fun l e he => ?_) fun _ he => by simp at he,
    tableGet_map_all {} Order.landed s.orders (fun o m hm => ?_) fun _ hm => by simp at hm⟩
  · obtain ⟨x, -, rfl⟩ := List.mem_map.mp he
    rfl
  · obtain ⟨x, -, rfl⟩ := List.mem_map.mp hm
    rfl

theorem CellList.Legal.landed {l : CellList} (h : l.Legal) : l.landed.Legal := h.map fun _ => rfl

theorem Kept.clearFlight (h : Kept a s) : Kept a s.clearFlight :=
  ⟨h.control, h.word, fun c => { h.canonical c with lists := tableWf_map {} CellList.landed _ (h.canonical c).lists,
                                                    orders := tableWf_map {} Order.landed _ (h.canonical c).orders },
   h.holdRoom, h.held, h.links,
   fun c k => lists_map (fun _ => CellList.Legal.landed) .empty (h.canonical c).lists (h.lists c k),
   fun _ _ => s.clearFlight_grounded⟩

theorem Kept.issueCellDelivered (h : Kept a s) {n : Nat} : Kept a (s.issueCellDelivered n) := by
  unfold State.issueCellDelivered
  split
  · exact h
  · exact h.updPermit

theorem Kept.withdrawDelivered (h : Kept a s) {n : Nat} : Kept a (s.withdrawDelivered n) := by
  unfold State.withdrawDelivered
  split
  · exact h
  · split
    · exact h.updOrder.raise
    · exact h

theorem Kept.workerTold (h : Kept a s) {b : Nat} {f : Watch → Watch} : Kept a (s.workerTold b f) := by
  unfold State.workerTold
  split
  · exact h
  · exact h.updWatch

theorem Kept.cellDelivered (h : Kept a s) {c : DownCell} : Kept a (s.cellDelivered c) := by
  unfold State.cellDelivered
  split
  · exact h.workerTold
  · exact h.workerTold
  · exact h.setTruckAlarm
  · split
    · exact h
    · exact h.updStep
  · split
    · exact h
    · exact h.updProgram
  · exact h.issueCellDelivered
  · exact h.issueCellDelivered
  · exact h.withdrawDelivered
  all_goals exact h

theorem Kept.controlDelivered (h : Kept a s) {age : DWord} : Kept a (s.controlDelivered age) := by
  unfold State.controlDelivered
  split
  · exact h
  · next t e _ =>
    have h1 : Kept a (s.setList t { s.list t with cells := (s.list t).cells.filter fun x => decide (x.age ≠ age) }) :=
      h.setList (fun k => k.filter) (fun _ k => k.filter)
    dsimp only
    generalize s.setList t { s.list t with cells := (s.list t).cells.filter fun x => decide (x.age ≠ age) } = u at h1 ⊢
    have h2 : Kept a (if u.staleStep e = true then u else u.cellDelivered e.cell) := by
      split
      · exact h1
      · exact h1.cellDelivered
    generalize (if u.staleStep e = true then u else u.cellDelivered e.cell) = v at h2
    split
    · exact h2
    · exact h2.offer

/-- R29: a failed entry keeps its cell and is out of flight. -/
theorem CellList.Still.fail {l : CellList} (h : l.Still) {age : DWord} :
    ({ l with cells := l.cells.map fun x => if x.age = age then x.failed else x } : CellList).Still := fun e he => by
  obtain ⟨x, hx, rfl⟩ := List.mem_map.mp he
  split
  · rfl
  · exact h x hx

theorem Kept.controlFailed (h : Kept a s) {age : DWord} : Kept a (s.controlFailed age) := by
  unfold State.controlFailed
  split
  · exact h
  · next t e _ =>
    have h1 : Kept a (s.setList t { s.list t with
        cells := (s.list t).cells.map fun x => if x.age = age then x.failed else x }) :=
      h.setList (fun k => k.map fun x => by split <;> rfl) (fun _ k => k.fail)
    dsimp only
    split
    · exact h1.raise
    · exact h1

theorem Kept.settle (h : Kept a s) {d : Bool} {cs : List Carried} : Kept a (s.settle d cs) := by
  unfold State.settle
  dsimp only
  refine .foldl (fun s i => ?_) _ (.foldl (fun s c => ?_) _ h)
  · unfold State.settleOrder
    dsimp only
    split
    · split
      · exact (Kept.refl s).cellsDelivered
      · exact (Kept.refl s).cellsFailed
    · exact .refl s
  · unfold State.settleControl
    split
    · split
      · exact (Kept.refl s).controlDelivered
      · exact (Kept.refl s).controlFailed
    · exact .refl s

theorem Kept.routeCell (h : Kept a s) {t : Nat} {c : UpCell} : Kept a (s.routeCell t c) := by
  unfold State.routeCell
  split
  · exact h
  · exact h.checkIn
  · exact h.alarmCell
  · exact h.alarmCell
  · exact h.orderStatus
  · exact h.readback
  · exact h.executed
  · exact h.unplanned
  · exact h.acceptPermit
  · exact h.signOn
  · exact h.signOff
  · exact h.surrender
  · exact h.updTruck

theorem Kept.routeBytes (h : Kept a s) {t : Nat} {l : List Byte} : Kept a (s.routeBytes t l) := by
  unfold State.routeBytes
  split
  · exact h.routeCell
  · exact h

theorem Kept.firstHeard (h : Kept a s) {t : Nat} : Kept a (s.firstHeard t) := by
  unfold State.firstHeard
  split
  · exact h.updTruck.raise.truckAvailable
  · exact h

theorem Kept.routeCells (h : Kept a s) {t : Nat} {l : List (List Byte)} : Kept a (s.routeCells t l) :=
  .foldl (fun s _ => (Kept.refl s).routeBytes) _ h

/-- A GOOD burst graded and its truck heard, where the quality before it is within its range. -/
theorem Kept.hearBurst (h : Kept a s) {t : Nat} {r : Heard} {u : UpBurst} {st : Bool}
    (hq : (s.link t).quality ≤ 500) : Kept a (s.hearBurst t r u st) := by
  unfold State.hearBurst
  dsimp only
  split
  · exact ((h.gradeReport hq).upRun.updTruck).firstHeard.stallResume
  · exact ((h.gradeReport hq).upRun.updTruck).firstHeard

/-- A report taken, where the quality before it is within its range. -/
theorem Kept.takeReport (h : Kept a s) {t : Nat} {r : Heard} {b : Option UpBurst} {st : Bool}
    (hq : (s.link t).quality ≤ 500) : Kept a (s.takeReport t r b st) := by
  unfold State.takeReport
  split
  · exact (h.gradeReport hq).upRun
  · exact (h.hearBurst hq).routeCells

theorem Kept.strayBurst (h : Kept a s) {u : UpBurst} {r : Int} : Kept a (s.strayBurst u r) := by
  unfold State.strayBurst
  split
  · unfold State.strayUnit
    split
    · exact h.setStray
    · exact h.raise.setStray
  · exact h.endQuietPeriod.raise.setStray

theorem Kept.openReport (h : Kept a s) {u : UpBurst} {r : Int} (hq : ∀ t, (s.link t).quality ≤ 500) :
    Kept a (s.openReport u r) := by
  unfold State.openReport
  split
  · exact h.strayBurst
  · exact h.takeReport (hq _)

end Sys2Proof.Machine
end

