-- ==== Sys2Proof/Laws/Take.lean ====
section
/-! SUPPORT. The take of a card and publication: what the scan, the take and `publish` change, said once. -/

namespace Sys2Proof.Machine

/-- Publication changes the passages alone. -/
theorem publish_eq (s u : State) (forced : List Nat) : ∃ x, publish s u forced = { u with passages := x } := by
  have : ∀ (l : List Nat) (u : State), ∃ x, l.foldl State.passage u = { u with passages := x } := by
    intro l
    induction l with
    | nil => intro u; exact ⟨u.passages, rfl⟩
    | cons b rest ih => intro u; exact ih (u.passage b)
  unfold publish
  split
  · exact this _ _
  · exact ⟨u.passages, rfl⟩

theorem State.scanReady_eq (s : State) :
    s.scanReady = s ∨ s.scanReady = { s with published := true, scan := some 0, callPending := false } := by
  unfold State.scanReady
  split
  · next hp =>
    simp only [Bool.and_eq_true] at hp
    right
    unfold State.firstPublication
    rw [if_pos hp.2]
  · exact .inl rfl

/-- The scan reaches card c by changing the scan state, CALL-pending and the first publication alone. -/
theorem State.scanReach_eq {s s1 : State} {c : Nat} (h : s.scanReach c = some s1) :
    ∃ b q, s1 = { s with scan := some c, callPending := b, published := q } ∧
      (q = s.published ∨ q = true) ∧ (s.scan.isSome = true ∨ q = true) := by
  have key : ∀ s' : State, (match s'.scan with
      | none => none
      | some p =>
        if decide (p ≤ c) && s'.nonePosted p c then some { s' with scan := some c }
        else if s'.callPending && decide (c < p) && s'.nonePosted p Config.cards && s'.nonePosted 0 c then
          some { s' with scan := some c, callPending := false }
        else none) = some s1 →
      s'.scan.isSome = true ∧ ∃ b, s1 = { s' with scan := some c, callPending := b } := by
    intro s' h'
    cases hs : s'.scan with
    | none => rw [hs] at h'; cases h'
    | some p =>
      rw [hs] at h'
      dsimp only at h'
      split at h'
      · cases h'; exact ⟨rfl, _, rfl⟩
      · split at h'
        · cases h'; exact ⟨rfl, _, rfl⟩
        · cases h'
  obtain ⟨hs, b, e⟩ := key _ h
  rcases s.scanReady_eq with hr | hr
  · rw [hr] at hs e
    exact ⟨b, s.published, e, .inl rfl, .inl hs⟩
  · rw [hr] at e
    exact ⟨b, true, e, .inr rfl, .inr rfl⟩

/-- The scan moves on by changing the scan state and CALL-pending alone; its position stays below 64. -/
theorem State.scanAdvance_eq (s : State) (c : Nat) :
    ∃ x b, s.scanAdvance c = { s with scan := x, callPending := b } ∧ ∀ p, x = some p → p < Config.cards := by
  unfold State.scanAdvance State.scanEnd
  split
  · next h => exact ⟨_, _, rfl, fun p hp => by cases hp; exact h⟩
  · split
    · exact ⟨_, _, rfl, fun p hp => by cases hp; decide⟩
    · exact ⟨_, _, rfl, fun p hp => by cases hp⟩

/-- The take of a card: nothing, or the owner's act on the state at the card, finished. -/
theorem State.takeWhen_cases (s : State) (c : Nat) (kind : Word → Bool) (owner : Req → State → Take) :
    s.takeWhen c kind owner = s ∨
    ∃ s1, s.scanReach c = some s1 ∧ s1.cardPosted c = true ∧ kind (s1.card c 1) = true ∧
      s.takeWhen c kind owner = (owner (s1.card c) s1).finish c := by
  unfold State.takeWhen
  split
  · exact .inl rfl
  · next s1 h =>
    split
    · next hk =>
      simp only [Bool.and_eq_true] at hk
      exact .inr ⟨s1, h, hk.1, hk.2, rfl⟩
    · exact .inl rfl

/-- A take finished leaves the tables as the owner left them: the clauses of the invariant on the tables are kept. -/
theorem Take.finish_sound {a : State} {t : Take} (h : Sound a t.state) {c : Nat} (hc : c < Config.cards) :
    ∃ u x b, Sound a u ∧ t.finish c = { u with scan := x, callPending := b } ∧ ∀ p, x = some p → p < Config.cards := by
  unfold Take.finish
  split
  · next w hw =>
    obtain ⟨x, b, e, hx⟩ := State.scanAdvance_eq (t.state.answerCard c w) c
    exact ⟨_, x, b, h.answerCard hc, e, hx⟩
  · obtain ⟨x, b, e, hx⟩ := State.scanAdvance_eq (t.state.setCardState c .taken) c
    exact ⟨_, x, b, h.setCardState hc, e, hx⟩

end Sys2Proof.Machine
end

