-- ==== Sys2Proof/Laws/Cards.lean ====
section
/-! SUPPORT. A card command on a card that the scan can take: what its meaning comes to, said once. -/

namespace Sys2Proof.Machine

/-- At a card of its kind, a take is the owner's act, finished. -/
theorem State.takeAs_at {s s1 : State} {c : Fin 64} {k : CardKind} (h : AtCard s c k s1) (owner : Req → State → Take) :
    s.takeAs k c owner = (owner (s1.card c) s1).finish c := by
  obtain ⟨h1, h2, h3⟩ := h
  unfold State.takeAs State.takeWhen
  rw [h1]
  simp [h2, h3]

/-- A take whose owner answers. -/
theorem publish_takeAs_answered {s s1 u : State} {c : Fin 64} {k : CardKind} {a : Answer} (h : AtCard s c k s1)
    {owner : Req → State → Take} (e : owner (s1.card c) s1 = ⟨u, some a⟩) :
    publish s (s.takeAs k c owner) = answeredAs s u c a := by
  rw [State.takeAs_at h, e]
  rfl

/-- A take whose owner leaves the card TAKEN. -/
theorem publish_takeAs_taken {s s1 u : State} {c : Fin 64} {k : CardKind} (h : AtCard s c k s1)
    {owner : Req → State → Take} (e : owner (s1.card c) s1 = ⟨u, none⟩) :
    publish s (s.takeAs k c owner) = takenAs s u c := by
  rw [State.takeAs_at h, e]
  rfl

/-- An event that changes nothing publishes nothing. -/
@[simp] theorem publish_self (s : State) : publish s s = s := by
  have h : changedRecords s s = [] := by
    unfold changedRecords changedIn
    simp
  unfold publish
  rw [h]
  simp [unionKeys]

theorem idOk_of {n : Nat} (lo : 1 ≤ n) (hi : n ≤ 65534) : idOk n = true := by simp [idOk, lo, hi]

theorem radioOk_of {n : Nat} (lo : 1 ≤ n) (hi : n ≤ 16777214) : radioOk n = true := by simp [radioOk, lo, hi]

end Sys2Proof.Machine
end

