-- ==== Sys2Proof/Laws/Invariant.lean ====
section
/-! SUPPORT. The invariant under the acts that `Kept` does not cover: the scan, the take of a card, host writes, rounds and the
port reset. -/

namespace Sys2Proof.Machine

variable {a s : State}

/-- An act that keeps the control fields and the clauses on the tables keeps the invariant. -/
theorem Sound.inv (k : Sound a s) (h : a.Inv) : s.Inv :=
  ⟨k.canonical h.canonical, k.clock ▸ h.clock, k.noise ▸ h.noise, k.settings ▸ h.settings, k.links h.canonical h.links,
   by rw [k.round, k.transmitEnable, k.modemReady]; exact h.round,
   k.lists h.canonical h.lists, fun e => k.flight h.canonical (h.flight (k.round ▸ e)), k.holdRoom h.holdRoom, k.held h.held,
   by rw [k.scan, k.published]; exact h.scan⟩

theorem Kept.inv (k : Kept a s) (h : a.Inv) : s.Inv := k.sound.inv h

/-! ### Updates of a few fields -/

theorem State.Inv.setPassages (h : s.Inv) {x : Table Word} : ({ s with passages := x } : State).Inv :=
  ⟨{ h.canonical with }, h.clock, h.noise, h.settings, h.links, h.round, h.lists, h.flight, h.holdRoom, h.held, h.scan⟩

theorem State.Inv.publish (h : s.Inv) {f : List Nat} : (publish a s f).Inv := by
  obtain ⟨x, e⟩ := publish_eq a s f
  rw [e]
  exact h.setPassages

theorem State.Inv.setScan (h : s.Inv) {x : Option Nat} {b q : Bool} (hx : ∀ p, x = some p → p < Config.cards ∧ q = true) :
    ({ s with scan := x, callPending := b, published := q } : State).Inv :=
  ⟨{ h.canonical with }, h.clock, h.noise, h.settings, h.links, h.round, h.lists, h.flight, h.holdRoom, h.held, hx⟩

theorem State.Inv.setMem (h : s.Inv) {m : Memory} (hm : Memory.wf m = true)
    (hb : ({ s with mem := m } : State).HeldOnlyFull) : ({ s with mem := m } : State).Inv :=
  ⟨{ h.canonical with mem := hm }, h.clock, h.noise, h.settings, h.links, h.round, h.lists, h.flight, h.holdRoom, hb, h.scan⟩

theorem State.Inv.setHold (h : s.Inv) {l : List Notice} (hl : l.length ≤ Config.holdRoom)
    (hb : ({ s with hold := l } : State).HeldOnlyFull) : ({ s with hold := l } : State).Inv :=
  ⟨{ h.canonical with }, h.clock, h.noise, h.settings, h.links, h.round, h.lists, h.flight, hl, hb, h.scan⟩

theorem State.Inv.setStatus (h : s.Inv) {m w c d : Bool} {r : Nat} :
    ({ s with missed := m, writeRefused := w, cardFault := c, portResetDone := d, refusedWrite := r } : State).Inv :=
  ⟨{ h.canonical with }, h.clock, h.noise, h.settings, h.links, h.round, h.lists, h.flight, h.holdRoom, h.held, h.scan⟩

theorem State.Inv.setEnables (h : s.Inv) {n x : Bool} :
    ({ s with noticeEnable := n, authority := x } : State).Inv :=
  ⟨{ h.canonical with }, h.clock, h.noise, h.settings, h.links, h.round, h.lists, h.flight, h.holdRoom, h.held, h.scan⟩

theorem State.Inv.setCopies (h : s.Inv) {x : List Copy} : ({ s with copies := x } : State).Inv :=
  ⟨{ h.canonical with }, h.clock, h.noise, h.settings, h.links, h.round, h.lists, h.flight, h.holdRoom, h.held, h.scan⟩

theorem State.Inv.setClock (h : s.Inv) {n : Nat} (hn : n ≤ Config.clockMax) : ({ s with clock := n } : State).Inv :=
  ⟨{ h.canonical with }, hn, h.noise, h.settings, h.links, h.round, h.lists, h.flight, h.holdRoom, h.held, h.scan⟩

theorem State.Inv.setNoise (h : s.Inv) {n : Int} {b : Bool} (hn : -130 ≤ n ∧ n ≤ -80) :
    ({ s with noise := n, siteClipped := b } : State).Inv :=
  ⟨{ h.canonical with }, h.clock, hn, h.settings, h.links, h.round, h.lists, h.flight, h.holdRoom, h.held, h.scan⟩

theorem State.Inv.setSettings (h : s.Inv) {st : Settings} {n : Nat} (hst : st.Legal) :
    ({ s with settings := st, siteCode := n } : State).Inv :=
  ⟨{ h.canonical with }, h.clock, h.noise, hst, h.links, h.round, h.lists, h.flight, h.holdRoom, h.held, h.scan⟩

/-- The round, the modem and TRANSMIT ENABLE written, within the tie between them. -/
theorem State.Inv.setRound (h : s.Inv) {n : Word} {r : Option Round} {o : ModemOut} {m t : Bool}
    (hr : r.isSome = true → t = true ∧ m = true) (hf : r = none → s.Grounded) :
    ({ s with roundNumber := n, round := r, modemOut := o, modemReady := m, transmitEnable := t } : State).Inv :=
  ⟨{ h.canonical with }, h.clock, h.noise, h.settings, h.links, hr, h.lists, hf, h.holdRoom, h.held, h.scan⟩

/-! ### Takes -/

theorem State.Inv.scanReach {c : Nat} (hc : c < Config.cards) {s1 : State} (h : s.Inv) (e : s.scanReach c = some s1) :
    s1.Inv ∧ s1.scan = some c := by
  obtain ⟨b, q, rfl, hq, hs⟩ := State.scanReach_eq e
  refine ⟨h.setScan fun p hp => ?_, rfl⟩
  cases hp
  refine ⟨hc, ?_⟩
  rcases hs with hs | hs
  · rcases hq with hq | hq
    · cases h1 : s.scan with
      | none => rw [h1] at hs; cases hs
      | some p => rw [hq]; exact (h.scan p h1).2
    · exact hq
  · exact hs

theorem Take.finish_inv {t : Take} {c : Nat} (hc : c < Config.cards) (h : t.state.Inv) (hp : t.state.published = true) :
    (t.finish c).Inv := by
  obtain ⟨u, x, b, ku, e, hx⟩ := Take.finish_sound (Kept.refl t.state).sound hc
  rw [e]
  exact (ku.inv h).setScan (q := u.published) fun p h => ⟨hx p h, ku.published.trans hp⟩

/-- The take of a card keeps the invariant, where its owner keeps it and leaves the first publication alone. -/
theorem State.Inv.takeWhen (h : s.Inv) {c : Nat} {kind : Word → Bool} {owner : Req → State → Take} (hc : c < Config.cards)
    (hk : ∀ (r : Req) (u : State), u.Inv → (owner r u).state.Inv ∧ (owner r u).state.published = u.published) :
    (s.takeWhen c kind owner).Inv := by
  rcases State.takeWhen_cases s c kind owner with e | ⟨s1, h1, -, -, e⟩
  · rw [e]; exact h
  · rw [e]
    have hs := h.scanReach hc h1
    have ho := hk (s1.card c) s1 hs.1
    exact Take.finish_inv hc ho.1 (ho.2.trans (hs.1.scan c hs.2).2)

theorem State.Inv.takeKept (h : s.Inv) {c : Nat} {kind : Word → Bool} {owner : Req → State → Take} (hc : c < Config.cards)
    (hk : ∀ (r : Req) (u : State), Kept u (owner r u).state) : (s.takeWhen c kind owner).Inv :=
  h.takeWhen hc fun r u hu => ⟨(hk r u).inv hu, (hk r u).published⟩

/-- R40, R64: the settings after a SITE SET that its combination rule lets through are legal. -/
theorem Settings.after_legal {st : Settings} (h : st.Legal) {r : Req} (hc : (st.after r).combinationFault = none) :
    (st.after r).Legal := by
  have h1 := h.lostCount
  have h2 := h.pollPeriod
  have h3 := h.probePeriod
  refine ⟨?_, ?_, ?_, ?_⟩
  · unfold Settings.combinationFault at hc
    split at hc
    · cases hc
    · split at hc
      · cases hc
      · split at hc
        · cases hc
        · split at hc
          · cases hc
          · omega
  · simp only [Settings.after, giveOr, clampTo]
    split <;> omega
  · simp only [Settings.after, giveOr, clampTo]
    split <;> omega
  · simp only [Settings.after, giveOr, clampTo]
    split <;> omega

theorem siteSet_inv (h : s.Inv) {r : Req} : (siteSet r s).state.Inv ∧ (siteSet r s).state.published = s.published := by
  unfold siteSet needAuthority
  split
  · dsimp only
    split
    · exact ⟨h, rfl⟩
    · split
      · exact ⟨h, rfl⟩
      · next hc => exact ⟨h.setSettings (Settings.after_legal h.settings hc), rfl⟩
  · exact ⟨h, rfl⟩

/-! ### Host writes -/

theorem State.Inv.setRaw (h : s.Inv) {w : Nat} {v : Word} (hw : w < slotBase 0 ∨ stagingBase 0 ≤ w) : (s.setRaw w v).Inv :=
  ((Kept.refl s).sound.setRaw hw).inv h

theorem State.Inv.writeCard (h : s.Inv) {c w : Nat} {v : Word} (hc : c < Config.cards) (hw : w < 64) :
    (s.writeCard c w v).Inv := by
  have hc' : c < 64 := hc
  have hb : ∀ i < 64, cardBase c + i < slotBase 0 := by
    intro i hi
    unfold cardBase slotBase
    omega
  unfold State.writeCard
  split
  · unfold State.writeCardState
    dsimp only
    split
    · exact h.setRaw (.inl (hb 0 (by decide)))
    · split
      · exact h
      · split
        · exact h.setRaw (.inl (hb 0 (by decide)))
        · split
          · exact h.setRaw (.inl (hb 0 (by decide)))
          · exact h.setStatus
  · split
    · split
      · exact h.setRaw (.inl (hb w hw))
      · exact h.setStatus
    · exact h.setRaw (.inl (hb w hw))

/-- A slot filled while every other slot is FILLED leaves no EMPTY slot. -/
theorem State.fillSlot_full {k : Nat} {n : Notice} (h : ∀ j < Config.noticeSlots, j ≠ k → s.slotFilled j = true) :
    (s.fillSlot k n).emptySlot = none := by
  unfold State.emptySlot
  rw [List.find?_eq_none]
  intro j hj
  by_cases hjk : j = k
  · subst hjk
    have : (s.fillSlot j n).rawWord (slotBase j) = 1 := State.fillSlot_rawWord_inside _ j n (i := 0) (by decide)
    unfold State.slotFilled
    rw [this]
    decide
  · have e : (s.fillSlot k n).rawWord (slotBase j) = s.rawWord (slotBase j) :=
      State.fillSlot_rawWord_other _ k n (by unfold slotBase; omega)
    have := h j (List.mem_range.mp hj) hjk
    unfold State.slotFilled at this ⊢
    rw [e, this]
    decide

theorem State.Inv.freeSlot (h : s.Inv) {k : Nat} : (s.freeSlot k).Inv := by
  have hf : s.hold ≠ [] → ∀ j < Config.noticeSlots, j ≠ k → (s.setRaw (slotBase k) 0).slotFilled j = true := by
    intro hh j hj hjk
    have hn : s.emptySlot = none := h.held.resolve_left hh
    unfold State.emptySlot at hn
    rw [List.find?_eq_none] at hn
    have hj' := hn j (List.mem_range.mpr hj)
    have hne : slotBase j ≠ slotBase k := by unfold slotBase; omega
    have e := s.setRaw_rawWord_other 0 hne
    unfold State.slotFilled at hj' ⊢
    rw [e]
    simpa using hj'
  have hm : Memory.wf (memSetWord s.mem (slotBase k) 0) = true := memoryWf_setWord _ _ _ h.canonical.mem
  unfold State.freeSlot
  unfold State.setRaw at *
  generalize memSetWord s.mem (slotBase k) 0 = m at hf hm
  have hcase : s.hold = [] ∨ ∃ n rest, s.hold = n :: rest := by
    cases s.hold with
    | nil => exact .inl rfl
    | cons n rest => exact .inr ⟨n, rest, rfl⟩
  rcases hcase with hh | ⟨n, rest, hh⟩
  · rw [State.refillSlot_nil (s := { s with mem := m }) hh]
    exact h.setMem hm (.inl hh)
  · rw [State.refillSlot_cons (s := { s with mem := m }) hh]
    rw [hh] at hf
    have hl : rest.length ≤ Config.holdRoom := by
      have := h.holdRoom
      rw [hh] at this
      exact Nat.le_of_succ_le this
    have hb : (({ s with mem := m, hold := rest } : State).fillSlot k n).emptySlot = none :=
      State.fillSlot_full (s := { s with mem := m, hold := rest }) (hf (by simp))
    have hm2 : Memory.wf (memSetWords m (slotBase k) (noticeWords n)) = true := memoryWf_setWords _ _ _ hm
    unfold State.fillSlot at hb ⊢
    generalize memSetWords m (slotBase k) (noticeWords n) = m2 at hb hm2
    exact ⟨{ h.canonical with mem := hm2 }, h.clock, h.noise, h.settings, h.links, h.round, h.lists, h.flight, hl, .inr hb, h.scan⟩

theorem State.Inv.hostWrite (h : s.Inv) {off : Nat} {v : Word} : (s.hostWrite off v).Inv := by
  unfold State.hostWrite
  split
  · next h1 => exact h.writeCard (by unfold slotBase at h1; show _ < 64; omega) (Nat.mod_lt _ (by decide))
  · split
    · unfold State.writeSlot
      split
      · exact h.freeSlot
      · exact h.setStatus
    · split
      · exact h.setRaw (.inr (by omega))
      · exact h.setStatus

theorem State.Inv.hostWrites {l : List Word} {off : Nat} (h : s.Inv) : (s.hostWrites off l).Inv := by
  induction l generalizing s off with
  | nil => exact h
  | cons v rest ih => exact ih h.hostWrite

/-! ### Rounds -/

theorem State.endRound_round (s : State) : s.endRound.round = none := by
  unfold State.endRound
  split
  · rfl
  · next h =>
    cases hr : s.round with
    | none => rfl
    | some r => rw [hr] at h; exact absurd rfl h

theorem State.Inv.endRound (h : s.Inv) : s.endRound.Inv := by
  unfold State.endRound
  split
  · exact ((Kept.refl s).clearFlight.inv h).setRound (by simp) fun _ => s.clearFlight_grounded
  · exact h

theorem State.Inv.setTransmit (h : s.Inv) {on : Bool} : (s.setTransmit on).Inv := by
  unfold State.setTransmit
  split
  · exact h.setRound (fun k => ⟨rfl, (h.round k).2⟩) h.flight
  · have := s.endRound_round
    exact h.endRound.setRound (by rw [this]; simp) h.endRound.flight

/-- A round is planned and runs, TRANSMIT ENABLE set and the modem READY: the cells that the plan takes are in flight. -/
theorem Planned.startRound (k : Planned a s) (h : a.Inv) (ht : a.transmitEnable = true) (hm : a.modemReady = true)
    {r : Round} {o : ModemOut} : ({ s with round := some r, modemOut := o } : State).Inv := by
  refine ⟨{ k.canonical h.canonical with }, ?_, ?_, ?_, k.links h.canonical h.links, fun _ => ⟨?_, ?_⟩,
    k.lists h.canonical h.lists, (fun e => by cases e), k.holdRoom h.holdRoom, k.held h.held, fun p hp => ?_⟩
  · exact (k.field (f := State.clock) fun _ => rfl) ▸ h.clock
  · exact (k.field (f := State.noise) fun _ => rfl) ▸ h.noise
  · exact (k.field (f := State.settings) fun _ => rfl) ▸ h.settings
  · exact (k.field (f := State.transmitEnable) fun _ => rfl).trans ht
  · exact (k.field (f := State.modemReady) fun _ => rfl).trans hm
  · have := h.scan p ((k.field (f := State.scan) fun _ => rfl).symm.trans hp)
    exact ⟨this.1, (k.field (f := State.published) fun _ => rfl).trans this.2⟩

theorem State.Inv.boundary (h : s.Inv) : s.boundary.Inv := by
  unfold State.boundary
  have he := h.endRound
  generalize s.endRound = s at he
  dsimp only
  split
  · next hc =>
    simp only [Bool.and_eq_true] at hc
    have h1 : ({ s with roundNumber := s.roundNumber + 1 } : State).Inv := he.setRound he.round he.flight
    exact (Planned.refl _).planRound.startRound h1 hc.1 hc.2
  · exact he

theorem State.Inv.notReady (h : s.Inv) : s.notReady.Inv := by
  have hr := s.endRound_round
  have h2 : ({ s.endRound with modemReady := false } : State).Inv := h.endRound.setRound (by rw [hr]; simp) h.endRound.flight
  unfold State.notReady
  dsimp only
  generalize ({ s.endRound with modemReady := false } : State) = u at h2
  split
  · exact (Kept.refl u).raise.inv h2
  · exact h2

theorem State.Inv.upReport (h : s.Inv) {k : Nat} {p : PlanSlot} {cells : List Carried} {r : SlotReport} :
    (s.upReport k p cells r).Inv := by
  have h0 : (s.handleSlot k).Inv :=
    h.setRound (fun hr => h.round (by rwa [Option.isSome_map] at hr)) fun e => h.flight (Option.map_eq_none_iff.mp e)
  unfold State.upReport
  dsimp only
  generalize s.handleSlot k = s at h0
  split
  · exact h0
  · have h1 := (Kept.refl s).settle (d := downHeard (attributed p.rate p.radioId r).2) (cs := cells)
    exact (h1.takeReport ((h1.inv h0).links _).quality).inv h0

/-! ### Port reset -/

theorem State.Inv.foldl {α : Type} {f : State → α → State} (l : List α) (hf : ∀ x ∈ l, ∀ s : State, s.Inv → (f s x).Inv)
    (h : s.Inv) : (l.foldl f s).Inv := by
  induction l generalizing s with
  | nil => exact h
  | cons x rest ih => exact ih (fun y hy => hf y (by simp [hy])) (hf x (by simp) s h)

theorem State.Inv.abandonCards (h : s.Inv) : s.abandonCards.Inv := by
  have h1 : ((List.range Config.cards).foldl State.abandonCard s).Inv :=
    h.foldl _ fun c hc s hs => by
      unfold State.abandonCard
      split
      · exact ((Kept.refl s).sound.answerCard (List.mem_range.mp hc)).inv hs
      · exact hs
  exact h1.setCopies

/-- Emptying slots changes the memory alone. -/
theorem State.foldl_emptySlotWord (l : List Nat) (s : State) (hm : Memory.wf s.mem = true) :
    ∃ m, Memory.wf m = true ∧ l.foldl State.emptySlotWord s = { s with mem := m } := by
  induction l generalizing s with
  | nil => exact ⟨s.mem, hm, rfl⟩
  | cons k rest ih =>
    have hk : Memory.wf (memSetWord s.mem (slotBase k) 0) = true := memoryWf_setWord _ _ _ hm
    rw [List.foldl_cons]
    unfold State.emptySlotWord State.setRaw at ih ⊢
    generalize memSetWord s.mem (slotBase k) 0 = m at hk
    obtain ⟨m', h1, h2⟩ := ih { s with mem := m } hk
    exact ⟨m', h1, h2⟩

theorem State.Inv.emptyBoard (h : s.Inv) : s.emptyBoard.Inv := by
  obtain ⟨m, hm, e⟩ := State.foldl_emptySlotWord (List.range Config.noticeSlots) s h.canonical.mem
  unfold State.emptyBoard
  rw [e]
  exact ⟨{ h.canonical with mem := hm }, h.clock, h.noise, h.settings, h.links, h.round, h.lists, h.flight, Nat.zero_le _, .inl rfl, h.scan⟩

theorem State.Inv.stopScan (h : s.Inv) : s.stopScan.Inv := h.setScan (q := s.published) fun p hp => by cases hp

theorem State.Inv.clearPort (h : s.Inv) : s.clearPort.Inv :=
  ⟨{ h.canonical with }, h.clock, h.noise, h.settings, h.links, h.round, h.lists, h.flight, h.holdRoom, h.held, h.scan⟩

theorem State.Inv.exchangeReset (h : s.Inv) : s.exchangeReset.Inv := h.stopScan.abandonCards.emptyBoard.clearPort

theorem State.Inv.portReset (h : s.Inv) : s.portReset.Inv := by
  have h1 := (Kept.refl _).switchingReset.inv h.exchangeReset.endRound
  unfold State.portReset
  generalize s.exchangeReset.endRound.switchingReset = u at h1
  exact h1.setStatus

end Sys2Proof.Machine
end

