-- ==== Sys2Proof/Laws/Shared.lean ====
section
/-! SUPPORT. What the operations that most meanings share can do, said once: a record stored twice, a notice raised, an alarm
entered, a step of a program changed, a position set, a re-evaluation that reaches no permit, the records a
taken card forces, the report of a planned slot. -/

namespace Sys2Proof.Machine

/-- Of two records stored at one index the later stands. -/
theorem tableSet_tableSet {α : Type} [DecidableEq α] (d : α) (t : Table α) (i : Nat) (a b : α) :
    tableSet d (tableSet d t i a) i b = tableSet d t i b := by
  have h : tableErase i (tableSet d t i a) = tableErase i t := by
    unfold tableSet
    split
    · exact tableErase_erase i t
    · rw [tableErase_insert, tableErase_erase]
  unfold tableSet at h ⊢
  rw [h]

/-! ### Notices -/

/-- The state as far as a notice raised reads it: the board, the hold list and the clock. -/
def State.boardOf (s : State) : State := { mem := s.mem, hold := s.hold, clock := s.clock, missed := s.missed }

/-- R178, R179: a notice raised reads the board, the hold list and the clock, and changes the board, the hold list and MISSED. -/
theorem State.raise_eq (s : State) (n : Notice) :
    s.raise n = { s with mem := (s.boardOf.raise n).mem, hold := (s.boardOf.raise n).hold,
                         missed := (s.boardOf.raise n).missed } := by
  unfold State.raise
  have h : s.boardOf.emptySlot = s.emptySlot := rfl
  have hc : s.boardOf.clock = s.clock := rfl
  rw [h, hc]
  cases s.emptySlot with
  | some k => rfl
  | none =>
    simp only [State.holdNotice]
    have hh : s.boardOf.hold = s.hold := rfl
    rw [hh]
    split
    · rfl
    · split <;> rfl

section

variable (s : State) (n : Notice)

@[simp] theorem State.raise_trucks : (s.raise n).trucks = s.trucks := by rw [State.raise_eq]
@[simp] theorem State.raise_workers : (s.raise n).workers = s.workers := by rw [State.raise_eq]
@[simp] theorem State.raise_links : (s.raise n).links = s.links := by rw [State.raise_eq]
@[simp] theorem State.raise_lists : (s.raise n).lists = s.lists := by rw [State.raise_eq]
@[simp] theorem State.raise_orders : (s.raise n).orders = s.orders := by rw [State.raise_eq]
@[simp] theorem State.raise_watches : (s.raise n).watches = s.watches := by rw [State.raise_eq]
@[simp] theorem State.raise_truckAlarms : (s.raise n).truckAlarms = s.truckAlarms := by rw [State.raise_eq]
@[simp] theorem State.raise_devices : (s.raise n).devices = s.devices := by rw [State.raise_eq]
@[simp] theorem State.raise_permits : (s.raise n).permits = s.permits := by rw [State.raise_eq]
@[simp] theorem State.raise_programs : (s.raise n).programs = s.programs := by rw [State.raise_eq]
@[simp] theorem State.raise_clock : (s.raise n).clock = s.clock := by rw [State.raise_eq]
@[simp] theorem State.raise_ageCounter : (s.raise n).ageCounter = s.ageCounter := by rw [State.raise_eq]
@[simp] theorem State.raise_pending : (s.raise n).pending = s.pending := by rw [State.raise_eq]

end

/-! ### Steps -/

/-- A step that a program holds has a number from 1, and stands in the list of steps. -/
theorem Program.step_pos {x : Program} {k : Nat} {st : Step} (h : x.step k = some st) :
    k ≠ 0 ∧ x.steps[k - 1]? = some st := by
  unfold Program.step at h
  split at h
  · cases h
  · exact ⟨‹_›, h⟩

/-- Changing the entry of a list by a function is replacing it by the function's value. -/
theorem modify_const {α : Type} {l : List α} {i : Nat} {a : α} (h : l[i]? = some a) (f : α → α) :
    l.modify i f = l.modify i fun _ => f a := by
  induction l generalizing i with
  | nil => simp at h
  | cons x r ih =>
    cases i with
    | zero => simp at h; subst h; simp
    | succ i => simp at h; simp [ih h]

/-- With step k changed, step k reads as changed and every other step as before. -/
theorem Program.step_modify {x y : Program} {k : Nat} {st : Step} (h : x.step k = some st) (f : Step → Step)
    (hy : y.steps = x.steps.modify (k - 1) f) (j : Nat) : y.step j = if j = k then some (f st) else x.step j := by
  obtain ⟨h0, h1⟩ := Program.step_pos h
  unfold Program.step
  rw [hy]
  by_cases hj : j = 0
  · subst hj; simp [Ne.symm h0]
  · by_cases hk : j = k
    · subst hk; simp [h0, h1]
    · have : j - 1 ≠ k - 1 := by omega
      simp [hj, hk, Ne.symm this]

/-! ### Devices -/

/-- R119: a position set: position and source, and the position time where either changed. -/
theorem State.setPosition_eq (s : State) (d : Nat) (pos : Position) (src : Source) :
    s.setPosition d pos src = { s with
      devices := tableSet {} s.devices d { s.device d with
        position := pos, source := src
        time := if (s.device d).position = pos ∧ (s.device d).source = src then (s.device d).time else s.clock } } := by
  have h : (if (s.device d).position = pos ∧ (s.device d).source = src then s.device d
      else { s.device d with position := pos, source := src, time := s.clock }) =
    { s.device d with
      position := pos, source := src
      time := if (s.device d).position = pos ∧ (s.device d).source = src then (s.device d).time else s.clock } := by
    split
    · next h => obtain ⟨rfl, rfl⟩ := h; rfl
    · rfl
  exact congrArg (fun y => ({ s with devices := tableSet {} s.devices d y } : State)) h

/-- R125: an event of a device that no permit in use lists changes nothing in the permits. -/
theorem State.reevaluate_unlisted (s : State) (d : Nat) (c : PointCause)
    (h : ∀ p < 32, (s.permit p).inUse = true → ∀ pt ∈ (s.permit p).points, pt.device ≠ d) : s.reevaluate d c = s := by
  unfold State.reevaluate
  have : ∀ l : List Nat, (∀ p ∈ l, p < 32) → l.foldl (fun s p =>
      if (s.permit p).inUse && (s.permit p).points.any (fun pt => decide (pt.device = d)) then s.permitEvent p d c
      else s) s = s := by
    intro l hl
    induction l with
    | nil => rfl
    | cons p r ih =>
      have hp := h p (hl p (by simp))
      have : ((s.permit p).inUse && (s.permit p).points.any (fun pt => decide (pt.device = d))) = false := by
        cases hu : (s.permit p).inUse
        · rfl
        · simp; exact fun x hx => hp hu x hx
      rw [List.foldl_cons, this]
      exact ih fun q hq => hl q (by simp [hq])
  exact this _ fun p hp => List.mem_range.1 hp

/-! ### Forced records of a card -/

/-- The records that a taken card republishes in any case are those its kind names. -/
theorem State.takeForces_at {s s1 : State} {c : Fin 64} {k : CardKind} (h : AtCard s c k s1) {u : State} {a : Answer}
    {owner : Req → State → Take} (e : owner (s1.card c) s1 = ⟨u, some a⟩) (ha : a.code = .done ∨ a.code = .doneClamped)
    (f : Req → State → List Nat) : s.takeForces k c owner f = f (s1.card c) s1 := by
  obtain ⟨h1, h2, h3⟩ := h
  unfold State.takeForces
  simp [h1, h2, h3, e, ha]

/-! ### Reports of planned slots -/

section

variable (s : State) (t : Nat)

@[simp] theorem State.routeCells_nil : s.routeCells t [] = s := rfl
@[simp] theorem State.routeCells_cons (l : List Byte) (rest : List (List Byte)) :
    s.routeCells t (l :: rest) = (s.routeBytes t l).routeCells t rest := rfl
@[simp] theorem State.settle_nil (b : Bool) : s.settle b [] = s := rfl

end

/-- R25: the report of a planned UP slot whose attribution holds: the report taken by its truck from the state that its
transaction's outcome leaves. -/
theorem exec_upSlotReport_of {s base : State} {k : Fin 32} {p : PlanSlot} {report : SlotReport}
    (h : ReportOf s k p (downHeard (attributed p.rate p.radioId report).2) base) :
    let heard := attributed p.rate p.radioId report
    exec (.upSlotReport k report) s = .next (publish s
      (base.takeReport p.truck heard.1 heard.2 (s.headStalled p.truck))
      (base.reportRecords p.truck p.radioId heard.1 heard.2 (s.headStalled p.truck))) := by
  have key : ∃ cells, s.awaited k = some (p, cells) ∧ (s.truck p.truck).radioId = p.radioId ∧
      (s.handleSlot k).settle (downHeard (attributed p.rate p.radioId report).2) cells = base := by
    rcases h with ⟨r, h, rfl⟩ | ⟨r, d, hr, hk, hd, hp, hu, hh, hc, hid, rfl⟩
    · have h1 : k.val ≠ 0 := by have := h.slot; omega
      exact ⟨[], by simp [State.awaited, h.running, h.planned, h.up, h.unhandled, h.poll, h1], h.radio,
        by simp [State.handleSlot, h.running]⟩
    · have h1 : k.val ≠ 0 := by omega
      exact ⟨d.cells, by simp [State.awaited, hr, hp, hu, hh, hc, h1, hd], hid, by simp [State.handleSlot, hr]⟩
  obtain ⟨cells, ha, hid, hb⟩ := key
  have hid' : ((s.handleSlot k).truck p.truck).radioId = p.radioId := hid
  show execUpSlotReport k report s = _
  simp only [execUpSlotReport, ha, State.upReport, State.upRecord, hid', hb, ne_eq, not_true_eq_false, if_false]
  rfl

/-- The words that statements use of an alarm say what the operations do: WORKER ALARM raised, then Switching Control told. -/
theorem State.afterAlarm_eq (x : State) (w : Nat) (told : Notice) : x.afterAlarm w told = (x.raise told).memberAlarm w := by
  unfold State.afterAlarm State.memberAlarm
  simp only [State.worker, State.permit, State.permitNotice, State.setPermitState, State.updPermit, State.setPermit,
    State.raise_workers, State.raise_permits, State.raise_clock, tableGet_set_same, tableSet_set]
  cases (tableGet ({} : Worker) x.workers w).membership with
  | none => rfl
  | some p =>
    dsimp only
    by_cases h : (tableGet ({} : Permit) x.permits p).state = .issued
    · by_cases hc : w ∈ (tableGet ({} : Permit) x.permits p).alarmCauses <;> simp [h, hc]
    · by_cases h2 : (tableGet ({} : Permit) x.permits p).state = .suspended <;>
      by_cases hc : w ∈ (tableGet ({} : Permit) x.permits p).alarmCauses <;> simp [h, h2, hc]

end Sys2Proof.Machine
end

