-- ==== Sys2Proof/WellFormed.lean ====
section
/-! DEFINITION. Which commands a sender can send: the bounds of the operands that their types do not already keep. -/

namespace Sys2Proof

/-- The bounds on a command's operands:
a slot event names a slot after the header (R21); a planned UP slot is one of 1 to 25 (R56);
a card has 56 request words (R174); a write against the ownership of state or answer words is not to word 1, the kind (R174). -/
def Instr.wellFormed : Instr → Bool
  | .slotStart slot => 1 ≤ slot.val
  | .upSlotReport slot _ => 1 ≤ slot.val && slot.val ≤ 25
  | .openSlotReport slot _ => 1 ≤ slot.val
  | .cardPost _ _ request => request.length ≤ 56
  | .cardFault _ word _ => word.val ≠ 1
  | _ => true

end Sys2Proof
end

