-- ==== Sys2Proof/Tests/Slice0.lean ====
section
/-! SUPPORT. The author's own tests: ill-formed commands refused, a few worked steps, and for each statement a witness that
meets its hypotheses. A test's docstring names the rule from which its expected values were worked by hand. -/

namespace Sys2Proof.Tests

-- One thread: every theorem below is a kernel evaluation, and a thread for each of them asks for more stack than there is.
set_option Elab.async false

open Sys2Proof Sys2Proof.Machine

/-! ### Fixtures -/

/-- A machine with one card posted at position 5, under the scan. -/
def posted (s : State) (kind : CardKind) (request : List Word) : State :=
  { s with published := true, scan := some 5,
           mem := memSetWords [] (cardBase 5) ([1, kind.code, 0, 0, 0, 0, 0, 0] ++ request) }

/-- The state that a command leaves. -/
def after (c : Instr) (s : State) : State :=
  match exec c s with
  | .next t => t
  | .fault _ => s
  | .refused _ => s

/-- A published machine with truck 3 on air, worker 2 aboard it and watched, a device, and nothing else. -/
def yard : State :=
  { published := true, clock := 1000, transmitEnable := true, modemReady := true
    trucks := [(3, { radioId := 0x101, state := .onAir, crew := [2] })]
    links := [(3, { grade := .fair, quality := 220 })]
    workers := [(2, { inUse := true, badge := 7, aboard := some 3 })]
    watches := [(2, { mode := .continuous, state := .watching, interval := 600, lastCheckIn := 900, deadline := 1500 })]
    devices := [(4, { inUse := true, id := 40, kind := .isolator, position := .closed, source := .report })] }

/-- The yard with the watch off. -/
def calm : State := { yard with watches := [] }

/-- A board with no EMPTY slot. -/
def fullBoard (s : State) : State :=
  { s with mem := (List.range 128).map fun k => (2 * slotBase k, 1) }

/-- A notice of class 7, the lowest. -/
def stray : Notice := { kind := .strayUnit }

/-- A notice of class 1, the highest. -/
def alarm : Notice := { kind := .workerAlarm }

/-! ### Well-formed commands -/

theorem test_slotStart_header_ill : (Instr.slotStart 0).wellFormed = false := by decide
theorem test_upSlot_26_ill : (Instr.upSlotReport 26 .nothingHeard).wellFormed = false := by decide
theorem test_openSlot_0_ill : (Instr.openSlotReport 0 .nothingHeard).wellFormed = false := by decide
theorem test_cardPost_57_ill : (Instr.cardPost 0 1 (List.replicate 57 0)).wellFormed = false := by decide
theorem test_cardFault_kind_ill : (Instr.cardFault 0 1 0).wellFormed = false := by decide
theorem test_well_formed : (Instr.cardPost 0 1 (List.replicate 56 0)).wellFormed = true := by decide

/-! ### Worked values of the spec -/

/-- R188: the check word of the nine characters 1 to 9 under this generator and start value is 29B1 (a published check
value of that code). -/
theorem test_checkWord : checkWord [0x31, 0x32, 0x33, 0x34, 0x35, 0x36, 0x37, 0x38, 0x39] = 0x29B1 := by decide +kernel

/-- No row of the table has bits, so no word spells a command. -/
theorem test_no_word (n w : Nat) : decodeTableWord n w = none := rfl

/-- R182, R170: edition words read 0 before the first publication and 2 after it. -/
theorem test_first_edition : State.reset.readWord siteBase = 0 ∧ State.reset.firstPublication.readWord siteBase = 2 := by
  decide +kernel

/-- R46: a Q of 100 and a sample of 301 give 150. -/
theorem test_smooth : smooth 100 301 = 150 := by decide

/-- R47, R48: the worked case "A STRONG truck slides to FAIR" of file 03. -/
theorem test_strong_slides_to_fair :
    [220, 190, 0, 180, 180].foldl (fun l x => l.graded {} x) ({ grade := .strong, quality := 260 } : Link) =
      { grade := .fair, quality := 178 } := by decide

/-- R46: the worked case "A new truck settles" of file 03. -/
theorem test_new_truck_settles :
    [300, 100, 200, 200].foldl (fun l x => l.settleStep {} x) ({} : Link) =
      { grade := .fair, quality := 200, settle := 4 } := by decide

/-! ### Witnesses: the machine as a whole -/

theorem witness_IdleStep :
    ({ } : State).published = false ∧ ({ } : State).callPending = false ∧
      ({ callPending := true } : State).published = false ∧
    ({ published := true } : State).scan = none ∧ (posted {} .quiet []).cardPosted 5 = true ∧
    ({ published := true, scan := some 62 } : State).cardPosted 62 = false ∧
    ({ published := true, scan := some 63 } : State).cardPosted 63 = false ∧
    ({ published := true, scan := some 63, callPending := true } : State).callPending = true := by decide

theorem witness_yard_inv : yard.Inv where
  canonical := ⟨by decide, by decide, by decide, by decide, by decide, by decide, by decide, by decide, by decide,
    by decide,
    by decide, by decide, by decide, by decide⟩
  clock := by decide
  noise := by decide
  settings := ⟨by decide, by decide, by decide, by decide⟩
  links := by
    intro t
    rcases Decidable.em (3 = t) with h | h
    · subst h; exact ⟨by decide, by decide, by decide, by decide⟩
    · have : yard.link t = ({} : Link) := by simp [yard, State.link, tableGet, h]
      rw [this]; exact ⟨by decide, by decide, by decide, by decide⟩
  round := by decide
  lists := fun _ => ⟨List.Pairwise.nil, Nat.zero_le 7⟩
  flight := fun _ => ⟨fun _ _ h => (nomatch h), fun _ _ h => (nomatch h)⟩
  holdRoom := by decide
  held := Or.inl rfl
  scan := by intro p h; cases h

/-- A canonical state keeps that form with any canonical memory. -/
theorem canonical_mem {s : State} (h : s.Canonical) {m : Memory} (hm : Memory.wf m = true) : ({ s with mem := m } : State).Canonical :=
  ⟨hm, h.2, h.3, h.4, h.5, h.6, h.7, h.8, h.9, h.10, h.11, h.12, h.13, h.14⟩

/-- The invariant says nothing of the queue, nor, with nothing in flight, of which round runs while one may run. -/
theorem inv_of {s : State} (h : s.Inv) (hs : s.round = none) (q : List Instr) (r : Option Round)
    (hr : r.isSome = true → s.transmitEnable = true ∧ s.modemReady = true) :
    ({ s with pending := q, round := r } : State).Inv :=
  ⟨⟨h.1.1, h.1.2, h.1.3, h.1.4, h.1.5, h.1.6, h.1.7, h.1.8, h.1.9, h.1.10, h.1.11, h.1.12, h.1.13, h.1.14⟩,
    h.2, h.3, h.4, h.5, hr, h.lists, fun _ => h.flight hs, h.holdRoom, h.held, h.scan⟩

/-- The invariant asks of the list of truck 3 its order, its room and that nothing is in flight while no round runs; of the
programs, devices and permits the canonical form alone. -/
theorem inv_with {s : State} (h : s.Inv) (l : CellList) (age : DWord) (g : Table Program) (d : Table Device) (p : Table Permit)
    (hl : l.Legal) (hs : l.Still) (h0 : l ≠ {}) (hg : tableWf {} g = true) (hd : tableWf {} d = true)
    (hp : tableWf {} p = true) :
    ({ s with lists := [(3, l)], ageCounter := age, programs := g, devices := d, permits := p } : State).Inv := by
  have hlist : ∀ t, ({ s with lists := [(3, l)], ageCounter := age, programs := g, devices := d, permits := p } : State).list t =
      if 3 = t then l else {} := fun t => rfl
  refine ⟨⟨h.1.1, h.1.2, h.1.3, h.1.4, h.1.5, ?_, h.1.7, h.1.8, h.1.9, h.1.10, h.1.11, hd, hp, hg⟩,
    h.2, h.3, h.4, h.5, h.6, ?_, ?_, h.holdRoom, h.held, h.scan⟩
  · simp [tableWf, h0]
  · intro t
    rw [hlist]
    split
    · exact hl
    · exact ⟨List.Pairwise.nil, Nat.zero_le 7⟩
  · intro hr
    refine ⟨fun t => ?_, (h.flight hr).2⟩
    rw [hlist]
    split
    · exact hs
    · exact fun _ hx => nomatch hx

/-- A step from a state that is no reset state and meets the invariant. -/
theorem witness_StepKeepsInv : ∃ s t, State.Inv s ∧ s.pending = [.siteSecond] ∧ s.trucks ≠ [] ∧ step s = .next t := by
  have runs : ∀ s : State, s.pending = [.siteSecond] → ∃ t, step s = .next t := by
    intro s hs
    simp only [step, hs]
    exact ⟨_, rfl⟩
  have h := inv_of witness_yard_inv rfl [.siteSecond] none (by decide)
  obtain ⟨t, ht⟩ := runs { yard with pending := [.siteSecond], round := none } rfl
  exact ⟨_, t, h, rfl, by simp [yard], ht⟩

theorem witness_StateMovesOnItsCommands : ∃ t, exec .holdListRefill yard = .next t ∧ Instr.holdListRefill ≠ .powerOn ∧
    (∀ n x a, Instr.holdListRefill ≠ .portReset n x a) ∧ Instr.holdListRefill ≠ .siteSecond ∧
    (∀ b w v, Instr.holdListRefill ≠ .stagingBufferWrite b w v) ∧ (∀ o v, Instr.holdListRefill ≠ .writeRefused o v) :=
  ⟨_, rfl, by decide, by intros; simp, by decide, by intros; simp, by intros; simp⟩

/-- A SITE SET that gives the site code 9, with AUTHORITY set. -/
def siteCard : State := posted { yard with authority := true } .siteSet [1, 9]

theorem witness_SettingsNeedAuthority : (after (.siteSet 5) siteCard).siteCode ≠ siteCard.siteCode := by decide +kernel

/-- R40. -/
theorem test_siteSet_takes_site_code :
    (after (.siteSet 5) siteCard).siteCode = 9 := by
  decide +kernel

/-! ### Witnesses: cards and the scan -/

/-- A truck parked that holds a watched worker. -/
def parkWatched : State := posted yard .truckPark [0x101]

theorem witness_RefusedCard : AtCard parkWatched 5 .truckPark parkWatched ∧
    (cardOwner .truckPark 5 (parkWatched.card 5) parkWatched).answer = some (.wrongState .watched) ∧
    (Answer.wrongState .watched).code ≠ .done ∧ (Answer.wrongState .watched).code ≠ .doneClamped := by
  unfold AtCard; decide +kernel

theorem witness_NotAuthorised :
    let s := posted yard .siteSet [1, 9]
    let v := posted yard .permitForceClose [20]
    s.authority = false ∧ AtCard s 5 .siteSet s ∧ v.authority = false ∧ AtCard v 5 .permitForceClose v := by
  unfold AtCard; decide +kernel

/-- A card of kind 0, which no row names. -/
def oddCard : State := { yard with scan := some 5, mem := memSetWord [] (cardBase 5) 1 }

theorem witness_UnknownKind : oddCard.scanReach 5 = some oddCard ∧ oddCard.cardPosted 5 = true ∧
    knownKind (oddCard.card 5 1) = false := by decide +kernel

/-- R175. -/
theorem test_unknownKind_answered :
    after (.unknownKind 5) oddCard = answeredAs oddCard oddCard 5 ⟨.unknownKind, 0, []⟩ := by
  decide +kernel

/-- R175. -/
theorem test_siteSet_needs_authority :
    let s := posted yard .siteSet [1, 9]
    after (.siteSet 5) s = answeredAs s s 5 ⟨.notAuthorised, 0, []⟩ := by
  decide +kernel

theorem witness_ScanTakesInOrder :
    let s := { parkWatched with scan := some 0 }
    let v := { parkWatched with scan := some 6, callPending := true }
    (∀ i, 0 ≤ i → i < 5 → s.cardPosted i = false) ∧ (∀ i < 64, 6 ≤ i ∨ i < 5 → v.cardPosted i = false) ∧
    s.cardPosted 5 = true ∧ s.scanReach 6 = none ∧ { v with callPending := false }.scanReach 5 = none := by
  refine ⟨fun i _ h => ?_, ?_, ?_⟩
  · have := (show ∀ i < 5, { parkWatched with scan := some 0 }.cardPosted i = false by decide +kernel) i h
    exact this
  · decide +kernel
  · decide +kernel

/-! ### Witnesses: notices, publication and the port -/

theorem witness_NoticeTakesLowestSlot : yard.emptySlot = some 0 ∧
  ({ yard with mem := memSetWord [] (slotBase 0) 1 }).emptySlot = some 1 := by
  decide +kernel

theorem witness_HoldListPlacesNotice :
    let low := { fullBoard yard with hold := List.replicate 16 stray }
    let high := { fullBoard yard with hold := List.replicate 16 alarm }
    (fullBoard yard).emptySlot = none ∧ (fullBoard yard).hold.length < 16 ∧
    low.emptySlot = none ∧ 16 ≤ low.hold.length ∧ stray ∈ low.hold ∧ alarm.kind.cls < stray.kind.cls ∧
    (∀ y ∈ low.hold, y.kind.cls ≤ stray.kind.cls) ∧ high.emptySlot = none ∧ 16 ≤ high.hold.length ∧
    (∀ x ∈ high.hold, x.kind.cls ≤ stray.kind.cls) ∧
    low.hold.Pairwise (fun x y => x.kind.cls ≤ y.kind.cls) ∧ low.hold.length ≤ 16 := by decide +kernel

theorem witness_EditionFollowsChange : (after (.siteSecond) yard).published = true ∧
    yard.siteWords ≠ (after .siteSecond yard).siteWords := by decide +kernel

/-- R18, R170. -/
theorem test_siteSecond_republishes_site :
    (after .siteSecond yard).edition siteBase = 4 := by
  decide +kernel

theorem witness_TransmitEnableWrites :
    yard.round = none := by decide

theorem witness_TransmitEnableWrites_inv : ∃ s : State, s.Inv ∧ s.round.isSome = true :=
  ⟨_, inv_of witness_yard_inv rfl [] (some {}) (fun _ => ⟨rfl, rfl⟩), rfl⟩

theorem witness_PortResetLeaves : parkWatched.cardPosted 5 = true ∧
    ({ parkWatched with mem := memSetWord parkWatched.mem (cardBase 5) 2 } : State).cardTaken 5 = true ∧
    parkWatched.cardPosted 4 = false ∧ parkWatched.cardTaken 4 = false := by decide +kernel

theorem witness_PortResetLeaves_quiet : ∀ g, (parkWatched.program g).state ≠ .running ∧
    (parkWatched.program g).state ≠ .halting ∧
    ∀ st ∈ (parkWatched.program g).steps, st.state ≠ .released ∧ st.state ≠ .readBack :=
  fun _ => ⟨fun h => (nomatch h), fun h => (nomatch h), fun _ h => (nomatch h)⟩

/-- R181. -/
theorem test_portReset_abandons_posted :
    (after (.portReset true true true) parkWatched).card 5 2 = 10 := by
  decide +kernel

/-- The yard with a program whose step 1 is READ BACK, its cells in the list of truck 3, its device held. -/
def recallable (action : Action) : State := { yard with
  lists := [(3, { cells := [{ cell := .prompt 7, age := 0 }, { cell := .readbackOk 60 1, age := 1, attempts := 2 },
                            { cell := .signReply 20 7 .ok, age := 2 }] })]
  ageCounter := 3
  programs := [(0, { number := 60, state := .running, steps := [{
    truck := 3, device := 4, action := action, permit := some 1, guard := .always, ref := 4, rule := .crew, state := .readBack
    instruction := .delivered }] })]
  devices := [(4, { inUse := true, id := 40, kind := .isolator, position := .closed, source := .report, outstanding := some ⟨0, 1⟩ })]
  permits := [(1, { inUse := true, number := 20, holder := 2, state := .cancelled, tagSteps := 1 })] }

theorem witness_PortResetLeaves_inv (a : Action) : (recallable a).Inv :=
  inv_with witness_yard_inv _ _ _ _ _ ⟨by decide, by decide⟩ (by unfold CellList.Still; decide) (by decide)
    (by cases a <;> decide) (by decide) (by decide)

theorem witness_PortResetLeaves_recalled :
    let s := recallable .tag
    let v := recallable .openIt
    (∀ e ∈ s.programs, e.1 < 16) ∧ ((s.program 0).step 1).map (fun st => (st.state, st.truck, st.device)) = some (.readBack, 3, 4) ∧
    (∀ i < 96, (s.list i).waiting = []) ∧ (s.list 3).present (.stepCancel 60 1) = false ∧
    (s.program 0).steps.countP (fun st => decide (st.action = .tag) && decide (st.permit = some 1)) = 1 ∧
    (s.permit 1).state = .cancelled ∧ (s.permit 1).tagsHeld = 0 ∧ (s.permit 1).tagSteps - 1 = 0 ∧
    (v.program 0).steps.all (fun st => decide (st.action ≠ .tag)) = true ∧ (yard.list 3).waiting = [] := by
  decide

/-- R167, R165: the step is PENDING again, its cells give way to STEP CANCEL, and the permit that its end lets close closes. -/
theorem test_portReset_recalls :
    let t := after (.portReset false true false) (recallable .tag)
    (t.list 3).cells.map (·.cell) = [.prompt 7, .signReply 20 7 .ok, .stepCancel 60 1] ∧ (t.device 4).outstanding = none ∧
      (t.program 0).state = .halted ∧ (t.program 0).halt = .reset ∧ (t.program 0).cancels = 1 ∧
      (t.program 0).steps.map (fun st => (st.state, st.instruction)) = [(.pending, .none)] ∧ (t.permit 1).state = .closed := by
  decide +kernel

theorem witness_CallStartsScan :
    yard.published = true ∧ yard.scan = none ∧ ({ } : State).published = false ∧ parkWatched.scan.isSome = true ∧
    ({ callPending := true } : State).callPending = true ∧ ({ callPending := true } : State).published = false ∧
    (∀ i < 64, 6 ≤ i → ({ parkWatched with scan := some 6, callPending := true } : State).cardPosted i = false) := by
  decide +kernel

theorem witness_CardPosts :
    let taken : State := { yard with mem := memSetWord [] (cardBase 5) 2 }
    let answered : State := { yard with mem := memSetWord [] (cardBase 5) 3 }
    ([1, 2] : List Word).length ≤ 56 ∧ (List.replicate 56 (9 : Word)).length ≤ 56 ∧
    yard.card 5 0 = CardState.empty.code ∧ parkWatched.card 5 0 = CardState.posted.code ∧
    taken.card 5 0 ≠ CardState.empty.code ∧ taken.card 5 0 ≠ CardState.posted.code ∧
    answered.card 5 0 ≠ CardState.empty.code ∧ answered.card 5 0 ≠ CardState.posted.code := by decide +kernel

theorem witness_CardStateWrites :
    let s (n : Word) : State := { yard with mem := memSetWord [] (cardBase 5) n }
    (s 1).card 5 0 = CardState.posted.code ∧ (s 3).card 5 0 = CardState.answered.code ∧
    (s 0).card 5 0 = CardState.empty.code ∧ (s 2).card 5 0 = CardState.taken.code ∧
    (3 : Word) ≠ CardState.posted.code ∧ (3 : Word) ≠ CardState.empty.code ∧ 2 ≤ (2 : Fin 8).val ∧
      2 ≤ (7 : Fin 8).val := by
  decide +kernel

theorem witness_SlotFreedAndRefilled :
    let one : State := { yard with mem := memSetWord [] (slotBase 0) 1 }
    let held : State := { fullBoard yard with hold := [stray] }
    one.slotFilled 0 = true ∧ one.hold = [] ∧ held.slotFilled 127 = true ∧ held.hold = stray :: [] ∧
    yard.slotFilled 0 = false ∧ held.emptySlot = none ∧ { yard with hold := [stray] }.emptySlot = some 0 := by
  decide +kernel

theorem witness_HostWritesByOwnership :
    siteBase ≤ (32767 : Fin 32768).val ∧ (4096 : Fin 32768).val = slotBase 0 + 0 ∧ yard.slotFilled 0 = false ∧
    (4097 : Fin 32768).val = slotBase 0 + 1 ∧ (1 : Nat) ≠ 0 := by decide +kernel

/-! ### Witnesses: time, rounds and the modem -/

theorem witness_SecondsAndRoundBoundaries :
    yard.clock < 4294967295 ∧ ({ yard with clock := 4294967295 } : State).clock = 4294967295 ∧ yard.published = true ∧
    ({ yard with modemReady := false } : State).modemReady = false ∧ yard.transmitEnable = true ∧ yard.modemReady = true ∧
    ({ yard with quiet := true } : State).quiet = true := by decide

theorem witness_SecondsAndRoundBoundaries_inv : ∃ t r, exec .roundBoundary yard = .next t ∧ t.round = some r ∧ yard.Inv ∧
    (yard.truck 3).state = .onAir ∧ ({ yard with trucks := [(3, { state := .silent })] } : State).transmitEnable = true ∧
    (yard.truck 0).state = .vacant := by
  obtain ⟨x, hx⟩ := publish_eq yard yard.boundary []
  have h (s : State) (h1 : s.transmitEnable = true) (h2 : s.modemReady = true) (h3 : s.round = none) :
      ∃ r, s.boundary.round = some r := by
    simp [State.boundary, State.endRound, State.startRound, h1, h2, h3]
  obtain ⟨r, hr⟩ := h yard rfl rfl rfl
  refine ⟨_, r, rfl, ?_, witness_yard_inv, rfl, rfl, rfl⟩
  rw [hx]
  exact hr

/-- The yard with a PROMPT in the truck's list, so that a round plans a transaction. -/
def prompted : State := { yard with lists := [(3, { cells := [{ cell := .prompt 7, age := 0 }] })], ageCounter := 1 }

theorem witness_PlansKeepTheirBounds : ∃ t r, exec .roundBoundary prompted = .next t ∧ t.round = some r ∧
    prompted.transmitEnable = true ∧ prompted.modemReady = true := by
  have h (s : State) (h1 : s.transmitEnable = true) (h2 : s.modemReady = true) (h3 : s.round = none) :
      ∃ r, s.boundary.round = some r := by
    simp [State.boundary, State.endRound, State.startRound, h1, h2, h3]
  obtain ⟨r, hr⟩ := h prompted rfl rfl rfl
  obtain ⟨x, hx⟩ := publish_eq prompted prompted.boundary []
  refine ⟨_, r, rfl, ?_, rfl, rfl⟩
  rw [hx]
  exact hr

/-- The PROMPT of truck 3, and the head order of none: the plan is given exactly. -/
theorem witness_PlansKeepTheirBounds_exact : prompted.Inv ∧ prompted.quiet = false ∧
    (∀ i, ((prompted.list i).cells.map fun e => e.age).Nodup) ∧
    (∀ i j o, (prompted.queue i).head? = some o → (prompted.queue j).head? = some o → i = j) := by
  refine ⟨inv_with witness_yard_inv _ _ _ _ _ ⟨by decide, by decide⟩ (by unfold CellList.Still; decide) (by decide)
    (by decide) (by decide) (by decide), rfl, fun i => ?_, fun i j o h => nomatch h⟩
  rcases Decidable.em (3 = i) with h | h
  · subst h; decide
  · have : prompted.list i = {} := by simp [prompted, State.list, tableGet, h]
    rw [this]; exact List.nodup_nil

/-- R57, R61, R62: the PROMPT goes in slot 1 at the rate of FAIR, slot 2 closes it, and the truck has no class A work left. -/
theorem test_prompt_planned :
    let p : Plan := { state := prompted, slots := [] }
    p.grants .a 3 = true ∧ (p.grant 3).slots =
      [{ truck := 3, radioId := 0x101, rate := 2, dir := .down, cells := [.control 0 (.prompt 7)] },
       { truck := 3, radioId := 0x101, rate := 2, dir := .up, closes := true }] ∧ (p.grant 3).grants .a 3 = false := by
  decide

/-- A round that runs: its header done, slot 1 a poll of truck 3. -/
def polling : Round := { slots := [{ truck := 3, radioId := 0x101, rate := 2, dir := .up }], headerDone := true, slot := 1 }

theorem witness_SlotsGoToModem : ({ yard with round := some polling } : State).round = some polling ∧
  1 ≤ (1 : Fin 32).val ∧
    1 ≤ (31 : Fin 32).val ∧ yard.round = none := by decide

/-- R21. -/
theorem test_slotStart_receives_poll :
    after (.slotStart 1) { yard with round := some polling } =
      { yard with round := some { polling with slot := 1 }, modemOut := .receive 1 2 } := by
  decide +kernel

theorem witness_ModemReports :
    ({ yard with round := some {} } : State).round = some {} ∧ ({} : Round).headerDone = false ∧ (-131 : Int) < -130 ∧
    (-80 : Int) < -79 ∧ (-130 : Int) ≤ -130 ∧ (-130 : Int) ≤ -80 ∧ (-80 : Int) ≤ -80 ∧ polling.headerDone = true ∧
    ({ yard with modemReady := false } : State).round = none ∧
      ({ yard with round := some {} } : State).round.isSome = true ∧ yard.modemReady = true ∧
    ({ yard with round := some {}, modemReady := false } : State).round.isSome = true := by
  decide

theorem witness_ModemReports_inv : ({ yard with round := some {} } : State).Inv :=
  inv_of witness_yard_inv rfl [] (some {}) (by decide)

/-- R37: the link fails with a round running. -/
theorem test_modemNotReady_cuts :
    let s : State := { yard with round := some {}, roundNumber := 9 }
    let t := after .modemNotReady s
    t.round = none ∧ t.modemReady = false ∧ t.modemOut = .idle ∧ t.rawWord (slotBase 0 + 14) = 9 := by
  decide +kernel

/-- R42. -/
theorem test_noiseReport_clamped_low :
    let t := after (.noiseReport (-131)) { yard with round := some {} }
    t.noise = -130 ∧ t.siteClipped ∧ t.edition siteBase = 4 := by
  decide +kernel

/-- R42: a report of exactly -80 is in range. -/
theorem test_noiseReport_at_bound :
    let t := after (.noiseReport (-80)) { yard with round := some {} }
    t.noise = -80 ∧ t.siteClipped = false := by
  decide +kernel

/-- The yard polling truck 3, with its entry and its grading fields given. -/
def polls (x : Truck) (l : Link) : State := { yard with round := some polling, trucks := [(3, x)], links := [(3, l)] }

/-- A report of slot 1 is that of the poll of truck 3. -/
theorem witness_Polled (x : Truck) (l : Link) (hx : x.radioId = 0x101) :
    Polled (polls x l) 1 polling { truck := 3, radioId := 0x101, rate := 2, dir := .up } :=
  ⟨by decide, rfl, rfl, rfl, rfl, rfl, hx⟩

theorem witness_ReportOf (x : Truck) (l : Link) (hx : x.radioId = 0x101) (b : Bool) :
    ReportOf (polls x l) 1 { truck := 3, radioId := 0x101, rate := 2, dir := .up } b
      { polls x l with round := some (polling.handle 1) } := Or.inl ⟨polling, witness_Polled x l hx, rfl⟩

theorem witness_UnheardTrucks :
    let on : Truck := { radioId := 0x101, state := .onAir, linkNotice := true }
    let low : Link := { grade := .fair, quality := 130, run := 2, dir := .down }
    let heard : List Byte := [1, 2, 3]
    min (low.silent + 1) 255 < yard.settings.lostCount ∧
    ({ low with silent := 1, quality := (3 * 130 + 2) / 4 }.hysteresis yard.settings).grade = .weak ∧
    ({ low with quality := (3 * 130 + 70 + 2) / 4 }.hysteresis yard.settings).grade ≠ .fair ∧
    ({ low with run := 0, silent := 1, quality := (3 * 130 + 2) / 4 }.hysteresis yard.settings).grade = .fair ∧
    attributed 2 0x101 (.received heard (-90)) = (.garbled (-90), none) ∧
    (polls on { settle := 3 }).link 3 = { settle := 3 } ∧ ({ settle := 3 } : Link).grade = .settling ∧
    yard.settings.lostCount ≤ min (({ low with silent := 4 } : Link).silent + 1) 255 ∧
    ((polls { on with state := .silent } { low with grade := .lost }).truck 3).state = .silent ∧
    ((polls { on with state := .registered } {}).truck 3).state = .registered := by
  decide +kernel

/-- A truck that is PARKED, and one garbled while it settles. -/
theorem witness_UnheardTrucks_others :
    ((polls { radioId := 0x101, state := .parked } {}).truck 3).state = .parked ∧
    ((polls { radioId := 0x101, state := .onAir } {}).link 3).grade = .settling ∧
    attributed 2 0x101 (.received [1, 2, 3] (-131)) = (.garbled (-131), none) := by
  decide +kernel

/-- R41, R43, R44: a GARBLED burst of a SILENT truck, its RSSI out of range. -/
theorem test_garbled_silent_truck :
    let t := after (.upSlotReport 1 (.received [1, 2, 3] (-131)))
      (polls { radioId := 0x101, state := .silent } { grade := .lost, quality := 40, silent := 9 })
    t.link 3 = { grade := .lost, quality := 40, silent := 0, clipped := true } ∧ (t.truck 3).state = .silent := by
  decide +kernel

/-- R44, R46, R47. -/
theorem test_silent_poll_below_lostCount :
    let s := { yard with round := some polling }
    after (.upSlotReport 1 .nothingHeard) s =
      publish s { s with round := some (polling.handle 1), links := tableSet {} s.links 3 ({ s.link 3 with silent := 1, quality := (3 * 220 + 2) / 4 }.hysteresis s.settings), counters := tableSet {} s.counters 3 {} } [truckBase 3] := by
  decide +kernel

/-- A burst of one IDLE cell from radio 0x101. -/
def idleBurst : List Byte := sealBurst ([0, 1, 1, 1] ++ List.replicate 12 0)

theorem witness_AnsweredPoll :
    let on : Truck := { radioId := 0x101, state := .onAir, linkNotice := true }
    let s (st : TruckState) (l : Link) := polls { on with state := st } l
    let rising : Link := { grade := .fair, quality := 239, run := 2, dir := .up }
    ∃ u, classify 2 idleBurst = some u ∧ u.radioId = 0x101 ∧ (∀ b ∈ u.cells, UpCell.ofBytes b = some .idle) ∧
    (s .onAir rising).headStalled 3 = false ∧ ((s .onAir rising).truck 3).state = .onAir ∧
    ({ rising with quality := (3 * 239 + 300 + 2) / 4 }.hysteresis yard.settings).grade = .strong ∧
    ({ rising with run := 0, quality := (3 * 239 + 300 + 2) / 4 }.hysteresis yard.settings).grade = .fair ∧
    ((s .onAir {}).link 3).grade = .settling ∧ ((s .registered {}).truck 3).state = .registered ∧
    ((s .silent { grade := .lost }).truck 3).state = .silent ∧ ((s .onAir { grade := .lost }).link 3).grade = .lost ∧
    (∀ g < 16, ∀ st ∈ ((s .registered {}).program g).steps, st.pending ≠ .truck ∨ st.truck ≠ 3) :=
  ⟨{ radioId := 0x101, downHeard := false, more := false, cells := [List.replicate 12 0] }, by decide +kernel⟩

/-- R188, R189: the byte places of a READBACK of program 0x0102, step 3, device 0x0405, UNTAG. -/
theorem test_readback_bytes :
    UpCell.ofBytes [0x60, 1, 2, 3, 4, 5, 3, 0, 0, 0, 0, 0] = some (.readback 0x102 3 0x405 .untag) ∧
    UpCell.ofBytes [0x60, 1, 2, 3, 4, 5, 4, 0, 0, 0, 0, 0] = none := by decide

/-- The bounds of the codes in a cell. -/
theorem witness_AnsweredPoll_codes :
    (4 : Byte).toNat ≤ 4 ∧ 4 < (5 : Byte).toNat ∧ 3 < (4 : Byte).toNat ∧ 1 < (2 : Byte).toNat := by decide

/-- R3, R49, R51: a truck that was LOST is heard at -90 with the noise at -120. -/
theorem test_lost_truck_settles_afresh :
    let t := after (.upSlotReport 1 (.received idleBurst (-90)))
      (polls { radioId := 0x101, state := .silent } { grade := .lost, quality := 40, silent := 9 })
    (t.truck 3).state = .onAir ∧ t.link 3 = { quality := 300, settle := 1 } ∧ t.slotFilled 0 = true := by
  decide +kernel

/-- A burst of an ACCESS cell, one of kind 33, which is dropped, and a PANIC cell of worker 2, from radio 0x101. -/
def threeCells : List Byte := sealBurst ([0, 1, 1, 3, 0x7F] ++ List.replicate 11 0 ++ 0x33 :: List.replicate 11 0 ++
  [0x42, 0, 7] ++ List.replicate 9 0)

/-- R5, R27: the cells of a PARKED truck are routed, and the one of unknown kind dropped; no sample is taken. -/
theorem test_parked_truck_routed :
    let s := { polls { radioId := 0x101, state := .parked } { quality := 40 } with
      round := some { polling with slots := [{ truck := 3, radioId := 0x101, rate := 4, dir := .up }] } }
    let t := after (.upSlotReport 1 (.received threeCells (-90))) s
    t.truck 3 = { radioId := 0x101, state := .parked, access := true, lastHeard := 1000 } ∧ t.link 3 = { quality := 40 } ∧
      (t.watch 2).state = .alarm := by
  decide +kernel

/-- A truck's list of cells in flight at their third failure, and the owners of the cells. -/
def inFlight (reported : Bool) (cells : List DownCell) : State :=
  { yard with
    lists := [(3, { cells := cells.zipIdx.map fun c => { cell := c.1, age := BitVec.ofNat 32 c.2, inFlight := true, attempts := 3, reported } })]
    ageCounter := 8
    orders := [(0, { inUse := true, number := 50, truck := 3, state := .withdrawing })]
    truckAlarms := [(3, some { manDown := true, badge := 9, raised := 5 })]
    permits := [(1, { inUse := true, number := 20, holder := 2, points := [⟨4, .opened⟩], check := 40, state := .issuing, issueTruck := 3, issueCells := .queued })]
    programs := [(0, { number := 60, state := .running, steps := [{ truck := 3, device := 4, action := .openIt, permit := none, guard := .always, ref := 4, rule := .crew, state := .released, instruction := .queued }] })] }

theorem witness_TransactionSettlesCells :
    let s := inFlight false [.prompt 7, .alarmSeenWorker 7, .alarmSeenTruck 3, .step 60 1 40 .openIt 0]
    let v := inFlight true [.stepCancel 60 1, .permitIssue 20 7 1 40, .points 20 [(40, .opened)], .orderWithdraw 50, .readbackOk 60 1]
    yard.entryOf 0 = none ∧ s.entryOf 0 = some (3, { cell := .prompt 7, age := 0, attempts := 3, inFlight := true }) ∧
    s.findWorker 7 = some 2 ∧ (s.entryOf 1).map (·.2.cell) = some (.alarmSeenWorker 7) ∧
    (s.entryOf 2).map (·.2.cell) = some (.alarmSeenTruck 3) ∧
    (s.entryOf 3).map (·.2.cell) = some (.step 60 1 40 .openIt 0) ∧ (s.list 3).waiting = [] ∧ s.findProgram 60 = some 0 ∧
    ((s.program 0).step 1).map (·.instruction) = some .queued ∧ older s.ageCounter 3 (s.program 0).loadedAt = false ∧
    older s.ageCounter 3 { s.program 0 with loadedAt := 4 }.loadedAt = true ∧
    (v.entryOf 0).map (fun x => (x.2.cell, x.2.reported)) = some (.stepCancel 60 1, true) ∧
    (v.entryOf 1).map (·.2.cell) = some (.permitIssue 20 7 1 40) ∧ v.findPermit 20 = some 1 ∧
    (v.permit 1).issueCells = .queued ∧ (v.entryOf 2).map (·.2.cell) = some (.points 20 [(40, .opened)]) ∧
    (v.entryOf 3).map (·.2.cell) = some (.orderWithdraw 50) ∧ v.findOrder 50 = some 0 ∧
    (v.order 0).state = .withdrawing ∧ (v.entryOf 4).map (·.2.cell) = some (.readbackOk 60 1) := by
  decide +kernel

/-- An order of two cells that is wanted, its cell 0 undelivered, with three failures or two behind it; and one not wanted. -/
theorem witness_TransactionSettlesCells_orders :
    let s (n : Nat) (st : OrderState) : State := { yard with
      orders := [(0, { inUse := true, number := 50, truck := 3, cells := [{ inFlight := true }, { inFlight := true }], state := st, attempts := n })] }
    ([0] : List Nat) ≠ [] ∧ ((s 3 .sending).order 0).inUse = true ∧ ((s 3 .sending).order 0).lowestUndelivered = some 0 ∧
    { (s 3 .sending).order 0 with cells := [{ delivered := true }, {}] }.lowestUndelivered = some 1 ∧
    { (s 3 .sending).order 0 with cells := [{ delivered := true }, { delivered := true }] }.lowestUndelivered = none ∧
    4 ≤ ((s 3 .sending).order 0).attempts + 1 ∧ ((s 2 .sending).order 0).attempts + 1 < 4 ∧
    ((s 0 .queued).order 0).state = .queued ∧ ((s 0 .withdrawing).order 0).state = .withdrawing := by
  decide

/-- A transaction: the DOWN of a PROMPT in slot 1, its closing UP in slot 2. -/
def transacting : Round :=
  { slots := [{ truck := 3, radioId := 0x101, rate := 2, dir := .down, cells := [.control 0 (.prompt 7)] },
      { truck := 3, radioId := 0x101, rate := 2, dir := .up, closes := true }], headerDone := true, slot := 2 }

theorem witness_TransactionSettlesCells_closing :
    let s : State := { inFlight false [.prompt 7] with round := some transacting }
    let gone : State := { s with trucks := [(3, { radioId := 0x102, state := .onAir })] }
    2 ≤ (2 : Fin 32).val ∧ s.round = some transacting ∧ (transacting.slots[0]?).isSome = true ∧
    (transacting.slots[1]?).map (fun p => (p.dir, p.handled, p.closes)) = some (.up, false, true) ∧
    (s.truck 3).radioId = 0x101 ∧ (gone.truck 3).radioId ≠ 0x101 := by
  decide

/-- R29, R30: the closing burst says that the DOWN was heard. -/
theorem test_transaction_delivers :
    let t := after (.upSlotReport 2 (.received (sealBurst ([0, 1, 1, 129] ++ List.replicate 12 0)) (-90)))
      { inFlight false [.prompt 7] with round := some transacting }
    t.list 3 = {} ∧ (t.watch 2).prompt = .delivered ∧ (t.truck 3).lastHeard = 1000 := by
  decide +kernel

/-- R28, R84: nothing heard at the fourth failure: the cell stays, and DELIVERY TROUBLE is raised. -/
theorem test_transaction_fails :
    let t := after (.upSlotReport 2 .nothingHeard) { inFlight false [.prompt 7] with round := some transacting }
    (t.list 3).cells = [{ cell := .prompt 7, age := 0, attempts := 4, reported := true }] ∧ t.slotFilled 0 = true := by
  decide +kernel

/-- The closing slot of a transaction, and an open slot, in which a known truck is heard; a head order that is STALLED. -/
theorem witness_AnsweredPoll_others :
    let s : State := { inFlight false [.prompt 7] with round := some transacting }
    let v : State := { yard with
      round := some { quiet := true }, queues := [(3, [0])]
      orders := [(0, { inUse := true, number := 50, truck := 3, state := .stalled })] }
    ReportOf s 2 { truck := 3, radioId := 0x101, rate := 2, dir := .up, closes := true } true
      (({ s with round := some (transacting.handle 2) } : State).settle true [.control 0 (.prompt 7)]) ∧
    v.slotOpen 1 = true ∧ v.findTruck 0x101 = some 3 ∧ (v.truck 3).radioId = 0x101 ∧ v.headStalled 3 = true := by
  refine ⟨Or.inr ⟨transacting, _, rfl, by decide, rfl, rfl, rfl, rfl, rfl, rfl, rfl⟩, ?_⟩
  decide +kernel

theorem witness_GradeNeedsThreeReports :
    let l : Link := { grade := .strong, quality := 200, run := 2, dir := .down }
    l.Legal ∧ (0 : Nat) ≤ 500 ∧ l.grade = .strong ∧ (l.graded {} 0).grade ≠ l.grade ∧
    targetGrade {} .strong (smooth 500 500) = .strong ∧ targetGrade {} .strong (smooth 200 0) ≠ .strong ∧
    runDir .strong (targetGrade {} .strong (smooth 200 0)) = .down :=
  ⟨⟨by decide, by decide, by decide, by decide⟩, by decide⟩

/-- A burst of one IDLE cell from radio 0x10203, which no truck holds. -/
def strayBytes : List Byte := sealBurst ([1, 2, 3, 1] ++ List.replicate 12 0)

theorem witness_StrayUnitHeard :
    let s (id : Nat) : State := { yard with round := some polling, strayId := id }
    ∃ u, classify 1 strayBytes = some u ∧ (s 0).slotOpen 26 = true ∧ (s 0).findTruck u.radioId = none ∧
    firstAlarm u.cells = none ∧ u.radioId = (s 0x10203).strayId ∧ u.radioId ≠ (s 0).strayId ∧ classify 1 [] = none :=
  ⟨{ radioId := 0x10203, downHeard := false, more := false, cells := [List.replicate 12 0] }, by decide +kernel⟩

/-- A burst of a PANIC cell of badge 9 from radio 0x10203. -/
def panicBytes : List Byte := sealBurst ([1, 2, 3, 1, 0x42, 0, 9] ++ List.replicate 9 0)

/-- The stray burst of an alarm cell, and one of an IDLE cell from truck 3. -/
theorem witness_StrayUnitHeard_others :
    let s : State := { yard with round := some polling, quiet := true, quietStart := 900 }
    ∃ u v, classify 1 panicBytes = some u ∧ s.slotOpen 26 = true ∧
    s.findTruck u.radioId = none ∧ firstAlarm u.cells = some 9 ∧ classify 1 idleBurst = some v ∧
    s.findTruck v.radioId = some 3 ∧ (s.truck 3).radioId = v.radioId ∧ (∀ b ∈ v.cells, UpCell.ofBytes b = some .idle) ∧
    (s.truck 3).state = .onAir ∧ (s.link 3).grade = .fair ∧ (s.truck 3).linkNotice = false ∧ s.headStalled 3 = false :=
  ⟨{ radioId := 0x10203, downHeard := false, more := false, cells := [[0x42, 0, 9] ++ List.replicate 9 0] },
    { radioId := 0x101, downHeard := false, more := false, cells := [List.replicate 12 0] }, by decide +kernel⟩

/-- R16. -/
theorem test_stray_unit_heard :
    let s := { yard with round := some polling }
    after (.openSlotReport 26 (.received strayBytes (-90))) s =
      publish s { s.raise { kind := .strayUnit, item := 0x203, device := 1, value := -90 } with strayId := 0x10203, strayTime := 1000 } := by
  decide +kernel

theorem witness_BurstReadsAsBuilt : 0x10203 < 16777216 ∧ 1 ≤ [List.replicate 12 (0 : Byte)].length ∧
    [List.replicate 12 (0 : Byte)].length ≤ 1 ∧ (∀ c ∈ [List.replicate 12 (0 : Byte)], c.length = 12) ∧
    ([0, 0] : List Byte) ≠ [highByte (checkWord []), lowByte (checkWord [])] := by decide +kernel

/-- The worked burst decodes to the radio id and the cell it was sealed from. -/
theorem test_classify : classify 1 strayBytes =
    some { radioId := 0x10203, downHeard := false, more := false, cells := [List.replicate 12 0] } := by decide +kernel

theorem witness_QuietPeriods :
    let s := posted calm .quiet [5]
    let v := posted { calm with quiet := true } .endQuiet []
    let n := posted calm .endQuiet []
    let q := { calm with quiet := true, quietEnd := 1000 }
    AtCard s 5 .quiet s ∧ s.anyPrompted = false ∧ AtCard v 5 .endQuiet v ∧ v.quiet = true ∧ AtCard n 5 .endQuiet n ∧
    n.quiet = false ∧ q.quiet = true ∧ q.quietEnd ≤ q.clock ∧ { q with quietEnd := 1001 }.clock < 1001 := by
  unfold AtCard; decide +kernel

theorem witness_QuietPeriods_bounds :
    let s (n : Word) := posted calm .quiet [n]
    AtCard (s 10) 5 .quiet (s 10) ∧ (s 10).anyPrompted = false ∧ AtCard (s 600) 5 .quiet (s 600) ∧
    (s 600).anyPrompted = false ∧ AtCard (s 601) 5 .quiet (s 601) ∧ (s 601).anyPrompted = false := by
  unfold AtCard; decide +kernel

theorem witness_QuietPeriods_prompted :
    let p := posted { yard with watches := [(2, { state := .prompted })] } .quiet [60]
    AtCard p 5 .quiet p ∧ (∃ e ∈ p.watches, e.2.state = .prompted ∧ (p.worker e.1).inUse = true) := by
  unfold AtCard; decide +kernel

/-- R65. -/
theorem test_quiet_clamped_low :
    let s := posted calm .quiet [5]
    after (.quiet 5) s = answeredAs s { s with quiet := true, quietStart := 1000, quietEnd := 1010 } 5 ⟨.doneClamped,
      8, dwordWords 1010⟩ := by
  decide +kernel

/-- R66, R67. -/
theorem test_endQuiet_notice :
    let s := posted { calm with quiet := true } .endQuiet []
    after (.endQuiet 5) s =
      answeredAs s ({ s with quiet := false, lastQuietCause := .endQuiet }.raise { kind := .quietEnded, reason := 2, value := 1000 }) 5 .ok := by
  decide +kernel

/-! ### Witnesses: watches -/

theorem witness_WatchTimers :
    let s : State := { yard with clock := 1500 }
    let p : State := { yard with
      watches := [(2, { mode := .continuous, state := .prompted, graceEnd := 1000, prompt := .queued })]
      workers := [(2, { inUse := true, badge := 7, aboard := some 3, membership := some 1 })]
      permits := [(1, { inUse := true, number := 20, holder := 2, state := .issued, members := [2] })] }
    let listed : State := { s with lists := [(3, { cells := [{ cell := .prompt 7, age := 0 }] })] }
    let afoot : State := { s with workers := [(2, { inUse := true, badge := 7 })] }
    (s.watch 2).state = .watching ∧ (s.watch 2).deadline ≤ s.clock ∧ (s.worker 2).aboard = some 3 ∧ s.quiet = false ∧
    ({ s with quiet := true } : State).quiet = true ∧ (listed.watch 2).deadline ≤ listed.clock ∧
    (listed.list 3).present (.prompt 7) = true ∧ (afoot.watch 2).deadline ≤ afoot.clock ∧ (afoot.worker 2).aboard = none ∧
    (s.list 3).present (.prompt 7) = false ∧ yard.clock < (yard.watch 2).deadline ∧ (p.watch 2).state = .prompted ∧
    (p.watch 2).graceEnd ≤ p.clock ∧ (p.worker 2).membership = some 1 ∧ (p.permit 1).state = .issued := by decide

/-- For the check-in and alarm cells: each state of worker 2's watch, badge 7; badge 9 is unknown. -/
theorem witness_WatchTimers_cells :
    let s (w : Watch) : State := { yard with watches := [(2, w)] }
    let a : AlarmRecord := { reason := .panic, raised := 900, via := some 3 }
    let field (b : Bool) : TruckAlarm := { manDown := true, badge := 9, raised := 900, acked := b }
    let f (b : Bool) : State := { yard with truckAlarms := [(3, some (field b))] }
    let member : State := { yard with
      workers := [(2, { inUse := true, badge := 7, aboard := some 3, membership := some 1 })]
      permits := [(1, { inUse := true, number := 20, holder := 2, state := .issued, members := [2] })] }
    yard.findWorker 9 = none ∧ yard.findWorker 7 = some 2 ∧ (yard.worker 2).aboard = some 3 ∧
    (calm.watch 2).state = .off ∧ (yard.watch 2).state = .watching ∧
    (∀ m ∈ [WatchMode.continuous, .singleFail, .singleAll],
      ((s { mode := m, state := .prompted }).watch 2).state = .prompted ∧
        ((s { mode := m, state := .prompted }).watch 2).mode = m) ∧
    ((s { state := .alarm, alarm := some a }).watch 2).alarm = some a ∧ a.late = false ∧ { a with late := true }.late = true ∧
    a.reason = .panic ∧ a.reason ≠ .manDown ∧ ({ yard with quiet := true } : State).quiet = true ∧ yard.quiet = false ∧
    (yard.worker 2).membership = none ∧ (member.worker 2).membership = some 1 ∧ (member.permit 1).state = .issued ∧
    yard.truckAlarm 3 = none ∧ (f false).truckAlarm 3 = some (field false) ∧ (f true).truckAlarm 3 = some (field true) ∧
    (field true).badge = 9 ∧ (field true).manDown = true ∧ (field true).badge ≠ 10 := by
  decide

/-- R103: a CHECK IN from a worker who is PROMPTED. -/
theorem test_checkIn_answers_prompt :
    let s : State := { prompted with
      watches := [(2, { mode := .continuous, state := .prompted, interval := 600, graceEnd := 1100, prompt := .queued })] }
    s.routeCell 3 (.checkIn 7) = { s with
      lists := []
      watches := [(2, { mode := .continuous, state := .watching, interval := 600, graceEnd := 1100, lastCheckIn := 1000, deadline := 1600, lastHeardVia := some 3 })] } := by
  decide +kernel

/-- R108, R109: a second badge renews an acknowledged truck alarm; its repeat count stays (log 28). -/
theorem test_truck_alarm_renewed :
    let s : State := { yard with
      truckAlarms := [(3, some { manDown := false, badge := 9, raised := 900, repeats := 2, acked := true, acknowledged := 950, seen := .delivered })] }
    (s.routeCell 3 (.manDown 10)).truckAlarm 3 = some { manDown := true, badge := 10, raised := 1000, repeats := 2 } := by
  decide +kernel

/-- R101. -/
theorem test_deadline_prompts :
    let t := after (.deadlineReached 2) { yard with clock := 1500, quiet := true }
    (t.watch 2).state = .prompted ∧ (t.watch 2).graceEnd = 1800 ∧
      (t.list 3).cells = [{ cell := .prompt 7, age := 0 }] ∧ t.lastQuietCause = .prompt ∧
      [t.rawWord (slotBase 0 + 1), t.rawWord (slotBase 0 + 2), t.rawWord (slotBase 0 + 6)] = [0x45, 0x0404, 2] := by
  decide +kernel

/-- R104, R144. -/
theorem test_graceEnd_alarms_and_suspends :
    let p : State := { yard with watches := [(2, { mode := .continuous, state := .prompted, graceEnd := 1000, prompt := .queued })], workers := [(2, { inUse := true, badge := 7, aboard := some 3, membership := some 1 })], permits := [(1, { inUse := true, number := 20, holder := 2, state := .issued, members := [2] })], lists := [(3, { cells := [{ cell := .prompt 7, age := 0 }] })] }
    let t := after (.graceEndReached 2) p
    t.watch 2 = { p.watch 2 with state := .alarm, prompt := .none, alarm := some { reason := .missedCheckIn, raised := 1000, via := some 3 } } ∧ (t.permit 1).state = .suspended ∧ (t.permit 1).alarmCauses = [2] ∧ t.list 3 = {} ∧
      [t.rawWord (slotBase 0 + 1), t.rawWord (slotBase 0 + 2), t.rawWord (slotBase 0 + 5), t.rawWord (slotBase 0 + 6), t.rawWord (slotBase 0 + 7)] = [0x11, 0x0101, 3, 2, 7] ∧
      t.rawWord (slotBase 1 + 1) = 0x21 := by
  decide +kernel

theorem witness_WatchCards :
    let start := posted calm .watchStart [7, 30, 700]
    let member := posted { calm with
      workers := [(2, { inUse := true, badge := 7, aboard := some 3, membership := some 1 })]
      permits := [(1, { inUse := true, number := 20, holder := 2, state := .issued, interval := 300 })] } .watchStart [7, 3600, 30]
    let stop := posted yard .watchStop [7]
    let stopped := posted calm .watchStop [7]
    let check := posted calm .watchCheck [7, 1, 600]
    AtCard start 5 .watchStart start ∧ start.findWorker ((start.card 5).num 8) = some 2 ∧ (start.watch 2).state = .off ∧
    start.reachable 2 = true ∧ (start.worker 2).membership = none ∧ (start.card 5).num 9 < 60 ∧
    AtCard member 5 .watchStart member ∧ (member.worker 2).membership = some 1 ∧ (member.permit 1).state = .issued ∧
    60 ≤ (member.card 5).num 9 ∧ (member.card 5).num 9 ≤ 3600 ∧ 30 ≤ (member.card 5).num 10 ∧
    AtCard stop 5 .watchStop stop ∧ (stop.watch 2).state = .watching ∧ (stop.worker 2).membership = none ∧
    AtCard stopped 5 .watchStop stopped ∧ (stopped.watch 2).state = .off ∧
    AtCard check 5 .watchCheck check ∧ check.reachable 2 = true ∧ (check.card 5).num 9 ≤ 1 ∧
    (check.card 5).num 10 ≤ 600 := by
  unfold AtCard; decide +kernel

/-- R99. -/
theorem test_watchStart_clamped :
    let s := posted calm .watchStart [7, 30, 700]
    after (.watchStart 5) s =
      answeredAs s { s with watches := [(2, { mode := .continuous, state := .watching, interval := 60, grace := 600, lastCheckIn := 1000, deadline := 1060 })] } 5 ⟨.doneClamped, 9, [2, 1, 0x0424, 0]⟩ := by
  decide +kernel

/-- R114. -/
theorem test_watchCheck_prompts :
    let s := posted calm .watchCheck [7, 1, 600]
    let t := after (.watchCheck 5) s
    (t.watch 2) = { mode := .singleFail, grace := 600, state := .prompted, prompt := .queued, graceEnd := 1600} ∧
      (t.list 3).present (.prompt 7) := by
  decide +kernel

/-- Worker 2 in ALARM, and an alarm of truck 3. -/
def alarmed : State :=
  { yard with
    watches := [(2, { mode := .continuous, state := .alarm, alarm := some { reason := .panic, raised := 900, via := some 3 } })]
    truckAlarms := [(3, { manDown := false, badge := 0, raised := 900 } |> some)] }

theorem witness_AlarmCards :
    let ack := posted alarmed .alarmAck [0, 7]
    let off := posted { alarmed with workers := [(2, { inUse := true, badge := 7 })] } .alarmAck [0, 7]
    let ackTruck := posted alarmed .alarmAck [1, 0, 0x101]
    let res := posted alarmed .alarmResolve [0, 7]
    let resTruck := posted alarmed .alarmResolve [1, 0, 0x101]
    AtCard ack 5 .alarmAck ack ∧ ack.alarmTarget (ack.card 5) = .worker 2 ∧ (ack.watch 2).state = .alarm ∧
    (ack.watch 2).alarm.isSome = true ∧ (ack.worker 2).aboard = some 3 ∧ AtCard off 5 .alarmAck off ∧
    off.alarmTarget (off.card 5) = .worker 2 ∧ (off.worker 2).aboard = none ∧ AtCard ackTruck 5 .alarmAck ackTruck ∧
    ackTruck.alarmTarget (ackTruck.card 5) = .truck 3 ∧ (ackTruck.truckAlarm 3).isSome = true ∧
    AtCard res 5 .alarmResolve res ∧ res.alarmTarget (res.card 5) = .worker 2 ∧ AtCard resTruck 5 .alarmResolve resTruck ∧
    resTruck.alarmTarget (resTruck.card 5) = .truck 3 := by
  unfold AtCard; decide +kernel

/-- A resolve for a worker aboard no truck, in a single check. -/
theorem witness_AlarmCards_single :
    let s := posted { alarmed with
      workers := [(2, { inUse := true, badge := 7 })]
      watches := [(2, { mode := .singleAll, state := .acknowledged, alarm := some { reason := .missedCheckIn, raised := 900, via := none } })] } .alarmResolve [0, 7]
    AtCard s 5 .alarmResolve s ∧ s.alarmTarget (s.card 5) = .worker 2 ∧ (s.watch 2).state = .acknowledged ∧
    (s.watch 2).mode ≠ .continuous ∧ (s.worker 2).aboard = none := by
  unfold AtCard; decide +kernel

/-- R110. -/
theorem test_alarmAck_worker :
    let s := posted alarmed .alarmAck [0, 7]
    let t := after (.alarmAck 5) s
    t.card 5 2 = 0 ∧ t.card 5 4 = 2 ∧ t.card 5 5 = 4 ∧ t.card 5 6 = 0 ∧ (t.list 3).present (.alarmSeenWorker 7) ∧
      (t.watch 2).state = .acknowledged := by
  decide +kernel

/-- R111. -/
theorem test_alarmAck_truck :
    let s := posted alarmed .alarmAck [1, 0, 0x101]
    let t := after (.alarmAck 5) s
    t.card 5 2 = 0 ∧ t.card 5 4 = 3 ∧ t.card 5 5 = 1 ∧ (t.list 3).present (.alarmSeenTruck 3) ∧
      t.truckAlarm 3 = some { manDown := false, badge := 0, raised := 900, acked := true, acknowledged := 1000, seen := .queued } := by
  decide +kernel

/-- R112. -/
theorem test_alarmResolve_worker :
    let s := posted alarmed .alarmResolve [0, 7]
    let t := after (.alarmResolve 5) s
    t.card 5 2 = 0 ∧ (t.watch 2).alarm = none ∧ (t.watch 2).state = .watching ∧ (t.watch 2).lastCheckIn = 1000 ∧
      (t.watch 2).deadline = 2800 := by
  decide +kernel

/-- R113. -/
theorem test_alarmResolve_truck :
    let s := posted alarmed .alarmResolve [1, 0, 0x101]
    let t := after (.alarmResolve 5) s
    t.card 5 2 = 0 ∧ t.card 5 4 = 3 ∧ t.card 5 5 = 0xFFFF ∧ t.truckAlarm 3 = none := by
  decide +kernel

/-! ### Witnesses: the part's internal events -/

/-- The job of an order of 3 characters for truck 3 on two pages' worth of records: record 0, page 0. -/
def job : OrderJob :=
  { record := 0, number := 50, truck := 3, priority := .urgent, link := none, length := 3, pages := [0] }

/-- The copy of that order, from buffer 0, nothing read yet. -/
def copy : Copy := { card := 5, buffer := 0, total := 2, job := .order job }

/-- The yard with card 5 TAKEN, its copy running, and the text A, B, C in the buffer. -/
def copying : State :=
  { yard with
    copies := [copy]
    mem := memSetWord (memSetWords [] (stagingBase 0) [0x4241, 0x43]) (cardBase 5) 2 }

theorem witness_OrderCopyCompletes :
    copying.copies.find? (fun x => decide (x.card = 5)) = some copy ∧ copy.job = .order job ∧
      copying.queue job.truck = [] ∧
    job.pages.Nodup ∧ job.pages.length = (job.length + 63) / 64 ∧
    (copying.copyWords copy).length = (job.length + 1) / 2 := by decide +kernel

/-- A queue of an URGENT head, in the state given, and two orders behind it. -/
def behind (st : OrderState) (p : Priority) : State :=
  let o (n : Nat) (p : Priority) (st : OrderState) : Order :=
    { inUse := true, number := n, truck := 3, priority := p, state := st, seq := BitVec.ofNat 32 n, attempts := 2 }
  { copying with
    orderSeq := 9, queues := [(3, [1, 2, 3])]
    orders := [(1, o 1 .urgent st), (2, o 2 .urgent .queued), (3, o 3 .routine .queued)]
    copies := [{ copy with job := .order { job with priority := p } }] }

theorem witness_OrderCopyCompletes_queue :
    let s := behind .sending .emergency
    s.queue 3 = 1 :: [2, 3] ∧ 0 ∉ s.queue 3 ∧ (s.order 1).state = .sending ∧ (s.order 1).priority ≠ .emergency ∧
    [2, 3].map (fun i => (decide ((s.order 1).priority.code < (s.order i).priority.code) ||
      (decide ((s.order i).priority = (s.order 1).priority) && older 10 (s.order i).seq (s.order 1).seq))) = [false, false] ∧
    ((behind .queued .urgent).order 1).state = .queued ∧
    [1, 2, 3].map (fun i => decide (Priority.urgent.code ≤ ((behind .queued .urgent).order i).priority.code)) =
      [true, true, false] := by
  decide

/-- R79: the EMERGENCY order preempts the SENDING head, which goes back before the orders of its priority that came later. -/
theorem test_emergency_preempts :
    let t := after (.orderPostCopyComplete 5) (behind .sending .emergency)
    t.queue 3 = [0, 1, 2, 3] ∧ (t.order 1).state = .queued ∧ (t.order 1).attempts = 0 := by
  decide +kernel

/-- R78: an URGENT order goes behind the URGENT orders and ahead of the ROUTINE one. -/
theorem test_urgent_placed :
    (after (.orderPostCopyComplete 5) (behind .stalled .urgent)).queue 3 = [1, 2, 0, 3] := by
  decide +kernel

/-- R74, R75. -/
theorem test_order_copy_fills_record :
    let t := after (.orderPostCopyComplete 5) copying
    t.card 5 0 = 3 ∧ t.card 5 2 = 0 ∧ [t.card 5 4, t.card 5 5, t.card 5 6] = [0, 1, 2] ∧ t.queue 3 = [0] ∧
      t.pool = [(0, 0x41), (1, 0x42), (2, 0x43)] ∧ t.freePages.length = 1023 ∧ (t.order 0).cells.length = 2 ∧
      t.copies = [] := by
  decide +kernel

/-- The copy of a program of one step, whose words are given. -/
def loading (words : List Word) : State :=
  { yard with
    copies := [{ card := 5, buffer := 0, total := 8, job := .program { record := 0, number := 60, mode := .stepped, count := 1 } }]
    mem := memSetWord (memSetWords [] (stagingBase 0) words) (cardBase 5) 2 }

theorem witness_ProgramCopyCompletes :
    let steps (s : State) := s.copies.map fun k => rawStep (s.copyWords k) 0
    (steps (loading [0, 0, 0, 0x101, 0, 0, 0])).map RawStep.badField = [true] ∧
    (steps (loading [40, 0, 20, 0x101, 0, 0, 0])).map (fun x => (x.badField, x.badCombination)) = [(false, true)] ∧
    (steps (loading [41, 0, 0, 0x101, 0, 0, 0])).map (fun x => (x.badField, x.badCombination, yard.missing x)) =
      [(false, false, true)] ∧
    (steps (loading [40, 0, 0, 0x101, 0, 0, 0])).map (fun x => (x.badField, x.badCombination, yard.missing x)) =
      [(false, false, false)] := by decide +kernel

/-- R153. -/
theorem test_program_copy_refuses_step :
    let t := after (.programLoadCopyComplete 5) (loading [40, 0, 20, 0x101, 0, 0, 0])
    t.card 5 0 = 3 ∧ t.card 5 2 = 5 ∧ t.card 5 3 = 1 ∧ t.programs = [] := by
  decide +kernel

/-- R153. -/
theorem test_program_copy_loads :
    let t := after (.programLoadCopyComplete 5) (loading [40, 0, 0, 0x101, 0, 0, 0])
    t.card 5 0 = 3 ∧ t.card 5 2 = 0 ∧
      t.programs = [(0, { number := 60, mode := .stepped, state := .loaded, steps := [{ device := 4, action := .openIt, permit := none, truck := 3, guard := .always, ref := 4, rule := .crew }] })] := by
  decide +kernel

theorem witness_WaitingGroupsTakeTurns :
    let b (i : Nat) : DownCell := .readbackOk i 1
    let s (n : Nat) (rest : List (List DownCell)) : State := { yard with
      lists := [(3, { cells := (List.range n).map (fun i => { cell := b i, age := BitVec.ofNat 32 i })
                      waiting := [.signReply 20 7 .ok] :: rest })]
      ageCounter := 8 }
    (yard.list 3).waiting = [] ∧ 7 < ((s 7 []).list 3).countB + 1 ∧ ((s 6 [[b 9]]).list 3).countB ≤ 6 ∧
    6 ≤ ((s 6 [[b 9]]).list 3).countB ∧ (∀ g ∈ [[b 9]], 1 ≤ g.length) ∧ ((s 0 []).list 3).countB ≤ 6 := by decide

theorem witness_WaitingGroupsTakeTurns_two :
    let s (gs : List (List DownCell)) : State := { yard with
      lists := [(3, { cells := (List.range 5).map (fun i => { cell := .readbackOk i 1, age := BitVec.ofNat 32 i })
                      waiting := gs })]
      permits := [(1, { inUse := true, number := 20, state := .issuing, issueTruck := 3, issueCells := .waiting })]
      ageCounter := 8 }
    let two := [[DownCell.signReply 20 7 .ok], [.signReply 20 7 .full]]
    let issue := [[DownCell.permitIssue 20 7 1 40, .points 20 [(40, .opened)]]]
    ((s two).list 3).waiting = two ∧ ((s two).list 3).countB ≤ 5 ∧ ((s issue).list 3).waiting = issue ∧
    (DownCell.points 20 [(40, .opened)]).isA = false ∧ ((s issue).list 3).countB + 1 + 1 ≤ 7 ∧
    (s issue).findPermit 20 = some 1 ∧ ((s issue).permit 1).issueCells = .waiting := by decide

/-- R138: the issue group of permit 20 fits. -/
theorem test_issue_group_offered :
    let s : State := { yard with
      lists := [(3, { waiting := [[.permitIssue 20 7 1 40, .points 20 [(40, .opened)]]] })]
      permits := [(1, { inUse := true, number := 20, state := .issuing, issueTruck := 3, issueCells := .waiting })] }
    let t := after (.waitingGroupOffer 3) s
    (t.list 3).cells.map (·.cell) = [.permitIssue 20 7 1 40, .points 20 [(40, .opened)]] ∧
      (t.permit 1).issueCells = .queued := by
  decide +kernel

/-- A step that opens device 4 through truck 3 and waits for the truck. -/
def openStep : Step :=
  { device := 4, action := .openIt, permit := none, truck := 3, guard := .always, ref := 4, rule := .crew }

/-- The yard with a program of that step at index 0. -/
def withProgram (st : ProgramState) (mode : ProgramMode) (x : Step) : State :=
  { yard with programs := [(0, { number := 60, mode, state := st, steps := [x] })] }

theorem witness_WaitsEnd :
    let wait := { openStep with pending := .truck }
    let h := withProgram .halted .stepped wait
    let r := withProgram .running .stepped wait
    yard.onChannel 3 = true ∧ (yard.truck 0).state = .vacant ∧
    (∀ g < 16, ∀ st ∈ (yard.program g).steps, st.pending ≠ .truck ∨ st.truck ≠ 3) ∧
    (h.program 0).state = .halted ∧ (h.program 0).steps = [wait] ∧
    (∀ i < 16, i ≠ 0 → ∀ x ∈ (h.program i).steps, x.pending ≠ .truck ∨ x.truck ≠ 3) ∧
    (r.truck 3).state = .onAir ∧ (r.program 0).state = .running ∧ (r.program 0).next = 1 ∧
    (r.device 4).outstanding = none ∧ r.interlock wait = none ∧ wait.guard.holds (r.device 4) = true ∧
    r.groupWaits 3 [r.stepCell 0 1 wait] = false := by decide

/-- R156. -/
theorem test_truck_wait_ends_in_release :
    let r := withProgram .running .stepped { openStep with pending := .truck }
    after (.stepWaitTruckEnd 3) r = publish r (r.releaseStep 0 1 { openStep with pending := .truck }) := by
  decide +kernel

/-- The STEP group of step 1 of program 60 at the head of truck 3's queue. -/
def stepWaits (st : ProgramState) (x : Step) (more : List (List DownCell)) : State :=
  { withProgram st .stepped x with lists := [(3, { waiting := [.step 60 1 40 .openIt 0] :: more })] }

theorem witness_WaitingGroupsTakeTurns_step :
    let wait := { openStep with pending := .channel }
    let s := stepWaits .running wait []
    let guard := { wait with guard := .refOpen }
    let two := stepWaits .halted wait [[.signReply 20 7 .ok]]
    s.findProgram 60 = some 0 ∧ (s.program 0).step 1 = some wait ∧ wait.truck = 3 ∧ (s.list 3).countB ≤ 6 ∧
    (s.list 3).waiting = [[.step 60 1 40 .openIt 0]] ∧ s.releaseVerdict 0 1 wait = .pass ∧
    (stepWaits .halted wait []).releaseVerdict 0 1 wait = .notRunning ∧
    { s with trucks := [] }.releaseVerdict 0 1 wait = .noTruck ∧
    (stepWaits .running guard []).releaseVerdict 0 1 guard = .fail .guardFalse ∧
    { s with programs := [(0, { s.program 0 with next := 2 })] }.releaseVerdict 0 1 wait = .outOfOrder ∧
    (two.list 3).waiting = [[.step 60 1 40 .openIt 0], [.signReply 20 7 .ok]] ∧
    two.releaseVerdict 0 1 wait = .notRunning := by decide

/-- R156: the step loses its wait, and the next group takes the room. -/
theorem test_step_group_passes_offer_on :
    let t := after (.waitingGroupOffer 3) (stepWaits .halted { openStep with pending := .channel } [[.signReply 20 7 .ok]])
    (t.program 0).steps = [openStep] ∧ t.list 3 = { cells := [{ cell := .signReply 20 7 .ok, age := 0 }] } := by
  decide +kernel

/-- The yard with an order in a state at index 0, alone in truck 3's queue. -/
def withOrder (st : OrderState) (marks : List CellMark) : State :=
  { yard with
    orders := [(0, { inUse := true, number := 50, truck := 3, priority := .urgent, length := 3, pages := [1023], cells := marks, state := st, attempts := 8, timePosted := 900, timeStatus := 900 })]
    freePages := List.range 1023, queues := [(3, [0])] }

theorem witness_OrderStallResume :
    let s := withOrder .stalled [{}, {}]
    (yard.queue 3) = [] ∧ s.queue 3 = 0 :: [] ∧ (s.order 0).state = .stalled ∧ (s.link 3).grade ≠ .lost ∧
    ((withOrder .queued [{}, {}]).order 0).state ≠ .stalled := by decide +kernel

/-- R85. -/
theorem test_stalled_order_resumes :
    let s := withOrder .stalled [{}, {}]
    after (.orderStallResume 3) s =
      publish s ({ s with orders := tableSet {} s.orders 0 { s.order 0 with state := .sending, attempts := 0 } }.raise { kind := .orderStalled, reason := 2, truck := 3, item := 50, value := 0 }) := by
  decide +kernel

/-- A permit of one point, device 4, held by worker 2, at index 1. -/
def withPermit (st : PermitState) (members : List Nat) (tags : Nat) : State :=
  { yard with
    permits := [(1, { inUse := true, number := 20, holder := 2, points := [⟨4, .opened⟩], check := 40, interval := 300, state := st, members, tagsHeld := tags })]
    workers := [(2, { inUse := true, badge := 7, aboard := some 3, membership := if members = [] then none else some 1 })]
    devices := [(4, { inUse := true, id := 40, kind := .isolator, position := .opened, source := .report, tags := if tags = 0 then [] else [1] })] }

theorem witness_PermitCloses :
    ((withPermit .surrendered [] 0).permit 1).state = .surrendered ∧
      ((withPermit .surrendered [] 0).permit 1).tagsHeld = 0 ∧
    ((withPermit .surrendered [] 0).permit 1).tagSteps = 0 ∧ 0 < ((withPermit .cancelled [] 1).permit 1).tagsHeld ∧
    ((withPermit .issued [] 0).permit 1).state ≠ .surrendered := by decide

/-- R147. -/
theorem test_surrendered_permit_closes :
    let s := withPermit .surrendered [] 0
    let t := after (.permitClose 1) s
    (t.permit 1).state = .closed ∧ (t.permit 1).timeClosed = 1000 ∧ t.slotFilled 0 := by
  decide +kernel

/-! ### Witnesses: cards of the Registry and the Channel Controller -/

theorem witness_TruckAdded :
    let s := posted {} .truckAdd [0x101, 0, 0x4241, 0x4443, 0x2020, 0x2020, 1]
    let r := s.card 5
    AtCard s 5 .truckAdd s ∧ 1 ≤ r.radio 8 ∧ r.radio 8 ≤ 16777214 ∧ callSignFault r = none ∧ r.num 14 ≤ 1 ∧
    (s.truck 0).state = .vacant ∧ s.trucks = [] := by
  unfold AtCard; decide +kernel

/-- With no truck entry filled, no entry holds any radio id, and the tables are in canonical form. -/
theorem witness_TruckAdded_rest (m : Memory) (hm : Memory.wf m = true) :
    let s : State := { mem := m }
    s.Canonical ∧ ∀ i, (s.truck i).state ≠ .vacant → (s.truck i).radioId ≠ 0x101 :=
  ⟨⟨hm, rfl, rfl, rfl, rfl, rfl, rfl, rfl, rfl, rfl, rfl, rfl, rfl, rfl⟩, fun _ h => absurd rfl h⟩

/-- R6. -/
theorem test_truckAdd_probe_counter :
    let s := posted {} .truckAdd [0x101, 0, 0x4241, 0x4443, 0x2020, 0x2020, 1]
    let t := after (.truckAdd 5) s
    [t.card 5 2, t.card 5 4, t.card 5 5] = [0, 0, 1] ∧ t.counter 0 = { probe := 8 } := by
  decide +kernel

theorem witness_TruckRemoved :
    let s (cells : IssueCells) := posted { withPermit .issuing [] 0 with
      trucks := [(3, { radioId := 0x101, state := .onAir })]
      permits := [(1, { inUse := true, number := 20, state := .issuing, issueTruck := 3, issueCells := cells })] } .truckRemove [0x101]
    let q := s .queued
    AtCard q 5 .truckRemove q ∧ q.findTruck ((q.card 5).radio 8) = some 3 ∧ (q.truck 3).crew = [] ∧
      q.openOrders 3 = false ∧
    q.truckInProgram 3 = false ∧ q.truckAlarm 3 = none ∧ (q.permit 1).state = .issuing ∧ (q.permit 1).issueTruck = 3 ∧
    (q.permit 1).issueCells = .queued ∧ ((s .delivered).permit 1).issueCells = .delivered ∧ (q.permit 2).state ≠ .issuing := by
  unfold AtCard; decide +kernel

/-- R7, R138: the issue cells had been delivered. -/
theorem test_truckRemove_returns_issue :
    let s := posted { withPermit .issuing [] 0 with trucks := [(3, { radioId := 0x101, state := .onAir })], permits := [(1, { inUse := true, number := 20, state := .issuing, issueTruck := 3, issueCells := .delivered })] } .truckRemove [0x101]
    let t := after (.truckRemove 5) s
    t.trucks = [] ∧ t.links = [] ∧ (t.permit 1).state = .ready ∧ (t.permit 1).issueCells = .none ∧
      [t.card 5 2, t.card 5 4, t.card 5 5] = [0, 3, 0] := by
  decide +kernel

theorem witness_TruckParkedAndUnparked :
    let park := posted calm .truckPark [0x101]
    let parked : State := { calm with trucks := [(3, { radioId := 0x101, state := .parked, stateBefore := .onAir })] }
    let again := posted parked .truckPark [0x101]
    let un := posted parked .truckUnpark [0x101]
    let not := posted calm .truckUnpark [0x101]
    AtCard park 5 .truckPark park ∧ park.findTruck ((park.card 5).radio 8) = some 3 ∧ (park.truck 3).state ≠ .parked ∧
    (∀ w ∈ (park.truck 3).crew, (park.watch w).state = .off) ∧ AtCard again 5 .truckPark again ∧
    (again.truck 3).state = .parked ∧ AtCard parkWatched 5 .truckPark parkWatched ∧
    (∃ w ∈ (parkWatched.truck 3).crew, (parkWatched.watch w).state ≠ .off) ∧ AtCard un 5 .truckUnpark un ∧
    (un.truck 3).state = .parked ∧ (∀ g < 16, ∀ st ∈ (un.program g).steps, st.pending ≠ .truck ∨ st.truck ≠ 3) ∧
    AtCard not 5 .truckUnpark not ∧ (not.truck 3).state ≠ .parked := by
  unfold AtCard; decide +kernel

/-- R8. -/
theorem test_truckPark :
    let s := posted calm .truckPark [0x101]
    after (.truckPark 5) s =
      answeredAs s { s with trucks := tableSet {} s.trucks 3 { s.truck 3 with state := .parked, stateBefore := .onAir } } 5 (.ok [3, 4]) := by
  decide +kernel

/-- R9. -/
theorem test_truckUnpark :
    let s := posted { calm with trucks := [(3, { radioId := 0x101, state := .parked, stateBefore := .onAir })] } .truckUnpark [0x101]
    after (.truckUnpark 5) s =
      answeredAs s { s with trucks := tableSet {} s.trucks 3 { s.truck 3 with state := .onAir }, links := tableSet {} s.links 3 { s.link 3 with silent := 0 } } 5 (.ok [3, 2]) := by
  decide +kernel

/-- The yard with a second truck, 1, of radio id 0x102. -/
def twoTrucks : State :=
  { calm with trucks := [(1, { radioId := 0x102, state := .onAir }), (3, { radioId := 0x101, state := .onAir, crew := [2] })], lists := [(3, { cells := [{ cell := .prompt 7, age := 0 }] })], ageCounter := 1 }

theorem witness_RosterCards :
    let add := posted calm .workerAdd [9]
    let rem := posted calm .workerRemove [7]
    let ali := posted calm .alight [7]
    let off := posted { calm with workers := [(2, { inUse := true, badge := 7 })] } .alight [7]
    let aliw := posted yard .alight [7]
    AtCard add 5 .workerAdd add ∧ add.findWorker ((add.card 5).num 8) = none ∧ (add.worker 0).inUse = false ∧
    AtCard rem 5 .workerRemove rem ∧ rem.findWorker ((rem.card 5).num 8) = some 2 ∧ (rem.watch 2).state = .off ∧
    (rem.worker 2).membership = none ∧ rem.permits = [] ∧ (rem.worker 2).aboard = some 3 ∧
    AtCard ali 5 .alight ali ∧ (ali.worker 2).aboard = some 3 ∧ (ali.watch 2).state = .off ∧
    AtCard off 5 .alight off ∧ (off.worker 2).aboard = none ∧ AtCard aliw 5 .alight aliw ∧
      (aliw.watch 2).state ≠ .off := by
  unfold AtCard; decide +kernel

/-- R10. -/
theorem test_workerAdd :
    let s := posted calm .workerAdd [9]
    after (.workerAdd 5) s =
      answeredAs s { s with workers := tableSet {} s.workers 0 { inUse := true, badge := 9 } } 5 (.ok [0, 0xFFFF]) := by
  decide +kernel

/-- R14. -/
theorem test_alight :
    let s := posted calm .alight [7]
    after (.alight 5) s = answeredAs s { s with workers := [(2, { inUse := true, badge := 7 })], trucks := [(3, { radioId := 0x101, state := .onAir })] } 5 (.ok [2, 0xFFFF]) := by
  decide +kernel

theorem witness_Board :
    let s := posted twoTrucks .board [7, 0x102]
    let same := posted twoTrucks .board [7, 0x101]
    let full := posted { twoTrucks with trucks := [(1, { radioId := 0x102, state := .onAir, crew := [5, 6, 7, 8] }), (3, { radioId := 0x101, state := .onAir, crew := [2] })] } .board [7, 0x102]
    AtCard s 5 .board s ∧ s.findWorker ((s.card 5).num 8) = some 2 ∧ s.findTruck ((s.card 5).radio 9) = some 1 ∧
    (s.worker 2).aboard = some 3 ∧ (s.truck 1).crew.length < 4 ∧ (s.truck 1).state ≠ .parked ∧
    AtCard same 5 .board same ∧ same.findTruck ((same.card 5).radio 9) = some 3 ∧ AtCard full 5 .board full ∧
    4 ≤ (full.truck 1).crew.length := by
  unfold AtCard; decide +kernel

theorem witness_Board_unboarded :
    let s := posted { twoTrucks with workers := [(2, { inUse := true, badge := 7 })] } .board [7, 0x102]
    AtCard s 5 .board s ∧ s.findWorker ((s.card 5).num 8) = some 2 ∧ (s.worker 2).aboard = none ∧
    (s.truck 1).crew.length < 4 := by
  unfold AtCard; decide +kernel

/-- R13. -/
theorem test_board_moves_prompt :
    let s := posted twoTrucks .board [7, 0x102]
    let t := after (.board 5) s
    t.truck 1 = { radioId := 0x102, state := .onAir, crew := [2] } ∧ (t.truck 3).crew = [] ∧ t.list 3 = {} ∧
      (t.list 1).cells = [{ cell := .prompt 7, age := 0 }] ∧ (t.worker 2).aboard = some 1 := by
  decide +kernel

/-- A SITE SET that gives pollPeriod and probePeriod, both out of range. -/
def clampCard : State := posted { yard with authority := true } .siteSet [0xC0, 0, 0, 0, 0, 0, 0, 1, 31]

theorem witness_SiteCards :
    let all := posted yard .flagsClear [0, 0]
    let every := posted yard .flagsClear [0xFFFF, 0xFF]
    let one := posted yard .flagsClear [0x101, 0]
    let r := siteCard.card 5
    let st := siteCard.settings
    AtCard all 5 .flagsClear all ∧ (all.card 5).radio 8 = 0 ∧ AtCard every 5 .flagsClear every ∧
    (every.card 5).radio 8 = 16777215 ∧ AtCard one 5 .flagsClear one ∧ 1 ≤ (one.card 5).radio 8 ∧
    one.findTruck ((one.card 5).radio 8) = some 3 ∧ AtCard siteCard 5 .siteSet siteCard ∧ siteCard.authority = true ∧
    r.num 8 ≤ 255 ∧ 0 < st.weakDown ∧ st.weakDown < st.weakUp ∧ st.weakUp ≤ st.fairDown ∧ st.fairDown < st.fairUp ∧
    st.fairUp ≤ 500 ∧ siteCard.published = true ∧ AtCard clampCard 5 .siteSet clampCard ∧
    (clampCard.card 5 8).getLsbD 6 = true ∧ (clampCard.card 5).num 15 < 2 ∧ 30 < (clampCard.card 5).num 16 := by
  unfold AtCard; decide +kernel

/-- R40, R175: the first value out of range is named, and both are clamped. -/
theorem test_siteSet_clamps :
    let t := after (.siteSet 5) clampCard
    [t.card 5 2, t.card 5 3] = [1, 15] ∧ t.settings = { yard.settings with pollPeriod := 2, probePeriod := 30 } := by
  decide +kernel

/-! ### Witnesses: orders -/

theorem witness_CopiesStart :
    let s := posted (withPermit .draft [] 0) .orderPost [50, 0x101, 0, 1, 0, 3, 20]
    let g := posted yard .programLoad [60, 1, 0, 1]
    let r := s.card 5
    AtCard s 5 .orderPost s ∧ 1 ≤ r.num 8 ∧ Priority.ofCode (r.num 11) = some .urgent ∧ r.num 12 ≤ 7 ∧ 1 ≤ r.num 13 ∧
    r.num 14 ≠ 65535 ∧ s.findTruck (r.radio 9) = some 3 ∧ r.num 14 ≠ 0 ∧ s.findPermit (r.num 14) = some 1 ∧
    (s.permit 1).state = .draft ∧ s.findOrder (r.num 8) = none ∧ s.orderJobs = [] ∧ (s.order 0).inUse = false ∧
    (r.num 13 + 63) / 64 ≤ s.openPages.length ∧ (s.queue 3).length + 0 < 8 ∧
    AtCard g 5 .programLoad g ∧ ProgramMode.ofCode ((g.card 5).num 9) = some .stepped ∧ (g.card 5).num 10 ≤ 7 ∧
    (g.card 5).num 11 = 1 ∧ g.findProgram 60 = none ∧ g.programJobs = [] ∧ (g.program 0).state = .empty := by
  unfold AtCard; decide +kernel

/-- R74. -/
theorem test_orderPost_starts_copy :
    let s := posted (withPermit .draft [] 0) .orderPost [50, 0x101, 0, 1, 0, 3, 20]
    after (.orderPost 5) s =
      takenAs s { s with copies := [{ card := 5, buffer := 0, total := 2, job := .order { job with link := some ⟨1, 20⟩ } }] } 5 := by
  decide +kernel

/-- R152. -/
theorem test_programLoad_starts_copy :
    let s := posted yard .programLoad [60, 1, 0, 1]
    after (.programLoad 5) s =
      takenAs s { s with copies := [{ card := 5, buffer := 0, total := 8, job := .program { record := 0, number := 60, mode := .stepped, count := 1 } }] } 5 := by
  decide +kernel

theorem witness_OrderWithdrawnAndCleared :
    let q := posted (withOrder .queued [{}, {}]) .orderWithdraw [50]
    let f := posted (withOrder .queued [{ inFlight := true }, {}]) .orderWithdraw [50]
    let w := posted (withOrder .withdrawing [{}, {}]) .orderWithdraw [50]
    let done := posted (withOrder .complete [{}, {}]) .orderWithdraw [50]
    let c := posted (withOrder .complete [{}, {}]) .orderClear [50]
    let n := posted (withOrder .queued [{}, {}]) .orderClear [50]
    AtCard q 5 .orderWithdraw q ∧ q.findOrder ((q.card 5).num 8) = some 0 ∧ (q.order 0).state = .queued ∧
    (∀ m ∈ (q.order 0).cells, m.delivered = false ∧ m.inFlight = false) ∧ AtCard f 5 .orderWithdraw f ∧
    (∃ m ∈ (f.order 0).cells, m.delivered = true ∨ m.inFlight = true) ∧ AtCard w 5 .orderWithdraw w ∧
    (w.order 0).state = .withdrawing ∧ AtCard done 5 .orderWithdraw done ∧ AtCard c 5 .orderClear c ∧
    (c.order 0).state = .complete ∧ AtCard n 5 .orderClear n ∧ (n.order 0).state ≠ .withdrawn := by
  unfold AtCard; decide +kernel

/-- R91. -/
theorem test_untouched_order_withdrawn :
    let s := posted (withOrder .queued [{}, {}]) .orderWithdraw [50]
    let t := after (.orderWithdraw 5) s
    (t.order 0).state = .withdrawn ∧ (t.order 0).pages = [] ∧ t.freePages.length = 1024 ∧ t.queue 3 = [] ∧
      t.card 5 2 = 0 ∧ t.list 3 = {} := by
  decide +kernel

/-- R91. -/
theorem test_touched_order_withdrawing :
    let s := posted (withOrder .queued [{ inFlight := true }, {}]) .orderWithdraw [50]
    let t := after (.orderWithdraw 5) s
    (t.order 0).state = .withdrawing ∧ t.queue 3 = [] ∧ (t.list 3).present (.orderWithdraw 50) := by
  decide +kernel

/-- R93. -/
theorem test_orderClear :
    let s := posted (withOrder .complete [{}, {}]) .orderClear [50]
    after (.orderClear 5) s = answeredAs s { s with orders := [] } 5 (.ok [0]) := by
  decide +kernel

theorem witness_OrderStatusTaken :
    let linked : State := { withPermit .draft [] 0 with
      orders := [(0, { inUse := true, number := 50, truck := 3, state := .onSite, link := some ⟨1, 20⟩ })] }
    yard.findOrder 50 = none ∧
    (∀ st ∈ [OrderState.queued, .withdrawing, .declined, .delivered, .accepted, .enRoute, .onSite],
      let s := withOrder st []
      s.findOrder 50 = some 0 ∧ (s.order 0).truck = 3 ∧ (s.order 0).state = st ∧ (s.order 0).link = none) ∧
    linked.findOrder 50 = some 0 ∧ (linked.order 0).truck = 3 ∧ (linked.order 0).state = .onSite ∧
    (linked.order 0).link = some ⟨1, 20⟩ ∧ (linked.permit 1).inUse = true ∧ (linked.permit 1).number = 20 ∧
    (linked.permit 1).state ≠ .closed := by decide +kernel

/-- R89. -/
theorem test_order_declined :
    let s := withOrder .delivered []
    s.orderStatus 3 50 1 =
      { s with orders := tableSet {} s.orders 0 { s.order 0 with state := .declined, timeStatus := 1000 } }.raise { kind := .orderStatus, reason := OrderState.declined.code, truck := 3, item := 50 } := by
  decide +kernel

/-- R90. -/
theorem test_complete_held_on_site :
    let s : State := { withPermit .draft [] 0 with orders := [(0, { inUse := true, number := 50, truck := 3, state := .delivered, link := some ⟨1, 20⟩ })] }
    (s.orderStatus 3 50 4).order 0 = { s.order 0 with state := .onSite, timeStatus := 1000 } ∧
      ((s.orderStatus 3 50 4).list 3).present (.statusReply 50 .permitOpen) := by
  decide +kernel

/-! ### Witnesses: devices and permits -/

theorem witness_DeviceAddedAndRemoved :
    let add := posted yard .deviceAdd [41, 4, 1]
    let rem := posted yard .deviceRemove [40]
    let tag := posted (withPermit .ready [] 1) .deviceRemove [40]
    AtCard add 5 .deviceAdd add ∧ DeviceKind.ofCode ((add.card 5).num 9) = some .earthSwitch ∧
    Position.ofCode ((add.card 5).num 10) = some .closed ∧ add.findDevice ((add.card 5).num 8) = none ∧
    (add.device 0).inUse = false ∧ AtCard rem 5 .deviceRemove rem ∧ rem.findDevice ((rem.card 5).num 8) = some 4 ∧
    (rem.device 4).tags = [] ∧ rem.permits = [] ∧ rem.programs = [] ∧ AtCard tag 5 .deviceRemove tag ∧
    tag.findDevice ((tag.card 5).num 8) = some 4 ∧ (tag.device 4).tags ≠ [] := by
  unfold AtCard; decide +kernel

/-- R120. -/
theorem test_deviceAdd_lowest :
    let s := posted yard .deviceAdd [41, 4, 1]
    after (.deviceAdd 5) s =
      answeredAs s { s with devices := tableSet {} s.devices 0 { inUse := true, id := 41, kind := .earthSwitch, position := .closed, source := .added, time := 1000 } } 5 (.ok [0]) := by
  decide +kernel

/-- R121. -/
theorem test_deviceRemove :
    let s := posted yard .deviceRemove [40]
    after (.deviceRemove 5) s = answeredAs s { s with devices := [] } 5 (.ok [4]) := by
  decide +kernel

/-- The yard with device 4 tagged for permit index 1, which no record in use names. -/
def tagged : State :=
  { yard with devices := [(4, { inUse := true, id := 40, kind := .isolator, position := .closed, source := .report, tags := [1] })] }

theorem witness_DeviceReported :
    let s := posted yard .deviceReport [40, 0]
    let u := posted yard .deviceReport [40, 2]
    let v := posted tagged .deviceReport [40, 0]
    AtCard s 5 .deviceReport s ∧ Position.ofCode ((s.card 5).num 9) = some .opened ∧
      s.findDevice ((s.card 5).num 8) = some 4 ∧
    (∀ p < 32, (s.permit p).inUse = true → ∀ pt ∈ (s.permit p).points, pt.device ≠ 4) ∧ (s.device 4).outstanding = none ∧
    (s.device 4).tags = [] ∧ AtCard u 5 .deviceReport u ∧ Position.ofCode ((u.card 5).num 9) = some .unknown ∧
    AtCard v 5 .deviceReport v ∧ (v.device 4).tags = [1] ∧ (v.device 4).position ≠ .unknown ∧
    (v.device 4).position ≠ .opened := by
  unfold AtCard; decide +kernel

theorem witness_DeviceReported_unplanned :
    yard.findDevice 41 = none ∧ yard.findDevice 40 = some 4 ∧ (yard.device 4).position = .closed ∧
    (yard.device 4).position ≠ .opened ∧ (yard.device 4).tags = [] ∧ (tagged.device 4).tags = [1] ∧
    (∀ p < 32, (tagged.permit p).inUse = true → ∀ pt ∈ (tagged.permit p).points, pt.device ≠ 4) := by
  decide

/-- R125, R126, R170: an UNPLANNED cell that repeats the position and the source that stand republishes the entry. -/
theorem test_unplanned_repeated :
    let s := { polls { radioId := 0x101, state := .onAir } {} with
      devices := [(4, { inUse := true, id := 40, kind := .isolator, position := .closed, source := .crew })] }
    let t := after (.upSlotReport 1 (.received (sealBurst ([0, 1, 1, 1, 0x62, 0, 40, 1] ++ List.replicate 8 0)) (-90))) s
    t.devices = s.devices ∧ t.edition (deviceBase 4) = s.edition (deviceBase 4) + 2 := by
  decide +kernel

/-- R126. -/
theorem test_unplanned_untagged :
    yard.routeCell 3 (.unplanned 40 .opened) =
      { yard with devices := tableSet {} yard.devices 4 { yard.device 4 with position := .opened, source := .crew, time := 1000 } }.raise
        { kind := .unplannedOperation, reason := 2, truck := 3, item := 40, value := 0, device := 4 } := by
  decide +kernel

/-- R123. -/
theorem test_unknown_report_stale :
    let s := posted yard .deviceReport [40, 2]
    after (.deviceReport 5) s =
      answeredAs s { s with devices := tableSet {} s.devices 4 { s.device 4 with position := .closed, source := .stale, time := 1000 } } 5 (.ok [4, packBytes 1 Source.stale.code, 0, 0]) := by
  decide +kernel

/-- R122. -/
theorem test_tag_violation :
    let s := posted tagged .deviceReport [40, 0]
    after (.deviceReport 5) s =
      answeredAs s ({ s with devices := tableSet {} s.devices 4 { s.device 4 with position := .opened, source := .report, time := 1000 } }.raise { kind := .tagViolation, reason := 1, device := 4, item := 40, permit := 1, value := 0 }) 5 (.ok [4, packBytes 0 Source.report.code, 0, 0]) := by
  decide +kernel

theorem witness_PermitDrafted :
    let s := posted yard .permitDraft [20, 7, 100, 1, 40, 0]
    let r := s.card 5
    AtCard s 5 .permitDraft s ∧ 1 ≤ r.num 8 ∧ 1 ≤ r.num 9 ∧ r.num 11 = 1 ∧
    (draftPoints r (r.num 11)).map (fun x => (x.id, x.code)) = [(40, 0)] ∧ s.findDevice 40 = some 4 ∧
    (s.device 4).kind.required = .opened ∧ Position.opened.code = 0 ∧ s.findWorker (r.num 9) = some 2 ∧
    s.findPermit (r.num 8) = none ∧ (s.permit 0).inUse = false ∧ (∀ e ∈ s.devices, 0 ∉ e.2.tags) := by
  unfold AtCard; decide +kernel

/-- No device carries a tag where no listed device does. -/
theorem witness_PermitDrafted_tags : ∀ d, 0 ∉ (yard.device d).tags := by
  intro d
  rcases Decidable.em (4 = d) with h | h
  · subst h; decide
  · simp [yard, State.device, tableGet, h]

/-- R133. -/
theorem test_permitDraft_clamped :
    let s := posted yard .permitDraft [20, 7, 100, 1, 40, 0]
    after (.permitDraft 5) s =
      answeredAs s { s with permits := [(0, { inUse := true, number := 20, holder := 2, points := [⟨4, .opened⟩], check := 40, interval := 300, state := .draft, timeDrafted := 1000, timeChanged := 1000 })] } 5 ⟨.doneClamped, 10, [0, 0]⟩ := by
  decide +kernel

theorem witness_PermitIssued :
    let s := posted (withPermit .ready [] 1) .permitIssue [20]
    AtCard s 5 .permitIssue s ∧ 1 ≤ (s.card 5).num 8 ∧ s.findPermit ((s.card 5).num 8) = some 1 ∧
      (s.permit 1).state = .ready ∧
    (s.watch 2).state = .watching ∧ (s.worker 2).membership = none ∧ (s.worker 2).aboard = some 3 := by
  unfold AtCard; decide +kernel

/-- For the cells of a permit: worker 6, badge 8, is no member; permit 20 is held by worker 2, badge 7. -/
theorem witness_PermitIssued_cells :
    let s (st : PermitState) (ms : List Nat) (m : Option Nat) (w : Watch) (wrong : Nat) : State := { withPermit st ms 0 with
      permits := [(1, { (withPermit st ms 0).permit 1 with issueTruck := 3, issueCells := .queued, wrongReadbacks := wrong })]
      workers := [(2, { inUse := true, badge := 7, aboard := some 3, membership := m }), (6, { inUse := true, badge := 8 })]
      watches := [(2, w), (6, w)] }
    let on : Watch := { mode := .continuous, state := .watching, lastCheckIn := 900, deadline := 1500 }
    let alarm : Watch := { mode := .continuous, state := .alarm }
    let i := s .issuing [] none on 2
    let d := s .issued [2] (some 1) on 0
    let full := s .issued [1, 2, 3, 4, 5, 7, 8, 9] (some 1) on 0
    yard.findPermit 20 = none ∧ i.findPermit 20 = some 1 ∧ i.findWorker 9 = none ∧ i.findWorker 7 = some 2 ∧
    i.findWorker 8 = some 6 ∧ (i.permit 1).state = .issuing ∧ (i.permit 1).holder = 2 ∧ (i.watch 2).state = .watching ∧
    (i.watch 2).mode = .continuous ∧ (i.worker 2).membership = none ∧ (i.permit 1).points.length = 1 ∧
    (i.permit 1).check = 40 ∧ (i.list 3).waiting = [] ∧ (i.permit 1).issueCells = .queued ∧
    3 ≤ (i.permit 1).wrongReadbacks + 1 ∧ ((s .issuing [] none on 1).permit 1).wrongReadbacks + 1 < 3 ∧
    ((s .issuing [] none alarm 0).watch 2).state = .alarm ∧ ((s .issuing [] none {} 0).watch 2).state = .off ∧
    ((s .issuing [] (some 2) on 0).worker 2).membership ≠ none ∧ (d.permit 1).state = .issued ∧
    2 ∈ (d.permit 1).members ∧ 6 ∉ (d.permit 1).members ∧ (d.worker 6).membership = none ∧
    (d.permit 1).members.length < 8 ∧ 8 ≤ (full.permit 1).members.length ∧ 6 ∉ (full.permit 1).members ∧
    6 ∈ ((s .issued [2, 6] (some 1) on 0).permit 1).members ∧ (∀ m ∈ (d.permit 1).members, m = (d.permit 1).holder) ∧
    (∃ m ∈ (full.permit 1).members, m ≠ 2) ∧ ((s .suspended [2] (some 1) on 0).permit 1).state = .suspended ∧
    ((s .surrendered [] none on 0).permit 1).state = .surrendered ∧ (on.lastCheckIn + 300 < on.deadline) ∧
    d.clock < on.lastCheckIn + 300 ∧ (d.permit 1).tagsHeld = 0 ∧ (d.permit 1).tagSteps = 0 ∧
    0 < ((withPermit .issued [2] 1).permit 1).tagsHeld := by
  decide

/-- R140, R138: an acceptance whose count and check agree. -/
theorem test_accept_issues :
    let s : State := { withPermit .issuing [] 0 with
      lists := [(3, { cells := [{ cell := .permitIssue 20 7 1 40, age := 0 }, { cell := .points 20 [(40, .opened)], age := 1 }] })]
      ageCounter := 2
      permits := [(1, { (withPermit .issuing [] 0).permit 1 with issueTruck := 3, issueCells := .queued })] }
    let t := s.routeCell 3 (.acceptPermit 20 7 1 40)
    (t.permit 1).state = .issued ∧ (t.permit 1).members = [2] ∧ (t.permit 1).issueCells = .none ∧
      (t.list 3).cells = [{ cell := .signReply 20 7 .ok, age := 2 }] ∧ (t.watch 2).deadline = 1200 := by
  decide +kernel

/-- R136. -/
theorem test_permitIssue_queues_group :
    let s := posted (withPermit .ready [] 1) .permitIssue [20]
    let t := after (.permitIssue 5) s
    [t.card 5 2, t.card 5 4, t.card 5 5, t.card 5 6, t.card 5 7] = [0, 1, 2, 2, 0] ∧ (t.permit 1).state = .issuing ∧
      (t.permit 1).issueCells = .queued ∧ (t.list 3).cells.map (·.cell) = s.issueGroup 1 ∧
      s.issueGroup 1 = [.permitIssue 20 7 1 40, .points 20 [(40, .opened)]] := by
  decide +kernel

theorem witness_PermitResumedAndCancelled :
    let r := posted (withPermit .suspended [2] 1) .permitResume [20]
    let n := posted (withPermit .ready [] 1) .permitResume [20]
    let a := posted { withPermit .suspended [2] 1 with watches := [(2, { state := .alarm })] } .permitResume [20]
    let held := posted (withPermit .ready [] 1) .permitCancel [20]
    let free := posted (withPermit .draft [] 0) .permitCancel [20]
    let no := posted (withPermit .issued [2] 1) .permitCancel [20]
    AtCard r 5 .permitResume r ∧ r.findPermit ((r.card 5).num 8) = some 1 ∧ (r.permit 1).state = .suspended ∧
    (∀ w ∈ (r.permit 1).members, (r.watch w).inAlarm = false) ∧ (∀ pt ∈ (r.permit 1).points, r.pointInPlace 1 pt = true) ∧
    AtCard n 5 .permitResume n ∧ (n.permit 1).state ≠ .suspended ∧ AtCard a 5 .permitResume a ∧
    (∃ w ∈ (a.permit 1).members, (a.watch w).inAlarm = true) ∧ AtCard held 5 .permitCancel held ∧
    (held.permit 1).state = .ready ∧ 0 < (held.permit 1).tagsHeld ∧ AtCard free 5 .permitCancel free ∧
    (free.permit 1).state = .draft ∧ (free.permit 1).tagsHeld = 0 ∧ (free.permit 1).tagSteps = 0 ∧
    AtCard no 5 .permitCancel no ∧ (no.permit 1).state = .issued := by
  unfold AtCard; decide +kernel

/-- R144. -/
theorem test_permitResume_keeps_earlier_deadline :
    let s := posted { withPermit .suspended [2] 1 with clock := 1400 } .permitResume [20]
    let t := after (.permitResume 5) s
    (t.permit 1).state = .issued ∧ t.card 5 2 = 0 ∧ (t.watch 2).deadline = 1200 := by
  decide +kernel

/-- R146. -/
theorem test_permitCancel_with_tag :
    let s := posted (withPermit .ready [] 1) .permitCancel [20]
    after (.permitCancel 5) s =
      answeredAs s ({ s with permits := tableSet {} s.permits 1 { s.permit 1 with state := .cancelled, timeChanged := 1000 } }.raise { kind := .permitState, reason := 6, permit := 1, permitNumber := 20 }) 5 (.ok [6]) := by
  decide +kernel

theorem witness_PermitForceClosedAndCleared :
    let f := posted { withPermit .issued [2] 1 with authority := true } .permitForceClose [20]
    let g := posted { withPermit .closed [] 0 with authority := true } .permitForceClose [20]
    let c := posted (withPermit .closed [] 0) .permitClear [20]
    let n := posted (withPermit .ready [] 1) .permitClear [20]
    AtCard f 5 .permitForceClose f ∧ f.findPermit ((f.card 5).num 8) = some 1 ∧ f.authority = true ∧
    (f.permit 1).state ≠ .closed ∧ (f.permit 1).inUse = true ∧ AtCard g 5 .permitForceClose g ∧ g.authority = true ∧
    (g.permit 1).state = .closed ∧ AtCard c 5 .permitClear c ∧ c.programs = [] ∧ AtCard n 5 .permitClear n ∧
    (n.permit 1).state ≠ .closed := by
  unfold AtCard; decide +kernel

/-- The permit's one point with a RELEASED TAG step of a RUNNING program for it. -/
def tagReleased : State :=
  { withPermit .issuing [] 1 with
    authority := true
    programs := [(0, { number := 60, mode := .stepped, state := .running, steps := [{ openStep with action := .tag, permit := some 1, state := .released, instruction := .queued }] })] }

theorem witness_PermitForceClosed_full (m : Memory) (hm : Memory.wf m = true) :
    let s : State := { tagReleased with mem := m }
    s.Canonical ∧ (∀ i, (s.list i).waiting = []) ∧ (s.permit 1).state ≠ .closed ∧
      (s.program 0).step 1 = some { openStep with action := .tag, permit := some 1, state := .released, instruction := .queued } :=
  have h : tagReleased.Canonical :=
    ⟨by decide, by decide, by decide, by decide, by decide, by decide, by decide, by decide, by decide, by decide,
      by decide, by decide, by decide, by decide⟩
  ⟨canonical_mem h hm, fun _ => rfl, nofun, rfl⟩

/-- R148 step 4: the step pulled back, its program halted, with their notices. -/
theorem test_forceClose_pulls_back :
    let t := tagReleased.recallForPermit 1 0
    (t.program 0).step 1 = some { openStep with action := .tag, permit := some 1 } ∧ (t.program 0).state = .halted ∧
    (t.program 0).halt = .permitClosed ∧ (t.list 3).present (.stepCancel 60 1) = true ∧
    [t.rawWord (slotBase 0 + 1), t.rawWord (slotBase 0 + 2), t.rawWord (slotBase 1 + 1), t.rawWord (slotBase 1 + 2)] =
      [0x31, 0x0703, 0x25, 0x0B02] := by
  decide +kernel

/-- R149. -/
theorem test_permitClear :
    let s := posted (withPermit .closed [] 0) .permitClear [20]
    after (.permitClear 5) s = answeredAs s { s with permits := [] } 5 (.ok [1]) := by
  decide +kernel

theorem witness_PermitsFollowDevices :
    let inPlace (st : PermitState) := (withPermit st [] 1)
    let out (st : PermitState) := (withPermit st [] 0)
    let issuing (c : IssueCells) : Permit := { (out .issuing).permit 1 with issueCells := c, issueTruck := 3 }
    let ready (s : State) := ∀ pt ∈ (s.permit 1).points, (s.device pt.device).position = pt.required ∧
      pt.required ≠ .unknown ∧
      (s.device pt.device).source ≠ .stale ∧ 1 ∈ (s.device pt.device).tags
    ready (inPlace .draft) ∧ ¬ ready (out .ready) ∧ ((inPlace .draft).permit 1).state = .draft ∧
    ((out .ready).permit 1).state = .ready ∧ ((out .issuing).permit 1).state = .issuing ∧
    ((out .issuing).permit 1).issueCells = .none ∧ (issuing .queued).issueCells = .queued ∧
    ((out .issuing).list (issuing .queued).issueTruck).waiting = [] ∧
    ((out .issued).permit 1).state = .issued ∧ ((inPlace .suspended).permit 1).state = .suspended ∧
    ((out .suspended).permit 1).state = .suspended ∧ ¬ ready (out .suspended) ∧
    (∃ pt ∈ ((out .suspended).permit 1).points, pt.device = 4) ∧ ((out .suspended).permit 1).lostCauses = [] ∧
    (∀ pt ∈ ((out .suspended).permit 1).points, pt.device ≠ 5) := by decide

/-- R135. -/
theorem test_lost_point_suspends :
    let u := (withPermit .issued [] 0).permitEvent 1 4 .pointLost
    (u.permit 1).state = .suspended ∧ (u.permit 1).lostCauses = [1] := by
  decide +kernel

/-- R135: a second cause joins a permit already SUSPENDED; its time of last state change stays (log 29). -/
theorem test_cause_joins_suspended :
    let s := withPermit .suspended [2] 0
    s.permitEvent 1 4 .unplanned =
      { s with permits := tableSet {} s.permits 1 { s.permit 1 with unplannedCauses := [1] } }.raise
        { kind := .permitSuspended, reason := 2, permit := 1, permitNumber := 20, device := 4, item := 40, step := 1 } := by
  decide +kernel

/-! ### Witnesses: programs -/

theorem witness_ReleaseChecksInOrder :
    let s := withProgram .running .stepped openStep
    let busy := { s with devices := [(4, { inUse := true, id := 40, outstanding := some ⟨0, 1⟩ })] }
    let tag := { s with devices := [(4, { inUse := true, id := 40, tags := [1] })] }
    (s.program 0).state = .running ∧ 1 = (s.program 0).next ∧ s.releaseVerdict 0 1 openStep = .pass ∧
    busy.releaseVerdict 0 1 openStep = .fail .deviceBusy ∧ tag.releaseVerdict 0 1 openStep = .fail .tagged ∧
    s.releaseVerdict 0 1 { openStep with guard := .refOpen } = .fail .guardFalse ∧
    { s with trucks := [] }.releaseVerdict 0 1 openStep = .noTruck ∧ s.releaseVerdict 0 2 openStep = .outOfOrder ∧
    (withProgram .halted .stepped openStep).releaseVerdict 0 1 openStep = .notRunning := by decide

/-- R155 check 4: each action with the reason of its failure. -/
theorem witness_ReleaseChecksInOrder_interlock :
    let s (p : PermitState) (ts : List Nat) : State := { withProgram .running .stepped openStep with
      permits := [(1, { inUse := true, number := 20, state := p })], devices := [(4, { inUse := true, id := 40, tags := ts })] }
    let tag : Step := { openStep with action := .tag, permit := some 1 }
    let untag : Step := { openStep with action := .untag, permit := some 1 }
    (s .issued []).releaseVerdict 0 1 tag = .fail .permitState ∧
    (s .ready [2, 3, 4, 5]).releaseVerdict 0 1 tag = .fail .tagSetFull ∧
    (s .suspended []).releaseVerdict 0 1 untag = .fail .suspended ∧
    (s .closed []).releaseVerdict 0 1 untag = .fail .permitState := by decide

theorem witness_ProgramControl :
    let stepped := posted (withProgram .loaded .stepped openStep) .programStart [60]
    let chained := posted (withProgram .loaded .chained openStep) .programStart [60]
    let ended := posted (withProgram .done .stepped openStep) .programStart [60]
    let runs := posted (withProgram .running .stepped openStep) .programStart [60]
    AtCard stepped 5 .programStart stepped ∧ stepped.findProgram ((stepped.card 5).num 8) = some 0 ∧
    (stepped.program 0).state = .loaded ∧ (stepped.program 0).mode = .stepped ∧
      (stepped.program 0).step 1 = some openStep ∧
    AtCard chained 5 .programStart chained ∧ (chained.program 0).mode = .chained ∧ (chained.program 0).next = 1 ∧
    AtCard ended 5 .programStart ended ∧ (ended.program 0).state = .done ∧ AtCard runs 5 .programStart runs ∧
    (runs.program 0).state = .running := by
  unfold AtCard; decide +kernel

/-- The chained program's next step passes its release checks once the program runs. -/
theorem witness_ProgramControl_chained :
    let s := posted (withProgram .loaded .chained openStep) .programStart [60]
    let begun := { s.program 0 with state := .running, halt := .none, timeStarted := s.clock }
    let started := { s with programs := tableSet {} s.programs 0 begun }.raise { kind := .programState, reason := 2, program := 60 }
    started.releaseVerdict 0 1 openStep = .pass ∧ started.groupWaits 3 [started.stepCell 0 1 openStep] = false := by
  decide +kernel

/-- R154. -/
theorem test_programStart_stepped :
    let s := posted (withProgram .loaded .stepped openStep) .programStart [60]
    let started := { s with programs := tableSet {} s.programs 0 { s.program 0 with state := .running, halt := .none, timeStarted := s.clock } }.raise { kind := .programState, reason := 2, program := 60 }
    after (.programStart 5) s = answeredAs s started 5 (.ok [0]) := by
  decide +kernel

theorem witness_ProgramControl_others :
    let out := { openStep with state := .executed }
    let h := posted (withProgram .running .stepped openStep) .programHalt [60]
    let o := posted (withProgram .running .stepped out) .programHalt [60]
    let hh := posted (withProgram .halted .stepped openStep) .programHalt [60]
    let r := posted (withProgram .halted .stepped openStep) .programResume [60, 0]
    let x := posted (withProgram .halted .stepped out) .programResume [60, 1]
    let a := posted (withProgram .loaded .stepped openStep) .programAbort [60]
    let c := posted (withProgram .done .stepped openStep) .programClear [60]
    AtCard h 5 .programHalt h ∧ (h.program 0).state = .running ∧ (h.program 0).hasOutstanding = false ∧
    AtCard o 5 .programHalt o ∧ (o.program 0).hasOutstanding = true ∧ AtCard hh 5 .programHalt hh ∧
    (hh.program 0).state = .halted ∧ AtCard r 5 .programResume r ∧ (r.card 5).num 9 = 0 ∧
    (r.program 0).next ≤ (r.program 0).steps.length ∧ (r.program 0).step (r.program 0).next = some openStep ∧
    AtCard x 5 .programResume x ∧ (x.card 5).num 9 = 1 ∧ (x.program 0).step (x.program 0).next = some out ∧
    AtCard a 5 .programAbort a ∧ (a.program 0).live = true ∧ (a.program 0).hasOutstanding = false ∧
    AtCard c 5 .programClear c ∧ (c.program 0).state = .done ∧ (c.program 0).cancels = 0 ∧
    0 < ({ c.program 0 with cancels := 1 } : Program).cancels := by
  unfold AtCard; decide +kernel

theorem witness_ProgramControl_resumes :
    let refused := { openStep with state := .refused, refusal := .guardFalse, wrong := 2 }
    let chain := posted (withProgram .halted .chained refused) .programResume [60, 0]
    let again := { refused with state := .pending, refusal := .none, wrong := 0 }
    let run := { chain.program 0 with state := .running, halt := .none, steps := [again] }
    let begun := { chain with programs := tableSet {} chain.programs 0 run }.raise { kind := .programState, reason := 2, program := 60 }
    let last := posted (withProgram .halted .stepped refused) .programResume [60, 1]
    let more := posted { yard with programs := [(0, { number := 60, mode := .stepped, state := .halted, steps := [refused, openStep] })] } .programResume [60, 1]
    AtCard chain 5 .programResume chain ∧ (chain.program 0).step 1 = some refused ∧
    begun.releaseVerdict 0 1 again = .pass ∧ begun.groupWaits 3 [begun.stepCell 0 1 again] = false ∧
    AtCard last 5 .programResume last ∧ (last.program 0).step (last.program 0).next = some refused ∧
    { last.program 0 with steps := [{ refused with state := .skipped }] }.firstOpen = 2 ∧
    AtCard more 5 .programResume more ∧ { more.program 0 with steps := [{ refused with state := .skipped }, openStep] }.firstOpen = 2 := by
  unfold AtCard; decide +kernel

/-- A RUNNING program whose one step is RELEASED; no group waits in any list, and the tables are canonical. -/
def outstandingProgram : State := withProgram .running .stepped { openStep with state := .released, instruction := .queued }

theorem witness_ProgramControl_abort :
    let s := posted outstandingProgram .programAbort [60]
    AtCard s 5 .programAbort s ∧ s.findProgram ((s.card 5).num 8) = some 0 ∧ (s.program 0).live = true ∧
    ((s.program 0).step 1).map (·.state) = some .released ∧ (s.program 0).step 2 = none ∧ s.lists = [] ∧
    (s.list 3).present (.stepCancel 60 1) = false ∧ Memory.wf s.mem = true := by
  unfold AtCard; decide +kernel

theorem witness_ProgramControl_abort_canonical (m : Memory) (hm : Memory.wf m = true) :
    ({ outstandingProgram with mem := m } : State).Canonical ∧ ∀ t, (({ outstandingProgram with mem := m } : State).list t).waiting = [] :=
  have h : outstandingProgram.Canonical :=
    ⟨by decide, by decide, by decide, by decide, by decide, by decide, by decide, by decide, by decide, by decide,
      by decide, by decide, by decide, by decide⟩
  ⟨canonical_mem h hm, fun _ => rfl⟩

/-- A RUNNING program whose STEP group stands behind a SIGN REPLY in the queue of a truck. -/
def queuedProgram (out : Bool) : State :=
  { yard with
    programs := [(0, { number := 60, mode := .stepped, state := .running, steps := [{ openStep with state := if out then .executed else .pending, pending := if out then .none else .channel }] })]
    lists := [(3, { waiting := [[.signReply 20 7 .ok], [.step 60 1 40 .openIt 0]] })] }

theorem witness_ProgramControl_waits (m : Memory) (hm : Memory.wf m = true) (b : Bool) :
    let s : State := { queuedProgram b with mem := m }
    s.Canonical ∧ s.NoneMovesUp 60 ∧ (s.program 0).state = .running ∧ (s.program 0).live = true ∧
      (s.program 0).hasOutstanding = b := by
  have h : (queuedProgram b).Canonical := by
    cases b <;> exact ⟨by decide, by decide, by decide, by decide, by decide, by decide, by decide, by decide, by decide,
      by decide, by decide, by decide, by decide, by decide⟩
  refine ⟨canonical_mem h hm, fun t => .inl ?_, ?_⟩
  · intro group rest h
    rcases Decidable.em (3 = t) with e | e
    · subst e; cases h; rfl
    · simp [State.list, queuedProgram, tableGet, e] at h
  · cases b <;> exact ⟨rfl, rfl, rfl⟩

/-- The permit of a RELEASED TAG step that closes when the step ends, and one that does not. -/
theorem witness_ProgramControl_closes :
    let tag : Step := { openStep with action := .tag, permit := some 1, state := .released }
    let s : State := { withProgram .running .stepped tag with permits := [(1, { inUse := true, number := 20, state := .cancelled, tagSteps := 1 })] }
    (s.program 0).step 1 = some tag ∧ (s.permit 1).state = .cancelled ∧ (s.permit 1).tagsHeld = 0 ∧
    (s.permit 1).tagSteps - 1 = 0 ∧ (outstandingProgram.permit 1).state ≠ .cancelled := by decide

/-- R160, R164: a skip that leaves no step: the program is DONE, and was not RUNNING in between. -/
theorem test_skip_last_step :
    let s := posted (withProgram .halted .stepped openStep) .programResume [60, 1]
    let skipped : Step := { openStep with state := .skipped }
    after (.programResume 5) s = answeredAs s
      (({ s with programs := [(0, { number := 60, mode := .stepped, state := .done, steps := [skipped], next := 2, timeEnded := 1000 })] }.raise
        { kind := .stepState, reason := 6, program := 60, step := 1, device := 4, item := 40 }).raise
        { kind := .programState, reason := 5, program := 60 }) 5 (.ok [5]) := by
  decide +kernel

/-- R164. -/
theorem test_programResume_halted :
    let s := posted (withProgram .halted .stepped openStep) .programResume [60, 0]
    after (.programResume 5) s =
      answeredAs s ({ s with programs := tableSet {} s.programs 0 { s.program 0 with state := .running, halt := .none } }.raise { kind := .programState, reason := 2, program := 60 }) 5 (.ok [2]) := by
  decide +kernel

/-- R163. -/
theorem test_programHalt_no_step_out :
    let s := posted (withProgram .running .stepped openStep) .programHalt [60]
    let t := after (.programHalt 5) s
    (t.program 0).state = .halted ∧ (t.program 0).halt = .operator := by
  decide +kernel

/-- R165. -/
theorem test_programAbort_loaded :
    let s := posted (withProgram .loaded .stepped openStep) .programAbort [60]
    let t := after (.programAbort 5) s
    (t.program 0).state = .aborted ∧ (t.program 0).timeEnded = 1000 ∧ t.card 5 2 = 0 := by
  decide +kernel

/-- R166. -/
theorem test_programClear_done :
    let s := posted (withProgram .done .stepped openStep) .programClear [60]
    after (.programClear 5) s = answeredAs s { s with programs := [] } 5 (.ok [0]) := by
  decide +kernel

theorem witness_StepReleaseTaken :
    let s := posted (withProgram .running .stepped openStep) .stepRelease [60, 1]
    let again := posted (withProgram .running .stepped { openStep with state := .refused }) .stepRelease [60, 1]
    let bad := posted (withProgram .running .stepped { openStep with guard := .refOpen }) .stepRelease [60, 1]
    let away := posted { withProgram .running .stepped openStep with trucks := [] } .stepRelease [60, 1]
    AtCard s 5 .stepRelease s ∧ 1 ≤ (s.card 5).num 8 ∧ (s.card 5).num 9 = 1 ∧ s.findProgram ((s.card 5).num 8) = some 0 ∧
    (s.program 0).step 1 = some openStep ∧ (s.program 0).state = .running ∧ openStep.state = .pending ∧
    openStep.pending = .none ∧ s.releaseVerdict 0 1 openStep = .pass ∧ s.groupWaits 3 [s.stepCell 0 1 openStep] = false ∧
    AtCard again 5 .stepRelease again ∧ again.releaseVerdict 0 1 { openStep with state := .refused } = .pass ∧
    AtCard bad 5 .stepRelease bad ∧ bad.releaseVerdict 0 1 { openStep with guard := .refOpen } = .fail .guardFalse ∧
    AtCard away 5 .stepRelease away ∧ away.releaseVerdict 0 1 openStep = .noTruck := by
  unfold AtCard; decide +kernel

theorem witness_StepReleaseTaken_others :
    let busy : State := { withProgram .running .stepped openStep with lists := [(3, { waiting := [[.signReply 20 7 .ok]] })] }
    let full : State := { withProgram .running .stepped openStep with lists := [(3, { cells := (List.range 7).map fun i => { cell := .statusReply i .notYours, age := BitVec.ofNat 32 i } })] }
    let early := { busy with programs := [(0, { number := 60, mode := .stepped, state := .running, steps := [openStep, openStep] })] }
    let out := { busy with programs := [(0, { number := 60, mode := .stepped, state := .running, steps := [{ openStep with state := .released }, openStep] })] }
    busy.releaseVerdict 0 1 openStep = .pass ∧ (busy.list 3).present (busy.stepCell 0 1 openStep) = false ∧
    (busy.list 3).waiting ≠ [] ∧ full.releaseVerdict 0 1 openStep = .pass ∧
    (full.list 3).present (full.stepCell 0 1 openStep) = false ∧ 7 ≤ (full.list 3).countB ∧
    (early.program 0).next ≠ 2 ∧ (early.program 0).hasOutstanding = false ∧ (out.program 0).hasOutstanding = true ∧
    (early.program 0).step 2 = some openStep ∧ ((withProgram .halted .stepped openStep).program 0).state ≠ .running ∧
    { openStep with state := .released }.state = .released ∧ { openStep with state := .skipped }.state = .skipped ∧
    { openStep with pending := .truck }.pending ≠ .none := by decide

/-- R155 check 7, R156: the STEP cell waits as a group of one. -/
theorem test_stepRelease_waits_for_room :
    let s := posted { withProgram .running .stepped openStep with lists := [(3, { waiting := [[.signReply 20 7 .ok]] })] } .stepRelease [60, 1]
    let t := after (.stepRelease 5) s
    (t.list 3).waiting = [[.signReply 20 7 .ok], [.step 60 1 40 .openIt 0]] ∧ [t.card 5 4, t.card 5 5] = [0, 2] := by
  decide +kernel

/-- No group waits in any list. -/
theorem witness_StepReleaseTaken_waiting (m : Memory) :
    let s : State := { withProgram .running .stepped { openStep with guard := .refOpen } with mem := m }
    (∀ t, ∀ grp ∈ (s.list t).waiting, grp.any (isStepOf 60) = false) ∧ s.NoneMovesUp 60 :=
  ⟨fun _ _ h => (nomatch h), fun _ => .inl fun _ _ h => (nomatch h)⟩

/-- That state is canonical. -/
theorem witness_StepReleaseTaken_canonical (m : Memory) (hm : Memory.wf m = true) :
    ({ withProgram .running .stepped { openStep with guard := .refOpen } with mem := m } : State).Canonical :=
  have h : (withProgram .running .stepped { openStep with guard := .refOpen }).Canonical :=
    ⟨by decide, by decide, by decide, by decide, by decide, by decide, by decide, by decide, by decide, by decide,
      by decide, by decide, by decide, by decide⟩
  canonical_mem h hm

/-- R154, R157. -/
theorem test_stepRelease_released :
    let s := posted (withProgram .running .stepped openStep) .stepRelease [60, 1]
    let t := after (.stepRelease 5) s
    [t.card 5 2, t.card 5 4, t.card 5 5, t.card 5 6] = [0, 1, 0, 0] ∧
      (t.program 0).step 1 = some { openStep with state := .released, instruction := .queued } ∧
      (t.device 4).outstanding = some ⟨0, 1⟩ ∧ (t.list 3).present (s.stepCell 0 1 openStep) := by
  decide +kernel

/-- R155. -/
theorem test_stepRelease_guard_false :
    let s := posted (withProgram .running .stepped { openStep with guard := .refOpen }) .stepRelease [60, 1]
    let t := after (.stepRelease 5) s
    [t.card 5 2, t.card 5 4, t.card 5 5, t.card 5 6] = [0, 5, 0, toWord StepReason.guardFalse.code] ∧
      (t.program 0).state = .halted ∧ (t.program 0).halt = .guardFalse := by
  decide +kernel

/-- An executed step, alone in its program, and one with a second step after it. -/
def executedProgram (st : ProgramState) (more : List Step) : State :=
  { yard with
    programs := [(0, { number := 60, mode := .stepped, state := st, steps := { openStep with state := .executed, rule := .dispatch } :: more })]
    devices := [(4, { inUse := true, id := 40, kind := .isolator, position := .closed, source := .report, outstanding := some ⟨0, 1⟩ })] }

theorem witness_StepConfirmTaken :
    let s := posted (executedProgram .running []) .stepConfirm [60, 1]
    let h := posted (executedProgram .halting [openStep]) .stepConfirm [60, 1]
    let rel := posted (withProgram .running .stepped { openStep with state := .released }) .stepConfirm [60, 1]
    let pen := posted (withProgram .running .stepped openStep) .stepConfirm [60, 1]
    let fin := posted (withProgram .running .stepped { openStep with state := .confirmed }) .stepConfirm [60, 1]
    AtCard s 5 .stepConfirm s ∧ 1 ≤ (s.card 5).num 8 ∧ (s.card 5).num 9 = 1 ∧ s.findProgram ((s.card 5).num 8) = some 0 ∧
    ((s.program 0).step 1).map (fun st => (st.state, st.action.target)) = some (.executed, some .opened) ∧
    (∀ p < 32, (s.permit p).inUse = true → ∀ pt ∈ (s.permit p).points, pt.device ≠ 4) ∧ (s.program 0).mode = .stepped ∧
    AtCard h 5 .stepConfirm h ∧ (h.program 0).state = .halting ∧ AtCard rel 5 .stepConfirm rel ∧
    ((rel.program 0).step 1).map (·.state) = some .released ∧ AtCard pen 5 .stepConfirm pen ∧
    (pen.program 0).step 1 = some openStep ∧ AtCard fin 5 .stepConfirm fin ∧
    ((fin.program 0).step 1).map (·.state) = some .confirmed := by
  unfold AtCard; decide +kernel

/-- R160, R161. -/
theorem test_stepConfirm_last_step :
    let s := posted (executedProgram .running []) .stepConfirm [60, 1]
    let t := after (.stepConfirm 5) s
    (t.program 0).state = .done ∧ (t.program 0).timeEnded = 1000 ∧ (t.program 0).next = 2 ∧
      (t.device 4).position = .opened ∧ (t.device 4).source = .dispatch ∧ (t.device 4).outstanding = none ∧
      t.card 5 2 = 0 := by
  decide +kernel

/-- For the READBACK and EXECUTED cells: step 1 of program 60 in a state, of an action and a permit, with its device's tags. -/
def cellStep (st : StepState) (action : Action) (permit : Option Nat) (tags : List Nat) : State :=
  { withPermit .ready [] 0 with
    programs := [(0, { number := 60, mode := .stepped, state := .running, steps := [{ openStep with state := st, action, permit, wrong := 2 }] })]
    permits := [(1, { inUse := true, number := 20, holder := 2, state := .ready, tagSteps := 1 })]
    devices := [(4, { inUse := true, id := 40, kind := .isolator, position := .closed, tags, outstanding := some ⟨0, 1⟩ })] }

theorem witness_StepConfirmTaken_cells :
    let rel := cellStep .released .openIt none []
    let back (a : Action) (ts : List Nat) := cellStep .readBack a (some 1) ts
    rel.findProgram 61 = none ∧ rel.findProgram 60 = some 0 ∧ (rel.program 0).step 2 = none ∧
    ((rel.program 0).step 1).map (fun st => (st.state, st.truck, st.action, st.wrong)) = some (.released, 3, .openIt, 2) ∧
    (rel.device 4).id = 40 ∧ rel.lists = [] ∧ (rel.program 0).mode = .stepped ∧
    (∀ p < 32, (rel.permit p).inUse = true → ∀ pt ∈ (rel.permit p).points, pt.device ≠ 4) ∧
    ((cellStep .readBack .openIt none []).program 0).steps.map (fun st => (st.state, st.rule)) = [(.readBack, .crew)] ∧
    ((executedProgram .running []).program 0).steps.map (·.rule) = [.dispatch] ∧
    ((back .tag []).program 0).steps.map (fun st => (st.action, st.permit)) = [(.tag, some 1)] ∧
    1 ∉ ((back .tag [2, 3, 4]).device 4).tags ∧ ((back .tag [2, 3, 4]).device 4).tags.length < 4 ∧
    1 ∉ ((back .tag [2, 3, 4, 5]).device 4).tags ∧ 4 ≤ ((back .tag [2, 3, 4, 5]).device 4).tags.length ∧
    1 ∈ ((back .tag [1]).device 4).tags ∧ ((back .untag [1]).program 0).steps.map (·.action) = [.untag] ∧
    1 ∈ ((back .untag [1]).device 4).tags ∧ 1 ∉ ((back .untag []).device 4).tags := by
  decide

theorem witness_StepConfirmTaken_canonical : (cellStep .released .openIt none []).Canonical :=
  ⟨by decide, by decide, by decide, by decide, by decide, by decide, by decide, by decide, by decide, by decide, by decide,
    by decide, by decide, by decide⟩

/-- A report on a device with an outstanding step, which agrees with it or does not, and one on a device that a permit lists. -/
theorem witness_DeviceReported_step :
    let s := posted (cellStep .released .openIt none []) .deviceReport [40, 0]
    let v := posted (executedProgram .running []) .deviceReport [40, 1]
    let p := posted (withPermit .issued [2] 1) .deviceReport [40, 1]
    AtCard s 5 .deviceReport s ∧ (s.device 4).outstanding = some ⟨0, 1⟩ ∧
    ((s.program 0).step 1).map (fun st => (st.action.target, st.state, st.device)) = some (some .opened, .released, 4) ∧
    (s.list 3).waiting = [] ∧ (s.program 0).mode = .stepped ∧
    (∀ p < 32, (s.permit p).inUse = true → ∀ pt ∈ (s.permit p).points, pt.device ≠ 4) ∧
    AtCard v 5 .deviceReport v ∧ (v.device 4).outstanding = some ⟨0, 1⟩ ∧
    ((v.program 0).step 1).map (fun st => (st.action.target, st.state, st.rule)) = some (some .opened, .executed, .dispatch) ∧
    AtCard p 5 .deviceReport p ∧ (p.permit 1).inUse = true ∧ (p.permit 1).points.map (·.device) = [4] ∧
    (p.device 4).outstanding = none := by
  unfold AtCard; decide +kernel

/-- R124, R160, R162: a report that agrees with a RELEASED step confirms it before execution. -/
theorem test_report_confirms_released :
    let t := after (.deviceReport 5) (posted (cellStep .released .openIt none []) .deviceReport [40, 0])
    (t.program 0).steps.map (fun st => (st.state, st.before)) = [(.confirmed, true)] ∧ (t.program 0).state = .done ∧
      t.card 5 6 = 60 ∧ t.card 5 7 = 1 := by
  decide +kernel

/-- R129, R159, R160: a fourth tag is added. -/
theorem test_executed_adds_tag :
    let t := (cellStep .readBack .tag (some 1) [2, 3, 4]).routeCell 3 (.executed 60 1)
    (t.device 4).tags = [2, 3, 4, 1] ∧ (t.device 4).outstanding = none ∧ (t.permit 1).tagsHeld = 1 ∧
      (t.permit 1).tagSteps = 0 ∧ (t.program 0).state = .done ∧
      (t.program 0).steps.map (fun st => (st.state, st.tagResult)) = [(.confirmed, .added)] := by
  decide +kernel

/-- R158: a third wrong readback. -/
theorem test_third_wrong_readback :
    let t := (cellStep .released .openIt none []).routeCell 3 (.readback 60 1 41 .openIt)
    (t.program 0).steps.map (fun st => (st.state, st.refusal, st.wrong)) = [(.refused, .readback, 3)] ∧
      (t.program 0).state = .halted ∧ (t.device 4).outstanding = none ∧ (t.list 3).present (.stepCancel 60 1) := by
  decide +kernel

/-! ### Refusals of cards: each is a witness of its clause -/

/-- The card is at the scan, and is answered with the refusal, with nothing else changed. -/
def Refuses (s : State) (k : CardKind) (a : Answer) : Prop :=
  AtCard s 5 k s ∧ after (cardCommand k 5) s = answeredAs s s 5 a

theorem test_alarmResolve_no_truck_alarm : Refuses (posted yard .alarmResolve [1, 0, 0x101]) .alarmResolve (.wrongState .notReady) := by
  unfold Refuses AtCard
  decide +kernel

theorem test_orderClear_bad_number : Refuses (posted yard .orderClear [0]) .orderClear (.badField 8) := by
  unfold Refuses AtCard
  decide +kernel

theorem test_orderClear_no_order : Refuses (posted yard .orderClear [65534]) .orderClear (.noSuch 8) := by
  unfold Refuses AtCard
  decide +kernel

theorem test_permitClear_bad_number : Refuses (posted yard .permitClear [65535]) .permitClear (.badField 8) := by
  unfold Refuses AtCard
  decide +kernel

theorem test_permitClear_no_permit : Refuses (posted yard .permitClear [1]) .permitClear (.noSuch 8) := by
  unfold Refuses AtCard
  decide +kernel

theorem test_permitClear_in_program : Refuses (posted { withPermit .closed [] 0 with programs := [(0, { number := 60, state := .loaded, steps := [{ openStep with permit := some 1 }] })] } .permitClear [20]) .permitClear (.wrongState .inProgram) := by
  unfold Refuses AtCard
  decide +kernel

theorem test_programClear_bad_number : Refuses (posted yard .programClear [0]) .programClear (.badField 8) := by
  unfold Refuses AtCard
  decide +kernel

theorem test_programClear_no_program : Refuses (posted yard .programClear [60]) .programClear (.noSuch 8) := by
  unfold Refuses AtCard
  decide +kernel

theorem test_programClear_running : Refuses (posted (withProgram .running .stepped openStep) .programClear [60]) .programClear (.wrongState .notReady) := by
  unfold Refuses AtCard
  decide +kernel

theorem test_halt_and_abort_refused :
    Refuses (posted (withProgram .loaded .stepped openStep) .programHalt [60]) .programHalt (.wrongState .notReady) ∧
    Refuses (posted (withProgram .done .stepped openStep) .programHalt [60]) .programHalt (.wrongState .finished) ∧
    Refuses (posted (withProgram .aborted .stepped openStep) .programAbort [60]) .programAbort (.wrongState .finished) ∧
    Refuses (posted (executedProgram .running []) .programAbort [60]) .programAbort (.wrongState .stepExecuted) := by
  unfold Refuses AtCard
  decide +kernel

theorem test_resume_refused :
    Refuses (posted (withProgram .halted .stepped openStep) .programResume [60, 2]) .programResume (.badField 9) ∧
    Refuses (posted (withProgram .loaded .stepped openStep) .programResume [60, 1]) .programResume (.wrongState .notReady) ∧
    Refuses (posted (withProgram .halting .stepped openStep) .programResume [60, 0]) .programResume (.wrongState .stepOutstanding) ∧
    Refuses (posted (withProgram .done .stepped openStep) .programResume [60, 0]) .programResume (.wrongState .finished) := by
  unfold Refuses AtCard
  decide +kernel

theorem test_deviceAdd_bad_id : Refuses (posted yard .deviceAdd [65535, 0, 0]) .deviceAdd (.badField 8) := by
  unfold Refuses AtCard
  decide +kernel

theorem test_deviceAdd_bad_kind : Refuses (posted yard .deviceAdd [41, 5, 3]) .deviceAdd (.badField 9) := by
  unfold Refuses AtCard
  decide +kernel

theorem test_deviceAdd_bad_position : Refuses (posted yard .deviceAdd [41, 4, 3]) .deviceAdd (.badField 10) := by
  unfold Refuses AtCard
  decide +kernel

theorem test_deviceAdd_duplicate : Refuses (posted yard .deviceAdd [40, 4, 2]) .deviceAdd (.duplicate 8) := by
  unfold Refuses AtCard
  decide +kernel

theorem test_deviceRemove_bad_id : Refuses (posted yard .deviceRemove [0]) .deviceRemove (.badField 8) := by
  unfold Refuses AtCard
  decide +kernel

theorem test_deviceRemove_no_device : Refuses (posted yard .deviceRemove [41]) .deviceRemove (.noSuch 8) := by
  unfold Refuses AtCard
  decide +kernel

theorem test_deviceRemove_on_list : Refuses (posted (withPermit .closed [] 0) .deviceRemove [40]) .deviceRemove (.wrongState .permitState) := by
  unfold Refuses AtCard
  decide +kernel

theorem test_deviceRemove_in_program : Refuses (posted (withProgram .loaded .stepped openStep) .deviceRemove [40]) .deviceRemove (.wrongState .inProgram) := by
  unfold Refuses AtCard
  decide +kernel

theorem test_watchStop_bad_badge : Refuses (posted yard .watchStop [0]) .watchStop (.badField 8) := by
  unfold Refuses AtCard
  decide +kernel

theorem test_watchStop_no_worker : Refuses (posted yard .watchStop [8]) .watchStop (.noSuch 8) := by
  unfold Refuses AtCard
  decide +kernel

theorem test_watchStop_prompted : Refuses (posted { yard with watches := [(2, { state := .prompted })] } .watchStop [7]) .watchStop (.wrongState .promptOpen) := by
  unfold Refuses AtCard
  decide +kernel

theorem test_watchStop_alarm : Refuses (posted { yard with watches := [(2, { state := .alarm })] } .watchStop [7]) .watchStop (.wrongState .alarmOpen) := by
  unfold Refuses AtCard
  decide +kernel

theorem test_watchStop_member : Refuses (posted { yard with workers := [(2, { inUse := true, badge := 7, membership := some 1 })] } .watchStop [7]) .watchStop (.wrongState .onPermit) := by
  unfold Refuses AtCard
  decide +kernel

theorem test_quiet_prompted : Refuses (posted { yard with watches := [(2, { state := .prompted })] } .quiet [60]) .quiet (.wrongState .promptOpen) := by
  unfold Refuses AtCard
  decide +kernel

theorem test_alight_bad_badge : Refuses (posted yard .alight [65535]) .alight (.badField 8) := by
  unfold Refuses AtCard
  decide +kernel

theorem test_alight_no_worker : Refuses (posted yard .alight [8]) .alight (.noSuch 8) := by
  unfold Refuses AtCard
  decide +kernel

/-- A DEVICE ADD posted on any machine: the words of the card do not depend on the tables. -/
theorem deviceAdd_posted (s : State) :
    AtCard (posted s .deviceAdd [41, 4, 2]) 5 .deviceAdd (posted s .deviceAdd [41, 4, 2]) :=
  ⟨rfl, (show (posted {} .deviceAdd [41, 4, 2]).cardPosted 5 = true by decide +kernel),
    (show (posted {} .deviceAdd [41, 4, 2]).card 5 1 = CardKind.deviceAdd.code by decide +kernel)⟩

theorem get_filled {α : Type} (d a : α) (n k i : Nat) (lo : k ≤ i) (hi : i < k + n) :
    tableGet d ((List.range' k n).map fun j => (j, a)) i = a := by
  induction n generalizing k with
  | zero => omega
  | succ m ih =>
    by_cases h : k = i
    · simp [List.range'_succ, tableGet, h]
    · simp [List.range'_succ, tableGet, h]
      exact ih (k + 1) (by omega) (by omega)

/-- A full device table. -/
def fullDevices : State := { yard with devices := (List.range' 0 512).map fun d => (d, { inUse := true, id := 1000 }) }

theorem witness_deviceAdd_no_room :
    AtCard (posted fullDevices .deviceAdd [41, 4, 2]) 5 .deviceAdd (posted fullDevices .deviceAdd [41, 4, 2]) ∧
    fullDevices.findDevice 41 = none ∧ (∀ d < 512, (fullDevices.device d).inUse = true) :=
  ⟨deviceAdd_posted fullDevices, by decide +kernel, fun d hd => by
    show (tableGet ({} : Device) _ d).inUse = true
    rw [show fullDevices.devices = (List.range' 0 512).map fun j => (j, ({ inUse := true, id := 1000 } : Device)) from rfl,
      get_filled _ _ 512 0 d (Nat.zero_le d) (by omega)]⟩

end Sys2Proof.Tests
end

section
/-! PROOFS. The registry cards and SITE SET: what each shared act of their owners comes to, and the statements settled. -/

namespace Sys2Proof.Machine

/-! ### Cards -/

/-- A card command whose meaning is a take and its publication, at a card that its owner answers. -/
theorem exec_answered {s s1 u : State} {c : Fin 64} {k : CardKind} {cmd : Instr} {owner : Req → State → Take} {a : Answer}
    (hx : exec cmd s = .next (publish s (s.takeAs k c owner))) (h : AtCard s c k s1)
    (e : owner (s1.card c) s1 = ⟨u, some a⟩) : exec cmd s = .next (answeredAs s u c a) := by
  rw [hx, publish_takeAs_answered h e]

/-- R7 to R9: past its range and reference checks, a card that names a truck is the act on that truck. -/
theorem onTruck_at {act : Nat → State → Take} {r : Req} {s : State} {t : Nat} (lo : 1 ≤ r.radio 8)
    (hi : r.radio 8 ≤ 16777214) (h : s.findTruck (r.radio 8) = some t) : onTruck act r s = act t s := by
  simp [onTruck, radioOk_of lo hi, h]

/-- R10 to R14: past its range and reference checks, a card that names a worker alone is the act on that worker. -/
theorem onWorker_at {act : Nat → State → Take} {r : Req} {s : State} {w : Nat} (lo : 1 ≤ r.num 8)
    (hi : r.num 8 ≤ 65534) (h : s.findWorker (r.num 8) = some w) : onWorker act r s = act w s := by
  simp [onWorker, idOk_of lo hi, h]

/-! ### Tables in canonical form -/

/-- The lowest index that `free` accepts, and no index below it. -/
theorem lowestFree_eq {n i : Nat} {free : Nat → Bool} (hi : i < n) (h : free i = true) (hlow : ∀ j < i, free j = false) :
    lowestFree n free = some i := by
  unfold lowestFree
  rw [List.find?_range_eq_some]
  exact ⟨h, by simpa using hi, fun j hj => by simp [hlow j hj]⟩

/-- R2: where no entry in use holds a radio id, none is found. -/
theorem State.findTruck_none {s : State} {radio : Nat} (hc : tableWf {} s.trucks = true)
    (h : ∀ i, (s.truck i).state ≠ .vacant → (s.truck i).radioId ≠ radio) : s.findTruck radio = none := by
  unfold State.findTruck tableFind
  rw [Option.map_eq_none_iff, List.find?_eq_none]
  intro e he
  have hr := h e.1
  simp only [State.truck, tableGet_mem {} _ hc he] at hr
  simpa using hr

/-! ### A truck that no step waits for (R156) -/

/-- An attempt that every step of a list of steps passes over changes nothing. -/
theorem foldl_fixed {α β : Type} {f : β → α → β} {b : β} : ∀ {l : List α}, (∀ x ∈ l, f b x = b) → l.foldl f b = b
  | [], _ => rfl
  | x :: l, h => by
    rw [List.foldl_cons, h x (by simp)]
    exact foldl_fixed fun y hy => h y (by simp [hy])

/-- R156: no step of a program waits for truck t. -/
def State.NoStepWaits (s : State) (t : Nat) : Prop :=
  ∀ g < 16, ∀ st ∈ (s.program g).steps, st.pending ≠ .truck ∨ st.truck ≠ t

/-- R156: where no step waits for the truck, its coming back changes nothing. -/
theorem State.truckAvailable_free {s : State} {t : Nat} (h : s.NoStepWaits t) : s.truckAvailable t = s := by
  refine foldl_fixed fun g hg => foldl_fixed fun i _ => ?_
  split
  · rfl
  · next st hst =>
    have hmem : st ∈ (s.program g).steps := List.mem_of_getElem? (Program.step_pos hst).2
    have hfree := h g (by simpa using hg) st hmem
    rw [if_neg fun ⟨_, hp, ht⟩ => hfree.elim (· hp) (· ht)]

/-! ### TRUCK PARK and TRUCK UNPARK (R8, R9) -/

/-- R1: an answer with the values of a truck entry. -/
theorem Take.answered_truck {s : State} {t : Nat} {st : TruckState} (h : (s.truck t).state = st) :
    Take.answered s (.ok (s.truckAnswer t)) = ⟨s, some (.ok [toWord t, toWord st.code])⟩ := by
  rw [← h]; rfl

/-- R8: a worker of the truck's crew is watched. -/
theorem State.crewWatched_iff {s : State} {t : Nat} :
    s.crewWatched t = true ↔ ∃ w ∈ (s.truck t).crew, (s.watch w).state ≠ .off := by
  simp [State.crewWatched]

/-- R9: the unpark of a truck that no step waits for. -/
theorem State.unpark_free {s : State} {t : Nat} (h : s.NoStepWaits t) :
    s.unpark t = { s with trucks := tableSet {} s.trucks t { s.truck t with state := (s.truck t).stateBefore },
                          links := tableSet {} s.links t { s.link t with silent := 0 } } :=
  State.truckAvailable_free h

/-! ### FLAGS CLEAR and SITE SET (R15, R20, R40, R64) -/

/-- Passages over records each named once add 2 to those edition words and leave the others. -/
theorem foldl_passage_get (b : Nat) : ∀ (l : List Nat) (u : State), l.Nodup →
    tableGet (0 : Word) (l.foldl State.passage u).passages b = tableGet 0 u.passages b + if b ∈ l then 2 else 0
  | [], u, _ => by simp
  | x :: l, u, h => by
    obtain ⟨hx, hl⟩ := List.nodup_cons.1 h
    have hstep : tableGet (0 : Word) (u.passage x).passages b = tableGet 0 u.passages b + if b = x then 2 else 0 := by
      by_cases hb : b = x
      · simp [State.passage, hb]
      · simp [State.passage, hb]
    rw [List.foldl_cons, foldl_passage_get b l _ hl, hstep]
    by_cases hb : b = x
    · simp [hb, hx]
    · simp [hb]

/-- A list without its repetitions names nothing twice. -/
theorem nodup_eraseDups : ∀ l : List Nat, l.eraseDups.Nodup
  | [] => by simp
  | x :: l => by
    rw [List.eraseDups_cons, List.nodup_cons]
    exact ⟨by simp, nodup_eraseDups _⟩
termination_by l => l.length
decreasing_by exact Nat.lt_succ_of_le (List.length_filter_le _ l)

/-- R170: a record republished in any case has one passage, whether the event changed it or not. -/
theorem publish_edition_forced {s u : State} {forced : List Nat} {b : Nat} (hp : u.published = true) (hb : b ∈ forced) :
    (publish s u forced).edition b = u.edition b + 2 := by
  have hpub : (publish s u forced).published = true := by
    obtain ⟨x, e⟩ := publish_eq s u forced
    rw [e]; exact hp
  have hget : tableGet (0 : Word) (publish s u forced).passages b = tableGet 0 u.passages b + 2 := by
    have hmem : b ∈ unionKeys [forced, changedRecords s u] := by simp [unionKeys, hb]
    have hdup : (unionKeys [forced, changedRecords s u]).Nodup := nodup_eraseDups _
    rw [publish, if_pos hp, foldl_passage_get b _ u hdup, if_pos hmem]
  rw [State.edition, State.edition, if_pos hpub, if_pos hp, hget, BitVec.add_assoc]

/-- R175: a setting given and out of its range, as SITE SET tests it. -/
theorem given_out_of_range (g : Bool) (lo hi v : Nat) :
    (g && !inRange lo hi v) = (g && (decide (v < lo) || decide (hi < v))) := by
  simp only [inRange, Bool.not_and, ← decide_not, Nat.not_le]

/-- R175: the code of an answer that names a field clamped or none. -/
theorem Answer.doneOr_code (clamped : Option Nat) :
    (Answer.doneOr clamped).code = .done ∨ (Answer.doneOr clamped).code = .doneClamped := by
  cases clamped with
  | none => exact .inl rfl
  | some off => exact .inr rfl

/-- R175: the answer of a SITE SET taken: the first setting given and out of its range is named. -/
theorem siteClamped_answer (r : Req) :
    let out (i lo hi value : Nat) : Bool := given r i && (decide (value < lo) || decide (hi < value))
    Answer.doneOr (siteClamped r) = if out 5 3 20 (r.num 14) then ⟨.doneClamped, 14, []⟩
        else if out 6 2 30 (r.num 15) then ⟨.doneClamped, 15, []⟩
        else if out 7 4 30 (r.num 16) then ⟨.doneClamped, 16, []⟩ else .ok := by
  intro out
  simp only [siteClamped, firstClamped, given_out_of_range]
  change Answer.doneOr ((List.find? _ [(14, out 5 3 20 _), (15, out 6 2 30 _), (16, out 7 4 30 _)]).map _) = _
  cases out 5 3 20 (r.num 14)
  · cases out 6 2 30 (r.num 15)
    · cases out 7 4 30 (r.num 16) <;> rfl
    · rfl
  · rfl

/-- R40: thresholds in order break no combination rule. -/
theorem Settings.combinationFault_none {st : Settings} (h0 : 0 < st.weakDown) (h1 : st.weakDown < st.weakUp)
    (h2 : st.weakUp ≤ st.fairDown) (h3 : st.fairDown < st.fairUp) (h4 : st.fairUp ≤ 500) : st.combinationFault = none := by
  unfold Settings.combinationFault
  rw [if_neg (by omega), if_neg (by omega), if_neg (by omega), if_neg (by omega)]

/-- R20, R40, R64: SITE SET with AUTHORITY, its given flags in range and the thresholds in order. -/
theorem siteSet_taken {r : Req} {s : State} (hauth : s.authority = true) (hr : r.num 8 ≤ 255)
    (hfault : (s.settings.after r).combinationFault = none) :
    siteSet r s = ⟨{ s with settings := s.settings.after r, siteCode := giveOr r 0 (r.num 9) s.siteCode },
      some (.doneOr (siteClamped r))⟩ := by
  simp [siteSet, needAuthority, hauth, Nat.not_lt.2 hr, hfault, Take.answered]

/-- R40: a SITE SET card that its owner answers, taken without a refusal, republishes the site block in any case. -/
theorem exec_siteSet_answered {s s1 u : State} {c : Fin 64} {a : Answer} (h : AtCard s c .siteSet s1)
    (e : siteSet (s1.card c) s1 = ⟨u, some a⟩) (ha : a.code = .done ∨ a.code = .doneClamped) :
    exec (.siteSet c) s = .next (answeredAs s u c a [siteBase]) := by
  show Host.Outcome.next (publish _ _ _) = _
  rw [State.takeForces_at h e ha, State.takeAs_at h, e]
  rfl

/-- R174, R176: an answer and the scan's advance leave the edition words. -/
theorem State.scanAdvance_passages (u : State) (c : Nat) :
    (u.scanAdvance c).passages = u.passages ∧ (u.scanAdvance c).published = u.published := by
  obtain ⟨x, b, e, -⟩ := u.scanAdvance_eq c
  rw [e]; exact ⟨rfl, rfl⟩

/-- R170: the record named in an answered event that forces it has one passage. -/
theorem answeredAs_edition_forced {s u : State} {c : Nat} {a : Answer} {forced : List Nat} {b : Nat}
    (hp : u.published = true) (hb : b ∈ forced) : (answeredAs s u c a forced).edition b = u.edition b + 2 := by
  obtain ⟨hpass, hpub⟩ := (u.answerCard c a).scanAdvance_passages c
  have he : ((u.answerCard c a).scanAdvance c).edition b = u.edition b := by
    unfold State.edition
    rw [hpass, hpub]
    rfl
  rw [answeredAs, publish_edition_forced (hpub.trans hp) hb, he]

end Sys2Proof.Machine

namespace Sys2Proof.Proofs

open Sys2Proof.Machine

/-- Settles O4: every field named is one of the defaults of `State`. -/
theorem powerOnOtherBlocks : Obligations.PowerOnOtherBlocks := by
  have hpages : State.reset.freePages = List.range 1024 := by simp only [State.reset]
  refine ⟨rfl, rfl, rfl, rfl, rfl, rfl, rfl, rfl, rfl, rfl, rfl, rfl, rfl, rfl, rfl, rfl, rfl, rfl, hpages, rfl,
    fun t => ?_, fun w => ?_, fun i => rfl, fun d => rfl, fun p => rfl, fun g => rfl⟩
  · exact ⟨rfl, rfl, rfl, rfl, rfl, rfl⟩
  · exact ⟨rfl, rfl, rfl, rfl, rfl, rfl⟩

/-- Settles O44: each card by its branch; an unpark ends with the steps that wait for the truck, of which there are
none. -/
theorem truckParkedAndUnparked : Obligations.TruckParkedAndUnparked := by
  intro s s1 c t r lo hi ht
  have park : truckPark r s1 = _ := onTruck_at lo hi ht
  have unpark : truckUnpark r s1 = _ := onTruck_at lo hi ht
  refine ⟨fun h hp hw => ?_, fun h hp => ?_, fun h hp hw => ?_, fun h hp => ?_, fun h hp hfree => ?_⟩
  · have hcalm : ¬ s1.crewWatched t = true := fun hc => by
      obtain ⟨w, hm, hne⟩ := State.crewWatched_iff.1 hc
      exact hne (hw w hm)
    refine exec_answered rfl h (park.trans ?_)
    rw [if_neg hp, if_neg hcalm]
    exact Take.answered_truck (congrArg Truck.state (s1.setTruck_truck_same t _))
  · refine exec_answered rfl h (park.trans ?_)
    rw [if_pos hp]
    exact Take.answered_truck hp
  · refine exec_answered rfl h (park.trans ?_)
    rw [if_neg hp, if_pos (State.crewWatched_iff.2 hw)]
    rfl
  · refine exec_answered rfl h (unpark.trans ?_)
    rw [if_pos hp]
    rfl
  · refine exec_answered rfl h (unpark.trans ?_)
    rw [if_neg (not_not_intro hp), State.unpark_free hfree]
    exact Take.answered_truck (congrArg Truck.state (s1.setTruck_truck_same t _))

/-- Settles O46: FLAGS CLEAR by its three forms; SITE SET passes its combination rule, and the site block is forced. -/
theorem siteCards : Obligations.SiteCards := by
  intro s s1 c r
  refine ⟨fun h hr => ?_, fun h hr hc => ?_, fun t h lo hi ht => ?_, fun h hauth hr => ?_⟩
  · exact exec_answered rfl h (if_pos hr)
  · refine ⟨s1.clearSiteFlags.clearTruckFlags, exec_answered rfl h ?_, fun t => ?_, rfl⟩
    · have h0 : ¬ r.radio 8 = 0 := by omega
      exact (if_neg h0).trans (if_pos hr)
    · exact tableGet_map {} (fun l : Link => { l with clipped := false }) s1.links t rfl hc.links
  · refine exec_answered rfl h ?_
    have h0 : ¬ r.radio 8 = 0 := by omega
    have hall : ¬ r.radio 8 = 16777215 := by omega
    have hok : ¬ (!radioOk (r.radio 8)) = true := by simp [radioOk_of lo hi]
    unfold flagsClear
    rw [if_neg h0, if_neg hall, if_neg hok, ht]
    rfl
  · intro given set out old st a t h0 h1 h2 h3 h4
    have hfault : (s1.settings.after r).combinationFault = none := Settings.combinationFault_none h0 h1 h2 h3 h4
    have ha : Answer.doneOr (siteClamped r) = a := siteClamped_answer r
    have hcard : siteSet r s1 = ⟨{ s1 with settings := st, siteCode := set 0 (r.num 9) s1.siteCode }, some a⟩ := by
      rw [siteSet_taken hauth hr hfault, ha]
      rfl
    have hcode : a.code = .done ∨ a.code = .doneClamped := ha ▸ Answer.doneOr_code (siteClamped r)
    exact ⟨exec_siteSet_answered h hcard hcode, fun hp => answeredAs_edition_forced hp (by simp)⟩

end Sys2Proof.Proofs
end

section
/-! PROOFS. The roster cards: crew lists, the cells of a worker that move with it, and BOARD. -/

namespace Sys2Proof.Machine

/-! ### Crew lists (R11, R12, R14) -/

section

variable (s : State) (w : Nat)

/-- R12: leaving a crew changes the truck table alone. -/
theorem State.leaveCrew_frame : s.leaveCrew w = { s with trucks := (s.leaveCrew w).trucks } := by
  unfold State.leaveCrew
  split <;> rfl

/-- R12: the crew list that the worker is on loses it, the others keep their order; other trucks stand. -/
theorem State.leaveCrew_truck (t : Nat) : (s.leaveCrew w).truck t =
    if (s.worker w).aboard = some t then { s.truck t with crew := (s.truck t).crew.filter fun m => decide (m ≠ w) }
    else s.truck t := by
  unfold State.leaveCrew
  cases h : (s.worker w).aboard with
  | none => simp
  | some o =>
    by_cases ho : o = t
    · subst ho; simp [State.updTruck]
    · simp [State.updTruck, ho, Ne.symm ho]

/-- R14: the crew list of a worker aboard truck t. -/
theorem State.leaveCrew_aboard {t : Nat} (h : (s.worker w).aboard = some t) : s.leaveCrew w =
    s.setTruck t { s.truck t with crew := (s.truck t).crew.filter fun m => decide (m ≠ w) } := by
  simp [State.leaveCrew, h, State.updTruck]

end

/-! ### The cells of a worker move with it (R13, R111) -/

/-- R13: entries put into a list, each at its place by class and age; nothing but that list changes. -/
theorem State.insertAll_spec (dst : Nat) : ∀ (moved : List Entry) (s : State),
    let u := moved.foldl (fun s e =>
      s.setList dst { s.list dst with cells := insertEntry s.ageCounter e (s.list dst).cells }) s
    u.list dst = { s.list dst with
      cells := moved.foldl (fun l e => insertEntry s.ageCounter e l) (s.list dst).cells } ∧
    (∀ j, j ≠ dst → u.list j = s.list j) ∧ u = { s with lists := u.lists }
  | [], s => ⟨rfl, fun _ _ => rfl, rfl⟩
  | e :: moved, s => by
    obtain ⟨hdst, hother, hframe⟩ := State.insertAll_spec dst moved
      (s.setList dst { s.list dst with cells := insertEntry s.ageCounter e (s.list dst).cells })
    refine ⟨?_, fun j hj => ?_, hframe⟩
    · rw [State.setList_list_same] at hdst
      exact hdst
    · exact (hother j hj).trans (State.setList_list_other _ _ _ _ hj)

/-- R13, R111: the cells of a worker moved between two lists: the one loses them, the other takes each at its place, and
nothing else changes. -/
theorem State.moveCells_spec (s : State) {src dst : Nat} (badge : Nat) (hne : src ≠ dst) :
    let u := s.moveCells src dst badge
    let moved := (s.list src).cells.filter fun e => isWorkerCell badge e.cell
    u.list src = { s.list src with cells := (s.list src).cells.filter fun e => !isWorkerCell badge e.cell } ∧
    u.list dst = { s.list dst with
      cells := moved.foldl (fun l e => insertEntry s.ageCounter e l) (s.list dst).cells } ∧
    (∀ j, j ≠ src → j ≠ dst → u.list j = s.list j) ∧ u = { s with lists := u.lists } := by
  intro u moved
  obtain ⟨hdst, hother, hframe⟩ := State.insertAll_spec dst moved (s.withdrawA src (isWorkerCell badge))
  have hleft : ∀ j, j ≠ src → (s.withdrawA src (isWorkerCell badge)).list j = s.list j :=
    fun j hj => State.setList_list_other _ _ _ _ hj
  refine ⟨?_, ?_, fun j hs hd => (hother j hd).trans (hleft j hs), hframe⟩
  · exact (hother src hne).trans (State.setList_list_same _ _ _)
  · rw [hleft dst hne.symm] at hdst
    exact hdst

/-! ### BOARD (R12) -/

/-- R12: the crew lists and the worker's entry once worker w has boarded truck t. -/
def State.boarded (s : State) (w t : Nat) : State :=
  ((s.leaveCrew w).updTruck t fun x => { x with crew := x.crew ++ [w] }).updWorker w fun x => { x with aboard := some t }

section

variable {s : State} {w t : Nat}

/-- R12: a worker who was aboard no truck brings no cells. -/
theorem State.boardTruck_from_none (h : (s.worker w).aboard = none) : s.boardTruck w t = s.boarded w t := by
  simp only [State.boardTruck, h]
  rfl

/-- R12, R13: a worker who was aboard truck o brings its cells along. -/
theorem State.boardTruck_from {o : Nat} (h : (s.worker w).aboard = some o) :
    s.boardTruck w t = (s.boarded w t).moveCells o t (s.worker w).badge := by
  have hbadge : ((s.boarded w t).worker w).badge = (s.worker w).badge := by
    rw [State.boarded, State.updWorker, State.setWorker_worker_same, State.updTruck, State.setTruck_worker,
      State.leaveCrew_frame]
    rfl
  rw [← hbadge]
  simp only [State.boardTruck, h]
  rfl

/-- R12: boarding changes the worker and truck tables alone. -/
theorem State.boarded_frame : s.boarded w t =
    { s with workers := (s.boarded w t).workers, trucks := (s.boarded w t).trucks } := by
  unfold State.boarded
  rw [State.leaveCrew_frame]
  rfl

theorem State.boarded_worker : (s.boarded w t).worker w = { s.worker w with aboard := some t } := by
  rw [State.boarded, State.updWorker, State.setWorker_worker_same, State.leaveCrew_frame]
  rfl

theorem State.boarded_worker_other {i : Nat} (hi : i ≠ w) : (s.boarded w t).worker i = s.worker i := by
  rw [State.boarded, State.updWorker, State.setWorker_worker_other _ _ _ _ hi, State.leaveCrew_frame]
  rfl

/-- R12: the worker is last on the crew of the truck it boards. -/
theorem State.boarded_truck (h : (s.worker w).aboard ≠ some t) :
    (s.boarded w t).truck t = { s.truck t with crew := (s.truck t).crew ++ [w] } := by
  rw [State.boarded, State.updWorker, State.setWorker_truck, State.updTruck, State.setTruck_truck_same,
    State.leaveCrew_truck, if_neg h]

/-- R12: of the other trucks, the one the worker leaves loses it from its crew. -/
theorem State.boarded_truck_other {i : Nat} (hi : i ≠ t) : (s.boarded w t).truck i = (s.leaveCrew w).truck i := by
  rw [State.boarded, State.updWorker, State.setWorker_truck, State.updTruck, State.setTruck_truck_other _ _ _ _ hi]

end

/-! ### The answers of the roster cards -/

/-- R1: an answer with the values of a roster entry. -/
theorem Take.answered_worker {s : State} {w : Nat} {b : Option Nat} (h : (s.worker w).aboard = b) :
    Take.answered s (.ok (s.workerAnswer w)) = ⟨s, some (.ok [toWord w, wordIndex b])⟩ := by
  rw [← h]; rfl

/-- R12: past its range and reference checks, BOARD is the act on the worker and the truck. -/
theorem boardCard_at {r : Req} {s : State} {w t : Nat} (hb : idOk (r.num 8) = true) (hr : radioOk (r.radio 9) = true)
    (hw : s.findWorker (r.num 8) = some w) (ht : s.findTruck (r.radio 9) = some t) :
    boardCard r s =
      if (s.worker w).aboard = some t then .answered s (.ok (s.workerAnswer w))
      else if 4 ≤ (s.truck t).crew.length then .refuse s .noRoom
      else if (s.truck t).state = .parked ∧ (s.watch w).state ≠ .off then .refuse s (.wrongState .watched)
      else .answered (s.boardTruck w t) (.ok ((s.boardTruck w t).workerAnswer w)) := by
  unfold boardCard
  simp only [hb, hr, hw, ht]
  rfl

/-- R11: a worker who is a member of no permit, and whose permits are closed. -/
theorem State.onAnyPermit_false {s : State} {w : Nat} (hm : (s.worker w).membership = none)
    (hp : ∀ e ∈ s.permits, e.2.inUse = true → e.2.holder = w → e.2.state = .closed) : s.onAnyPermit w = false := by
  simp only [State.onAnyPermit, hm, Option.isSome_none, Bool.false_or, List.any_eq_false, Bool.and_eq_true,
    decide_eq_true_eq, not_and, ne_eq, Decidable.not_not]
  exact fun e he hu => hp e he hu.1 hu.2

/-- R10: WORKER ADD with a badge that no worker has, at the lowest free roster entry. -/
theorem workerAdd_taken {r : Req} {s : State} {w : Nat} (hb : idOk (r.num 8) = true)
    (hnew : s.findWorker (r.num 8) = none) (hw : w < 192) (hfree : (s.worker w).inUse = false)
    (hlow : ∀ i < w, (s.worker i).inUse = true) :
    workerAdd r s = ⟨(s.setWorker w { inUse := true, badge := r.num 8 }).setWatch w {},
      some (.ok [toWord w, 0xFFFF])⟩ := by
  have hlowest : s.freeWorker = some w := lowestFree_eq hw (by simp [hfree]) fun i hi => by simp [hlow i hi]
  simp only [workerAdd, hb, hnew, hlowest]
  exact Take.answered_worker (b := none) (by simp)

/-- R11: WORKER REMOVE of a worker who is not watched and on no open permit. -/
theorem workerRemove_taken {r : Req} {s : State} {w : Nat} (lo : 1 ≤ r.num 8) (hi : r.num 8 ≤ 65534)
    (hw : s.findWorker (r.num 8) = some w) (hoff : (s.watch w).state = .off) (hp : s.onAnyPermit w = false) :
    workerRemove r s = ⟨((s.leaveCrew w).setWorker w {}).setWatch w {}, some (.ok [toWord w, 0xFFFF])⟩ := by
  have hquiet : (s.watch w).inAlarm = false := by simp [Watch.inAlarm, hoff]
  refine (onWorker_at lo hi hw).trans ?_
  simp only [hquiet, hoff, hp]
  exact Take.answered_worker (b := none) (by simp)

/-- R14: ALIGHT of a worker aboard a truck and not watched. -/
theorem alightCard_taken {r : Req} {s : State} {w t : Nat} (lo : 1 ≤ r.num 8) (hi : r.num 8 ≤ 65534)
    (hw : s.findWorker (r.num 8) = some w) (ht : (s.worker w).aboard = some t) (hoff : (s.watch w).state = .off) :
    alightCard r s = ⟨{ s with
        workers := tableSet {} s.workers w { s.worker w with aboard := none }
        trucks := tableSet {} s.trucks t
          { s.truck t with crew := (s.truck t).crew.filter fun m => decide (m ≠ w) } },
      some (.ok [toWord w, 0xFFFF])⟩ := by
  refine (onWorker_at lo hi hw).trans ?_
  have haboard : ¬ (s.worker w).aboard = none := by simp [ht]
  have hcalm : ¬ (s.watch w).state ≠ .off := by simp [hoff]
  rw [if_neg haboard, if_neg hcalm, State.leaveCrew_aboard s w ht]
  exact Take.answered_worker (b := none) (by simp [State.updWorker])

/-- R12, R13: what a taken BOARD does to the crew lists, the control-cell lists and the worker's entry, and that it does
nothing else. -/
theorem State.boardTruck_spec {s : State} {w t : Nat} (h : (s.worker w).aboard ≠ some t) :
    let u := s.boardTruck w t
    u.worker w = { s.worker w with aboard := some t } ∧ (∀ i, i ≠ w → u.worker i = s.worker i) ∧
    u.truck t = { s.truck t with crew := (s.truck t).crew ++ [w] } ∧
    (∀ i, (s.worker w).aboard = some i →
      let moved := (s.list i).cells.filter fun e => isWorkerCell (s.worker w).badge e.cell
      u.truck i = { s.truck i with crew := (s.truck i).crew.filter fun m => decide (m ≠ w) } ∧
      (u.list i).cells = (s.list i).cells.filter (fun e => !isWorkerCell (s.worker w).badge e.cell) ∧
      (u.list i).waiting = (s.list i).waiting ∧
      (u.list t).cells = moved.foldl (fun l e => insertEntry s.ageCounter e l) (s.list t).cells) ∧
    ((s.worker w).aboard = none → u.lists = s.lists) ∧ (u.list t).waiting = (s.list t).waiting ∧
    (∀ i, i ≠ t → (s.worker w).aboard ≠ some i → u.truck i = s.truck i ∧ u.list i = s.list i) ∧
    u.watches = s.watches ∧ u = { s with workers := u.workers, trucks := u.trucks, lists := u.lists } := by
  intro u
  have hlists : (s.boarded w t).lists = s.lists := by rw [State.boarded_frame]
  have hlist : ∀ i, (s.boarded w t).list i = s.list i := fun i => by rw [State.list, hlists]; rfl
  have hage : (s.boarded w t).ageCounter = s.ageCounter := by rw [State.boarded_frame]
  have hleft : ∀ i, i ≠ t → (s.worker w).aboard ≠ some i → (s.boarded w t).truck i = s.truck i := fun i hi ho => by
    rw [State.boarded_truck_other hi, State.leaveCrew_truck, if_neg ho]
  cases ho : (s.worker w).aboard with
  | none =>
    have hu : u = s.boarded w t := State.boardTruck_from_none ho
    clear_value u
    subst hu
    refine ⟨State.boarded_worker, fun i hi => State.boarded_worker_other hi, State.boarded_truck h,
      fun i hi => (nomatch hi), fun _ => hlists, by rw [hlist], fun i hi hn => ⟨hleft i hi (ho ▸ hn), hlist i⟩, ?_, ?_⟩
    · rw [State.boarded_frame]
    · conv => lhs; rw [State.boarded_frame]
      rw [hlists]
  | some o =>
    have hot : o ≠ t := fun e => h (ho.trans (congrArg some e))
    have hu : u = (s.boarded w t).moveCells o t (s.worker w).badge := State.boardTruck_from ho
    obtain ⟨hsrc, hdst, hrest, hframe⟩ := (s.boarded w t).moveCells_spec (s.worker w).badge hot
    rw [← hu] at hsrc hdst hrest hframe
    simp only [hlist, hage] at hsrc hdst hrest
    have htruck : ∀ i, u.truck i = (s.boarded w t).truck i := fun i => by rw [hframe]; rfl
    have hworker : ∀ i, u.worker i = (s.boarded w t).worker i := fun i => by rw [hframe]; rfl
    refine ⟨(hworker w).trans State.boarded_worker, fun i hi => (hworker i).trans (State.boarded_worker_other hi),
      (htruck t).trans (State.boarded_truck h), fun i hi => ?_, (fun hn => nomatch hn), by rw [hdst],
      fun i hi hn => ?_, ?_, ?_⟩
    · obtain rfl : o = i := Option.some.inj hi
      refine ⟨?_, by rw [hsrc], by rw [hsrc], by rw [hdst]⟩
      rw [htruck, State.boarded_truck_other hot, State.leaveCrew_truck, if_pos ho]
    · exact ⟨(htruck i).trans (hleft i hi (ho ▸ hn)), hrest i (fun e => hn (e ▸ rfl)) hi⟩
    · rw [hframe, State.boarded_frame]
    · conv => lhs; rw [hframe, State.boarded_frame]
      rw [hframe]

end Sys2Proof.Machine

namespace Sys2Proof.Proofs

open Sys2Proof.Machine

/-- Settles O45: each card by its checks and its take; BOARD by `State.boardTruck_spec`. -/
theorem rosterCards : Obligations.RosterCards := by
  refine ⟨⟨?_, ?_⟩, ?_⟩
  · intro s s1 c w r lo hi
    refine ⟨fun h hnew hw hfree hlow => ?_, fun h hw hoff hm hp => ?_, fun h hw hnone => ?_, fun t h hw ht hon => ?_,
      fun t h hw ht hoff => ?_⟩
    · exact exec_answered rfl h (workerAdd_taken (idOk_of lo hi) hnew hw hfree hlow)
    · refine ⟨_, exec_answered rfl h (workerRemove_taken lo hi hw hoff (State.onAnyPermit_false hm hp)), by simp, by simp,
        fun i hne => ?_, fun t ht => ?_, fun t ht => ?_, ?_⟩
      · have hwatch : (s1.leaveCrew w).watch i = s1.watch i := by rw [State.leaveCrew_frame]; rfl
        have hworker : (s1.leaveCrew w).worker i = s1.worker i := by rw [State.leaveCrew_frame]; rfl
        simp [hne, hwatch, hworker]
      · exact (s1.leaveCrew_truck w t).trans (if_pos ht)
      · exact (s1.leaveCrew_truck w t).trans (if_neg ht)
      · rw [State.leaveCrew_frame]; rfl
    · refine exec_answered rfl h ((onWorker_at lo hi hw).trans ?_)
      rw [if_pos hnone]
      exact Take.answered_worker hnone
    · refine exec_answered rfl h ((onWorker_at lo hi hw).trans ?_)
      rw [if_neg (by simp [ht]), if_pos hon]
      rfl
    · exact exec_answered rfl h (alightCard_taken lo hi hw ht hoff)
  · intro s s1 c w t h r lob hib lor hir hw ht
    have hcard := boardCard_at (idOk_of lob hib) (radioOk_of lor hir) hw ht
    refine ⟨fun hsame => ?_, fun hother hfull => ?_, fun hother hroom hpark => ?_⟩
    · exact exec_answered rfl h ((hcard.trans (if_pos hsame)).trans (Take.answered_worker hsame))
    · exact exec_answered rfl h (hcard.trans ((if_neg hother).trans (if_pos hfull)))
    · have hspec := State.boardTruck_spec hother
      have hfree : ¬ ((s1.truck t).state = .parked ∧ (s1.watch w).state ≠ .off) := fun ⟨hp, hon⟩ =>
        hpark.elim (· hp) hon
      refine ⟨s1.boardTruck w t, exec_answered rfl h ?_, hspec⟩
      rw [hcard, if_neg hother, if_neg (Nat.not_le.2 hroom), if_neg hfree]
      exact Take.answered_worker (congrArg Worker.aboard hspec.1)
  · intro s s1 c r
    refine ⟨fun h hbad => ?_, fun h lo hi hw => ?_⟩
    · refine exec_answered rfl h ?_
      have hid : idOk (r.num 8) = false := by
        simp only [idOk, Bool.and_eq_false_iff, decide_eq_false_iff_not]
        omega
      simp [alightCard, onWorker, r, hid, Take.refuse]
    · refine exec_answered rfl h ?_
      simp [alightCard, onWorker, r, idOk_of lo hi, hw, Take.refuse]

end Sys2Proof.Proofs
end

section
/-! PROOFS. TRUCK ADD and TRUCK REMOVE: the entry filled and emptied, the cells discarded, the permits that fall back. -/

namespace Sys2Proof.Machine

/-! ### TRUCK ADD (R6) -/

/-- R6: the starting values of every block stand in the entry, the last stray id of the same radio is 0, and nothing else
changes. -/
theorem State.addTruck_eq (s : State) (t radio : Nat) (r : Req) : s.addTruck t radio r = { s with
    trucks := tableSet {} s.trucks t { radioId := radio, callSign := callSign r, state := .registered,
                                       linkNotice := decide (r.num 14 = 1) }
    links := tableSet {} s.links t {}
    counters := tableSet {} s.counters t { sinceUp := 0, probe := s.settings.probePeriod }
    lists := tableSet {} s.lists t {}
    queues := tableSet [] s.queues t []
    truckAlarms := tableSet none s.truckAlarms t none
    strayId := if s.strayId = radio then 0 else s.strayId } := by
  simp only [State.addTruck, State.setTruck, State.setLink, State.setCounter, State.setList, State.setQueue,
    State.setTruckAlarm]
  by_cases h : s.strayId = radio
  · simp only [h, if_true]
  · simp only [h, if_false]

/-- R6: TRUCK ADD with its fields in range, a radio id that no entry holds, and a VACANT entry. -/
theorem truckAdd_taken {r : Req} {s : State} {t : Nat} (hid : radioOk (r.radio 8) = true)
    (hcall : callSignFault r = none) (hopt : r.num 14 ≤ 1) (hnew : s.findTruck (r.radio 8) = none)
    (hfree : s.vacantTruck = some t) :
    truckAdd r s = ⟨s.addTruck t (r.radio 8) r, some (.ok [toWord t, 1])⟩ := by
  have hstate : ((s.addTruck t (r.radio 8) r).truck t).state = .registered := by
    simp [State.addTruck_eq, State.truck]
  simp only [truckAdd, hid, hcall, Nat.not_lt.2 hopt, hnew, hfree]
  exact Take.answered_truck hstate

/-! ### TRUCK REMOVE (R7, R138, R162) -/

/-- A fold of acts that each change the program table alone changes it alone. -/
theorem foldl_programs_frame {α : Type} {f : State → α → State}
    (hf : ∀ s x, f s x = { s with programs := (f s x).programs }) :
    ∀ (l : List α) (s : State), l.foldl f s = { s with programs := (l.foldl f s).programs }
  | [], _ => rfl
  | x :: l, s => by
    rw [List.foldl_cons, foldl_programs_frame hf l (f s x), hf s x]

/-- R162: a discarded cell changes the program table alone. -/
theorem State.cellDiscarded_frame (s : State) (c : DownCell) :
    s.cellDiscarded c = { s with programs := (s.cellDiscarded c).programs } := by
  unfold State.cellDiscarded
  split
  · split <;> rfl
  · split <;> rfl
  · rfl

/-- R162: a discarded entry changes the program table alone. -/
theorem State.entryDiscarded_frame (s : State) (e : Entry) :
    s.entryDiscarded e = { s with programs := (s.entryDiscarded e).programs } := by
  unfold State.entryDiscarded
  split
  · rfl
  · exact s.cellDiscarded_frame e.cell

/-- R138: a permit whose issue truck is removed while it is ISSUING, at this second. -/
def Permit.issueLostAt (now : Nat) (x : Permit) : Permit :=
  { x with state := .ready, timeChanged := now, issueCells := .none, issueDelivered := 0, wrongReadbacks := 0 }

section

variable {s : State} {t p : Nat}

/-- R138: a permit ISSUING to the truck falls back, and PERMIT ISSUE FAILED is raised. -/
theorem State.issueLost_issuing (h : (s.permit p).state = .issuing ∧ (s.permit p).issueTruck = t) :
    ∃ n, s.issueLost t p = (s.setPermit p ((s.permit p).issueLostAt s.clock)).raise n := by
  refine ⟨_, (if_pos h).trans (congrArg (fun v : State => v.raise _) ?_)⟩
  simp [State.setPermitState, State.updPermit, State.setPermit, State.permit, Permit.issueLostAt]

/-- R138: any other permit stands. -/
theorem State.issueLost_other (h : ¬ ((s.permit p).state = .issuing ∧ (s.permit p).issueTruck = t)) :
    s.issueLost t p = s := if_neg h

/-- R138: a permit that falls back changes the permit table and the board. -/
theorem State.issueLost_frame : s.issueLost t p = { s with
    permits := (s.issueLost t p).permits, mem := (s.issueLost t p).mem, hold := (s.issueLost t p).hold
    missed := (s.issueLost t p).missed } := by
  by_cases h : (s.permit p).state = .issuing ∧ (s.permit p).issueTruck = t
  · obtain ⟨n, e⟩ := State.issueLost_issuing h
    rw [e, State.raise_eq]; rfl
  · rw [State.issueLost_other h]

/-- R138: only the permit named falls back, and only where it is ISSUING to the truck. -/
theorem State.issueLost_permit (q : Nat) : (s.issueLost t p).permit q =
    if q = p ∧ (s.permit q).state = .issuing ∧ (s.permit q).issueTruck = t then (s.permit q).issueLostAt s.clock
    else s.permit q := by
  by_cases h : (s.permit p).state = .issuing ∧ (s.permit p).issueTruck = t
  · obtain ⟨n, e⟩ := State.issueLost_issuing h
    have hread : (s.issueLost t p).permit q = (s.setPermit p ((s.permit p).issueLostAt s.clock)).permit q := by
      rw [e, State.permit, State.raise_permits]; rfl
    by_cases hq : q = p
    · subst hq
      rw [hread, if_pos ⟨rfl, h⟩, State.setPermit_permit_same]
    · rw [hread, if_neg fun hc => hq hc.1, State.setPermit_permit_other _ _ _ _ hq]
  · rw [State.issueLost_other h, if_neg]
    rintro ⟨rfl, hc⟩
    exact h hc

end

/-- R138: the permits of a list fall back one after another. -/
theorem State.foldl_issueLost (t : Nat) : ∀ (l : List Nat) (s : State),
    let u := l.foldl (fun s p => s.issueLost t p) s
    (∀ q, u.permit q =
      if q ∈ l ∧ (s.permit q).state = .issuing ∧ (s.permit q).issueTruck = t then (s.permit q).issueLostAt s.clock
      else s.permit q) ∧
    u = { s with permits := u.permits, mem := u.mem, hold := u.hold, missed := u.missed }
  | [], s => ⟨fun q => by simp, rfl⟩
  | p :: l, s => by
    obtain ⟨hpermit, hframe⟩ := State.foldl_issueLost t l (s.issueLost t p)
    have hclock : (s.issueLost t p).clock = s.clock := by rw [State.issueLost_frame]
    refine ⟨fun q => ?_, ?_⟩
    · rw [List.foldl_cons, hpermit q, State.issueLost_permit, hclock]
      by_cases hq : q = p ∧ (s.permit q).state = .issuing ∧ (s.permit q).issueTruck = t
      · have hback : ((s.permit q).issueLostAt s.clock).state ≠ .issuing := by simp [Permit.issueLostAt]
        rw [if_pos hq, if_neg fun hc => hback hc.2.1, if_pos ⟨hq.1 ▸ List.mem_cons_self, hq.2⟩]
      · have hrest : (q ∈ p :: l ∧ (s.permit q).state = .issuing ∧ (s.permit q).issueTruck = t) ↔
            (q ∈ l ∧ (s.permit q).state = .issuing ∧ (s.permit q).issueTruck = t) := by
          rw [List.mem_cons]
          exact ⟨fun h => ⟨h.1.resolve_left fun e => hq ⟨e, h.2⟩, h.2⟩, fun h => ⟨.inr h.1, h.2⟩⟩
        simp only [if_neg hq, hrest]
    · rw [List.foldl_cons, hframe, State.issueLost_frame]

/-- R7: the entry VACANT in every block that keeps it. -/
def State.vacated (s : State) (t : Nat) : State :=
  ((((s.setTruck t {}).setLink t {}).setCounter t {}).setList t {}).setQueue t []

/-- R7, R162: from the entry VACANT and its cells discarded, the owners are told, which changes programs alone. -/
def State.cellsTold (s v : State) (t : Nat) : State :=
  (s.list t).waiting.flatten.foldl State.cellDiscarded ((s.list t).cells.foldl (fun s e => s.entryDiscarded e) v)

theorem State.cellsTold_frame (s v : State) (t : Nat) :
    s.cellsTold v t = { v with programs := (s.cellsTold v t).programs } := by
  have hlist := foldl_programs_frame State.entryDiscarded_frame (s.list t).cells v
  have hwait := foldl_programs_frame State.cellDiscarded_frame (s.list t).waiting.flatten
    ((s.list t).cells.foldl (fun s e => s.entryDiscarded e) v)
  unfold State.cellsTold
  rw [hwait, hlist]

/-- R7: with the entry VACANT, the cells discarded change programs alone, and the permits ISSUING to the truck fall back. -/
theorem State.removeTruck_spec (s : State) (t : Nat) :
    let u := s.removeTruck t
    (∀ q, u.permit q =
      if q ∈ List.range 32 ∧ (s.permit q).state = .issuing ∧ (s.permit q).issueTruck = t then
        (s.permit q).issueLostAt s.clock
      else s.permit q) ∧
    u = { s.vacated t with programs := u.programs, permits := u.permits, mem := u.mem, hold := u.hold
                           missed := u.missed } := by
  have hpermit : ∀ q, (s.vacated t).permit q = s.permit q := by simp [State.vacated]
  have hclock : (s.vacated t).clock = s.clock := by simp [State.vacated]
  intro u
  have hu : u = (List.range 32).foldl (fun s p => s.issueLost t p) (s.cellsTold (s.vacated t) t) := rfl
  clear_value u
  generalize s.vacated t = v at hpermit hclock hu ⊢
  have htold := s.cellsTold_frame v t
  generalize s.cellsTold v t = w at htold hu
  obtain ⟨hfall, hframe⟩ := State.foldl_issueLost t (List.range 32) w
  rw [← hu] at hfall hframe
  have hwpermit : ∀ q, w.permit q = s.permit q := fun q => by rw [htold]; exact hpermit q
  have hwclock : w.clock = s.clock := by rw [htold]; exact hclock
  refine ⟨fun q => ?_, ?_⟩
  · rw [hfall q, hwpermit, hwclock]
  · rw [hframe, htold]

/-- R7: TRUCK REMOVE of a truck that passes its state checks. -/
theorem truckRemove_taken {r : Req} {s : State} {t : Nat} (lo : 1 ≤ r.radio 8) (hi : r.radio 8 ≤ 16777214)
    (ht : s.findTruck (r.radio 8) = some t) (hcrew : (s.truck t).crew = []) (hopen : s.openOrders t = false)
    (hprog : s.truckInProgram t = false) (halarm : s.truckAlarm t = none) :
    truckRemove r s = ⟨s.removeTruck t, some (.ok [toWord t, 0])⟩ := by
  have hok : s.removeRefusal t = none := by simp [State.removeRefusal, hcrew, hopen, hprog, halarm]
  have hstate : ((s.removeTruck t).truck t).state = .vacant := by
    rw [(s.removeTruck_spec t).2]
    simp [State.truck, State.vacated, State.setTruck]
  refine (onTruck_at lo hi ht).trans ?_
  rw [hok]
  exact Take.answered_truck hstate

end Sys2Proof.Machine

namespace Sys2Proof.Proofs

open Sys2Proof.Machine

/-- Settles O43: TRUCK ADD by the entry it fills, TRUCK REMOVE by `State.removeTruck_spec`. -/
theorem truckAddedAndRemoved : Obligations.TruckAddedAndRemoved := by
  refine ⟨?_, ?_⟩
  · intro s s1 c t h r lo hi hcall hopt hnew ht hvacant hlow hc
    have hfree : s1.vacantTruck = some t :=
      lowestFree_eq ht (by simpa using hvacant) fun i hi => by simpa using hlow i hi
    have hnone := State.findTruck_none hc.trucks hnew
    refine ⟨_, exec_answered rfl h (truckAdd_taken (radioOk_of lo hi) hcall hopt hnone hfree), ?_⟩
    rw [State.addTruck_eq]
    refine ⟨?_, ?_, ?_, ?_, ?_, ?_, rfl, fun i hi => ⟨?_, ?_, ?_, ?_, ?_, ?_⟩, rfl⟩
    all_goals simp [r, State.truck, State.link, State.counter, State.list, State.queue, State.truckAlarm, *]
  · intro s s1 c t h r lo hi ht hcrew hopen hprog halarm
    obtain ⟨hpermit, hframe⟩ := s1.removeTruck_spec t
    refine ⟨s1.removeTruck t, exec_answered rfl h (truckRemove_taken lo hi ht hcrew hopen hprog halarm), ?_⟩
    generalize s1.removeTruck t = u at hpermit hframe
    have hempty : (s1.vacated t).truck t = {} ∧ (s1.vacated t).link t = {} ∧ (s1.vacated t).counter t = {} ∧
      (s1.vacated t).list t = {} ∧ (s1.vacated t).queue t = [] := by simp [State.vacated]
    have hother : ∀ i, i ≠ t → (s1.vacated t).truck i = s1.truck i ∧ (s1.vacated t).link i = s1.link i ∧
        (s1.vacated t).counter i = s1.counter i ∧ (s1.vacated t).list i = s1.list i ∧
        (s1.vacated t).queue i = s1.queue i := fun i hi => by simp [State.vacated, hi]
    have hrest : (s1.vacated t).workers = s1.workers ∧ (s1.vacated t).watches = s1.watches ∧
      (s1.vacated t).devices = s1.devices ∧ (s1.vacated t).orders = s1.orders ∧
      (s1.vacated t).truckAlarms = s1.truckAlarms := by simp [State.vacated]
    generalize s1.vacated t = v at hframe hempty hother hrest
    obtain ⟨htruck, hlink, hcounter, hlist, hqueue⟩ := hempty
    obtain ⟨hworkers, hwatches, hdevices, horders, halarms⟩ := hrest
    have hblocks : u.trucks = v.trucks ∧ u.links = v.links ∧ u.counters = v.counters ∧ u.lists = v.lists ∧
      u.queues = v.queues ∧ u.workers = v.workers ∧ u.watches = v.watches ∧ u.devices = v.devices ∧
      u.orders = v.orders ∧ u.truckAlarms = v.truckAlarms := by rw [hframe]; simp
    obtain ⟨etruck, elink, ecounter, elist, equeue, eworkers, ewatches, edevices, eorders, ealarms⟩ := hblocks
    simp only [State.truck, State.link, State.counter, State.list, State.queue, etruck, elink, ecounter, elist, equeue,
      eworkers, ewatches, edevices, eorders, ealarms]
    exact ⟨htruck, hlink, hcounter, hlist, hqueue, hother, hworkers, hwatches, hdevices, horders, halarms,
      fun p hp hi hit => (hpermit p).trans (if_pos ⟨List.mem_range.2 hp, hi, hit⟩),
      fun p hn => (hpermit p).trans (if_neg fun ⟨_, hi, hit⟩ => hn.elim (· hi) (· hit))⟩

end Sys2Proof.Proofs
end

section
/-! PROOFS. The outcome of a transaction leaves the truck table as it stands (R29, R33, R87). -/

namespace Sys2Proof.Machine

/-- A fold of acts that each leave the truck table leaves it. -/
theorem foldl_trucks {α : Type} {f : State → α → State} (hf : ∀ s x, (f s x).trucks = s.trucks) :
    ∀ (l : List α) (s : State), (l.foldl f s).trucks = s.trucks
  | [], _ => rfl
  | x :: l, s => (foldl_trucks hf l (f s x)).trans (hf s x)

section

variable (s : State)

/-! ### Records changed -/

@[simp] theorem State.updOrder_trucks (i : Nat) (f : Order → Order) : (s.updOrder i f).trucks = s.trucks := rfl
@[simp] theorem State.updDevice_trucks (d : Nat) (f : Device → Device) : (s.updDevice d f).trucks = s.trucks := rfl
@[simp] theorem State.updPermit_trucks (p : Nat) (f : Permit → Permit) : (s.updPermit p f).trucks = s.trucks := rfl
@[simp] theorem State.updProgram_trucks (g : Nat) (f : Program → Program) : (s.updProgram g f).trucks = s.trucks := rfl
@[simp] theorem State.updStep_trucks (g k : Nat) (f : Step → Step) : (s.updStep g k f).trucks = s.trucks := rfl
@[simp] theorem State.dequeue_trucks (t i : Nat) : (s.dequeue t i).trucks = s.trucks := rfl
@[simp] theorem State.giveBackPages_trucks (i : Nat) : (s.giveBackPages i).trucks = s.trucks := rfl
@[simp] theorem State.addEntry_trucks (t : Nat) (c : DownCell) : (s.addEntry t c).trucks = s.trucks := rfl
@[simp] theorem State.dropWaits_trucks (g : Nat) : (s.dropWaits g).trucks = s.trucks := rfl

/-! ### Orders -/

theorem State.orderDelivered_trucks (i : Nat) : (s.orderDelivered i).trucks = s.trucks := by
  simp [State.orderDelivered]

theorem State.orderStalled_trucks (i : Nat) : (s.orderStalled i).trucks = s.trucks := by
  simp [State.orderStalled]

theorem State.cellsDelivered_trucks (i : Nat) (ns : List Nat) : (s.cellsDelivered i ns).trucks = s.trucks := by
  unfold State.cellsDelivered
  dsimp only
  split
  · exact State.orderDelivered_trucks _ i
  · rfl

theorem State.cellsFailed_trucks (i : Nat) (ns : List Nat) : (s.cellsFailed i ns).trucks = s.trucks := by
  unfold State.cellsFailed
  dsimp only
  split
  · split
    · exact State.orderStalled_trucks _ i
    · rfl
  · rfl

theorem State.settleOrder_trucks (b : Bool) (cells : List (Nat × Nat × Nat)) (i : Nat) :
    (s.settleOrder b cells i).trucks = s.trucks := by
  unfold State.settleOrder
  dsimp only
  split
  · split
    · exact s.cellsDelivered_trucks i _
    · exact s.cellsFailed_trucks i _
  · rfl

/-! ### Steps and offers -/

theorem State.addEntries_trucks (t : Nat) (cs : List DownCell) : (s.addEntries t cs).trucks = s.trucks :=
  foldl_trucks (fun u c => u.addEntry_trucks t c) cs s

theorem State.releaseStep_trucks (g k : Nat) (st : Step) : (s.releaseStep g k st).trucks = s.trucks := by
  unfold State.releaseStep
  dsimp only
  rw [State.raise_trucks]
  split
  · split <;> simp
  · split <;> simp

theorem State.refuseStep_trucks (g k : Nat) (st : Step) (r : StepReason) :
    (s.refuseStep g k st r).trucks = s.trucks := by simp [State.refuseStep, State.raiseHalted]

theorem State.refuseOrder_trucks (g k : Nat) (st : Step) : (s.refuseOrder g k st).trucks = s.trucks := by
  unfold State.refuseOrder
  dsimp only
  split <;> simp [State.raiseHalted]

theorem State.offerStep_trucks (g k : Nat) (st : Step) : (s.offerStep g k st).trucks = s.trucks := by
  unfold State.offerStep
  cases s.releaseVerdict g k st with
  | pass => exact s.releaseStep_trucks g k st
  | notRunning => rfl
  | noTruck => rfl
  | outOfOrder => exact s.refuseOrder_trucks g k st
  | fail r => exact s.refuseStep_trucks g k st r

theorem State.groupAdded_trucks (grp : List DownCell) : (s.groupAdded grp).trucks = s.trucks := by
  unfold State.groupAdded
  split
  · split <;> rfl
  · rfl

end

theorem State.offerLoop_trucks (t : Nat) : ∀ (n : Nat) (s : State), (State.offerLoop n s t).trucks = s.trucks
  | 0, _ => rfl
  | n + 1, s => by
    unfold State.offerLoop
    dsimp only
    split
    · rfl
    · split
      · split
        · rw [State.offerLoop_trucks t n, State.offerStep_trucks, State.setList_trucks]
        · rw [State.offerLoop_trucks t n, State.groupAdded_trucks, State.addEntries_trucks, State.setList_trucks]
      · rfl

section

variable (s : State)

/-- R33: room offered leaves the truck table. -/
theorem State.offer_trucks (t : Nat) : (s.offer t).trucks = s.trucks := State.offerLoop_trucks t _ s

/-! ### Control cells -/

theorem State.workerTold_trucks (badge : Nat) (f : Watch → Watch) : (s.workerTold badge f).trucks = s.trucks := by
  unfold State.workerTold
  split <;> rfl

theorem State.issueCellDelivered_trucks (number : Nat) : (s.issueCellDelivered number).trucks = s.trucks := by
  unfold State.issueCellDelivered
  split <;> rfl

theorem State.withdrawDelivered_trucks (number : Nat) : (s.withdrawDelivered number).trucks = s.trucks := by
  unfold State.withdrawDelivered
  split
  · rfl
  · split
    · exact State.raise_trucks _ _
    · rfl

theorem State.cellDelivered_trucks (c : DownCell) : (s.cellDelivered c).trucks = s.trucks := by
  cases c with
  | prompt badge => exact s.workerTold_trucks badge _
  | alarmSeenWorker badge => exact s.workerTold_trucks badge _
  | alarmSeenTruck t => rfl
  | step number k device action permit => simp only [State.cellDelivered]; split <;> rfl
  | stepCancel number k => simp only [State.cellDelivered]; split <;> rfl
  | permitIssue number badge count check => exact s.issueCellDelivered_trucks number
  | points number places => exact s.issueCellDelivered_trucks number
  | orderWithdraw number => exact s.withdrawDelivered_trucks number
  | readbackOk program k => rfl
  | readbackWrong program k device action permit => rfl
  | signReply permit badge result => rfl
  | statusReply order result => rfl

theorem State.controlDelivered_trucks (age : DWord) : (s.controlDelivered age).trucks = s.trucks := by
  unfold State.controlDelivered
  split
  · rfl
  · have told : ∀ (b : Bool) (u : State) (c : DownCell), (if b then u else u.cellDelivered c).trucks = u.trucks := by
      intro b u c
      cases b
      · exact u.cellDelivered_trucks c
      · rfl
    dsimp only
    split
    · exact told _ _ _
    · exact (State.offer_trucks _ _).trans (told _ _ _)

theorem State.controlFailed_trucks (age : DWord) : (s.controlFailed age).trucks = s.trucks := by
  unfold State.controlFailed
  split
  · rfl
  · dsimp only
    split
    · exact State.raise_trucks _ _
    · rfl

theorem State.settleControl_trucks (b : Bool) (c : Carried) : (s.settleControl b c).trucks = s.trucks := by
  cases c with
  | control age cell =>
    cases b
    · exact s.controlFailed_trucks age
    · exact s.controlDelivered_trucks age
  | order i n content => rfl

/-- R29: the outcome of a transaction leaves the truck table. -/
theorem State.settle_trucks (b : Bool) (cells : List Carried) : (s.settle b cells).trucks = s.trucks :=
  (foldl_trucks (fun u i => u.settleOrder_trucks b _ i) _ _).trans
    (foldl_trucks (fun u c => u.settleControl_trucks b c) cells s)

end

/-- R25 step 1: the entry of the truck whose slot is reported holds the radio id of the snapshot, also once the transaction
is settled. -/
theorem ReportOf.radio {s base : State} {k : Fin 32} {p : PlanSlot} {b : Bool} (h : ReportOf s k p b base) :
    (base.truck p.truck).radioId = p.radioId := by
  rcases h with ⟨r, hpoll, rfl⟩ | ⟨r, d, -, -, -, -, -, -, -, hid, rfl⟩
  · exact hpoll.radio
  · rw [State.truck, State.settle_trucks]
    exact hid

end Sys2Proof.Machine
end

section
/-! PROOFS. A report graded: one equation for each state and grade of the truck (R41 to R51), and a report without a GOOD
burst. -/

namespace Sys2Proof.Machine

/-! ### The link after a report (R43, R44, R46) -/

/-- R43, R44: the link once a report is clipped and counted. -/
def Link.counted (l : Link) (h : Heard) : Link := (l.clip h).count h

theorem Link.counted_grade (l : Link) (h : Heard) : (l.counted h).grade = l.grade := by cases h <;> rfl

/-- R46: one settling step; the fourth gives the grade. -/
theorem Link.settleStep_eq (l : Link) (st : Settings) (x : Nat) :
    l.settleStep st x =
      let q := if l.settle = 0 then x else (l.quality + x + 1) / 2
      { l with quality := q, settle := l.settle + 1
               grade := if l.settle = 3 then settledGrade st q else l.grade } := by
  unfold Link.settleStep
  by_cases h : l.settle = 3
  · simp [h]
  · simp [h]

/-- R47: a grade that the samples have given and may move. -/
def Grade.Measured (g : Grade) : Prop := g = .strong ∨ g = .fair ∨ g = .weak

theorem Grade.Measured.ne {g : Grade} (h : g.Measured) : g ≠ .settling ∧ g ≠ .lost := by
  rcases h with rfl | rfl | rfl <;> decide

/-! ### Records written twice, and notices raised between writes -/

section

variable (s : State) (t : Nat) (n : Notice)

theorem State.updLink_setLink (a : Link) (f : Link → Link) : (s.setLink t a).updLink t f = s.setLink t (f a) := by
  simp [State.updLink, State.setLink, State.link]

/-- R178: a notice raised before a truck's counters are written reads the same board as after. -/
theorem State.raise_setCounter (c : Counters) : (s.raise n).setCounter t c = (s.setCounter t c).raise n := by
  rw [State.raise_eq s, State.raise_eq (s.setCounter t c)]
  rfl

/-- R178: a notice raised before a truck's entry is written reads the same board as after. -/
theorem State.raise_setTruck (a : Truck) : (s.raise n).setTruck t a = (s.setTruck t a).raise n := by
  rw [State.raise_eq s, State.raise_eq (s.setTruck t a)]
  rfl

@[simp] theorem State.raise_truck : (s.raise n).truck t = s.truck t := by rw [State.truck, State.raise_trucks]; rfl

end

/-! ### The grader, by state and grade (R41) -/

/-- R41, R55: a truck's link as a report leaves it, and its counters 0. -/
def State.gradedAs (s : State) (t : Nat) (m : Link) : State :=
  { s with links := tableSet {} s.links t m, counters := tableSet {} s.counters t {} }

theorem State.upRun_setLink (s : State) (t : Nat) (m : Link) : (s.setLink t m).upRun t = s.gradedAs t m := rfl

section

variable {s : State} {t : Nat} {h : Heard}

/-- R51: no GRADE CHANGE without the option, or where the grade stands. -/
theorem State.raiseGradeChange_none {old : Grade} (hn : (s.truck t).linkNotice = false ∨ (s.link t).grade = old) :
    s.raiseGradeChange t old = s := by
  refine if_neg fun ⟨hg, ho⟩ => ?_
  rcases hn with hn | hn
  · rw [hn] at ho; cases ho
  · exact hg hn

/-- R51: GRADE CHANGE under the option, where the grade has changed. -/
theorem State.raiseGradeChange_told {old : Grade} (hn : (s.truck t).linkNotice = true) (hg : (s.link t).grade ≠ old) :
    s.raiseGradeChange t old = s.raise
      { kind := .gradeChange, reason := gradeChangeCode old (s.link t).grade, truck := t
        value := (s.link t).quality } := if_pos ⟨hg, hn⟩

/-- R41: a PARKED truck takes no sample. -/
theorem State.gradeReport_parked (hp : (s.truck t).state = .parked) : s.gradeReport t h = s := by
  simp only [State.gradeReport, hp]

/-- R41, R44: a report that is not GOOD moves only the count and the clip of a truck REGISTERED, SILENT or LOST. -/
theorem State.gradeReport_counted (hb : h.isGood = false)
    (hs : (s.truck t).state = .registered ∨ (s.truck t).state = .silent ∨
      ((s.truck t).state = .onAir ∧ (s.link t).grade = .lost)) :
    s.gradeReport t h = s.setLink t ((s.link t).counted h) := by
  rcases hs with hs | hs | ⟨hs, hl⟩
  · simp only [State.gradeReport, hs, hb]; rfl
  · simp only [State.gradeReport, hs, hb]; rfl
  · simp only [State.gradeReport, hs, hb, hl]; rfl

/-- R41: what the grader does with a report of an ON AIR truck that is not LOST. -/
theorem State.gradeReport_onAir (hs : (s.truck t).state = .onAir) (hl : (s.link t).grade ≠ .lost) :
    s.gradeReport t h =
      (s.setLink t ((s.link t).counted h)).onAirReport t (sample h (s.link t).quality s.noise) h := by
  simp only [State.gradeReport, hs, if_neg hl]; rfl

/-- R41: a report of an ON AIR truck that does not find it at lostCount. -/
theorem State.gradeReport_kept (hs : (s.truck t).state = .onAir) (hl : (s.link t).grade ≠ .lost)
    (hh : h = .nothing → ((s.link t).counted h).silent < s.settings.lostCount) :
    s.gradeReport t h = (s.setLink t ((s.link t).counted h)).onAirStep t (sample h (s.link t).quality s.noise) := by
  refine (State.gradeReport_onAir hs hl).trans (if_neg fun ⟨hn, hc⟩ => ?_)
  rw [State.setLink_link_same, State.setLink_settings] at hc
  exact absurd (hh hn) (Nat.not_lt.2 hc)

/-- R46: a report of an ON AIR truck that settles. -/
theorem State.gradeReport_settling (hs : (s.truck t).state = .onAir) (hl : (s.link t).grade = .settling)
    (hh : h = .nothing → ((s.link t).counted h).silent < s.settings.lostCount) :
    s.gradeReport t h = s.setLink t
      (((s.link t).counted h).settleStep s.settings (sample h (s.link t).quality s.noise)) := by
  rw [State.gradeReport_kept hs (by rw [hl]; decide) hh]
  refine (if_pos ?_).trans (State.updLink_setLink s t _ _)
  rw [State.setLink_link_same, Link.counted_grade, hl]

/-- R47, R48: a report of an ON AIR truck graded STRONG, FAIR or WEAK. -/
theorem State.gradeReport_graded (hs : (s.truck t).state = .onAir)
    (hl : (s.link t).grade.Measured)
    (hh : h = .nothing → ((s.link t).counted h).silent < s.settings.lostCount) :
    s.gradeReport t h = (s.setLink t
      (((s.link t).counted h).graded s.settings (sample h (s.link t).quality s.noise))).raiseGradeChange t
        (s.link t).grade := by
  obtain ⟨hset, hlost⟩ := hl.ne
  rw [State.gradeReport_kept hs hlost hh, ← Link.counted_grade (s.link t) h, State.onAirStep,
    State.setLink_link_same]
  rw [if_neg (by rwa [Link.counted_grade]), State.updLink_setLink]
  rfl

/-- R45: NOTHING HEARD at lostCount: LOST and SILENT, with TRUCK LOST. -/
theorem State.gradeReport_lost (hs : (s.truck t).state = .onAir) (hl : (s.link t).grade ≠ .lost)
    (hc : s.settings.lostCount ≤ ((s.link t).counted .nothing).silent) :
    s.gradeReport t .nothing = ((s.setLink t
      { (s.link t).counted .nothing with grade := .lost, run := 0, dir := .none }).setTruck t
        { s.truck t with state := .silent }).raise
      { kind := .truckLost, reason := 1, truck := t, value := (s.link t).quality } := by
  refine (State.gradeReport_onAir hs hl).trans ((if_pos ⟨rfl, ?hcount⟩).trans ?_)
  case hcount =>
    rw [State.setLink_link_same]
    exact hc
  · unfold State.gradeLost
    dsimp only
    rw [State.updLink_setLink]
    simp only [State.updTruck, State.setTruck_link, State.setLink_link_same, State.setLink_truck]
    rfl

end

/-! ### A planned slot without a GOOD burst (R25) -/

/-- R53: the truck record that the Link Grader republishes. -/
theorem State.gradedRecord_of {s : State} {t radio : Nat} (hr : (s.truck t).radioId = radio)
    (hs : (s.truck t).state ≠ .parked) : s.gradedRecord t radio = [truckBase t] := if_pos ⟨hr, hs⟩

/-- R53: a PARKED truck's record is not republished by the Link Grader. -/
theorem State.gradedRecord_parked {s : State} {t radio : Nat} (hs : (s.truck t).state = .parked) :
    s.gradedRecord t radio = [] := if_neg fun h => h.2 hs

section

variable {s base u v : State} {k : Fin 32} {p : PlanSlot} {report : SlotReport} {h : Heard}

/-- R25: a report that carries no GOOD burst of the truck: it is graded and the UP slot has run. -/
theorem exec_unheard (hr : ReportOf s k p false base) (ha : attributed p.rate p.radioId report = (h, none)) :
    exec (.upSlotReport k report) s = .next (publish s ((base.gradeReport p.truck h).upRun p.truck)
      (base.gradedRecord p.truck p.radioId)) := by
  have hof : ReportOf s k p (downHeard (attributed p.rate p.radioId report).2) base := by rw [ha]; exact hr
  have := exec_upSlotReport_of hof
  simp only [ha] at this
  simpa only [State.takeReport, State.reportRecords, List.append_nil] using this

/-- R25, R53: of a truck that is not PARKED the record is republished. -/
theorem exec_unheard_graded (hr : ReportOf s k p false base) (ha : attributed p.rate p.radioId report = (h, none))
    (hs : (base.truck p.truck).state ≠ .parked) (hg : base.gradeReport p.truck h = u) (hu : u.upRun p.truck = v) :
    exec (.upSlotReport k report) s = .next (publish s v [truckBase p.truck]) := by
  rw [exec_unheard hr ha, hg, hu, State.gradedRecord_of hr.radio hs]

/-- R25, R41: of a PARKED truck the counters alone change. -/
theorem exec_unheard_parked (hr : ReportOf s k p false base) (ha : attributed p.rate p.radioId report = (h, none))
    (hs : (base.truck p.truck).state = .parked) :
    exec (.upSlotReport k report) s = .next (publish s (base.upRun p.truck)) := by
  rw [exec_unheard hr ha, State.gradeReport_parked hs, State.gradedRecord_parked hs]

/-- R47, R48, R51: of an ON AIR truck graded STRONG, FAIR or WEAK the sample goes into Q and the run; a grade that changes
is told under the link-notice option. -/
theorem exec_unheard_sampled (hr : ReportOf s k p false base) (ha : attributed p.rate p.radioId report = (h, none))
    (hs : (base.truck p.truck).state = .onAir)
    (hl : (base.link p.truck).grade.Measured)
    (hh : h = .nothing → ((base.link p.truck).counted h).silent < base.settings.lostCount) {m : Link}
    (hm : ((base.link p.truck).counted h).graded base.settings (sample h (base.link p.truck).quality base.noise) = m) :
    ((base.truck p.truck).linkNotice = false ∨ m.grade = (base.link p.truck).grade →
      exec (.upSlotReport k report) s = .next (publish s (base.gradedAs p.truck m) [truckBase p.truck])) ∧
    ((base.truck p.truck).linkNotice = true → m.grade ≠ (base.link p.truck).grade →
      exec (.upSlotReport k report) s = .next (publish s ((base.gradedAs p.truck m).raise
        { kind := .gradeChange, reason := gradeChangeCode (base.link p.truck).grade m.grade, truck := p.truck
          value := m.quality }) [truckBase p.truck])) := by
  have hne : (base.truck p.truck).state ≠ .parked := by rw [hs]; decide
  have hread : (base.setLink p.truck m).link p.truck = m := State.setLink_link_same _ _ _
  have hgrade := State.gradeReport_graded hs hl hh
  rw [hm] at hgrade
  refine ⟨fun hn => ?_, fun hn hc => ?_⟩
  · have hnone := State.raiseGradeChange_none (s := base.setLink p.truck m) (hread.symm ▸ hn)
    exact exec_unheard_graded hr ha hne (hgrade.trans hnone) (State.upRun_setLink _ _ _)
  · have htold := State.raiseGradeChange_told (s := base.setLink p.truck m) hn (hread.symm ▸ hc)
    rw [hread] at htold
    exact exec_unheard_graded hr ha hne (hgrade.trans htold) (State.raise_setCounter _ _ _ _)

end

end Sys2Proof.Machine

namespace Sys2Proof.Proofs

open Sys2Proof.Machine

/-- Settles O28: the grader's equation for each state and grade, the counters written after it. -/
theorem unheardTrucks : Obligations.UnheardTrucks := by
  intro s base k p l hr hl t x v silent graded change
  subst hl
  have hnothing : attributed p.rate p.radioId .nothingHeard = (.nothing, none) := rfl
  have parked : ∀ {st : TruckState}, x.state = st → st ≠ .parked → x.state ≠ .parked := fun h hne => h ▸ hne
  have other : (x.state = .registered ∨ x.state = .silent ∨ (x.state = .onAir ∧ (base.link t).grade = .lost)) →
      x.state ≠ .parked := by
    rintro (h | h | ⟨h, -⟩) <;> rw [h] <;> decide
  refine ⟨?_, ?_, ?_, ?_, fun hs => ?_, fun bytes rssi ha => ⟨?_, fun hs => ?_, fun hs => ?_⟩, fun hs => ?_⟩
  · intro hs hg hc
    exact exec_unheard_sampled hr hnothing hs hg (fun _ => hc) rfl
  · intro bytes rssi hs hg ha
    exact exec_unheard_sampled hr ha hs hg (fun hn => nomatch hn) rfl
  · intro hs hg hc q
    have hgrade := State.gradeReport_settling (h := .nothing) hs hg fun _ => hc
    rw [Link.settleStep_eq, Link.counted_grade, hg] at hgrade
    exact exec_unheard_graded hr hnothing (parked hs (by decide)) hgrade (State.upRun_setLink _ _ _)
  · intro hs hg hc
    exact exec_unheard_graded hr hnothing (parked hs (by decide)) (State.gradeReport_lost hs hg hc)
      (State.raise_setCounter _ _ _ _)
  · exact exec_unheard_graded hr hnothing (other hs) (State.gradeReport_counted rfl hs) (State.upRun_setLink _ _ _)
  · intro hs hg q
    have hgrade := State.gradeReport_settling (h := .garbled rssi) hs hg fun hn => nomatch hn
    rw [Link.settleStep_eq, Link.counted_grade, hg] at hgrade
    exact exec_unheard_graded hr ha (parked hs (by decide)) hgrade (State.upRun_setLink _ _ _)
  · exact exec_unheard_graded hr ha (other hs) (State.gradeReport_counted rfl hs) (State.upRun_setLink _ _ _)
  · exact exec_unheard_parked hr ha hs
  · exact exec_unheard_parked hr hnothing hs

end Sys2Proof.Proofs
end

section
/-! PROOFS. The bytes of an uplink cell (R27, R189). -/

namespace Sys2Proof.Machine

/-! ### Fields at their byte places -/

@[simp] theorem beNat_one (a : Byte) : beNat [a] = a.toNat := by simp [beNat]

@[simp] theorem beNat_two (a b : Byte) : beNat [a, b] = 256 * a.toNat + b.toNat := by simp [beNat]

/-- R189: a kind outside the list is dropped. -/
theorem UpCell.ofBytes_unknown {x : Byte} {rest : List Byte}
    (h : x ∉ [0x00, 0x41, 0x42, 0x43, 0x50, 0x60, 0x61, 0x62, 0x70, 0x71, 0x72, 0x73, 0x7F]) :
    UpCell.ofBytes (x :: rest) = none := by
  have hkind : beNat (((x :: rest).drop 0).take 1) = x.toNat := beNat_one x
  have hne : ∀ n : Nat, x.toNat = n → BitVec.ofNat 8 n = x := fun n hn => by rw [← hn]; simp
  unfold UpCell.ofBytes
  dsimp only
  rw [hkind]
  split
  case h_14 => rfl
  all_goals
    rename_i he
    simp [← hne _ he] at h

/-- R189: an action code past its list. -/
theorem Action.ofCode_none : ∀ {n : Nat}, 3 < n → Action.ofCode n = none
  | _ + 4, _ => rfl

section

variable (b1 b2 b3 b4 b5 b6 b7 : Byte) (rest : List Byte)

theorem UpCell.ofBytes_orderStatus : UpCell.ofBytes (0x50 :: b1 :: b2 :: b3 :: rest) =
    if b3.toNat ≤ 4 then some (.orderStatus (256 * b1.toNat + b2.toNat) b3.toNat) else none := by
  simp [UpCell.ofBytes]

theorem UpCell.ofBytes_readback : UpCell.ofBytes (0x60 :: b1 :: b2 :: b3 :: b4 :: b5 :: b6 :: rest) =
    (Action.ofCode b6.toNat).map fun a =>
      .readback (256 * b1.toNat + b2.toNat) b3.toNat (256 * b4.toNat + b5.toNat) a := by
  simp [UpCell.ofBytes]

theorem UpCell.ofBytes_unplanned : UpCell.ofBytes (0x62 :: b1 :: b2 :: b3 :: rest) =
    if b3.toNat = 0 then some (.unplanned (256 * b1.toNat + b2.toNat) .opened)
    else if b3.toNat = 1 then some (.unplanned (256 * b1.toNat + b2.toNat) .closed) else none := by
  simp [UpCell.ofBytes]

end

end Sys2Proof.Machine
end

section
/-! PROOFS. A GOOD burst of a truck: graded, the UP slot run, the truck heard, its cells routed (R3, R5, R25 to R27, R49). -/

namespace Sys2Proof.Machine

/-! ### The grader on a GOOD burst -/

section

variable {s : State} {t : Nat} {rssi : Int}

/-- R46: a REGISTERED truck takes its first settling step. -/
theorem State.gradeReport_registered (hs : (s.truck t).state = .registered) :
    s.gradeReport t (.good rssi) = s.setLink t
      (((s.link t).counted (.good rssi)).settleStep s.settings (goodSample rssi s.noise)) := by
  rw [← State.updLink_setLink s t ((s.link t).counted (.good rssi))
    fun l => l.settleStep s.settings (goodSample rssi s.noise)]
  simp only [State.gradeReport, hs]
  rfl

/-- R156: a notice raised leaves the steps that wait. -/
theorem State.NoStepWaits.raise {n : Notice} (free : s.NoStepWaits t) : (s.raise n).NoStepWaits t := fun g hg => by
  rw [State.program, State.raise_programs]
  exact free g hg

/-- R49: a truck that leaves LOST settles afresh with the sample, where no step waits for it. -/
theorem State.leaveLost_free {x : Nat} (free : s.NoStepWaits t) :
    s.leaveLost t x = ((s.setLink t
        { s.link t with grade := .settling, run := 0, dir := .none, quality := x, settle := 1 }).setTruck t
        { s.truck t with state := .onAir }).raise { kind := .truckBack, reason := 1, truck := t, value := x } := by
  have hstep : ({ s.link t with grade := .settling, settle := 0, run := 0, dir := .none } : Link).settleStep s.settings x =
      { s.link t with grade := .settling, run := 0, dir := .none, quality := x, settle := 1 } := by
    rw [Link.settleStep_eq]; rfl
  have hvalue : (((s.setLink t { s.link t with
      grade := .settling, run := 0, dir := .none, quality := x, settle := 1 }).setTruck t
      { s.truck t with state := .onAir }).link t).quality = x := by simp
  unfold State.leaveLost
  dsimp only [State.updLink, State.updTruck]
  rw [hstep, State.setLink_truck, hvalue]
  exact State.truckAvailable_free (State.NoStepWaits.raise (s := (s.setLink t _).setTruck t _) free)

/-- R49: a GOOD burst of a truck SILENT or LOST. -/
theorem State.gradeReport_leavesLost
    (hs : (s.truck t).state = .silent ∨ ((s.truck t).state = .onAir ∧ (s.link t).grade = .lost))
    (free : s.NoStepWaits t) :
    s.gradeReport t (.good rssi) = ((s.setLink t { (s.link t).counted (.good rssi) with
        grade := .settling, run := 0, dir := .none, quality := goodSample rssi s.noise, settle := 1 }).setTruck t
        { s.truck t with state := .onAir }).raise
      { kind := .truckBack, reason := 1, truck := t, value := goodSample rssi s.noise } := by
  have hleave : s.gradeReport t (.good rssi) =
      (s.setLink t ((s.link t).counted (.good rssi))).leaveLost t (goodSample rssi s.noise) := by
    rcases hs with hs | ⟨hs, hl⟩
    · simp only [State.gradeReport, hs]; rfl
    · simp only [State.gradeReport, hs, hl]; rfl
  rw [hleave, State.leaveLost_free (s := s.setLink t ((s.link t).counted (.good rssi))) free, State.setLink_link_same, State.setLink_truck]
  simp only [State.setLink, tableSet_set]

end

/-! ### The truck heard (R3, R5) -/

/-- R5, R25, R41: a truck's link as a report leaves it, its counters 0, and its entry. -/
def State.heardAs (s : State) (t : Nat) (m : Link) (y : Truck) : State :=
  { s with links := tableSet {} s.links t m, counters := tableSet {} s.counters t {}
           trucks := tableSet {} s.trucks t y }

/-- R25 steps 3 and 4 after the grader: the UP slot run, last heard and MORE set, and a REGISTERED truck ON AIR. -/
def State.afterGrade (s : State) (t : Nat) (more : Bool) : State := ((s.upRun t).markHeard t more).firstHeard t

section

variable {s : State} {t : Nat} {m : Link} {more : Bool} {n : Notice}

theorem State.markHeard_setLink : ((s.setLink t m).upRun t).markHeard t more =
    s.heardAs t m { s.truck t with lastHeard := s.clock, more } := by
  change ((s.setLink t m).setCounter t {}).setTruck t { s.truck t with lastHeard := s.clock, more } = _
  simp only [State.setTruck, State.setLink, State.setCounter, State.heardAs]

theorem State.markHeard_setLink_setTruck {y : Truck} : (((s.setLink t m).setTruck t y).upRun t).markHeard t more =
    s.heardAs t m { y with lastHeard := s.clock, more } := by
  have hread : (((s.setLink t m).setTruck t y).setCounter t {}).truck t = y := State.setTruck_truck_same _ _ _
  unfold State.markHeard State.updTruck State.upRun
  rw [hread]
  simp only [State.setTruck, State.setLink, State.setCounter, State.heardAs, tableSet_set]

theorem State.markHeard_raise : ((s.raise n).upRun t).markHeard t more = ((s.upRun t).markHeard t more).raise n := by
  simp only [State.markHeard, State.updTruck, State.upRun, State.raise_setCounter, State.raise_truck, State.raise_clock,
    State.raise_setTruck]

/-- R3: a truck that is not REGISTERED is not heard for the first time. -/
theorem State.firstHeard_other (h : (s.truck t).state ≠ .registered) : s.firstHeard t = s := if_neg h

/-- R3: a REGISTERED truck that no step waits for becomes ON AIR, with TRUCK BACK. -/
theorem State.firstHeard_registered (h : (s.truck t).state = .registered)
    (free : s.NoStepWaits t) :
    s.firstHeard t = (s.setTruck t { s.truck t with state := .onAir }).raise
      { kind := .truckBack, reason := 2, truck := t } := by
  exact (if_pos h).trans (State.truckAvailable_free (State.NoStepWaits.raise (s := s.setTruck t _) free))

theorem State.heardAs_truck {y : Truck} : (s.heardAs t m y).truck t = y := tableGet_set_same _ _ _ _

theorem State.heardAs_setTruck {y z : Truck} : (s.heardAs t m y).setTruck t z = s.heardAs t m z := by
  simp only [State.heardAs, State.setTruck, tableSet_set]

/-- R5: a truck graded without a notice and not REGISTERED. -/
theorem State.afterGrade_setLink (h : (s.truck t).state ≠ .registered) :
    (s.setLink t m).afterGrade t more = s.heardAs t m { s.truck t with lastHeard := s.clock, more } := by
  rw [State.afterGrade, State.markHeard_setLink, State.firstHeard_other (by rw [State.heardAs_truck]; exact h)]

/-- R5, R51: a truck graded with GRADE CHANGE and not REGISTERED. -/
theorem State.afterGrade_setLink_raise (h : (s.truck t).state ≠ .registered) :
    ((s.setLink t m).raise n).afterGrade t more =
      (s.heardAs t m { s.truck t with lastHeard := s.clock, more }).raise n := by
  rw [State.afterGrade, State.markHeard_raise, State.markHeard_setLink, State.firstHeard_other]
  rw [State.raise_truck, State.heardAs_truck]
  exact h

/-- R5, R49: a truck that the grader has brought ON AIR. -/
theorem State.afterGrade_back {y : Truck} (h : y.state ≠ .registered) :
    (((s.setLink t m).setTruck t y).raise n).afterGrade t more =
      (s.heardAs t m { y with lastHeard := s.clock, more }).raise n := by
  rw [State.afterGrade, State.markHeard_raise, State.markHeard_setLink_setTruck, State.firstHeard_other]
  rw [State.raise_truck, State.heardAs_truck]
  exact h

/-- R3, R5: a REGISTERED truck graded, which no step waits for. -/
theorem State.afterGrade_first (h : (s.truck t).state = .registered)
    (free : s.NoStepWaits t) :
    (s.setLink t m).afterGrade t more =
      (s.heardAs t m { s.truck t with lastHeard := s.clock, more, state := .onAir }).raise
        { kind := .truckBack, reason := 2, truck := t } := by
  have hfirst := State.firstHeard_registered (s := s.heardAs t m { s.truck t with lastHeard := s.clock, more })
    (by rw [State.heardAs_truck]; exact h) free
  rw [State.afterGrade, State.markHeard_setLink, hfirst, State.heardAs_truck, State.heardAs_setTruck]

/-- R5: a PARKED truck takes no sample and is heard all the same. -/
theorem State.afterGrade_parked (h : (s.truck t).state = .parked) :
    s.afterGrade t more = { s with
      counters := tableSet {} s.counters t {}
      trucks := tableSet {} s.trucks t { s.truck t with lastHeard := s.clock, more } } := by
  refine State.firstHeard_other (s := (s.upRun t).markHeard t more) ?_
  have hstate : (((s.upRun t).markHeard t more).truck t).state = (s.truck t).state := by
    simp [State.markHeard, State.updTruck, State.upRun]
  rw [hstate, h]
  decide

end

/-! ### The report (R25, R26) -/

/-- R25, R26: command `c` reports a GOOD burst `u` of truck t: in the planned UP slot that its snapshot names, from the state
`base` that the transaction's outcome leaves, or in an open slot. -/
def GoodBurst (s base : State) (k : Fin 32) (t : Nat) (bytes : List Byte) (rssi : Int) (u : UpBurst) (c : Instr) : Prop :=
  (∃ p, ReportOf s k p u.downHeard base ∧ classify p.rate bytes = some u ∧ u.radioId = p.radioId ∧ p.truck = t ∧
      c = .upSlotReport k (.received bytes rssi)) ∨
    (s.slotOpen k = true ∧ classify 1 bytes = some u ∧ s.findTruck u.radioId = some t ∧
      (s.truck t).radioId = u.radioId ∧ c = .openSlotReport k (.received bytes rssi) ∧ base = s)

/-- R25: a GOOD burst of the truck whose slot is reported is attributed to it. -/
theorem attributed_good {rate radio : Nat} {bytes : List Byte} {rssi : Int} {u : UpBurst}
    (hu : classify rate bytes = some u) (hr : u.radioId = radio) :
    attributed rate radio (.received bytes rssi) = (.good rssi, some u) := by
  simp only [attributed, hu, hr, if_true]

/-- R26: a GOOD burst in an open slot. -/
theorem exec_openSlotReport_of {s : State} {k : Fin 32} {bytes : List Byte} {rssi : Int} {u : UpBurst}
    (hu : classify 1 bytes = some u) (ho : s.slotOpen k = true) :
    exec (.openSlotReport k (.received bytes rssi)) s =
      .next (publish s (s.openReport u rssi) (s.openRecord u rssi)) := by
  show execOpenSlotReport k _ s = _
  simp only [execOpenSlotReport, openBurst, hu, Option.map_some, ho, if_true]

section

variable {s base w : State} {k : Fin 32} {t : Nat} {bytes : List Byte} {rssi : Int} {u : UpBurst} {c : Instr}

/-- R25 step 1, R26: the entry of the truck heard holds the radio id of the burst. -/
theorem GoodBurst.radio (h : GoodBurst s base k t bytes rssi u c) : (base.truck t).radioId = u.radioId := by
  rcases h with ⟨p, hr, -, hid, rfl, -⟩ | ⟨-, -, -, hid, -, rfl⟩
  · exact hr.radio.trans hid.symm
  · exact hid

/-- R25, R26: the truck is graded and heard, then its cells are routed in burst order. -/
theorem GoodBurst.exec (h : GoodBurst s base k t bytes rssi u c) :
    exec c s = .next (publish s ((base.hearBurst t (.good rssi) u (s.headStalled t)).routeCells t u.cells)
      (base.gradedRecord t u.radioId ++
        (base.hearBurst t (.good rssi) u (s.headStalled t)).cellRecords t u.cells)) := by
  rcases h with ⟨p, hr, hu, hid, rfl, rfl⟩ | ⟨ho, hu, ht, -, rfl, rfl⟩
  · have ha := attributed_good (rssi := rssi) hu hid
    have hof : ReportOf s k p (downHeard (attributed p.rate p.radioId (.received bytes rssi)).2) base := by
      rw [ha]; exact hr
    have hx := exec_upSlotReport_of hof
    simp only [ha] at hx
    rw [hx, hid]
    rfl
  · rw [exec_openSlotReport_of hu ho]
    simp only [State.openReport, State.openRecord, ht]
    rfl

/-- R25 steps 3 to 5, R85: after the grader the truck is heard and a STALLED head order resumes. -/
theorem State.hearBurst_of (stalled : Bool) (hw : (base.gradeReport t (.good rssi)).afterGrade t u.more = w) :
    base.hearBurst t (.good rssi) u stalled = if stalled = true then w.stallResume t else w := by
  rw [← hw]; rfl

/-- R53: of a truck that is not PARKED the record is republished. -/
theorem GoodBurst.exec_graded (h : GoodBurst s base k t bytes rssi u c) (hs : (base.truck t).state ≠ .parked)
    (hw : (base.gradeReport t (.good rssi)).afterGrade t u.more = w) :
    let v := if s.headStalled t = true then w.stallResume t else w
    Machine.exec c s = .next (publish s (v.routeCells t u.cells) ([truckBase t] ++ v.cellRecords t u.cells)) := by
  rw [h.exec, State.hearBurst_of _ hw, State.gradedRecord_of h.radio hs]

/-- R5: a PARKED truck's record is republished only where it changes. -/
theorem GoodBurst.exec_parked (h : GoodBurst s base k t bytes rssi u c) (hs : (base.truck t).state = .parked)
    (hw : base.afterGrade t u.more = w) :
    let v := if s.headStalled t = true then w.stallResume t else w
    Machine.exec c s = .next (publish s (v.routeCells t u.cells) (v.cellRecords t u.cells)) := by
  rw [h.exec, State.hearBurst_of (w := w) _ (by rw [State.gradeReport_parked hs, hw]), State.gradedRecord_parked hs]
  rfl

/-- R47, R51: what an ON AIR truck graded STRONG, FAIR or WEAK is after a GOOD burst, told or not. -/
theorem State.afterGrade_graded {m : Link} (hs : (base.truck t).state = .onAir)
    (hl : (base.link t).grade.Measured)
    (hm : ((base.link t).counted (.good rssi)).graded base.settings (goodSample rssi base.noise) = m) :
    let y := { base.truck t with lastHeard := base.clock, more := u.more }
    ((base.truck t).linkNotice = false ∨ m.grade = (base.link t).grade →
      (base.gradeReport t (.good rssi)).afterGrade t u.more = base.heardAs t m y) ∧
    ((base.truck t).linkNotice = true → m.grade ≠ (base.link t).grade →
      (base.gradeReport t (.good rssi)).afterGrade t u.more = (base.heardAs t m y).raise
        { kind := .gradeChange, reason := gradeChangeCode (base.link t).grade m.grade, truck := t
          value := m.quality }) := by
  have hne : (base.truck t).state ≠ .registered := by rw [hs]; decide
  have hread : (base.setLink t m).link t = m := State.setLink_link_same _ _ _
  have hgrade : base.gradeReport t (.good rssi) = (base.setLink t m).raiseGradeChange t (base.link t).grade := by
    rw [State.gradeReport_graded (h := .good rssi) hs hl (fun hn => nomatch hn), ← hm]
    rfl
  refine ⟨fun hn => ?_, fun hn hc => ?_⟩
  · rw [hgrade, State.raiseGradeChange_none (s := base.setLink t m) (hread.symm ▸ hn), State.afterGrade_setLink hne]
  · rw [hgrade, State.raiseGradeChange_told (s := base.setLink t m) hn (hread.symm ▸ hc), hread,
      State.afterGrade_setLink_raise hne]

end

end Sys2Proof.Machine

namespace Sys2Proof.Proofs

open Sys2Proof.Machine

/-- Settles O29: the report by the state and grade of the truck, then the bytes of each kind of cell. -/
theorem answeredPoll : Obligations.AnsweredPoll := by
  refine ⟨?_, fun s t => ⟨rfl, rfl⟩, fun x rest => ⟨?_, ?_, UpCell.ofBytes_unknown⟩, ?_⟩
  · intro s base k t l bytes rssi u c h hl heard margin sample x hd held v resumed routed answers settled free
    subst hl
    replace h : GoodBurst s base k t bytes rssi u c := h
    have parked : ∀ {st : TruckState}, (base.truck t).state = st → st ≠ .parked → (base.truck t).state ≠ .parked :=
      fun e hne => e ▸ hne
    have step : ((base.link t).counted (.good rssi)).settleStep base.settings sample = settled hd (base.link t).settle :=
      Link.settleStep_eq _ _ _
    refine ⟨?_, fun hs hg => ?_, fun hs hfree => ?_, fun hs hfree => ?_, fun hs => ?_⟩
    · intro hs hg m
      obtain ⟨hquiet, htold⟩ := State.afterGrade_graded (u := u) (rssi := rssi) hs hg (m := m) rfl
      exact ⟨fun hn => h.exec_graded (parked hs (by decide)) (hquiet hn),
        fun hn hm => h.exec_graded (parked hs (by decide)) (htold hn hm)⟩
    · have hgrade := State.gradeReport_settling (h := .good rssi) hs hg (fun hn => nomatch hn)
      refine h.exec_graded (parked hs (by decide)) ?_
      rw [← step, hgrade]
      exact State.afterGrade_setLink (by rw [hs]; decide)
    · refine h.exec_graded (parked hs (by decide)) ?_
      rw [State.gradeReport_registered hs, ← step]
      exact State.afterGrade_first hs hfree
    · have hne : (base.truck t).state ≠ .parked := by
        rcases hs with hs | ⟨hs, -⟩ <;> rw [hs] <;> decide
      refine h.exec_graded hne ?_
      rw [State.gradeReport_leavesLost hs hfree]
      exact State.afterGrade_back (by simp)
    · exact h.exec_parked hs (State.afterGrade_parked hs)
  · rintro rfl
    rfl
  · rintro rfl
    rfl
  · intro b1 b2 b3 b4 b5 b6 b7 rest two reads
    have hunplanned : reads 0x62 = _ := UpCell.ofBytes_unplanned b1 b2 b3 _
    have hreadback : reads 0x60 = _ := UpCell.ofBytes_readback b1 b2 b3 b4 b5 b6 _
    have hstatus : reads 0x50 = _ := UpCell.ofBytes_orderStatus b1 b2 b3 _
    refine ⟨?_, ?_, ?_, fun h => ?_, fun h => ?_, fun h => ?_, fun h => ?_, fun h => ?_, fun h => ?_, fun h => ?_, ?_,
      fun h => ?_, fun h => ?_, fun h => ?_, ?_, ?_, ?_, ?_⟩
    · simp [reads, two, UpCell.ofBytes]
    · simp [reads, two, UpCell.ofBytes]
    · simp [reads, two, UpCell.ofBytes]
    · rw [hstatus, if_pos h]
    · rw [hstatus, if_neg (Nat.not_le.2 h)]
    · rw [hreadback, h]; rfl
    · rw [hreadback, h]; rfl
    · rw [hreadback, h]; rfl
    · rw [hreadback, h]; rfl
    · rw [hreadback, Action.ofCode_none h]; rfl
    · simp [reads, two, UpCell.ofBytes]
    · rw [hunplanned, h]; rfl
    · rw [hunplanned, h]; rfl
    · rw [hunplanned, if_neg (by omega), if_neg (by omega)]
    · simp [reads, two, UpCell.ofBytes]
    · simp [reads, two, UpCell.ofBytes]
    · simp [reads, two, UpCell.ofBytes]
    · simp [reads, two, UpCell.ofBytes]

end Sys2Proof.Proofs
end

section
/-! PROOFS. A burst in an open slot: stray units, and the burst of a known truck (R16, R17, R26, R67). -/

namespace Sys2Proof.Machine

section

variable {s : State} {k : Fin 32} {bytes : List Byte} {rssi : Int} {u : UpBurst}

/-- R16, R17: a GOOD burst in an open slot from a radio that no entry holds is a stray one, and forces no record. -/
theorem exec_strayBurst (hu : classify 1 bytes = some u) (ho : s.slotOpen k = true)
    (ht : s.findTruck u.radioId = none) :
    exec (.openSlotReport k (.received bytes rssi)) s = .next (publish s (s.strayBurst u rssi)) := by
  rw [exec_openSlotReport_of hu ho]
  simp only [State.openReport, State.openRecord, ht]

/-- R16: a stray burst without an alarm cell. -/
theorem State.strayBurst_calm (ha : firstAlarm u.cells = none) : s.strayBurst u rssi = s.strayUnit u.radioId rssi := by
  simp only [State.strayBurst, ha]

/-- R17, R67: a stray burst with an alarm cell ends a quiet period first. -/
theorem State.strayBurst_alarm {badge : Nat} (ha : firstAlarm u.cells = some badge) : s.strayBurst u rssi =
    (s.endQuietPeriod .alarmCell (strayNotice .quietEnded u.radioId)).strayAlarm u.radioId badge rssi := by
  simp only [State.strayBurst, ha]

/-- R16, R17: a notice raised and the stray noted in the same second. -/
theorem State.raise_noteStray (n : Notice) (radio : Nat) :
    (s.raise n).noteStray radio = { s.raise n with strayId := radio, strayTime := s.clock } :=
  congrArg (fun now => { s.raise n with strayId := radio, strayTime := now }) (s.raise_clock n)

/-- R67: the end of a quiet period leaves the clock. -/
theorem State.endQuietPeriod_clock (cause : QuietCause) (n : Notice) : (s.endQuietPeriod cause n).clock = s.clock := by
  unfold State.endQuietPeriod
  split
  · exact State.raise_clock _ _
  · rfl

/-- R27: IDLE cells change nothing and force no record. -/
theorem State.idleCells {t : Nat} : ∀ {cells : List (List Byte)}, (∀ b ∈ cells, UpCell.ofBytes b = some .idle) →
    s.routeCells t cells = s ∧ s.cellRecords t cells = []
  | [], _ => ⟨rfl, rfl⟩
  | b :: rest, h => by
    have hb : s.routeBytes t b = s := by rw [State.routeBytes, h b (by simp)]; rfl
    obtain ⟨hroute, hrecords⟩ := State.idleCells (cells := rest) (t := t) fun c hc => h c (by simp [hc])
    refine ⟨?_, ?_⟩
    · rw [State.routeCells_cons, hb, hroute]
    · rw [State.cellRecords, h b (by simp), hb, hrecords]
      rfl

end

end Sys2Proof.Machine

namespace Sys2Proof.Proofs

open Sys2Proof.Machine

/-- Settles O32: a stray burst by its alarm cell and the last stray; a known truck's as its answered poll is. -/
theorem strayUnitHeard : Obligations.StrayUnitHeard := by
  intro s k bytes rssi
  refine ⟨fun u hu ho ht ha => ⟨fun hlast => ?_, fun hnew => ?_⟩, ?_, ?_, ?_, fun hbad => ?_, rfl⟩
  · rw [exec_strayBurst hu ho ht, State.strayBurst_calm ha, State.strayUnit, if_pos hlast]
  · rw [exec_strayBurst hu ho ht, State.strayBurst_calm ha, State.strayUnit, if_neg hnew, State.raise_noteStray]
    rfl
  · intro u badge hu ho ht ha w
    have hw : s.endQuietPeriod .alarmCell (strayNotice .quietEnded u.radioId) = w := rfl
    have hclock : w.clock = s.clock := by rw [← hw, State.endQuietPeriod_clock]
    rw [exec_strayBurst hu ho ht, State.strayBurst_alarm ha, hw, State.strayAlarm, State.raise_noteStray, hclock]
    rfl
  · intro u t l hu ho ht hr hidle hs hl hg hn hstall heard margin
    subst hl
    have hburst : GoodBurst s s k t bytes rssi u (.openSlotReport k (.received bytes rssi)) :=
      Or.inr ⟨ho, hu, ht, hr, rfl, rfl⟩
    have hafter := (State.afterGrade_graded (rssi := rssi) (u := u) hs hg rfl).1 (Or.inl hn)
    have hx := hburst.exec_graded (by rw [hs]; decide) hafter
    dsimp only at hx
    obtain ⟨hroute, hrecords⟩ := State.idleCells (s := s.heardAs t _ _) (t := t) hidle
    rw [if_neg (by rw [hstall]; decide), hroute, hrecords] at hx
    exact hx
  · intro u t hu ho ht w
    rw [exec_openSlotReport_of hu ho]
    simp only [State.openReport, State.openRecord, ht]
    rfl
  · show execOpenSlotReport k _ s = _
    simp only [execOpenSlotReport, openBurst, hbad, Option.map_none]

end Sys2Proof.Proofs
end

section
/-! PROOFS. Quiet periods, watch timers and the welfare cells: each operation as one change of a watch, a truck alarm field and a
control-cell list, and the statements settled. -/

namespace Sys2Proof.Machine

/-! ### Quiet periods (R65 to R67) -/

section

variable {s : State}

/-- R67: the first event of the table ends a RUNNING quiet period, with QUIET ENDED. -/
theorem State.endQuietPeriod_running (h : s.quiet = true) (cause : QuietCause) (n : Notice) :
    s.endQuietPeriod cause n = { s with quiet := false, lastQuietCause := cause }.raise
      { n with reason := cause.code, value := (s.clock - s.quietStart : Nat) } := if_pos h

/-- R67: with no quiet period RUNNING there is none to end. -/
theorem State.endQuietPeriod_calm (h : s.quiet = false) (cause : QuietCause) (n : Notice) :
    s.endQuietPeriod cause n = s := if_neg (by simp [h])

/-- R65: QUIET with no watch PROMPTED. -/
theorem quietCard_taken {r : Req} (h : s.anyPrompted = false) :
    quietCard r s =
      ⟨{ s with quiet := true, quietStart := if s.quiet then s.quietStart else s.clock,
                quietEnd := satAdd s.clock (clampTo 10 600 (r.num 8)) },
        some (.doneOr (firstClamped [(8, !inRange 10 600 (r.num 8))])
          (dwordWords (satAdd s.clock (clampTo 10 600 (r.num 8)))))⟩ := by
  unfold quietCard
  rw [h]
  rfl

/-- R65, R175: the answer of a QUIET taken is DONE within the range, where the clamp changes nothing, and DONE CLAMPED
outside. -/
theorem quiet_answer (duration now : Nat) :
    Answer.doneOr (firstClamped [(8, !inRange 10 600 duration)]) (dwordWords (satAdd now (clampTo 10 600 duration))) =
      if 10 ≤ duration ∧ duration ≤ 600 then .ok (dwordWords (min (now + duration) 4294967295))
      else ⟨.doneClamped, 8, dwordWords (min (now + max 10 (min 600 duration)) 4294967295)⟩ := by
  split
  · next h =>
    have hin : inRange 10 600 duration = true := by simp [inRange, h]
    have hclamp : clampTo 10 600 duration = duration := by unfold clampTo; omega
    rw [hin, hclamp]
    rfl
  · next h =>
    have hout : inRange 10 600 duration = false := by simp only [inRange, ← Bool.decide_and, h, decide_false]
    rw [hout]
    rfl

/-- R65: a watch of a roster entry in use is PROMPTED. -/
theorem State.anyPrompted_iff : s.anyPrompted = true ↔
    ∃ e ∈ s.watches, e.2.state = .prompted ∧ (s.worker e.1).inUse = true := by
  simp [State.anyPrompted]

/-- R67: the clock at quiet end, or past it, ends the period. -/
theorem State.quietExpired_due (h : s.quiet = true) (hend : s.quietEnd ≤ s.clock) :
    s.quietExpired = s.endQuietPeriod .expired := if_pos (by simp [h, hend])

/-- R67: before quiet end, or with no period RUNNING, the clock ends none. -/
theorem State.quietExpired_early (h : s.quiet = false ∨ s.clock < s.quietEnd) : s.quietExpired = s := by
  refine if_neg fun hdue => ?_
  simp only [Bool.and_eq_true, decide_eq_true_eq] at hdue
  obtain ⟨hrun, hend⟩ := hdue
  exact h.elim (fun hcalm => by simp [hcalm] at hrun) (fun hlt => Nat.not_lt.2 hend hlt)

end

/-! ### A watch stored twice -/

section

variable {s : State} {w : Nat}

/-- Of two watches stored for a worker the later stands. -/
@[simp] theorem State.setWatch_setWatch (a b : Watch) : (s.setWatch w a).setWatch w b = s.setWatch w b := by
  simp only [State.setWatch, tableSet_set]

@[simp] theorem State.updWatch_setWatch (a : Watch) (f : Watch → Watch) :
    (s.setWatch w a).updWatch w f = s.setWatch w (f a) := by
  rw [State.updWatch, State.setWatch_watch_same, State.setWatch_setWatch]

/-- R98: a watch changed but for its interval has the effective interval it had. -/
theorem State.effectiveInterval_setWatch {m : Watch} (h : m.interval = (s.watch w).interval) :
    (s.setWatch w m).effectiveInterval w = s.effectiveInterval w := by
  simp only [State.effectiveInterval, State.setWatch_watch_same, State.setWatch_worker, State.setWatch_permit, h]

end

/-! ### The cells of a worker's truck (R32, R34) -/

section

variable (s : State) (w : Nat) (c : DownCell)

/-- R32: a class A cell for a worker joins the list of the truck it is aboard unless present there, and nothing else changes. -/
theorem State.toTruckOf_spec :
    let u := s.toTruckOf w c
    (∀ i, (s.worker w).aboard = some i → (s.list i).present c = false →
      u.list i = { s.list i with
        cells := insertEntry s.ageCounter { cell := c, age := s.ageCounter } (s.list i).cells } ∧
      u.ageCounter = s.ageCounter + 1) ∧
    (∀ i, (s.worker w).aboard = some i → (s.list i).present c = true →
      u.list i = s.list i ∧ u.ageCounter = s.ageCounter) ∧
    ((s.worker w).aboard = none → u.ageCounter = s.ageCounter) ∧
    (∀ i, (s.worker w).aboard ≠ some i → u.list i = s.list i) ∧
    u = { s with lists := u.lists, ageCounter := u.ageCounter } := by
  intro u
  cases ho : (s.worker w).aboard with
  | none =>
    have hu : u = s := by simp only [u, State.toTruckOf, ho]
    rw [hu]
    exact ⟨fun _ h => (nomatch h), fun _ h => (nomatch h), fun _ => rfl, fun _ _ => rfl, rfl⟩
  | some t =>
    have hu : u = if (s.list t).present c then s else s.addEntry t c := by
      simp only [u, State.toTruckOf, ho, State.addClassA]
    cases hp : (s.list t).present c with
    | true =>
      have hsame : u = s := by rw [hu, hp]; rfl
      rw [hsame]
      refine ⟨fun i hi habs => ?_, fun _ _ _ => ⟨rfl, rfl⟩, (nomatch ·), fun _ _ => rfl, rfl⟩
      obtain rfl := Option.some.inj hi
      simp [hp] at habs
    | false =>
      have hadd : u = s.addEntry t c := by rw [hu, hp]; rfl
      rw [hadd]
      refine ⟨fun i hi _ => ?_, fun i hi hpres => ?_, (nomatch ·), fun i hi => ?_, rfl⟩
      · obtain rfl := Option.some.inj hi
        exact ⟨State.setList_list_same _ _ _, rfl⟩
      · obtain rfl := Option.some.inj hi
        simp [hp] at hpres
      · exact State.setList_list_other _ _ _ _ fun e => hi (congrArg some e.symm)

/-- R34: a cell for a worker leaves the list of the truck it is aboard, and nothing else changes. -/
theorem State.fromTruckOf_spec :
    let u := s.fromTruckOf w c
    (∀ i, (s.worker w).aboard = some i → u.list i = { s.list i with
      cells := (s.list i).cells.filter fun e => decide (e.cell ≠ c) }) ∧
    (∀ i, (s.worker w).aboard ≠ some i → u.list i = s.list i) ∧
    u = { s with lists := u.lists } := by
  intro u
  cases ho : (s.worker w).aboard with
  | none =>
    have hu : u = s := by simp only [u, State.fromTruckOf, ho]
    rw [hu]
    exact ⟨fun _ h => (nomatch h), fun _ _ => rfl, rfl⟩
  | some t =>
    have hu : u = s.withdrawA t fun x => decide (x = c) := by simp only [u, State.fromTruckOf, ho]
    rw [hu]
    refine ⟨fun i hi => ?_, fun i hi => ?_, rfl⟩
    · obtain rfl := Option.some.inj hi
      rw [State.withdrawA, State.setList_list_same]
      simp only [ne_eq, decide_not]
    · exact State.setList_list_other _ _ _ _ fun e => hi (congrArg some e.symm)

end

/-! ### A watch changed and its cell withdrawn (R102, R103, R106, R107) -/

/-- R34, R102: the watch of worker w becomes `m`, and cell `gone` leaves the list of the truck the worker is aboard. -/
def State.settleWatch (s : State) (w : Nat) (gone : DownCell) (m : Watch) : State := (s.fromTruckOf w gone).setWatch w m

section

variable (s : State) (w : Nat) (gone : DownCell) (m : Watch)

theorem State.settleWatch_watch : (s.settleWatch w gone m).watch w = m := State.setWatch_watch_same _ _ _

theorem State.settleWatch_watch_other {i : Nat} (h : i ≠ w) : (s.settleWatch w gone m).watch i = s.watch i := by
  obtain ⟨-, -, hframe⟩ := s.fromTruckOf_spec w gone
  rw [State.settleWatch, State.setWatch_watch_other _ _ _ _ h, hframe]
  rfl

/-- R34: the list of the worker's truck loses the cell. -/
theorem State.settleWatch_list {i : Nat} (h : (s.worker w).aboard = some i) :
    (s.settleWatch w gone m).list i = { s.list i with
      cells := (s.list i).cells.filter fun e => decide (e.cell ≠ gone) } := by
  obtain ⟨hlist, -, -⟩ := s.fromTruckOf_spec w gone
  exact hlist i h

theorem State.settleWatch_list_other {i : Nat} (h : (s.worker w).aboard ≠ some i) :
    (s.settleWatch w gone m).list i = s.list i := by
  obtain ⟨-, hother, -⟩ := s.fromTruckOf_spec w gone
  exact hother i h

theorem State.settleWatch_frame : s.settleWatch w gone m =
    { s with watches := (s.settleWatch w gone m).watches, lists := (s.settleWatch w gone m).lists } := by
  obtain ⟨-, -, hframe⟩ := s.fromTruckOf_spec w gone
  conv => lhs; rw [State.settleWatch, hframe]
  conv => rhs; rw [State.settleWatch, hframe]
  rfl

/-- The clauses on lists, watches and the rest that statements make of a watch so changed. -/
theorem State.settleWatch_changes :
    let u := s.settleWatch w gone m
    (∀ i, (s.worker w).aboard = some i → (u.list i).waiting = (s.list i).waiting ∧
      (u.list i).cells = (s.list i).cells.filter fun e => decide (e.cell ≠ gone)) ∧
    (∀ i, (s.worker w).aboard ≠ some i → u.list i = s.list i) ∧
    (∀ i, i ≠ w → u.watch i = s.watch i) ∧ u = { s with watches := u.watches, lists := u.lists } :=
  ⟨fun i h => by rw [s.settleWatch_list w gone m h]; exact ⟨rfl, rfl⟩, fun _ => s.settleWatch_list_other w gone m,
    fun _ => s.settleWatch_watch_other w gone m, s.settleWatch_frame w gone m⟩

theorem State.settleWatch_worker : (s.settleWatch w gone m).worker w = s.worker w := by
  rw [State.settleWatch_frame]; rfl

theorem State.settleWatch_clock : (s.settleWatch w gone m).clock = s.clock := by
  rw [State.settleWatch_frame]

theorem State.updWatch_settleWatch (f : Watch → Watch) :
    (s.settleWatch w gone m).updWatch w f = s.settleWatch w gone (f m) := State.updWatch_setWatch _ _

/-- A cell withdrawn after a watch was stored. -/
theorem State.fromTruckOf_setWatch : (s.setWatch w m).fromTruckOf w gone = s.settleWatch w gone m := by
  simp only [State.settleWatch, State.fromTruckOf, State.setWatch_worker]
  cases (s.worker w).aboard <;> rfl

/-- A watch stored before its cell is withdrawn, and again after it. -/
theorem State.settleWatch_setWatch (a : Watch) : (s.setWatch w a).settleWatch w gone m = s.settleWatch w gone m := by
  rw [State.settleWatch, State.fromTruckOf_setWatch]
  exact State.setWatch_setWatch _ _

/-- R102: the PROMPT of a watch just stored withdrawn. -/
theorem State.withdrawPrompt_setWatch : (s.setWatch w m).withdrawPrompt w =
    s.settleWatch w (.prompt (s.worker w).badge) { m with prompt := .none } := by
  rw [State.withdrawPrompt, State.setWatch_worker, State.fromTruckOf_setWatch, State.updWatch_settleWatch]

end

/-! ### Alarms (R104, R106, R107) -/

section

variable (s : State) (w t : Nat)

/-- R104, R106: the watch becomes ALARM, its PROMPT is withdrawn, and the alarm is told. -/
theorem State.enterAlarm_eq (reason : AlarmReason) (via : Option Nat) :
    s.enterAlarm w reason via =
      (s.settleWatch w (.prompt (s.worker w).badge)
        { s.watch w with state := .alarm, prompt := .none, alarm := some { reason, raised := s.clock, via } }).afterAlarm w
        { kind := .workerAlarm, reason := reason.noticeCode, worker := w, truck := via.getD 0,
          badge := (s.worker w).badge } := by
  rw [State.afterAlarm_eq]
  simp only [State.enterAlarm, State.updWatch, State.withdrawPrompt_setWatch, State.settleWatch_worker]

/-- R106: the same for a watch just stored. -/
theorem State.enterAlarm_setWatch (m : Watch) (reason : AlarmReason) (via : Option Nat) :
    (s.setWatch w m).enterAlarm w reason via =
      (s.settleWatch w (.prompt (s.worker w).badge)
        { m with state := .alarm, prompt := .none, alarm := some { reason, raised := s.clock, via } }).afterAlarm w
        { kind := .workerAlarm, reason := reason.noticeCode, worker := w, truck := via.getD 0,
          badge := (s.worker w).badge } := by
  rw [State.enterAlarm_eq, State.settleWatch_setWatch, State.setWatch_watch_same]
  rfl

/-- R104: the reason of an alarm from a missed check-in. -/
theorem State.missedReason_eq : s.missedReason w =
    if (s.worker w).aboard.any (fun i => decide ((s.link i).grade = .lost)) then .noContact else .missedCheckIn := by
  unfold State.missedReason
  cases (s.worker w).aboard with
  | none => rfl
  | some i => simp only [Option.any_some, decide_eq_true_eq]

variable {s w}

/-- R107: a repeat with the same reason raises the repeat count alone. -/
theorem State.alarmAgain_same {a : AlarmRecord} {reason : AlarmReason} (m : Watch) (ha : m.alarm = some a)
    (hr : a.reason = reason) : (s.setWatch w m).alarmAgain w t reason =
      s.setWatch w { m with alarm := some { a with repeats := min (a.repeats + 1) 255 } } := by
  simp only [State.alarmAgain, State.setWatch_watch_same, ha, hr, if_true, State.updWatch_setWatch]

/-- R107: another reason is a new alarm, with ALARM SEEN of the old one withdrawn. -/
theorem State.alarmAgain_other {a : AlarmRecord} {reason : AlarmReason} (m : Watch) (ha : m.alarm = some a)
    (hr : a.reason ≠ reason) : (s.setWatch w m).alarmAgain w t reason =
      (s.settleWatch w (.alarmSeenWorker (s.worker w).badge)
        { m with state := .alarm, alarm := some { reason, raised := s.clock, via := some t } }).afterAlarm w
        { kind := .workerAlarm, reason := reason.noticeCode, worker := w, truck := t, badge := (s.worker w).badge } := by
  rw [State.afterAlarm_eq]
  simp only [State.alarmAgain, State.setWatch_watch_same, ha, hr, if_false, State.setWatch_worker,
    State.fromTruckOf_setWatch, State.settleWatch_clock, State.updWatch_settleWatch, State.settleWatch_worker]

end

/-! ### Last heard via (R103, R106) -/

/-- The watch once a cell of its worker has come from truck t. -/
def Watch.heardVia (x : Watch) (t : Nat) : Watch := { x with lastHeardVia := some t }

theorem Watch.heardVia_state (x : Watch) (t : Nat) : (x.heardVia t).state = x.state := rfl

theorem Watch.heardVia_mode (x : Watch) (t : Nat) : (x.heardVia t).mode = x.mode := rfl

theorem Watch.heardVia_inAlarm (x : Watch) (t : Nat) : (x.heardVia t).inAlarm = x.inAlarm := rfl

theorem State.updWatch_heardVia (s : State) (w t : Nat) :
    (s.updWatch w fun x => { x with lastHeardVia := some t }) = s.setWatch w ((s.watch w).heardVia t) := rfl

/-! ### PANIC and MAN DOWN cells (R106 to R109) -/

/-- R106: the reason of an alarm from a cell. -/
def alarmCellReason (manDown : Bool) : AlarmReason := if manDown then .manDown else .panic

/-- R106: a PANIC or MAN DOWN cell. -/
def alarmUpCell (manDown : Bool) (badge : Nat) : UpCell := if manDown then .manDown badge else .panic badge

section

variable {s : State} {w t badge : Nat} {manDown : Bool}

theorem State.routeCell_alarm : s.routeCell t (alarmUpCell manDown badge) = s.alarmCell t badge manDown := by
  cases manDown <;> rfl

theorem State.cellRecord_alarm : s.cellRecord t (alarmUpCell manDown badge) =
    ((s.repeatedAlarm badge (alarmCellReason manDown)).map workerBase).toList := by
  cases manDown <;> rfl

/-- R67, R106: a cell that finds a quiet period RUNNING ends it and is then taken as in a calm one. -/
theorem State.alarmCell_quiet (h : s.quiet = true) : s.alarmCell t badge manDown =
    ({ s with quiet := false, lastQuietCause := .alarmCell }.raise
      { kind := .quietEnded, reason := 3, truck := t, worker := (s.findWorker badge).getD 0
        value := (s.clock - s.quietStart : Nat) }).alarmCell t badge manDown := by
  have hcalm (n : Notice) : ({ s with quiet := false, lastQuietCause := .alarmCell }.raise n).quiet = false := by
    rw [State.raise_eq]
  have hfind (n : Notice) : ({ s with quiet := false, lastQuietCause := .alarmCell }.raise n).findWorker badge =
      s.findWorker badge := by rw [State.raise_eq]; rfl
  unfold State.alarmCell
  rw [hfind]
  cases s.findWorker badge <;>
    simp only [State.endQuietPeriod_running h, State.endQuietPeriod_calm (hcalm _)] <;> rfl

/-- R106, R107: a cell of a worker sets last heard via, and is a repeat or a new alarm by the state of the watch. -/
theorem State.alarmCell_worker (h : s.quiet = false) (hw : s.findWorker badge = some w) :
    s.alarmCell t badge manDown =
      if (s.watch w).inAlarm then
        (s.setWatch w ((s.watch w).heardVia t)).alarmAgain w t (alarmCellReason manDown)
      else (s.setWatch w ((s.watch w).heardVia t)).enterAlarm w (alarmCellReason manDown) (some t) := by
  simp only [State.alarmCell, hw, State.endQuietPeriod_calm h, State.updWatch_heardVia, State.setWatch_watch_same,
    Watch.heardVia_inAlarm, alarmCellReason]

/-- R97: in ALARM or ALARM ACKNOWLEDGED. -/
theorem Watch.inAlarm_iff {x : Watch} : x.inAlarm = true ↔ x.state = .alarm ∨ x.state = .acknowledged := by
  simp [Watch.inAlarm]

/-- R106: a worker in neither ALARM nor ALARM ACKNOWLEDGED. -/
theorem State.alarmCell_new (h : s.quiet = false) (hw : s.findWorker badge = some w)
    (hna : (s.watch w).state ≠ .alarm) (hnk : (s.watch w).state ≠ .acknowledged) : s.alarmCell t badge manDown =
      (s.settleWatch w (.prompt (s.worker w).badge) { (s.watch w).heardVia t with
        state := .alarm, prompt := .none
        alarm := some { reason := alarmCellReason manDown, raised := s.clock, via := some t } }).afterAlarm w
        { kind := .workerAlarm, reason := (alarmCellReason manDown).noticeCode, worker := w, truck := t,
          badge := (s.worker w).badge } := by
  have hout : ¬ (s.watch w).inAlarm = true := fun hin => (Watch.inAlarm_iff.1 hin).elim hna hnk
  rw [State.alarmCell_worker h hw, if_neg hout, State.enterAlarm_setWatch]
  rfl

section

variable {a : AlarmRecord} (hs : (s.watch w).state = .alarm ∨ (s.watch w).state = .acknowledged)
  (ha : (s.watch w).alarm = some a)
include hs ha

/-- R107: a repeat with the same reason raises the repeat count alone. -/
theorem State.alarmCell_same (h : s.quiet = false) (hw : s.findWorker badge = some w)
    (hr : a.reason = alarmCellReason manDown) : s.alarmCell t badge manDown =
      s.setWatch w { (s.watch w).heardVia t with alarm := some { a with repeats := min (a.repeats + 1) 255 } } := by
  rw [State.alarmCell_worker h hw, if_pos (Watch.inAlarm_iff.2 hs)]
  exact State.alarmAgain_same t _ ha hr

/-- R107: and has the worker's record republished in any case. -/
theorem State.cellRecord_same (hw : s.findWorker badge = some w) (hr : a.reason = alarmCellReason manDown) :
    s.cellRecord t (alarmUpCell manDown badge) = [workerBase w] := by
  have hrepeat : s.repeatedAlarm badge (alarmCellReason manDown) = some w := by
    simp [State.repeatedAlarm, hw, Watch.inAlarm_iff.2 hs, ha, hr]
  rw [State.cellRecord_alarm, hrepeat]
  rfl

/-- R107: another reason is a new alarm. -/
theorem State.alarmCell_other (h : s.quiet = false) (hw : s.findWorker badge = some w)
    (hr : a.reason ≠ alarmCellReason manDown) : s.alarmCell t badge manDown =
      (s.settleWatch w (.alarmSeenWorker (s.worker w).badge) { (s.watch w).heardVia t with
        state := .alarm
        alarm := some { reason := alarmCellReason manDown, raised := s.clock, via := some t } }).afterAlarm w
        { kind := .workerAlarm, reason := (alarmCellReason manDown).noticeCode, worker := w, truck := t,
          badge := (s.worker w).badge } := by
  rw [State.alarmCell_worker h hw, if_pos (Watch.inAlarm_iff.2 hs)]
  exact State.alarmAgain_other t _ ha hr

end

/-- R108: a cell with an unknown badge goes to the sender's alarm field. -/
theorem State.alarmCell_unknown (h : s.quiet = false) (hw : s.findWorker badge = none) :
    s.alarmCell t badge manDown = s.truckAlarmCell t badge manDown := by
  simp only [State.alarmCell, hw, State.endQuietPeriod_calm h]

/-! The sender's alarm field (R108, R109). -/

/-- R186: TRUCK ALARM for a cell from truck t. -/
def truckAlarmTold (t badge : Nat) (manDown : Bool) : Notice :=
  { kind := .truckAlarm, reason := if manDown then 2 else 1, truck := t, badge }

/-- R108: a new alarm. -/
theorem State.truckAlarmCell_new (h : s.truckAlarm t = none) : s.truckAlarmCell t badge manDown =
    (s.setTruckAlarm t (some { manDown, badge, raised := s.clock })).raise (truckAlarmTold t badge manDown) := by
  simp only [State.truckAlarmCell, h]
  rfl

variable {a : TruckAlarm}

/-- R109: the same badge and reason. -/
theorem State.truckAlarmCell_repeat (h : s.truckAlarm t = some a) (hb : a.badge = badge) (hm : a.manDown = manDown) :
    s.truckAlarmCell t badge manDown =
      s.setTruckAlarm t (some { a with repeats := min (a.repeats + 1) 255 }) := by
  simp only [State.truckAlarmCell, h, hb, hm, and_self, if_true]

/-- R109: another badge or reason renews the field; if it was acknowledged, its ALARM SEEN is withdrawn. -/
theorem State.truckAlarmCell_renew (h : s.truckAlarm t = some a) (hne : a.badge ≠ badge ∨ a.manDown ≠ manDown) :
    s.truckAlarmCell t badge manDown =
      (if a.acked then
        (s.withdrawA t fun c => decide (c = .alarmSeenTruck t)).setTruckAlarm t
          (some { a with badge, manDown, raised := s.clock, acknowledged := 0, acked := false, seen := .none })
      else s.setTruckAlarm t (some { a with badge, manDown, raised := s.clock, acknowledged := 0 })).raise
        (truckAlarmTold t badge manDown) := by
  have hnot : ¬ (a.badge = badge ∧ a.manDown = manDown) := fun ⟨hb, hm⟩ => hne.elim (· hb) (· hm)
  simp only [State.truckAlarmCell, h, if_neg hnot]
  cases a.acked <;> rfl

end

/-! ### CHECK IN cells (R103, R105, R115) -/

section

variable {s : State} {w t badge : Nat}

/-- R103: an unknown badge is ignored. -/
theorem State.checkIn_unknown (h : s.findWorker badge = none) : s.checkIn t badge = s := by
  simp only [State.checkIn, h]

section

variable {m : Watch}

/-- R98: last check-in now and a new deadline, for a watch just stored with its interval unchanged. -/
theorem State.setDeadline_setWatch (h : m.interval = (s.watch w).interval) :
    (s.setWatch w m).setDeadline w = s.setWatch w
      { m with lastCheckIn := s.clock, deadline := satAdd s.clock (s.effectiveInterval w) } := by
  rw [State.setDeadline, State.updWatch_setWatch, State.effectiveInterval_setWatch h]
  rfl

/-- R115: a single check answered is OFF, with its PROMPT withdrawn; mode SINGLE ALL tells the result. -/
theorem State.singleAnswered_setWatch :
    let u := s.settleWatch w (.prompt (s.worker w).badge)
      { m with lastCheckIn := s.clock, state := .off, mode := .off, prompt := .none }
    (s.setWatch w m).singleAnswered w t = if m.mode = .singleAll then
      u.raise { kind := .welfareCheckResult, reason := 1, worker := w, truck := t } else u := by
  simp only [State.singleAnswered, State.setWatch_watch_same, State.withdrawPrompt_setWatch, State.updWatch_settleWatch,
    State.settleWatch_clock, decide_eq_true_eq]

/-- R105: a late check-in is told once. -/
theorem State.lateCheckIn_setWatch {a : AlarmRecord} (ha : m.alarm = some a) :
    (s.setWatch w m).lateCheckIn w t = if a.late then s.setWatch w { m with lastCheckIn := s.clock }
      else (s.setWatch w { m with lastCheckIn := s.clock, alarm := some { a with late := true } }).raise
        { kind := .lateCheckIn, reason := a.reason.noticeCode, worker := w, truck := t
          value := (s.clock - a.raised : Nat) } := by
  simp only [State.lateCheckIn, State.updWatch_setWatch, State.setWatch_watch_same, ha, State.setWatch_clock]

end

/-! By the state of the watch (R103). -/

section

variable (hw : s.findWorker badge = some w)
include hw

theorem State.checkIn_off (hs : (s.watch w).state = .off) :
    s.checkIn t badge = s.setWatch w { (s.watch w).heardVia t with lastCheckIn := s.clock } := by
  simp only [State.checkIn, hw, State.updWatch_heardVia, State.setWatch_watch_same, Watch.heardVia_state, hs,
    State.updWatch_setWatch, State.setWatch_clock]

theorem State.checkIn_watching (hs : (s.watch w).state = .watching) :
    s.checkIn t badge = s.setWatch w { (s.watch w).heardVia t with
      lastCheckIn := s.clock, deadline := satAdd s.clock (s.effectiveInterval w) } :=
  calc s.checkIn t badge
    _ = (s.setWatch w ((s.watch w).heardVia t)).setDeadline w := by
      simp only [State.checkIn, hw, State.updWatch_heardVia, State.setWatch_watch_same, Watch.heardVia_state, hs]
    _ = _ := State.setDeadline_setWatch rfl

/-- R103: WATCHING again, with the PROMPT withdrawn. -/
theorem State.checkIn_continuous (hs : (s.watch w).state = .prompted) (hm : (s.watch w).mode = .continuous) :
    s.checkIn t badge = s.settleWatch w (.prompt (s.worker w).badge) { (s.watch w).heardVia t with
      lastCheckIn := s.clock, state := .watching, prompt := .none
      deadline := satAdd s.clock (s.effectiveInterval w) } :=
  calc s.checkIn t badge
    _ = (((s.setWatch w ((s.watch w).heardVia t)).setDeadline w).updWatch w
          fun x => { x with state := .watching }).withdrawPrompt w := by
      simp only [State.checkIn, hw, State.updWatch_heardVia, State.setWatch_watch_same, Watch.heardVia_state, hs,
        Watch.heardVia_mode, hm]
    _ = _ := by
      rw [State.setDeadline_setWatch (m := (s.watch w).heardVia t) rfl, State.updWatch_setWatch,
        State.withdrawPrompt_setWatch]

/-- R115: OFF, with the PROMPT withdrawn; mode SINGLE ALL tells the result. -/
theorem State.checkIn_single (hs : (s.watch w).state = .prompted)
    (hm : (s.watch w).mode = .singleFail ∨ (s.watch w).mode = .singleAll) :
    let u := s.settleWatch w (.prompt (s.worker w).badge) { (s.watch w).heardVia t with
      lastCheckIn := s.clock, state := .off, mode := .off, prompt := .none }
    s.checkIn t badge = if (s.watch w).mode = .singleAll then
      u.raise { kind := .welfareCheckResult, reason := 1, worker := w, truck := t } else u := by
  intro u
  calc s.checkIn t badge
    _ = (s.setWatch w ((s.watch w).heardVia t)).singleAnswered w t := by
      rcases hm with hm | hm <;>
        simp only [State.checkIn, hw, State.updWatch_heardVia, State.setWatch_watch_same, Watch.heardVia_state, hs,
          Watch.heardVia_mode, hm]
    _ = _ := State.singleAnswered_setWatch

/-- R105: told once as LATE CHECK-IN. -/
theorem State.checkIn_late {a : AlarmRecord} (hs : (s.watch w).state = .alarm ∨ (s.watch w).state = .acknowledged)
    (ha : (s.watch w).alarm = some a) :
    s.checkIn t badge = if a.late then s.setWatch w { (s.watch w).heardVia t with lastCheckIn := s.clock }
      else (s.setWatch w { (s.watch w).heardVia t with
          lastCheckIn := s.clock, alarm := some { a with late := true } }).raise
        { kind := .lateCheckIn, reason := a.reason.noticeCode, worker := w, truck := t
          value := (s.clock - a.raised : Nat) } :=
  calc s.checkIn t badge
    _ = (s.setWatch w ((s.watch w).heardVia t)).lateCheckIn w t := by
      rcases hs with hs | hs <;>
        simp only [State.checkIn, hw, State.updWatch_heardVia, State.setWatch_watch_same, Watch.heardVia_state, hs]
    _ = _ := State.lateCheckIn_setWatch ha

end

end

/-! ### Timer events (R101, R104) -/

section

variable {s : State} {w : Nat}

/-- R101: a watch PROMPTED now. -/
def Watch.prompted (x : Watch) (now : Nat) : Watch :=
  { x with state := .prompted, graceEnd := satAdd now x.grace, prompt := .queued }

/-- R101: the watch PROMPTED, with a PROMPT for the truck of the worker, before a quiet period is ended. -/
def State.promptAdded (s : State) (w : Nat) : State :=
  (s.setWatch w ((s.watch w).prompted s.clock)).toTruckOf w (.prompt (s.worker w).badge)

/-- R67, R101: a deadline that is due prompts the worker and ends a quiet period. -/
theorem State.deadlineReached_due (hs : (s.watch w).state = .watching) (hd : (s.watch w).deadline ≤ s.clock) :
    s.deadlineReached w = (s.promptAdded w).endQuietPeriod .prompt { kind := .quietEnded, worker := w } := by
  rw [State.deadlineReached, if_pos ⟨hs, hd⟩, State.promptWorker, Nat.max_eq_right hd]
  rfl

theorem State.deadlineReached_early (h : (s.watch w).state ≠ .watching ∨ s.clock < (s.watch w).deadline) :
    s.deadlineReached w = s := if_neg fun ⟨hs, hd⟩ => h.elim (· hs) (Nat.not_lt.2 hd)

/-- R104: a grace end that is due is an alarm from a missed check-in. -/
theorem State.graceEndReached_due (hs : (s.watch w).state = .prompted) (hd : (s.watch w).graceEnd ≤ s.clock) :
    s.graceEndReached w = s.enterAlarm w (s.missedReason w) (s.worker w).aboard := if_pos ⟨hs, hd⟩

theorem State.graceEndReached_early (h : (s.watch w).state ≠ .prompted ∨ s.clock < (s.watch w).graceEnd) :
    s.graceEndReached w = s := if_neg fun ⟨hs, hd⟩ => h.elim (· hs) (Nat.not_lt.2 hd)

/-- R32, R101: what a prompt changes. -/
theorem State.promptAdded_spec :
    let v := s.promptAdded w
    (v.watch w) = { s.watch w with
      state := .prompted, graceEnd := min (s.clock + (s.watch w).grace) 4294967295, prompt := .queued } ∧
    (∀ i, i ≠ w → v.watch i = s.watch i) ∧
    (∀ i, (s.worker w).aboard = some i → (s.list i).present (.prompt (s.worker w).badge) = false →
      v.list i = { s.list i with
        cells := insertEntry s.ageCounter { cell := .prompt (s.worker w).badge, age := s.ageCounter } (s.list i).cells } ∧
      v.ageCounter = s.ageCounter + 1) ∧
    (∀ i, (s.worker w).aboard = some i → (s.list i).present (.prompt (s.worker w).badge) = true →
      v.list i = s.list i ∧ v.ageCounter = s.ageCounter) ∧
    ((s.worker w).aboard = none → v.ageCounter = s.ageCounter) ∧
    (∀ i, (s.worker w).aboard ≠ some i → v.list i = s.list i) ∧
    v = { s with watches := v.watches, lists := v.lists, ageCounter := v.ageCounter } := by
  intro v
  obtain ⟨hadded, hpresent, hnone, hother, hframe⟩ :=
    (s.setWatch w ((s.watch w).prompted s.clock)).toTruckOf_spec w (.prompt (s.worker w).badge)
  change v = _ at hframe
  have hwatches : v.watches = (s.setWatch w ((s.watch w).prompted s.clock)).watches := by rw [hframe]
  refine ⟨?_, fun i hi => ?_, hadded, hpresent, hnone, hother, ?_⟩
  · rw [State.watch, hwatches]
    exact State.setWatch_watch_same _ _ _
  · rw [State.watch, hwatches]
    exact State.setWatch_watch_other _ _ _ _ hi
  · rw [hwatches]
    exact hframe

/-- R67, R101: with a quiet period RUNNING, the prompt ends it. -/
theorem State.deadlineReached_quiet (hs : (s.watch w).state = .watching) (hd : (s.watch w).deadline ≤ s.clock)
    (hq : s.quiet = true) :
    s.deadlineReached w = ({ s.promptAdded w with quiet := false, lastQuietCause := .prompt }.raise
      { kind := .quietEnded, reason := 4, worker := w, value := (s.clock - s.quietStart : Nat) }) := by
  obtain ⟨-, -, -, -, -, -, hframe⟩ := State.promptAdded_spec (s := s) (w := w)
  have hrun : (s.promptAdded w).quiet = true := by rw [hframe]; exact hq
  have hran : (s.promptAdded w).clock - (s.promptAdded w).quietStart = s.clock - s.quietStart := by rw [hframe]
  rw [State.deadlineReached_due hs hd, State.endQuietPeriod_running hrun, hran]
  rfl

/-- R101: with none RUNNING, the prompt is all. -/
theorem State.deadlineReached_calm (hs : (s.watch w).state = .watching) (hd : (s.watch w).deadline ≤ s.clock)
    (hq : s.quiet = false) : s.deadlineReached w = s.promptAdded w := by
  obtain ⟨-, -, -, -, -, -, hframe⟩ := State.promptAdded_spec (s := s) (w := w)
  have hcalm : (s.promptAdded w).quiet = false := by rw [hframe]; exact hq
  rw [State.deadlineReached_due hs hd, State.endQuietPeriod_calm hcalm]

end

/-- The meaning of a deadline, published. -/
theorem exec_deadlineReached_of {s u : State} {w : Fin 192} (h : s.deadlineReached w = u) :
    exec (.deadlineReached w) s = .next (publish s u) := h ▸ rfl

/-- The meaning of a grace end, published. -/
theorem exec_graceEndReached_of {s u : State} {w : Fin 192} (h : s.graceEndReached w = u) :
    exec (.graceEndReached w) s = .next (publish s u) := h ▸ rfl

end Sys2Proof.Machine

namespace Sys2Proof.Proofs

open Sys2Proof.Machine

/-- Settles O34: each card by its branch, the end by the clock when it is due and before. -/
theorem quietPeriods : Obligations.QuietPeriods := by
  refine ⟨fun s s1 c => ⟨fun h hp => ?_, fun h hq => ?_, fun h hq => ?_, fun hq hend => ?_, fun hearly => ?_⟩,
    fun s s1 c h hp => ?_⟩
  · refine exec_answered rfl h ?_
    rw [quietCard_taken hp, quiet_answer]
    rfl
  · refine exec_answered rfl h ?_
    rw [endQuietCard, State.endQuietPeriod_running hq]
    rfl
  · refine exec_answered rfl h ?_
    rw [endQuietCard, State.endQuietPeriod_calm hq]
    rfl
  · show Host.Outcome.next (publish s s.quietExpired) = _
    rw [State.quietExpired_due hq hend, State.endQuietPeriod_running hq]
    rfl
  · show Host.Outcome.next (publish s s.quietExpired) = _
    rw [State.quietExpired_early hearly, publish_self]
  · refine exec_answered rfl h ?_
    rw [quietCard, if_pos (State.anyPrompted_iff.2 hp)]
    rfl

/-- Settles O35: the timer events when due and before; CHECK IN by the state of the watch; a PANIC or MAN DOWN cell by the quiet
period, the worker's watch and the sender's alarm field. -/
theorem watchTimers : Obligations.WatchTimers := by
  refine ⟨fun s w => ⟨fun hs hd => ?_, fun hearly => ?_⟩, fun s w => ⟨fun hs hd => ?_, fun hearly => ?_⟩,
    fun s t badge => ⟨State.checkIn_unknown, fun w hw => ?_⟩, fun s t badge manDown => ?_⟩
  · exact ⟨s.promptAdded w, fun hq => exec_deadlineReached_of (State.deadlineReached_quiet hs hd hq),
      fun hq => exec_deadlineReached_of (State.deadlineReached_calm hs hd hq), State.promptAdded_spec⟩
  · rw [exec_deadlineReached_of (State.deadlineReached_early hearly), publish_self]
  · intro reason
    refine ⟨s.settleWatch w (.prompt (s.worker w).badge) { s.watch w with
        state := .alarm, prompt := .none, alarm := some { reason, raised := s.clock, via := (s.worker w).aboard } },
      exec_graceEndReached_of ?_, s.settleWatch_watch _ _ _, fun i => s.settleWatch_watch_other _ _ _,
      fun i => s.settleWatch_list _ _ _, fun i => s.settleWatch_list_other _ _ _, s.settleWatch_frame _ _ _⟩
    rw [State.graceEndReached_due hs hd, State.enterAlarm_eq, State.missedReason_eq]
  · rw [exec_graceEndReached_of (State.graceEndReached_early hearly), publish_self]
  · intro v due sets answered
    have hsettled (m : Watch) : answered (s.settleWatch w (.prompt (s.worker w).badge) m) :=
      s.settleWatch_changes w (.prompt (s.worker w).badge) m
    refine ⟨fun hs => State.checkIn_off hw hs, fun hs => State.checkIn_watching hw hs, fun hs hm => ?_, fun hs hm => ?_,
      fun hs hm => ?_, fun a hs ha => ⟨fun hl => ?_, fun hl => ?_⟩⟩
    · exact ⟨_, State.checkIn_continuous hw hs hm, hsettled _, s.settleWatch_watch _ _ _⟩
    · exact ⟨_, (State.checkIn_single hw hs (.inl hm)).trans (if_neg (by rw [hm]; decide)), hsettled _,
        s.settleWatch_watch _ _ _⟩
    · exact ⟨_, (State.checkIn_single hw hs (.inr hm)).trans (if_pos hm), hsettled _, s.settleWatch_watch _ _ _⟩
    · exact (State.checkIn_late hw hs ha).trans (if_pos hl)
    · exact (State.checkIn_late hw hs ha).trans (if_neg (by simp [hl]))
  · intro cell reason
    have hcell (u : State) : u.routeCell t cell = u.alarmCell t badge manDown := State.routeCell_alarm
    refine ⟨fun hq => ?_, fun w hq hw => ?_, fun hq hw => ?_⟩
    · rw [hcell, hcell, State.alarmCell_quiet hq]
    · intro v fresh told alarmed
      have hsettled (gone : DownCell) (m : Watch) : alarmed ((s.settleWatch w gone m).afterAlarm w told) gone m := by
        obtain ⟨hlist, hother, hwatch, hframe⟩ := s.settleWatch_changes w gone m
        exact ⟨_, rfl, s.settleWatch_watch w gone m, hwatch, hlist, hother, hframe⟩
      refine ⟨fun hna hnk => ?_, fun a hs ha => ⟨fun hr => ⟨State.cellRecord_same hs ha hw hr, ?_⟩, fun hr => ?_⟩⟩
      · rw [hcell, State.alarmCell_new hq hw hna hnk]
        exact hsettled _ _
      · exact (hcell s).trans (State.alarmCell_same hs ha hq hw hr)
      · rw [hcell, State.alarmCell_other hs ha hq hw hr]
        exact hsettled _ _
    · intro sets told
      have hfield := (hcell s).trans (State.alarmCell_unknown hq hw)
      refine ⟨fun hn => ?_, fun a ha => ⟨fun hb hm => ?_, fun hne hack => ?_, fun hne hack => ?_⟩⟩
      · exact hfield.trans (State.truckAlarmCell_new hn)
      · exact hfield.trans (State.truckAlarmCell_repeat ha hb hm)
      · rw [hfield, State.truckAlarmCell_renew ha hne, if_neg (by simp [hack])]
        rfl
      · rw [hfield, State.truckAlarmCell_renew ha hne, if_pos hack, State.withdrawA]
        simp only [ne_eq, decide_not]
        rfl

end Sys2Proof.Proofs
end
